-- ==== Sys2Proof/Word.lean ====
section
/-! DEFINITION. The plain words of the manual: bytes, the index ranges of slots, sections and phases, the bitmaps of slots
and sections, and tables of a fixed number of like things held as lists (00_scope.md, Conventions). -/

namespace Sys2Proof

/-- One byte of the control link or of a process port. -/
abbrev Byte := BitVec 8

/-- A bay slot, 0 to 25. -/
abbrev Slot := Fin 26

/-- A busbar section: 0 = A1, 1 = B1, 2 = A2, 3 = B2. -/
abbrev Bus := Fin 4

/-- A phase: 0 = L1, 1 = L2, 2 = L3. -/
abbrev Phase := Fin 3

/-- A set of bay slots: bit b stands for slot b. -/
abbrev Bitmap := BitVec 26

/-- A set of sections: bit s stands for section s. -/
abbrev BusSet := BitVec 4

/-- A fixed number of like things, in index order. -/
structure Table (n : Nat) (α : Type) where
  cells : List α
  size : cells.length = n
deriving DecidableEq, Repr

/-- The thing at index i. -/
def Table.get {n : Nat} {α : Type} (t : Table n α) (i : Fin n) : α :=
  t.cells.get (i.cast t.size.symm)

/-- The table whose thing at index i is f i. -/
def Table.build {n : Nat} {α : Type} (f : Fin n → α) : Table n α :=
  ⟨List.ofFn f, List.length_ofFn⟩

/-- The table that holds the same thing everywhere. -/
def Table.fill {α : Type} (n : Nat) (a : α) : Table n α :=
  ⟨List.replicate n a, List.length_replicate⟩

/-- The table with the thing at index i replaced. -/
def Table.set {n : Nat} {α : Type} (t : Table n α) (i : Fin n) (a : α) : Table n α :=
  ⟨t.cells.set i.val a, by rw [List.length_set, t.size]⟩

/-- The table with the thing at index i changed by f. -/
def Table.modify {n : Nat} {α : Type} (t : Table n α) (i : Fin n) (f : α → α) : Table n α :=
  t.set i (f (t.get i))

/-- The table with every thing changed by f. -/
def Table.map {n : Nat} {α β : Type} (f : α → β) (t : Table n α) : Table n β :=
  ⟨t.cells.map f, by rw [List.length_map, t.size]⟩

/-- A new thing enters at index 0, every other moves one deeper and the last is dropped. -/
def Table.push {n : Nat} {α : Type} (t : Table n α) (a : α) : Table n α :=
  ⟨(a :: t.cells).take n, by rw [List.length_take, List.length_cons, t.size]; omega⟩

/-- The thing at index 0 leaves, every other moves one nearer and a new thing enters at the last index. -/
def Table.shift {n : Nat} {α : Type} (t : Table n α) (a : α) : Table n α :=
  ⟨(t.cells ++ [a]).drop 1, by rw [List.length_drop, List.length_append, t.size]; rfl⟩

end Sys2Proof
end

