-- ==== Sys2Proof/Config.lean ====
section
/-! DEFINITION. What the device fixes: the numbers that no setting changes. The manual leaves no result of a command open, so
there is no free value here. -/

namespace Sys2Proof.Config

/-- Part code of the Mazwen 26B (11_frame_and_record_layouts.md, R184). -/
def partCode : Nat := 0x4D26

/-- Design revision (10_control_link_modes_and_notices.md, R170). -/
def designRevision : Nat := 1

/-- A counter of frames or events stops here (00_scope.md, Counters; R42, R168). -/
def counterMax : Nat := 65535

/-- The silence count at which a port is DOWN (R20). -/
def silenceMax : Nat := 24

/-- Samples in a row that end LOST (R39), and the stop of the count of sets since substitution (R41). -/
def recoverySets : Nat := 24

/-- The stop of a travel count (R51). -/
def travelMax : Nat := 24000

/-- The stop of an invalid count, at which its cause is present (R52, R54). -/
def invalidMax : Nat := 3

/-- The stop of an open-settle count (R53). -/
def openSettleMax : Nat := 48

/-- The stop of a CT supervision count (R141). -/
def ctMax : Nat := 12000

/-- Requests the request queue holds, and replies the reply queue holds (R168). -/
def queueMax : Nat := 4

/-- Records the stack holds (R158). -/
def stackMax : Nat := 8

/-- The stop of the overwrite count (R158). -/
def overwriteMax : Nat := 255

/-- The longest payload of a control link frame (R183). -/
def payloadMax : Nat := 1024

/-- SYNC byte of a control link frame (R183). -/
def syncByte : Byte := 0xC3

/-- Frame type of a bay frame (R186). -/
def bayFrameType : Byte := 0xB1

/-- Frame type of a trip frame (R186). -/
def tripFrameType : Byte := 0xB2

end Sys2Proof.Config
end

