-- ==== Sys2Proof/Syntax.lean ====
section
/-! DEFINITION. The commands: one constructor for each row of spec/opcode_table.json, with what the row carries from outside. -/

namespace Sys2Proof

/-- A process port (00_scope.md, Connections). -/
inductive Port where
  | x
  | y
deriving DecidableEq, Repr

/-- A notice class with a moderation timer (R180). -/
inductive Moderated where
  | alarm
  | topology
deriving DecidableEq, Repr

/-- One of the fifteen external fault detectors (R105). -/
inductive DetectorName where
  | bus (s : Bus) (p : Phase)
  | check (p : Phase)
deriving DecidableEq, Repr

/-- A ring entry whose stored parity no longer agrees with it: the slot and the depth at which it stands (R34; log 6). -/
structure Upset where
  slot : Slot
  depth : Fin 32
deriving DecidableEq, Repr

/-- The moment at which REFCLK is reported absent: how many stages of a set in evaluation have acted by then (R155; log 9), and
whether TIMER_FAULT is taken before a STORE_PARITY reported at the same moment (R153; log 34). -/
structure ClockReport where
  acted : Fin 5
  clockFirst : Bool
deriving DecidableEq, Repr

/-- The commands of the block, in the order of the table. -/
inductive Instr where
  /-- RESET asserted and released, or power-on, with the levels of the two straps (R178, R166). -/
  | hardReset (rate1 rate0 : Bool)
  /-- The reference clock monitor reports REFCLK absent, at this moment of the other blocks' work (R29, R153, R155). -/
  | refclkAbsent (moment : ClockReport)
  /-- A nominal set instant (R27). -/
  | setInstant
  /-- The nominal set instant at which the sample count wraps (R27). -/
  | sampleCountWrap
  /-- The nominal set instant at which a port goes DOWN (R20). -/
  | linkDown (port : Port)
  /-- A frame received whole on a port, as the bytes between two delimiters (R19, R186). -/
  | portFrameReceived (port : Port) (frame : List Byte)
  /-- A port finishes a trip frame on the fibre (R21). -/
  | tripFrameSent (port : Port)
  /-- The close of set c0, after the ring entries named were upset (R33, R34). -/
  | setClose (upsets : List Upset)
  /-- The evaluation of the set in evaluation, after the ring entries named were upset (R86, R34). -/
  | evaluateSet (upsets : List Upset)
  /-- The evaluation in which a detector's hold count runs out (R110). -/
  | externalHoldExpiry (detector : DetectorName)
  /-- The evaluation in which a breaker failure timer's countdown reaches 0 (R135). -/
  | bfTimerExpiry (slot : Slot)
  /-- The nominal set instant at which a moderation timer reaches 0 (R180). -/
  | moderationTimerExpiry (cls : Moderated)
  /-- A byte received on the control link, with its stop bit low (in error) or not (R166, R167). -/
  | controlByteReceived (byte : Byte) (inError : Bool)
  /-- 1 ms passes without the next byte of a frame (R167). -/
  | gapTimeout
  /-- The transmitter finishes a frame (R182). -/
  | frameTransmitted
  /-- Service of a request whose KIND names no request (R169). -/
  | unknownKindRequest (kind tag : Byte) (payload : List Byte)
  /-- Service of IDENT, KIND 0x01 (R170). -/
  | ident (tag : Byte) (payload : List Byte)
  /-- Service of MODE, KIND 0x02 (R173). -/
  | mode (tag : Byte) (payload : List Byte)
  /-- Service of RESTART, KIND 0x03 (R177). -/
  | restart (tag : Byte) (payload : List Byte)
  /-- The restart is made (R177). -/
  | restartMade
  /-- Service of STREAM-SET, KIND 0x10 (R23). -/
  | streamSet (tag : Byte) (payload : List Byte)
  /-- Service of STREAM-DROP, KIND 0x11 (R24). -/
  | streamDrop (tag : Byte) (payload : List Byte)
  /-- Service of STREAM-LIST, KIND 0x12 (R25). -/
  | streamList (tag : Byte) (payload : List Byte)
  /-- Service of BAY-SET, KIND 0x14 (R6, R7). -/
  | baySet (tag : Byte) (payload : List Byte)
  /-- Service of BAY-GET, KIND 0x15 (R8). -/
  | bayGet (tag : Byte) (payload : List Byte)
  /-- Service of YARD-SET, KIND 0x16 (R2). -/
  | yardSet (tag : Byte) (payload : List Byte)
  /-- Service of YARD-GET, KIND 0x17 (R3). -/
  | yardGet (tag : Byte) (payload : List Byte)
  /-- Service of BANK-WRITE, KIND 0x20 (R13). -/
  | bankWrite (tag : Byte) (payload : List Byte)
  /-- Service of BANK-READ, KIND 0x21 (R14). -/
  | bankRead (tag : Byte) (payload : List Byte)
  /-- Service of BANK-APPLY, KIND 0x22 (R15, R16). -/
  | bankApply (tag : Byte) (payload : List Byte)
  /-- Service of RESPONSE-SET, KIND 0x24 (R146). -/
  | responseSet (tag : Byte) (payload : List Byte)
  /-- Service of RESPONSE-GET, KIND 0x25 (R146). -/
  | responseGet (tag : Byte) (payload : List Byte)
  /-- Service of STATUS, KIND 0x30 (R171). -/
  | status (tag : Byte) (payload : List Byte)
  /-- Service of TOPOLOGY, KIND 0x31 (R75). -/
  | topology (tag : Byte) (payload : List Byte)
  /-- Service of MEASURE, KIND 0x32 (R103). -/
  | measure (tag : Byte) (payload : List Byte)
  /-- Service of POSITIONS, KIND 0x33 (R58). -/
  | positions (tag : Byte) (payload : List Byte)
  /-- Service of COUNTERS, KIND 0x34 (R42). -/
  | counters (tag : Byte) (payload : List Byte)
  /-- Service of RECORD-READ, KIND 0x38 (R162). -/
  | recordRead (tag : Byte) (payload : List Byte)
  /-- Service of RECORD-DISCARD, KIND 0x39 (R163). -/
  | recordDiscard (tag : Byte) (payload : List Byte)
  /-- Service of TRIP-CLEAR, KIND 0x40 (R127, R128). -/
  | tripClear (tag : Byte) (payload : List Byte)
  /-- Service of ALARM-CLEAR, KIND 0x41 (R151). -/
  | alarmClear (tag : Byte) (payload : List Byte)
  /-- Service of ZONE-BLOCK, KIND 0x42 (R150). -/
  | zoneBlock (tag : Byte) (payload : List Byte)
  /-- Service of FORCE, KIND 0x44 (R49). -/
  | force (tag : Byte) (payload : List Byte)
  /-- Service of NOTICE-SET, KIND 0x48 (R181). -/
  | noticeSet (tag : Byte) (payload : List Byte)
  /-- Service of SETTLE, KIND 0x4F (R176). -/
  | settle (tag : Byte) (payload : List Byte)
deriving DecidableEq, Repr

end Sys2Proof
end

