-- ==== Sys2Proof/Decode.lean ====
section
/-! DEFINITION. The byte layer of 11_frame_and_record_layouts.md: big-endian fields, the two CRCs, the control link envelope,
the table of request payload lengths, bay frames and trip frames; and decodeTableWord, which answers none because no row of the
command table has bits. -/

namespace Sys2Proof

/-- No row of spec/opcode_table.json has fixed bits or fields, so no word spells a command. -/
def decodeTableWord (_nbits _w : Nat) : Option Instr :=
  none

/-- The unsigned value of bytes sent most significant first (00_scope.md, Byte order). -/
def natOfBytes (bs : List Byte) : Nat :=
  bs.foldl (fun n b => n * 256 + b.toNat) 0

/-- A one-byte field. -/
def u8 (n : Nat) : List Byte :=
  [BitVec.ofNat 8 n]

/-- A two-byte field, most significant byte first. -/
def u16 (n : Nat) : List Byte :=
  [BitVec.ofNat 8 (n / 256), BitVec.ofNat 8 n]

/-- A four-byte field, most significant byte first. -/
def u32 (n : Nat) : List Byte :=
  [BitVec.ofNat 8 (n / 16777216), BitVec.ofNat 8 (n / 65536), BitVec.ofNat 8 (n / 256), BitVec.ofNat 8 n]

/-- A four-byte two's complement field (R183). -/
def i32 (v : Int) : List Byte :=
  u32 (BitVec.ofInt 32 v).toNat

/-- A flag byte: 0 no, 1 yes (R183). -/
def flagByte (b : Bool) : List Byte :=
  u8 b.toNat

/-- One bit of a CRC with the most significant bit first. -/
def crc16Bit (c : BitVec 16) : BitVec 16 :=
  if c.msb then (c <<< 1) ^^^ 0x1021 else c <<< 1

/-- One byte of the CRC-16 of R183. -/
def crc16Byte (c : BitVec 16) (b : Byte) : BitVec 16 :=
  (List.range 8).foldl (fun c _ => crc16Bit c) (c ^^^ (b.zeroExtend 16 <<< 8))

/-- The CRC-16 of R183: polynomial 0x1021, start 0xFFFF, neither reflected nor inverted. -/
def crc16 (bs : List Byte) : BitVec 16 :=
  bs.foldl crc16Byte 0xFFFF

/-- One bit of the reflected CRC-32; 0xEDB88320 is 0x04C11DB7 with its bits in reverse order. -/
def crc32Bit (c : BitVec 32) : BitVec 32 :=
  if c.getLsbD 0 then (c >>> 1) ^^^ 0xEDB88320 else c >>> 1

/-- One byte of the CRC-32 of R186. -/
def crc32Byte (c : BitVec 32) (b : Byte) : BitVec 32 :=
  (List.range 8).foldl (fun c _ => crc32Bit c) (c ^^^ b.zeroExtend 32)

/-- The CRC-32 of R186: polynomial 0x04C11DB7, input and output reflected, start 0xFFFFFFFF, inverted at the end. -/
def crc32 (bs : List Byte) : BitVec 32 :=
  ~~~ (bs.foldl crc32Byte 0xFFFFFFFF)

/-- A control link frame, from SYNC to the CRC (R183). -/
def controlFrame (kind tag : Byte) (payload : List Byte) : List Byte :=
  let body := u16 payload.length ++ [kind, tag] ++ payload
  Config.syncByte :: (body ++ u16 (crc16 body).toNat)

/-- One row of the request table: KIND, payload length, whether it is served in HALTED (R169, R184). -/
structure RequestRow where
  kind : Byte
  length : Nat
  inHalted : Bool
deriving DecidableEq, Repr

/-- The requests of R169 with the payload lengths of R184. -/
def requestTable : List RequestRow :=
  [⟨0x01, 0, true⟩, ⟨0x02, 1, false⟩, ⟨0x03, 0, false⟩,
   ⟨0x10, 8, false⟩, ⟨0x11, 1, false⟩, ⟨0x12, 0, false⟩, ⟨0x14, 8, false⟩, ⟨0x15, 1, false⟩,
   ⟨0x16, 3, false⟩, ⟨0x17, 0, false⟩,
   ⟨0x20, 6, false⟩, ⟨0x21, 3, false⟩, ⟨0x22, 0, false⟩, ⟨0x24, 3, false⟩, ⟨0x25, 1, false⟩,
   ⟨0x30, 1, true⟩, ⟨0x31, 0, false⟩, ⟨0x32, 0, false⟩, ⟨0x33, 0, false⟩, ⟨0x34, 1, true⟩,
   ⟨0x38, 1, true⟩, ⟨0x39, 0, true⟩,
   ⟨0x40, 1, false⟩, ⟨0x41, 2, false⟩, ⟨0x42, 2, false⟩, ⟨0x44, 3, false⟩, ⟨0x48, 4, false⟩, ⟨0x4F, 0, false⟩]

/-- The row of a KIND, if it names a request. -/
def requestRow (kind : Byte) : Option RequestRow :=
  requestTable.find? (fun r => r.kind = kind)

/-- The KIND of the reply to a request: plus 0x80, or 0xFF for a KIND of 0x80 or above (R169). -/
def replyKind (kind : Byte) : Byte :=
  if kind.toNat < 0x80 then kind + 0x80 else 0xFF

/-- The fields of a bay frame (R18, R186). -/
structure BayFrame where
  identifier : BitVec 32
  count : Nat
  flags : Byte
  contacts : Byte
  currents : Table 3 (BitVec 16)
deriving DecidableEq, Repr

/-- Two bytes, most significant first, as one signed word. -/
def word16 (hi lo : Byte) : BitVec 16 :=
  BitVec.ofNat 16 (natOfBytes [hi, lo])

/-- Whether a string of bytes ends in the CRC-32 of the bytes before it; a string too short for a CRC fails it (R186; log 27). -/
def crc32Holds (frame : List Byte) : Bool :=
  decide (4 ≤ frame.length) &&
    decide (natOfBytes (frame.drop (frame.length - 4)) = (crc32 (frame.take (frame.length - 4))).toNat)

/-- The fields of a string of bytes that is 19 bytes long and begins with the bay frame type (R186). -/
def readBayFrame : List Byte → Option BayFrame
  | [t, i3, i2, i1, i0, c1, c0, flags, contacts, a1, a0, b1, b0, d1, d0, _, _, _, _] =>
    if t = Config.bayFrameType then
      some { identifier := BitVec.ofNat 32 (natOfBytes [i3, i2, i1, i0])
             count := natOfBytes [c1, c0]
             flags := flags
             contacts := contacts
             currents := ⟨[word16 a1 a0, word16 b1 b0, word16 d1 d0], rfl⟩ }
    else none
  | _ => none

/-- A trip frame: the sample count and the bitmap of one set (R125). -/
structure TripFrame where
  count : Nat
  bitmap : Bitmap
deriving DecidableEq, Repr

/-- The 11 bytes of a trip frame (R186). -/
def TripFrame.bytes (f : TripFrame) : List Byte :=
  let body := Config.tripFrameType :: (u16 f.count ++ u32 f.bitmap.toNat)
  body ++ u32 (crc32 body).toNat

end Sys2Proof
end

