-- ==== Sys2Proof/Machine/State.lean ====
section
/-! DEFINITION. The state of the device as plain data, one structure for each block of 00_scope.md, and its value right after a
hard reset. -/

namespace Sys2Proof.Machine

open Sys2Proof

/-- Why a command would stop the machine. No command of this device does: its integrity checks lead to the mode HALTED, which is
a state (R153). -/
inductive Fault
deriving DecidableEq, Repr

/-- Why a command would have no meaning. -/
inductive Refusal where
  /-- Raised by the dispatcher for a command without a meaning. No command is without one. Safe. -/
  | notModelled (mnemonic : String)
deriving DecidableEq, Repr

/-! ### Names shared by the blocks -/

/-- The three modes (R172). -/
inductive Mode where
  | setup
  | run
  | halted
deriving DecidableEq, Repr

/-- A second count and a sample count (00_scope.md, Second count). -/
structure Stamp where
  second : Nat
  count : Nat
deriving DecidableEq, Repr

/-- SECTIONS (R1). -/
inductive SectionCount where
  | two
  | four
deriving DecidableEq, Repr

/-- FREQUENCY (R1). -/
inductive Frequency where
  | hz50
  | hz60
deriving DecidableEq, Repr

/-- The side of a feeder (R4). -/
inductive Side where
  | one
  | two
deriving DecidableEq, Repr

/-- The four junctions (R4). -/
inductive Junction where
  | coupler1
  | coupler2
  | sectionA
  | sectionB
deriving DecidableEq, Repr

/-- What a bay slot is (R5). A junction's ct_section is the second of its two sections when `ctSecond` holds, else the first. -/
inductive BayKind where
  | unused
  | feeder (side : Side)
  | junction (kind : Junction) (ctSecond : Bool)
deriving DecidableEq, Repr

/-- The sense in which a bay unit reports its current (R9). -/
inductive Polarity where
  | plus
  | minus
deriving DecidableEq, Repr

/-- The record of a bay slot (R5). -/
structure BayRecord where
  kind : BayKind
  polarity : Polarity
  ratio : Nat
deriving DecidableEq, Repr

/-- The three yard settings (R1). -/
structure Yard where
  sections : SectionCount
  frequency : Frequency
  alignDelay : Nat
deriving DecidableEq, Repr

/-- RELEASE_MODE of a section (R12). -/
inductive ReleaseMode where
  | checked
  | unchecked
deriving DecidableEq, Repr

/-- A setting bank (R12). -/
structure Bank where
  zoneIdmin : Nat
  zoneSlope : Nat
  zoneSlopeHigh : Nat
  zoneOperateSets : Nat
  checkIdmin : Nat
  checkSlope : Nat
  checkSlopeHigh : Nat
  checkOperateSets : Nat
  extRestraint : Nat
  extRatio : Nat
  extHold : Nat
  supIdmin : Nat
  supSets : Nat
  releaseMode : Table 4 ReleaseMode
  bfCurrent : Table 26 Nat
  bfSets : Table 26 Nat
  travelSets : Nat
  openSettleSets : Nat
deriving DecidableEq, Repr

/-! ### Sample timer and lines -/

/-- The sample timer (R27): RUNNING or STOPPED, the sample count, the second count, and the length in REFCLK periods of the set
period that began at the latest nominal instant. -/
structure SampleTimer where
  running : Bool
  count : Nat
  second : Nat
  period : Nat
deriving DecidableEq, Repr

/-- The output lines: HEALTHY (R172), SYNC (R28: a pulse was started at the latest nominal instant), TRIP0 to TRIP3 (R126).
The lengths of pulses and of frames are left out (log 12). -/
structure Lines where
  healthy : Bool
  sync : Bool
  trip : Table 4 Bool
deriving DecidableEq, Repr

/-! ### Process ports and stream table -/

/-- Link state of a port (R20). -/
inductive Link where
  | up
  | down
deriving DecidableEq, Repr

/-- One process port: link state and silence count (R20), the receiver's and the stream table's counters (R19, R26), the trip
frame on the fibre and the one waiting (R21). -/
structure PortState where
  link : Link
  silence : Nat
  valid : Nat
  badCrc : Nat
  badFormat : Nat
  unknownId : Nat
  wrongPort : Nat
  invalid : Nat
  fibre : Option (List Byte)
  waiting : Option TripFrame
deriving DecidableEq, Repr

/-- Ports X and Y. -/
structure Ports where
  x : PortState
  y : PortState
deriving DecidableEq, Repr

/-- From which ports a stream is accepted (R22). -/
inductive Admit where
  | x
  | y
  | either
deriving DecidableEq, Repr

/-- The counters of a stream entry (R22). -/
structure StreamCounters where
  taken : Nat
  duplicate : Nat
  late : Nat
  early : Nat
  substituted : Nat
  overrange : Nat
deriving DecidableEq, Repr

/-- A non-empty stream-table entry (R22). -/
structure StreamEntry where
  identifier : BitVec 32
  slot : Slot
  admitted : Admit
  enabled : Bool
  counters : StreamCounters
deriving DecidableEq, Repr

/-! ### Alignment store -/

/-- A contact pair as received: 1 meaning made (R44). -/
structure ContactPair where
  closed : Bool
  opened : Bool
deriving DecidableEq, Repr

/-- The three contact pairs of a bay (R18). -/
structure Contacts where
  isoA : ContactPair
  isoB : ContactPair
  breaker : ContactPair
deriving DecidableEq, Repr

/-- A sample as held by an open set (R31). -/
structure Sample where
  currents : Table 3 (BitVec 16)
  contacts : Contacts
  bfStart : Bool
deriving DecidableEq, Repr

/-- The mark of a ring entry (R34). -/
inductive RingMark where
  | present
  | substituted
  | zero
deriving DecidableEq, Repr

/-- A ring entry: three scaled currents, the mark, and whether a read of it finds its parity in mismatch (R34; log 6). -/
structure RingEntry where
  currents : Table 3 Int
  mark : RingMark
  mismatch : Bool
deriving DecidableEq, Repr

/-- What the alignment store keeps for a slot (R34 to R41). -/
structure BayStore where
  ring : Table 32 RingEntry
  gap : Nat
  recovery : Nat
  lost : Bool
  bfStart : Bool
  sinceSub : Nat
deriving DecidableEq, Repr

/-- The alignment store (R31, R34): the oldest count not yet closed, the cells of the eight open sets (index 0 is the set for
c0), the slots, and the stamp of the last set closed (R171). -/
structure Store where
  c0 : Nat
  cells : Table 8 (Table 26 (Option Sample))
  slots : Table 26 BayStore
  lastClosed : Option Stamp
deriving DecidableEq, Repr

/-- A set published and not yet evaluated (R40): its stamp, the contact pairs and BF-start it carries for each slot, and whether
the mode was RUN when its close was taken (R174). -/
structure Published where
  stamp : Stamp
  contacts : Table 26 (Option Contacts)
  bfStart : Table 26 Bool
  runAtClose : Bool
deriving DecidableEq, Repr

/-! ### Position replica -/

/-- The state of a position (R44). -/
inductive Position where
  | closed
  | opened
  | travel
  | invalid
  | noData
deriving DecidableEq, Repr

/-- A forced value (R49). -/
inductive Forced where
  | none
  | closed
  | opened
deriving DecidableEq, Repr

/-- The replica's state for one slot (R44 to R58): the three positions, received or held, the stored forced values, the zoning
positions and the exclusion applied, the counts, and the causes handed on. -/
structure SlotPositions where
  isoA : Position
  isoB : Position
  breaker : Position
  received : Bool
  forcedA : Forced
  forcedB : Forced
  closedA : Bool
  closedB : Bool
  excluded : Bool
  travelA : Nat
  travelB : Nat
  invalidA : Nat
  invalidB : Nat
  openSettle : Nat
  invalidBreaker : Nat
  causeTravel : Bool
  causeInvalid : Bool
  causeForced : Bool
  causeBreaker : Bool
deriving DecidableEq, Repr

/-- The position replica, with the set whose positions are in force (R58). -/
structure Replica where
  slots : Table 26 SlotPositions
  stamp : Option Stamp
deriving DecidableEq, Repr

/-! ### Zone assembler -/

/-- An entry of a member list (R65): `minus` is a sign of -1. -/
structure Member where
  slot : Slot
  minus : Bool
deriving DecidableEq, Repr

/-- A zone (R62, R65, R68): its name, its section set, its member list and whether it is changed. -/
structure Zone where
  name : Bus
  buses : BusSet
  members : List Member
  changed : Bool
deriving DecidableEq, Repr

/-- The role of a junction (R64). -/
inductive Role where
  | member
  | internal
  | excluded
  | outOfUse
deriving DecidableEq, Repr

/-- The zone assembler's results for a set (R67, R73). -/
structure Topology where
  stamp : Stamp
  sections : SectionCount
  zones : List Zone
  marks : Table 4 Bool
  checkMembers : List Member
  checkChanged : Bool
  scopes : Table 4 Bitmap
  connected : Table 26 BusSet
  roles : Table 26 (Option Role)
deriving DecidableEq, Repr

/-! ### Differential evaluator and external fault detector -/

/-- The state of a detector (R105). -/
inductive DetectorState where
  | quiet
  | watch
  | external
  | settle
deriving DecidableEq, Repr

/-- A detector (R105). -/
structure Detector where
  state : DetectorState
  hold : Nat
deriving DecidableEq, Repr

/-- The detectors of each section and phase and of each check zone phase (R105). -/
structure Detectors where
  zones : Table 4 (Table 3 Detector)
  check : Table 3 Detector
deriving DecidableEq, Repr

/-- The evaluator's results for one phase of a zone or of the check zone (R102): d and r of the newest stored set, D, R, whether C
held, whether the high slope was used, the detector state, the operate counter after the update of the set, whether it operates,
whether it is suspect. -/
structure PhaseResult where
  setDiff : Int
  setRestraint : Nat
  diff : Nat
  restraint : Nat
  held : Bool
  highSlope : Bool
  detector : DetectorState
  counter : Nat
  operates : Bool
  suspect : Bool
deriving DecidableEq, Repr

/-- The results of a zone (R102). -/
structure ZoneResult where
  name : Bus
  buses : BusSet
  phases : Table 3 PhaseResult
deriving DecidableEq, Repr

/-- The results of a bay slot in use (R98, R99, R102): the entry read at depth 0, b_cur, and current present or absent. -/
structure BayResult where
  currents : Table 3 Int
  mark : RingMark
  current : Nat
  present : Bool
deriving DecidableEq, Repr

/-- The evaluator's results of the set in force (R102). -/
structure Results where
  stamp : Stamp
  zones : List ZoneResult
  check : Table 3 PhaseResult
  bays : Table 26 (Option BayResult)
deriving DecidableEq, Repr

/-- The differential evaluator: operate counters (R90, R95) and the results held (R102). -/
structure Evaluator where
  operate : Table 4 (Table 3 Nat)
  checkOperate : Table 3 Nat
  results : Option Results
deriving DecidableEq, Repr

/-! ### Supervision unit -/

/-- The nine condition codes, in order (R140). -/
inductive Code where
  | streamLost
  | streamGap
  | zoneCtSuspect
  | checkCtSuspect
  | isolatorTravel
  | isolatorInvalid
  | breakerInvalid
  | positionForced
  | portSilent
deriving DecidableEq, Repr

/-- The scope of a condition (R139). -/
inductive Scope where
  | bay (b : Slot)
  | bus (s : Bus)
  | check
  | port (p : Port)
deriving DecidableEq, Repr

/-- A set of sections and a check zone mark (R139, R144). -/
structure Reach where
  buses : BusSet
  check : Bool
deriving DecidableEq, Repr

/-- An entry of the condition table (R139). A latched entry carries its captured scope; one that is not latched carries none. -/
structure Condition where
  code : Code
  scope : Scope
  active : Bool
  latched : Option Reach
  onset : Stamp
deriving DecidableEq, Repr

/-- A response level (R145). -/
inductive Level where
  | none
  | alarm
  | blockZone
  | blockAll
deriving DecidableEq, Repr

/-- The response to a code (R145). -/
structure Response where
  level : Level
  latch : Bool
deriving DecidableEq, Repr

/-- The two integrity checks (R153). -/
inductive IntegrityCheck where
  | storeParity
  | timerFault
deriving DecidableEq, Repr

/-- The supervision unit (R139, R141, R145, R149, R150, R153). -/
structure Supervision where
  conditions : List Condition
  responses : Table 9 Response
  ctCounts : Table 4 (Table 3 Nat)
  checkCt : Table 3 Nat
  hostBlocks : Table 4 Bool
  blockFlags : Table 4 Bool
  checkBlocked : Bool
  haltCode : Option IntegrityCheck
  storeParity : Bool
  timerFault : Bool
deriving DecidableEq, Repr

/-! ### Trip logic, breaker failure timers, record stack -/

/-- Trip logic (R121, R124, R135): latches, captured trip sets, the trip bitmap of the set in force. -/
structure TripLogic where
  tripLatch : Table 4 Bool
  backtripLatch : Table 4 Bool
  captured : Table 4 Bitmap
  bitmap : Bitmap
deriving DecidableEq, Repr

/-- The state of a breaker failure timer (R131). -/
inductive BfState where
  | idle
  | timing
  | expired
deriving DecidableEq, Repr

/-- A breaker failure timer (R131). -/
structure BfTimer where
  state : BfState
  countdown : Nat
  currentAbsent : Nat
  initAbsent : Nat
deriving DecidableEq, Repr

/-- The zone phase data of a ZONE_TRIP record (R159). -/
structure PhaseRecord where
  diff : Nat
  restraint : Nat
  detector : DetectorState
deriving DecidableEq, Repr

/-- The check zone phase data of a ZONE_TRIP record (R159). -/
structure CheckRecord where
  diff : Nat
  restraint : Nat
deriving DecidableEq, Repr

/-- A ZONE_TRIP record (R159): the check zone data are present when the release mode applied is CHECKED. -/
structure ZoneTripRecord where
  stamp : Stamp
  buses : BusSet
  release : ReleaseMode
  released : Table 3 Bool
  phases : Table 3 PhaseRecord
  check : Option (Table 3 CheckRecord)
  bitmap : Bitmap
deriving DecidableEq, Repr

/-- A BACKTRIP record (R160). -/
structure BacktripRecord where
  stamp : Stamp
  bay : Slot
  current : Nat
  buses : BusSet
  bitmap : Bitmap
deriving DecidableEq, Repr

/-- A record of the stack (R158). -/
inductive TripRecord where
  | zoneTrip (r : ZoneTripRecord)
  | backtrip (r : BacktripRecord)
deriving DecidableEq, Repr

/-- The record stack, newest first, with its overwrite count (R158). -/
structure RecordStack where
  stack : List TripRecord
  overwrites : Nat
deriving DecidableEq, Repr

/-! ### Control link interface -/

/-- The receive framer with the bytes it has kept after SYNC (R167). -/
inductive Framer where
  | hunt
  | header (got : List Byte)
  | body (got : List Byte)
deriving DecidableEq, Repr

/-- A request: KIND, TAG and payload (R168). -/
structure Request where
  kind : Byte
  tag : Byte
  payload : List Byte
deriving DecidableEq, Repr

/-- What keeps the head request in flight (R168): BANK-APPLY in RUN (R16), MODE to a target (R173), SETTLE with whether the set
it waits for has been closed (R176), RESTART until the restart is made (R177). -/
inductive Flight where
  | bankApply
  | mode (toRun : Bool)
  | settle (closed : Bool)
  | restart
deriving DecidableEq, Repr

/-- A reply (R169): its payload begins with the status code. `ofRestart` marks the DONE reply of a RESTART (R177). -/
structure Reply where
  kind : Byte
  tag : Byte
  payload : List Byte
  ofRestart : Bool
deriving DecidableEq, Repr

/-- The frame on the transmit line (R182): its bytes, and whether it is the DONE reply of a RESTART
(log 29: what is received beyond the line is outside). -/
structure TxFrame where
  bytes : List Byte
  ofRestart : Bool
deriving DecidableEq, Repr

/-- One slot for each notice class, empty or with the payload of a built notice (R179). -/
structure NoticeSlots where
  halt : Option (List Byte)
  trip : Option (List Byte)
  backtrip : Option (List Byte)
  topology : Option (List Byte)
  alarm : Option (List Byte)
deriving DecidableEq, Repr

/-- A moderated notice class (R180): the timer is idle (none) or running with a remaining count. -/
structure NoticeClass where
  enabled : Bool
  interval : Nat
  timer : Option Nat
  pending : Bool
deriving DecidableEq, Repr

/-- The control link interface (R167, R168, R179, R180, R182). -/
structure ControlLink where
  framer : Framer
  requests : List Request
  flight : Option Flight
  replies : List Reply
  line : Option TxFrame
  crcErrors : Nat
  framing : Nat
  overrun : Nat
  slots : NoticeSlots
  alarm : NoticeClass
  topology : NoticeClass
deriving DecidableEq, Repr

/-! ### The device -/

/-- The whole device, with the queue of the commands that wait (log 1). Counts are unbounded numbers whose bounds are invariants
(log 25). -/
structure State where
  pending : List Instr
  mode : Mode
  lines : Lines
  rate : BitVec 2
  timer : SampleTimer
  yard : Yard
  bays : Table 26 BayRecord
  active : Bank
  edit : Bank
  ports : Ports
  streams : Table 26 (Option StreamEntry)
  store : Store
  published : Option Published
  replica : Replica
  topology : Option Topology
  evaluator : Evaluator
  detectors : Detectors
  supervision : Supervision
  trip : TripLogic
  bf : Table 26 BfTimer
  records : RecordStack
  link : ControlLink
deriving DecidableEq, Repr

/-! ### Reset values -/

/-- The setting bank after a hard reset (R12). -/
def Bank.reset : Bank where
  zoneIdmin := 500
  zoneSlope := 32
  zoneSlopeHigh := 52
  zoneOperateSets := 2
  checkIdmin := 500
  checkSlope := 16
  checkSlopeHigh := 40
  checkOperateSets := 2
  extRestraint := 5000
  extRatio := 16
  extHold := 240
  supIdmin := 50
  supSets := 2400
  releaseMode := Table.fill 4 .checked
  bfCurrent := Table.fill 26 100
  bfSets := Table.fill 26 180
  travelSets := 6000
  openSettleSets := 24

/-- A bay record after a hard reset (R5). -/
def BayRecord.reset : BayRecord where
  kind := .unused
  polarity := .plus
  ratio := 16384

/-- A port after a hard reset (R20, R42). -/
def PortState.reset : PortState where
  link := .down
  silence := 24
  valid := 0
  badCrc := 0
  badFormat := 0
  unknownId := 0
  wrongPort := 0
  invalid := 0
  fibre := none
  waiting := none

/-- Stream counters at 0 (R42). -/
def StreamCounters.zero : StreamCounters where
  taken := 0
  duplicate := 0
  late := 0
  early := 0
  substituted := 0
  overrange := 0

/-- A ring entry of zeros with mark ZERO (R34). -/
def RingEntry.zero : RingEntry where
  currents := Table.fill 3 0
  mark := .zero
  mismatch := false

/-- A slot of the alignment store after any of its resets (R43). -/
def BayStore.reset : BayStore where
  ring := Table.fill 32 RingEntry.zero
  gap := 0
  recovery := 0
  lost := false
  bfStart := false
  sinceSub := 24

/-- Eight open sets with every cell empty (R31). -/
def Store.emptyCells : Table 8 (Table 26 (Option Sample)) :=
  Table.fill 8 (Table.fill 26 none)

/-- The alignment store after a hard reset or a frequency restart (R43). -/
def Store.reset : Store where
  c0 := 0
  cells := Store.emptyCells
  slots := Table.fill 26 BayStore.reset
  lastClosed := none

/-- The replica of a slot after a hard reset (R59; log 11 for `received`, the zoning positions and `excluded`). -/
def SlotPositions.reset : SlotPositions where
  isoA := .noData
  isoB := .noData
  breaker := .noData
  received := false
  forcedA := .none
  forcedB := .none
  closedA := true
  closedB := true
  excluded := false
  travelA := 0
  travelB := 0
  invalidA := 0
  invalidB := 0
  openSettle := 0
  invalidBreaker := 0
  causeTravel := false
  causeInvalid := false
  causeForced := false
  causeBreaker := false

/-- The replica after a hard reset (R59). -/
def Replica.reset : Replica where
  slots := Table.fill 26 SlotPositions.reset
  stamp := none

/-- The evaluator after a hard reset (R92, R102). -/
def Evaluator.reset : Evaluator where
  operate := Table.fill 4 (Table.fill 3 0)
  checkOperate := Table.fill 3 0
  results := none

/-- A detector after a hard reset (R117). -/
def Detector.reset : Detector where
  state := .quiet
  hold := 0

/-- The detectors after a hard reset (R117). -/
def Detectors.reset : Detectors where
  zones := Table.fill 4 (Table.fill 3 Detector.reset)
  check := Table.fill 3 Detector.reset

/-- The response table after a hard reset (R145). -/
def Supervision.resetResponses : Table 9 Response :=
  ⟨[⟨.blockZone, false⟩, ⟨.none, false⟩, ⟨.blockZone, true⟩, ⟨.alarm, false⟩, ⟨.alarm, false⟩,
    ⟨.alarm, false⟩, ⟨.alarm, false⟩, ⟨.alarm, false⟩, ⟨.alarm, false⟩], rfl⟩

/-- The supervision unit after a hard reset (R156). -/
def Supervision.reset : Supervision where
  conditions := []
  responses := Supervision.resetResponses
  ctCounts := Table.fill 4 (Table.fill 3 0)
  checkCt := Table.fill 3 0
  hostBlocks := Table.fill 4 false
  blockFlags := Table.fill 4 false
  checkBlocked := false
  haltCode := none
  storeParity := false
  timerFault := false

/-- Trip logic after a hard reset (R130). -/
def TripLogic.reset : TripLogic where
  tripLatch := Table.fill 4 false
  backtripLatch := Table.fill 4 false
  captured := Table.fill 4 0
  bitmap := 0

/-- A breaker failure timer in IDLE (R137). -/
def BfTimer.reset : BfTimer where
  state := .idle
  countdown := 0
  currentAbsent := 0
  initAbsent := 0

/-- Every notice slot empty (R178). -/
def NoticeSlots.empty : NoticeSlots where
  halt := none
  trip := none
  backtrip := none
  topology := none
  alarm := none

/-- The control link interface after a hard reset (R178). -/
def ControlLink.reset : ControlLink where
  framer := .hunt
  requests := []
  flight := none
  replies := []
  line := none
  crcErrors := 0
  framing := 0
  overrun := 0
  slots := NoticeSlots.empty
  alarm := ⟨true, 24, none, false⟩
  topology := ⟨false, 120, none, false⟩

/-- The device right after a hard reset (R178; log 10 for the straps). -/
def State.reset : State where
  pending := []
  mode := .setup
  lines := ⟨true, true, Table.fill 4 false⟩
  rate := 0
  timer := ⟨true, 0, 0, 20000⟩
  yard := ⟨.two, .hz50, 2⟩
  bays := Table.fill 26 BayRecord.reset
  active := Bank.reset
  edit := Bank.reset
  ports := ⟨PortState.reset, PortState.reset⟩
  streams := Table.fill 26 none
  store := Store.reset
  published := none
  replica := Replica.reset
  topology := none
  evaluator := Evaluator.reset
  detectors := Detectors.reset
  supervision := Supervision.reset
  trip := TripLogic.reset
  bf := Table.fill 26 BfTimer.reset
  records := ⟨[], 0⟩
  link := ControlLink.reset

end Sys2Proof.Machine
end

