-- ==== Sys2Proof/Machine/Yard.lean ====
section
/-! DEFINITION. The switchyard description of 01_switchyard_description_and_setting_banks.md: which sections each bay joins (R4),
the sample counts of each frequency (R27), the items of a bank and their ranges (R12), the cross-relations (R15), the cap at a
copy into ACTIVE (R17), and the checks on entry to RUN (R11). -/

namespace Sys2Proof.Machine

open Sys2Proof

/-- All sections, phases and slots in ascending order. -/
def allBuses : List Bus := List.finRange 4
def allPhases : List Phase := List.finRange 3
def allSlots : List Slot := List.finRange 26

/-- SECTIONS as a number (R1). -/
def SectionCount.number : SectionCount → Nat
  | .two => 2
  | .four => 4

/-- Whether a section is in use (R4). -/
def SectionCount.inUse (c : SectionCount) (s : Bus) : Bool :=
  decide (s.val < c.number)

/-- FREQUENCY as a number (R1). -/
def Frequency.number : Frequency → Nat
  | .hz50 => 50
  | .hz60 => 60

/-- Ncount (00_scope.md, Sample count). -/
def Frequency.ncount : Frequency → Nat
  | .hz50 => 1200
  | .hz60 => 1440

/-- REFCLK periods of the set period that starts at the nominal instant of set n (R27). -/
def Frequency.period (f : Frequency) (n : Nat) : Nat :=
  match f with
  | .hz50 => 20000
  | .hz60 => if n % 3 = 2 then 16666 else 16667

/-- The A-section of a side (R4). -/
def Side.busA : Side → Bus
  | .one => 0
  | .two => 2

/-- The B-section of a side (R4). -/
def Side.busB : Side → Bus
  | .one => 1
  | .two => 3

/-- The first of the two sections of a junction (R4). -/
def Junction.first : Junction → Bus
  | .coupler1 => 0
  | .coupler2 => 2
  | .sectionA => 0
  | .sectionB => 1

/-- The second of the two sections of a junction (R4). -/
def Junction.second : Junction → Bus
  | .coupler1 => 1
  | .coupler2 => 3
  | .sectionA => 2
  | .sectionB => 3

/-- The CT section of a junction (R4, R5). -/
def Junction.ct (j : Junction) (ctSecond : Bool) : Bus :=
  if ctSecond then j.second else j.first

/-- The far section of a junction (R4). -/
def Junction.far (j : Junction) (ctSecond : Bool) : Bus :=
  if ctSecond then j.first else j.second

/-- Whether a kind is other than UNUSED. -/
def BayKind.used : BayKind → Bool
  | .unused => false
  | .feeder _ => true
  | .junction _ _ => true

/-- Whether a kind is FEEDER. -/
def BayKind.isFeeder : BayKind → Bool
  | .unused => false
  | .feeder _ => true
  | .junction _ _ => false

/-- Whether a kind is JUNCTION. -/
def BayKind.isJunction : BayKind → Bool
  | .unused => false
  | .feeder _ => false
  | .junction _ _ => true

/-- Whether a kind needs four sections (R4, R11 check 2). -/
def BayKind.needsFour : BayKind → Bool
  | .unused => false
  | .feeder .one => false
  | .feeder .two => true
  | .junction .coupler1 _ => false
  | .junction .coupler2 _ => true
  | .junction .sectionA _ => true
  | .junction .sectionB _ => true

/-- The junction a slot holds, if any. -/
def BayKind.junctionKind : BayKind → Option Junction
  | .unused => none
  | .feeder _ => none
  | .junction j _ => some j

/-! ### Bank items -/

/-- An item of a setting bank with its index (R12). -/
inductive BankItem where
  | zoneIdmin
  | zoneSlope
  | zoneSlopeHigh
  | zoneOperateSets
  | checkIdmin
  | checkSlope
  | checkSlopeHigh
  | checkOperateSets
  | extRestraint
  | extRatio
  | extHold
  | supIdmin
  | supSets
  | releaseMode (s : Bus)
  | bfCurrent (b : Slot)
  | bfSets (b : Slot)
  | travelSets
  | openSettleSets
deriving DecidableEq, Repr

/-- The lowest and highest value of an item (R12); RELEASE_MODE takes 0 CHECKED and 1 UNCHECKED (R183). -/
def BankItem.range : BankItem → Nat × Nat
  | .zoneIdmin => (100, 10000)
  | .zoneSlope => (16, 56)
  | .zoneSlopeHigh => (16, 63)
  | .zoneOperateSets => (1, 12)
  | .checkIdmin => (100, 10000)
  | .checkSlope => (8, 48)
  | .checkSlopeHigh => (8, 63)
  | .checkOperateSets => (1, 12)
  | .extRestraint => (500, 500000)
  | .extRatio => (4, 32)
  | .extHold => (12, 1200)
  | .supIdmin => (10, 1000)
  | .supSets => (120, 12000)
  | .releaseMode _ => (0, 1)
  | .bfCurrent _ => (50, 5000)
  | .bfSets _ => (12, 600)
  | .travelSets => (120, 24000)
  | .openSettleSets => (1, 48)

/-- Whether a value lies in an item's range (R13). -/
def BankItem.admits (i : BankItem) (v : Nat) : Bool :=
  decide (i.range.1 ≤ v) && decide (v ≤ i.range.2)

/-- The release mode that a value stands for, and back (R183). -/
def ReleaseMode.ofValue (v : Nat) : ReleaseMode :=
  if v = 0 then .checked else .unchecked

def ReleaseMode.value : ReleaseMode → Nat
  | .checked => 0
  | .unchecked => 1

/-- The value of an item (R14). -/
def Bank.item (b : Bank) : BankItem → Nat
  | .zoneIdmin => b.zoneIdmin
  | .zoneSlope => b.zoneSlope
  | .zoneSlopeHigh => b.zoneSlopeHigh
  | .zoneOperateSets => b.zoneOperateSets
  | .checkIdmin => b.checkIdmin
  | .checkSlope => b.checkSlope
  | .checkSlopeHigh => b.checkSlopeHigh
  | .checkOperateSets => b.checkOperateSets
  | .extRestraint => b.extRestraint
  | .extRatio => b.extRatio
  | .extHold => b.extHold
  | .supIdmin => b.supIdmin
  | .supSets => b.supSets
  | .releaseMode s => (b.releaseMode.get s).value
  | .bfCurrent i => b.bfCurrent.get i
  | .bfSets i => b.bfSets.get i
  | .travelSets => b.travelSets
  | .openSettleSets => b.openSettleSets

/-- The bank with one item written (R13). -/
def Bank.write (b : Bank) (i : BankItem) (v : Nat) : Bank :=
  match i with
  | .zoneIdmin => { b with zoneIdmin := v }
  | .zoneSlope => { b with zoneSlope := v }
  | .zoneSlopeHigh => { b with zoneSlopeHigh := v }
  | .zoneOperateSets => { b with zoneOperateSets := v }
  | .checkIdmin => { b with checkIdmin := v }
  | .checkSlope => { b with checkSlope := v }
  | .checkSlopeHigh => { b with checkSlopeHigh := v }
  | .checkOperateSets => { b with checkOperateSets := v }
  | .extRestraint => { b with extRestraint := v }
  | .extRatio => { b with extRatio := v }
  | .extHold => { b with extHold := v }
  | .supIdmin => { b with supIdmin := v }
  | .supSets => { b with supSets := v }
  | .releaseMode s => { b with releaseMode := b.releaseMode.set s (.ofValue v) }
  | .bfCurrent i => { b with bfCurrent := b.bfCurrent.set i v }
  | .bfSets i => { b with bfSets := b.bfSets.set i v }
  | .travelSets => { b with travelSets := v }
  | .openSettleSets => { b with openSettleSets := v }

/-- The first cross-relation that fails, by its number (R15). -/
def Bank.failedRelation (b : Bank) : Option Nat :=
  if b.zoneSlopeHigh < b.zoneSlope then some 1
  else if b.checkSlopeHigh < b.checkSlope then some 2
  else none

/-! ### Caps at a copy into ACTIVE (R17) -/

/-- Operate counters above the new settings are set to them. -/
def Evaluator.cap (b : Bank) (e : Evaluator) : Evaluator :=
  { e with
    operate := e.operate.map (Table.map (fun c => min c b.zoneOperateSets))
    checkOperate := e.checkOperate.map (fun c => min c b.checkOperateSets) }

/-- A hold count above the new EXT_HOLD is set to it. -/
def Detector.cap (b : Bank) (d : Detector) : Detector :=
  { d with hold := min d.hold b.extHold }

/-- Every hold count above the new EXT_HOLD is set to it. -/
def Detectors.cap (b : Bank) (d : Detectors) : Detectors where
  zones := d.zones.map (Table.map (Detector.cap b))
  check := d.check.map (Detector.cap b)

/-- EDIT is copied whole into ACTIVE and the bounded counts are capped (R15, R17). -/
def copyBank (s : State) : State :=
  { s with
    active := s.edit
    evaluator := s.evaluator.cap s.edit
    detectors := s.detectors.cap s.edit }

/-! ### Consistency on entry to RUN (R11) -/

/-- Whether some stream-table entry, enabled or not, names the slot. -/
def streamNames (streams : Table 26 (Option StreamEntry)) (b : Slot) : Bool :=
  streams.cells.any (fun e => match e with
    | some e => decide (e.slot = b)
    | none => false)

/-- Check 1: used and named do not agree. -/
def failsPairing (s : State) (b : Slot) : Bool :=
  (s.bays.get b).kind.used != streamNames s.streams b

/-- Check 2: the slot needs four sections and there are two. -/
def failsSections (s : State) (b : Slot) : Bool :=
  decide (s.yard.sections = .two) && (s.bays.get b).kind.needsFour

/-- Check 3: a lower slot holds the same junction kind. -/
def failsJunction (s : State) (b : Slot) : Bool :=
  (s.bays.get b).kind.isJunction &&
    allSlots.any (fun a => decide (a < b) &&
      decide ((s.bays.get a).kind.junctionKind = (s.bays.get b).kind.junctionKind))

/-- The slot byte of an INCONSISTENT detail where no slot applies (R11, R183). -/
def noSlot : Nat := 255

/-- The first check of R11 that fails, with its number and slot. -/
def failedCheck (s : State) : Option (Nat × Nat) :=
  match allSlots.find? (failsPairing s) with
  | some b => some (1, b.val)
  | none =>
    match allSlots.find? (failsSections s) with
    | some b => some (2, b.val)
    | none =>
      match allSlots.find? (failsJunction s) with
      | some b => some (3, b.val)
      | none =>
        if allSlots.all (fun b => !(s.bays.get b).kind.isFeeder) then some (4, noSlot)
        else if s.active.failedRelation.isSome then some (5, noSlot)
        else none

end Sys2Proof.Machine
end

