-- ==== Sys2Proof/Machine/Operands.lean ====
section
/-! DEFINITION. The operand forms: how each field of a request payload is read (R183, R184) and how each field of a reply, a
record and a notice is laid out (R183, R184, R185). -/

namespace Sys2Proof.Machine

open Sys2Proof

/-! ### Codes of fields (R183) -/

def Mode.code : Mode → Nat
  | .setup => 0
  | .run => 1
  | .halted => 2

def Position.code : Position → Nat
  | .closed => 0
  | .opened => 1
  | .travel => 2
  | .invalid => 3
  | .noData => 4

def Forced.code : Forced → Nat
  | .none => 0
  | .closed => 1
  | .opened => 2

def DetectorState.code : DetectorState → Nat
  | .quiet => 0
  | .watch => 1
  | .external => 2
  | .settle => 3

def RingMark.code : RingMark → Nat
  | .present => 0
  | .substituted => 1
  | .zero => 2

def Level.code : Level → Nat
  | .none => 0
  | .alarm => 1
  | .blockZone => 2
  | .blockAll => 3

def Role.code : Role → Nat
  | .member => 0
  | .internal => 1
  | .excluded => 2
  | .outOfUse => 3

def IntegrityCheck.code : IntegrityCheck → Nat
  | .storeParity => 1
  | .timerFault => 2

def haltCodeByte : Option IntegrityCheck → Nat
  | none => 0
  | some c => c.code

def BfState.code : BfState → Nat
  | .idle => 0
  | .timing => 1
  | .expired => 2

def Admit.code : Admit → Nat
  | .x => 0
  | .y => 1
  | .either => 2

def Junction.code : Junction → Nat
  | .coupler1 => 0
  | .coupler2 => 1
  | .sectionA => 2
  | .sectionB => 3

def Side.code : Side → Nat
  | .one => 1
  | .two => 2

def Polarity.code : Polarity → Nat
  | .plus => 0x01
  | .minus => 0xFF

/-- The byte of an absent field. -/
def absentByte : Nat := 0xFF

/-- The number of a condition code, 1 to 9 (R140). -/
def Code.number : Code → Nat
  | .streamLost => 1
  | .streamGap => 2
  | .zoneCtSuspect => 3
  | .checkCtSuspect => 4
  | .isolatorTravel => 5
  | .isolatorInvalid => 6
  | .breakerInvalid => 7
  | .positionForced => 8
  | .portSilent => 9

/-- The byte of a condition scope. -/
def Scope.code : Scope → Nat
  | .bay b => b.val
  | .bus s => 0x20 + s.val
  | .check => 0x30
  | .port .x => 0x40
  | .port .y => 0x41

/-- Status codes (R169). -/
inductive Status where
  | done
  | unknownKind
  | badLength
  | outOfRange
  | wrongMode
  | duplicate
  | inconsistent
  | stillOperating
  | stillActive
  | notFound
  | halted
deriving DecidableEq, Repr

def Status.code : Status → Nat
  | .done => 0
  | .unknownKind => 1
  | .badLength => 2
  | .outOfRange => 3
  | .wrongMode => 4
  | .duplicate => 5
  | .inconsistent => 6
  | .stillOperating => 7
  | .stillActive => 8
  | .notFound => 9
  | .halted => 10

/-! ### Reading a request payload

Each reader answers none for a byte whose value is not listed for its field, or out of the field's range
(log 18). -/

def readFlag (b : Byte) : Option Bool :=
  if b.toNat = 0 then some false else if b.toNat = 1 then some true else none

def readSlot (b : Byte) : Option Slot :=
  if h : b.toNat < 26 then some ⟨b.toNat, h⟩ else none

def readBus (b : Byte) : Option Bus :=
  if h : b.toNat < 4 then some ⟨b.toNat, h⟩ else none

def readAdmit (b : Byte) : Option Admit :=
  if b.toNat = 0 then some .x else if b.toNat = 1 then some .y else if b.toNat = 2 then some .either else none

def readForced (b : Byte) : Option Forced :=
  if b.toNat = 0 then some .none else if b.toNat = 1 then some .closed else if b.toNat = 2 then some .opened else none

def readLevel (b : Byte) : Option Level :=
  if b.toNat = 0 then some .none else if b.toNat = 1 then some .alarm
  else if b.toNat = 2 then some .blockZone else if b.toNat = 3 then some .blockAll else none

def readPolarity (b : Byte) : Option Polarity :=
  if b.toNat = 0x01 then some .plus else if b.toNat = 0xFF then some .minus else none

def readSide (b : Byte) : Option Side :=
  if b.toNat = 1 then some .one else if b.toNat = 2 then some .two else none

def readJunction (b : Byte) : Option Junction :=
  if b.toNat = 0 then some .coupler1 else if b.toNat = 1 then some .coupler2
  else if b.toNat = 2 then some .sectionA else if b.toNat = 3 then some .sectionB else none

def readSections (b : Byte) : Option SectionCount :=
  if b.toNat = 2 then some .two else if b.toNat = 4 then some .four else none

def readFrequency (b : Byte) : Option Frequency :=
  if b.toNat = 50 then some .hz50 else if b.toNat = 60 then some .hz60 else none

def readCode (b : Byte) : Option Code :=
  if b.toNat = 1 then some .streamLost else if b.toNat = 2 then some .streamGap
  else if b.toNat = 3 then some .zoneCtSuspect else if b.toNat = 4 then some .checkCtSuspect
  else if b.toNat = 5 then some .isolatorTravel else if b.toNat = 6 then some .isolatorInvalid
  else if b.toNat = 7 then some .breakerInvalid else if b.toNat = 8 then some .positionForced
  else if b.toNat = 9 then some .portSilent else none

def readScope (b : Byte) : Option Scope :=
  if h : b.toNat < 26 then some (.bay ⟨b.toNat, h⟩)
  else if h : 0x20 ≤ b.toNat ∧ b.toNat < 0x24 then some (.bus ⟨b.toNat - 0x20, by omega⟩)
  else if b.toNat = 0x30 then some .check
  else if b.toNat = 0x40 then some (.port .x)
  else if b.toNat = 0x41 then some (.port .y)
  else none

/-- Whether a scope is of the kind that R140 gives a code. The kinds are bay slot, section, check zone and port: that any bay slot is
of the kind of codes 1, 2 and 5 to 8, whatever the slot holds, is the model's choice (log 31; a section out of use: log 18). -/
def Code.takes (c : Code) (sc : Scope) : Bool :=
  match c, sc with
  | .zoneCtSuspect, .bus _ => true
  | .checkCtSuspect, .check => true
  | .portSilent, .port _ => true
  | .streamLost, .bay _ => true
  | .streamGap, .bay _ => true
  | .isolatorTravel, .bay _ => true
  | .isolatorInvalid, .bay _ => true
  | .breakerInvalid, .bay _ => true
  | .positionForced, .bay _ => true
  | _, _ => false

/-- A section selector: one section or ALL. -/
inductive Selector where
  | one (s : Bus)
  | all
deriving DecidableEq, Repr

def Selector.names (sel : Selector) (s : Bus) : Bool :=
  match sel with
  | .one t => decide (t = s)
  | .all => true

def readSelector (b : Byte) : Option Selector :=
  if b.toNat = 0xFF then some .all else (readBus b).map .one

/-- The kind fields of BAY-SET: those a kind requires are present, those it excludes are absent (R5, R6). -/
def readKind (kind side junction ct : Byte) : Option BayKind :=
  if kind.toNat = 0 then
    if side.toNat = absentByte ∧ junction.toNat = absentByte ∧ ct.toNat = absentByte then some .unused else none
  else if kind.toNat = 1 then
    if junction.toNat = absentByte ∧ ct.toNat = absentByte then (readSide side).map .feeder else none
  else if kind.toNat = 2 then
    if side.toNat = absentByte then
      match readJunction junction with
      | none => none
      | some j =>
        if ct.toNat = j.first.val then some (.junction j false)
        else if ct.toNat = j.second.val then some (.junction j true)
        else none
    else none
  else none

/-- The record of BAY-SET (R6). -/
def readRecord (kind side junction ct polarity r1 r0 : Byte) : Option BayRecord :=
  match readKind kind side junction ct, readPolarity polarity with
  | some k, some p => if 1024 ≤ natOfBytes [r1, r0] then some ⟨k, p, natOfBytes [r1, r0]⟩ else none
  | _, _ => none

/-- The item that an item number and an index name (R13, R183). -/
def readItem (item index : Byte) : Option BankItem :=
  let plain (i : BankItem) : Option BankItem := if index.toNat = 0 then some i else none
  if item.toNat = 0x01 then plain .zoneIdmin
  else if item.toNat = 0x02 then plain .zoneSlope
  else if item.toNat = 0x03 then plain .zoneSlopeHigh
  else if item.toNat = 0x04 then plain .zoneOperateSets
  else if item.toNat = 0x05 then plain .checkIdmin
  else if item.toNat = 0x06 then plain .checkSlope
  else if item.toNat = 0x07 then plain .checkSlopeHigh
  else if item.toNat = 0x08 then plain .checkOperateSets
  else if item.toNat = 0x09 then plain .extRestraint
  else if item.toNat = 0x0A then plain .extRatio
  else if item.toNat = 0x0B then plain .extHold
  else if item.toNat = 0x0C then plain .supIdmin
  else if item.toNat = 0x0D then plain .supSets
  else if item.toNat = 0x0E then (readBus index).map .releaseMode
  else if item.toNat = 0x0F then (readSlot index).map .bfCurrent
  else if item.toNat = 0x10 then (readSlot index).map .bfSets
  else if item.toNat = 0x11 then plain .travelSets
  else if item.toNat = 0x12 then plain .openSettleSets
  else none

/-! ### Laying out replies, records and notices -/

/-- A stamp with its none flag: 5 bytes. -/
def stampBytes : Option Stamp → List Byte
  | none => u8 1 ++ u16 0 ++ u16 0
  | some t => u8 0 ++ u16 t.second ++ u16 t.count

/-- Second count and sample count: 4 bytes. -/
def stampCounts (t : Stamp) : List Byte :=
  u16 t.second ++ u16 t.count

/-- A byte whose bit i is the i-th of the flags. -/
def bitsByte (flags : List Bool) : List Byte :=
  u8 (flags.foldr (fun b n => b.toNat + 2 * n) 0)

def bitmapBytes (m : Bitmap) : List Byte :=
  u32 m.toNat

def busSetByte (m : BusSet) : List Byte :=
  u8 m.toNat

/-- The 8 bytes of a bay record (R184). -/
def recordFields (b : Slot) (r : BayRecord) : List Byte :=
  let kind := match r.kind with
    | .unused => u8 0 ++ u8 absentByte ++ u8 absentByte ++ u8 absentByte
    | .feeder side => u8 1 ++ u8 side.code ++ u8 absentByte ++ u8 absentByte
    | .junction j c => u8 2 ++ u8 absentByte ++ u8 j.code ++ u8 (j.ct c).val
  u8 b.val ++ kind ++ u8 r.polarity.code ++ u16 r.ratio

/-- The 7 bytes of a stream entry in STREAM-LIST (R184). -/
def streamFields : Option StreamEntry → List Byte
  | none => List.replicate 7 0
  | some e => u32 e.identifier.toNat ++ u8 e.slot.val ++ u8 e.admitted.code ++ flagByte e.enabled

/-- The flags byte of a condition entry (R185). -/
def conditionFlags (c : Condition) : List Byte :=
  match c.latched with
  | none => bitsByte [c.active]
  | some r => u8 (c.active.toNat + 2 + 4 * r.buses.toNat + 64 * r.check.toNat)

/-- The 7 bytes of a condition entry (R185). -/
def conditionFields (c : Condition) : List Byte :=
  u8 c.code.number ++ u8 c.scope.code ++ conditionFlags c ++ stampCounts c.onset

/-- The condition table as STATUS part 1 and the ALARM notice carry it (R184, R185). -/
def conditionBytes (cs : List Condition) : List Byte :=
  u8 cs.length ++ cs.flatMap conditionFields

/-- A member byte: the slot, and bit 7 for a sign of -1 (R184). -/
def memberByte (m : Member) : List Byte :=
  u8 (m.slot.val + 128 * m.minus.toNat)

def membersBytes (ms : List Member) : List Byte :=
  u8 ms.length ++ ms.flatMap memberByte

def zoneFields (z : Zone) : List Byte :=
  u8 z.name.val ++ busSetByte z.buses ++ flagByte z.changed ++ membersBytes z.members

/-- The TOPOLOGY reply from its stamp through the check zone members, which is also the TOPOLOGY notice (R184, R185; log 20 for
the check zone mark when no set is in force). -/
def topologyHead (held : SectionCount) : Option Topology → List Byte
  | none => stampBytes none ++ u8 held.number ++ u8 0 ++ u8 0 ++ u8 0
  | some t =>
    stampBytes (some t.stamp) ++ u8 t.sections.number ++ u8 t.zones.length ++ t.zones.flatMap zoneFields
      ++ flagByte t.checkChanged ++ membersBytes t.checkMembers

/-- The slots that have a role, with it. -/
def roleFields (t : Topology) : List Byte :=
  let rows := allSlots.filterMap (fun b => (t.roles.get b).map (fun r => u8 b.val ++ u8 r.code))
  u8 rows.length ++ rows.flatten

/-- The TOPOLOGY reply data (R75, R184). -/
def topologyBytes (held : SectionCount) (o : Option Topology) : List Byte :=
  topologyHead held o ++
    match o with
    | none => List.replicate 16 0 ++ u8 0
    | some t => t.scopes.cells.flatMap bitmapBytes ++ roleFields t

/-- A phase block of MEASURE: the operate counter is the one held when the request is served (R103, R184). -/
def phaseFields (r : PhaseResult) (counter : Nat) : List Byte :=
  u32 r.diff ++ u32 r.restraint ++ bitsByte [r.held, r.highSlope, r.operates, r.suspect] ++ u8 r.detector.code ++ u8 counter

def phaseBlocks (rs : Table 3 PhaseResult) (counters : Table 3 Nat) : List Byte :=
  allPhases.flatMap (fun p => phaseFields (rs.get p) (counters.get p))

def bayFields (b : Slot) (r : BayResult) : List Byte :=
  u8 b.val ++ r.currents.cells.flatMap i32 ++ u8 r.mark.code ++ u32 r.current ++ flagByte r.present

/-- The MEASURE reply data (R103, R184; log 19 for which slots are reported). -/
def measureBytes (e : Evaluator) : List Byte :=
  match e.results with
  | none => stampBytes none ++ u8 0 ++ u8 0
  | some r =>
    let bays := allSlots.filterMap (fun b => (r.bays.get b).map (bayFields b))
    stampBytes (some r.stamp) ++ u8 r.zones.length
      ++ r.zones.flatMap (fun z => u8 z.name.val ++ busSetByte z.buses ++ phaseBlocks z.phases (e.operate.get z.name))
      ++ phaseBlocks r.check e.checkOperate ++ u8 bays.length ++ bays.flatten

/-- The 13 bytes of a slot in POSITIONS (R58, R184). -/
def positionFields (b : Slot) (k : BayKind) (q : SlotPositions) : List Byte :=
  u8 b.val ++ u8 q.isoA.code ++ u8 q.isoB.code ++ u8 q.breaker.code ++ flagByte q.received ++
    match k with
    | .unused => []
    | .feeder _ =>
      u8 (q.forcedA.code + 4 * q.forcedB.code) ++ bitsByte [q.closedA, q.closedB] ++ u16 q.travelA ++ u16 q.travelB
        ++ u8 q.invalidA ++ u8 q.invalidB
    | .junction _ _ =>
      u8 0 ++ bitsByte [false, false, q.excluded] ++ u16 q.openSettle ++ u16 0 ++ u8 q.invalidBreaker ++ u8 0

/-- The POSITIONS reply data (R58, R184). -/
def positionsBytes (s : State) : List Byte :=
  let rows := (allSlots.filter (fun b => (s.bays.get b).kind.used)).map
    (fun b => positionFields b (s.bays.get b).kind (s.replica.slots.get b))
  stampBytes s.replica.stamp ++ u8 rows.length ++ rows.flatten

def portCounters (p : PortState) : List Byte :=
  u16 p.valid ++ u16 p.badCrc ++ u16 p.badFormat ++ u16 p.unknownId ++ u16 p.wrongPort ++ u16 p.invalid

def streamCounterBytes : Option StreamEntry → List Byte
  | none => List.replicate 12 0
  | some e =>
    u16 e.counters.taken ++ u16 e.counters.duplicate ++ u16 e.counters.late ++ u16 e.counters.early
      ++ u16 e.counters.substituted ++ u16 e.counters.overrange

/-- The COUNTERS reply data (R42, R184). -/
def countersBytes (s : State) : List Byte :=
  portCounters s.ports.x ++ portCounters s.ports.y ++ u16 s.link.crcErrors ++ u16 s.link.framing ++ u16 s.link.overrun
    ++ s.streams.cells.flatMap streamCounterBytes

def busStatus (s : State) (k : Bus) : List Byte :=
  bitsByte [s.supervision.hostBlocks.get k, s.supervision.blockFlags.get k, s.trip.tripLatch.get k, s.trip.backtripLatch.get k]
    ++ bitmapBytes (s.trip.captured.get k) ++ (s.supervision.ctCounts.get k).cells.flatMap u16

/-- The slots in use that are LOST. -/
def lostSlots (s : State) : Bitmap :=
  BitVec.ofFnLE (fun b => (s.bays.get b).kind.used && (s.store.slots.get b).lost)

/-- STATUS part 0 (R171, R184). -/
def statusGeneral (s : State) : List Byte :=
  u8 s.mode.code ++ u8 (haltCodeByte s.supervision.haltCode)
    ++ bitsByte [s.supervision.storeParity, s.supervision.timerFault] ++ flagByte (!s.timer.running)
    ++ stampBytes s.store.lastClosed ++ bitsByte [decide (s.ports.x.link = .up), decide (s.ports.y.link = .up)]
    ++ bitmapBytes (lostSlots s) ++ allBuses.flatMap (busStatus s)
    ++ flagByte s.supervision.checkBlocked ++ s.supervision.checkCt.cells.flatMap u16 ++ bitmapBytes s.trip.bitmap
    ++ s.bf.cells.flatMap (fun t => u8 t.state.code ++ u16 t.countdown)
    ++ u8 s.records.stack.length ++ u8 s.records.overwrites
    ++ flagByte s.link.alarm.enabled ++ u16 s.link.alarm.interval
    ++ flagByte s.link.topology.enabled ++ u16 s.link.topology.interval

/-- A record in the form of R185. -/
def TripRecord.bytes : TripRecord → List Byte
  | .zoneTrip r =>
    u8 1 ++ stampCounts r.stamp ++ busSetByte r.buses ++ u8 r.release.value ++ bitsByte r.released.cells
      ++ r.phases.cells.flatMap (fun p => u32 p.diff ++ u32 p.restraint ++ u8 p.detector.code)
      ++ (match r.check with
          | none => []
          | some c => c.cells.flatMap (fun p => u32 p.diff ++ u32 p.restraint))
      ++ bitmapBytes r.bitmap
  | .backtrip r =>
    u8 2 ++ stampCounts r.stamp ++ u8 r.bay.val ++ u32 r.current ++ busSetByte r.buses ++ bitmapBytes r.bitmap

/-- The sections whose flag is set. -/
def busFlags (t : Table 4 Bool) : BusSet :=
  BitVec.ofFnLE (fun k => t.get k)

/-- The payload of a TRIP or BACKTRIP notice for the set with this stamp (R179, R185). -/
def tripNotice (stamp : Stamp) (t : TripLogic) : List Byte :=
  busSetByte (busFlags t.tripLatch) ++ busSetByte (busFlags t.backtripLatch) ++ bitmapBytes t.bitmap ++ stampCounts stamp

end Sys2Proof.Machine
end

