-- ==== Sys2Proof/Machine/Ops.lean ====
section
/-! DEFINITION. The operations that several commands share: saturating counters, the ports and the output lines, the transmitter
and the reply queue (R168, R182), notices and their moderation (R179, R180), the entry to HALTED (R153, R175), the resets that
reach several blocks (R30, R177, R178), and the service of a request (R168, R169). -/

namespace Sys2Proof.Machine

open Sys2Proof

/-! ### Counters, ports, lines -/

/-- One more, stopping at 65,535 (00_scope.md, Counters). -/
def bump (n : Nat) : Nat :=
  min (n + 1) Config.counterMax

/-- k more, stopping at 65,535. -/
def bumpBy (k n : Nat) : Nat :=
  min (n + k) Config.counterMax

def Ports.get (ps : Ports) : Port → PortState
  | .x => ps.x
  | .y => ps.y

def Ports.modify (ps : Ports) (p : Port) (f : PortState → PortState) : Ports :=
  match p with
  | .x => { ps with x := f ps.x }
  | .y => { ps with y := f ps.y }

def Ports.map (f : PortState → PortState) (ps : Ports) : Ports where
  x := f ps.x
  y := f ps.y

/-- A trip frame is handed to a port: it starts on a free fibre, else it replaces the one waiting (R21). -/
def PortState.hand (f : TripFrame) (p : PortState) : PortState :=
  match p.fibre with
  | none => { p with fibre := some f.bytes }
  | some _ => { p with waiting := some f }

/-- The port's counters at 0 (R42). -/
def PortState.clearCounters (p : PortState) : PortState :=
  { p with valid := 0, badCrc := 0, badFormat := 0, unknownId := 0, wrongPort := 0, invalid := 0 }

/-- An entry's counters at 0 (R42). -/
def StreamEntry.clearCounters (e : StreamEntry) : StreamEntry :=
  { e with counters := StreamCounters.zero }

/-- Every entry kept with its counters at 0 (R22). -/
def clearStreamCounters (streams : Table 26 (Option StreamEntry)) : Table 26 (Option StreamEntry) :=
  streams.map (Option.map StreamEntry.clearCounters)

/-- HEALTHY and the trip lines follow the mode and the latches (R126, R172). -/
def driveLines (s : State) : State :=
  { s with
    lines :=
      { s.lines with
        healthy := decide (s.mode ≠ .halted)
        trip := Table.build (fun k => decide (s.mode = .run) && (s.trip.tripLatch.get k || s.trip.backtripLatch.get k)) } }

/-- Every latch clear and every captured trip set empty (R130). -/
def TripLogic.clearLatches (t : TripLogic) : TripLogic :=
  { t with
    tripLatch := Table.fill 4 false
    backtripLatch := Table.fill 4 false
    captured := Table.fill 4 0 }

/-- Every breaker failure timer in IDLE (R137). -/
def idleTimers : Table 26 BfTimer :=
  Table.fill 26 BfTimer.reset

/-! ### Transmitter (R182) -/

/-- The frame of a notice (R179). -/
def noticeFrame (kind : Byte) (payload : List Byte) : TxFrame where
  bytes := controlFrame kind 0 payload
  ofRestart := false

/-- The frame of a reply (R169). -/
def Reply.frame (r : Reply) : TxFrame where
  bytes := controlFrame r.kind r.tag r.payload
  ofRestart := r.ofRestart

/-- The HALT notice that may be taken: it follows the reply of a RESTART that was waiting at the halt (R177; log 15). -/
def ControlLink.haltReady (l : ControlLink) : Option (List Byte) :=
  if l.replies.any (fun r => r.ofRestart) then none else l.slots.halt

/-- A free transmitter takes the first frame waiting: HALT, TRIP, BACKTRIP, the oldest reply, TOPOLOGY, ALARM (R182). -/
def ControlLink.takeNext (l : ControlLink) : ControlLink :=
  match l.haltReady with
  | some p => { l with slots := { l.slots with halt := none }, line := some (noticeFrame 0x64 p) }
  | none =>
    match l.slots.trip with
    | some p => { l with slots := { l.slots with trip := none }, line := some (noticeFrame 0x60 p) }
    | none =>
      match l.slots.backtrip with
      | some p => { l with slots := { l.slots with backtrip := none }, line := some (noticeFrame 0x61 p) }
      | none =>
        match l.replies with
        | r :: rest => { l with replies := rest, line := some r.frame }
        | [] =>
          match l.slots.topology with
          | some p => { l with slots := { l.slots with topology := none }, line := some (noticeFrame 0x63 p) }
          | none =>
            match l.slots.alarm with
            | some p => { l with slots := { l.slots with alarm := none }, line := some (noticeFrame 0x62 p) }
            | none => { l with line := none }

/-- Whenever the transmitter is free it takes a frame that waits (R182; log 16). -/
def ControlLink.kick (l : ControlLink) : ControlLink :=
  match l.line with
  | some _ => l
  | none => l.takeNext

/-- A reply is placed at the tail of the reply queue (R168). -/
def ControlLink.placeReply (r : Reply) (l : ControlLink) : ControlLink :=
  { l with replies := l.replies ++ [r] }.kick

/-- The reply to a request (R169). -/
def Request.reply (req : Request) (st : Status) (data : List Byte) : Reply where
  kind := replyKind req.kind
  tag := req.tag
  payload := u8 st.code ++ data
  ofRestart := false

/-- The head request leaves the queue and its reply is placed (R168). -/
def ControlLink.answerHead (st : Status) (data : List Byte) (l : ControlLink) : ControlLink :=
  match l.requests with
  | [] => { l with flight := none }
  | req :: rest => { l with requests := rest, flight := none }.placeReply (req.reply st data)

/-! ### Notices (R179, R180) -/

/-- The payload of an ALARM notice made now. -/
def alarmNotice (s : State) : List Byte :=
  conditionBytes s.supervision.conditions

/-- The payload of a TOPOLOGY notice made now. -/
def topologyNotice (s : State) : List Byte :=
  topologyHead s.yard.sections s.topology

/-- What a cause does to a moderated class, and whether a notice is made at once (R180). -/
def NoticeClass.cause (c : NoticeClass) : NoticeClass × Bool :=
  if c.enabled then
    match c.timer with
    | some _ => ({ c with pending := true }, false)
    | none => if c.interval = 0 then (c, true) else ({ c with timer := some c.interval }, true)
  else (c, false)

/-- What a nominal set instant does to a moderated class, and whether a notice is made (R180). -/
def NoticeClass.instant (c : NoticeClass) : NoticeClass × Bool :=
  match c.timer with
  | none => (c, false)
  | some k =>
    if k ≤ 1 then
      if c.pending then
        ({ c with pending := false, timer := if c.interval = 0 then none else some c.interval }, true)
      else ({ c with timer := none }, false)
    else ({ c with timer := some (k - 1) }, false)

/-- The timer idle and no pending mark (R177, R181). -/
def NoticeClass.quiet (c : NoticeClass) : NoticeClass :=
  { c with timer := none, pending := false }

/-- An ALARM notice cause (R143, R151, R180). -/
def causeAlarm (s : State) : State :=
  let r := s.link.alarm.cause
  let slots := if r.2 then { s.link.slots with alarm := some (alarmNotice s) } else s.link.slots
  { s with link := { s.link with alarm := r.1, slots := slots }.kick }

/-- A TOPOLOGY notice cause (R74, R180). -/
def causeTopology (s : State) : State :=
  let r := s.link.topology.cause
  let slots := if r.2 then { s.link.slots with topology := some (topologyNotice s) } else s.link.slots
  { s with link := { s.link with topology := r.1, slots := slots }.kick }

/-- Both moderation timers of the link at a nominal set instant (R180): a class whose marked timer expires places the notice given
for it. Where both do, both notices are placed before the transmitter takes one, so that on an idle line TOPOLOGY goes first: R180
orders the two expiries in no way (DESIGN CHOICE, log 33; unsafe). -/
def ControlLink.moderate (alarm topology : List Byte) (l : ControlLink) : ControlLink :=
  let a := l.alarm.instant
  let t := l.topology.instant
  let slots :=
    { l.slots with
      alarm := if a.2 then some alarm else l.slots.alarm
      topology := if t.2 then some topology else l.slots.topology }
  { l with alarm := a.1, topology := t.1, slots := slots }.kick

/-- Both moderation timers at a nominal set instant, with the notices of the state at that moment (R180). -/
def moderate (s : State) : State :=
  { s with link := s.link.moderate (alarmNotice s) (topologyNotice s) }

/-- The TRIP and BACKTRIP causes of one set, raised together once its bitmap is formed (R138, R179). -/
def causeTrips (stamp : Stamp) (trip backtrip : Bool) (s : State) : State :=
  let p := tripNotice stamp s.trip
  let slots :=
    { s.link.slots with
      trip := if trip then some p else s.link.slots.trip
      backtrip := if backtrip then some p else s.link.slots.backtrip }
  { s with link := { s.link with slots := slots }.kick }

/-! ### Entry to HALTED (R153, R175) -/

/-- The check is recorded (R153). -/
def Supervision.recordCheck (c : IntegrityCheck) (v : Supervision) : Supervision :=
  match c with
  | .storeParity => { v with storeParity := true }
  | .timerFault => { v with timerFault := true }

/-- A RESTART that waits leaves the queue and its DONE reply, if not yet begun, becomes HALTED (R177). -/
def ControlLink.dropRestart (l : ControlLink) : ControlLink :=
  { l with
    requests := l.requests.tail
    flight := none
    replies := l.replies.map (fun r => if r.ofRestart then { r with payload := u8 Status.halted.code } else r) }

/-- The request in flight at the entry to HALTED is answered (R175, R177), before anything is taken by the transmitter. -/
def ControlLink.haltFlight (l : ControlLink) : ControlLink :=
  match l.flight with
  | none => l
  | some .restart => l.dropRestart
  | some _ =>
    match l.requests with
    | [] => { l with flight := none }
    | req :: rest => { l with requests := rest, flight := none, replies := l.replies ++ [req.reply .halted []] }

/-- The control link interface at the entry to HALTED (R175; log 16). -/
def ControlLink.halt (c : IntegrityCheck) (l : ControlLink) : ControlLink :=
  let l := l.haltFlight
  { l with slots := { l.slots with halt := some (u8 c.code) } }.kick

/-- An integrity check is reported: it is recorded, and in SETUP or RUN the device enters HALTED (R153). -/
def reportCheck (c : IntegrityCheck) (s : State) : State :=
  match s.mode with
  | .halted => { s with supervision := s.supervision.recordCheck c }
  | .setup | .run =>
    driveLines
      { s with
        mode := .halted
        lines := { s.lines with sync := false }
        timer := { s.timer with running := false }
        ports := s.ports.map (fun p => { p with waiting := none })
        published := none
        supervision := { s.supervision.recordCheck c with haltCode := some c }
        trip := TripLogic.reset
        bf := idleTimers
        link := s.link.halt c }

/-! ### Resets -/

/-- The slots of the replica after a frequency restart: the stored forced values are kept (R59). -/
def SlotPositions.keepForced (q : SlotPositions) : SlotPositions :=
  { SlotPositions.reset with forcedA := q.forcedA, forcedB := q.forcedB }

/-- What a frequency restart sets at once, with the new FREQUENCY already held (R2, R30, R43, R59, R76, R92, R117, R130, R156,
R171). Link state and silence counts stay as they are (R20). -/
def frequencyReset (s : State) : State :=
  { s with
    lines := { s.lines with sync := true }
    timer := { s.timer with running := true, count := 0, period := s.yard.frequency.period 0 }
    store := Store.reset
    replica := { slots := s.replica.slots.map SlotPositions.keepForced, stamp := none }
    topology := none
    evaluator := Evaluator.reset
    detectors := Detectors.reset
    supervision := { s.supervision with ctCounts := Table.fill 4 (Table.fill 3 0), checkCt := Table.fill 3 0 }
    trip := { s.trip with bitmap := 0 } }

/-- A frequency restart: its moment is the nominal instant of set 0 (R30), at which the moderation timers step (R180). The notice of
an expiry shows the state after the values set at once (DESIGN CHOICE, log 21; unsafe). -/
def frequencyRestart (s : State) : State :=
  moderate (frequencyReset s)

/-- The supervision unit after a RESTART (R156). -/
def Supervision.restart (v : Supervision) : Supervision :=
  { v with
    conditions := []
    ctCounts := Table.fill 4 (Table.fill 3 0)
    checkCt := Table.fill 3 0
    hostBlocks := Table.fill 4 false
    blockFlags := Table.fill 4 false
    checkBlocked := false }

/-- The control link interface after a RESTART (R177). -/
def ControlLink.restart (l : ControlLink) : ControlLink :=
  { l with
    requests := []
    flight := none
    crcErrors := 0
    framing := 0
    overrun := 0
    slots := NoticeSlots.empty
    alarm := l.alarm.quiet
    topology := l.topology.quiet }

/-- The restart of R177 (log 22). -/
def makeRestart (s : State) : State :=
  driveLines
    { s with
      mode := .setup
      ports := s.ports.map PortState.clearCounters
      streams := clearStreamCounters s.streams
      store := { Store.reset with c0 := s.store.c0 }
      replica := Replica.reset
      topology := none
      evaluator := Evaluator.reset
      detectors := Detectors.reset
      supervision := s.supervision.restart
      trip := TripLogic.reset
      bf := idleTimers
      link := s.link.restart }

/-! ### Service of a request (R168, R169) -/

/-- What a request's own rule answers: DONE with a new state and data, a refusal with its detail, the request in flight, or the
DONE of RESTART with the request waiting at the head. -/
inductive Service where
  | done (s : State) (data : List Byte)
  | refuse (st : Status) (detail : List Byte)
  | hold (f : Flight)
  | restart

/-- The head request is served only while nothing is in flight, the reply queue has room and no set is in evaluation (R168). -/
def State.canServe (s : State) : Bool :=
  s.link.flight.isNone && decide (s.link.replies.length < Config.queueMax) && s.published.isNone

/-- A good frame is offered to the request queue (R168). -/
def ControlLink.offer (req : Request) (l : ControlLink) : ControlLink :=
  if l.requests.length < Config.queueMax then { l with requests := l.requests ++ [req] }
  else { l with overrun := bump l.overrun }

/-- The state in which the request stands at the head of the queue: it stands there already, or, with the queue empty and the
framer in HUNT, its frame arrives whole at this moment (log 4). None when it is not its turn. -/
def State.atHead (req : Request) (s : State) : Option State :=
  match s.link.requests with
  | r :: _ => if r = req then some s else none
  | [] =>
    match s.link.framer with
    | .hunt => some { s with link := s.link.offer req }
    | .header _ => none
    | .body _ => none

/-- The common checks of R169, in their order, and then the request's own rule. -/
def commonChecks (req : Request) (own : List Byte → State → Service) (s : State) : Service :=
  match requestRow req.kind with
  | none => .refuse .unknownKind []
  | some row =>
    if req.payload.length ≠ row.length then .refuse .badLength []
    else if s.mode = .halted ∧ row.inHalted = false then .refuse .halted []
    else own req.payload s

/-- The end of a service: the reply is placed and the request leaves, or it stays at the head in flight (R168). -/
def finishService (req : Request) (s : State) : Service → State
  | .done t data => { t with link := t.link.answerHead .done data }
  | .refuse st detail => { s with link := s.link.answerHead st detail }
  | .hold f => { s with link := { s.link with flight := some f } }
  | .restart =>
    { s with
      link :=
        { s.link with flight := some .restart }.placeReply
          { req.reply .done [] with ofRestart := true } }

/-- The service of a request: nothing when it is not its turn, a wait at the head while it cannot be served, else its common
checks, its own rule and its reply. -/
def serve (req : Request) (own : List Byte → State → Service) (s : State) : State :=
  match s.atHead req with
  | none => s
  | some t => if t.canServe then finishService req t (commonChecks req own t) else t

end Sys2Proof.Machine
end

