-- ==== Sys2Proof/Machine/Clock.lean ====
section
/-! DEFINITION. The sample timer and what counts at its instants: HARD_RESET, SET_INSTANT, SAMPLE_COUNT_WRAP, LINK_DOWN and
MODERATION_TIMER_EXPIRY (R20, R27, R28, R178, R180). -/

namespace Sys2Proof.Machine

open Sys2Proof

/-- The timer at the next nominal instant (R27). -/
def SampleTimer.advance (f : Frequency) (t : SampleTimer) : SampleTimer :=
  if t.count + 1 < f.ncount then
    { t with count := t.count + 1, period := f.period (t.count + 1) }
  else
    { t with count := 0, second := (t.second + 1) % 65536, period := f.period 0 }

/-- A port at a nominal instant: one more set of silence, DOWN at 24 (R20). -/
def PortState.silent (p : PortState) : PortState :=
  { p with
    silence := min (p.silence + 1) Config.silenceMax
    link := if Config.silenceMax ≤ p.silence + 1 then .down else p.link }

/-- A nominal set instant; a timer that is STOPPED marks none (R20, R27, R28, R29, R180). -/
def nominalInstant (s : State) : State :=
  if s.timer.running then
    let timer := s.timer.advance s.yard.frequency
    moderate
      { s with
        timer := timer
        lines := { s.lines with sync := decide (timer.count = 0) }
        ports := s.ports.map PortState.silent }
  else s

/-- HARD_RESET (R178, R166): every block at its hard-reset value, the straps read. The commands that wait are the model's own
(log 17). -/
def execHardReset (rate1 rate0 : Bool) (s : State) : Host.Outcome State Fault Refusal :=
  .next { State.reset with pending := s.pending, rate := BitVec.ofNat 2 (2 * rate1.toNat + rate0.toNat) }

/-- SET_INSTANT (R27). -/
def execSetInstant (s : State) : Host.Outcome State Fault Refusal :=
  .next (nominalInstant s)

/-- SAMPLE_COUNT_WRAP (R27): the nominal instant at which the count wraps; no event while the count is not at its last value
(log 2, log 3). -/
def execSampleCountWrap (s : State) : Host.Outcome State Fault Refusal :=
  .next (if s.yard.frequency.ncount ≤ s.timer.count + 1 then nominalInstant s else s)

/-- LINK_DOWN (R20): the nominal instant at which the port, UP until now, goes DOWN; no event at any other (log 2, log 3). -/
def execLinkDown (port : Port) (s : State) : Host.Outcome State Fault Refusal :=
  .next (if (s.ports.get port).link = .up ∧ Config.silenceMax ≤ (s.ports.get port).silence + 1 then nominalInstant s else s)

/-- The moderation timer of a class. -/
def ControlLink.moderated (l : ControlLink) : Moderated → NoticeClass
  | .alarm => l.alarm
  | .topology => l.topology

/-- Whether the next nominal instant brings the timer of a class to 0 (R180). -/
def NoticeClass.expiresNext (c : NoticeClass) : Bool :=
  match c.timer with
  | none => false
  | some k => decide (k ≤ 1)

/-- MODERATION_TIMER_EXPIRY (R180): the nominal instant at which the class's timer reaches 0; no event at any other (log 2,
log 3). -/
def execModerationTimerExpiry (cls : Moderated) (s : State) : Host.Outcome State Fault Refusal :=
  .next (if (s.link.moderated cls).expiresNext then nominalInstant s else s)

end Sys2Proof.Machine
end

