-- ==== Sys2Proof/Machine/Alignment.lean ====
section
/-! DEFINITION. Process ports and alignment store (02_bay_streams_and_sample_alignment.md): PORT_FRAME_RECEIVED, TRIP_FRAME_SENT
and SET_CLOSE, with the scaling of R80. -/

namespace Sys2Proof.Machine

open Sys2Proof

/-! ### Port receivers and stream table -/

/-- The sample of a bay frame (R18, R186). -/
def sampleOf (f : BayFrame) : Sample where
  currents := f.currents
  contacts :=
    { isoA := ⟨f.contacts.getLsbD 0, f.contacts.getLsbD 1⟩
      isoB := ⟨f.contacts.getLsbD 2, f.contacts.getLsbD 3⟩
      breaker := ⟨f.contacts.getLsbD 4, f.contacts.getLsbD 5⟩ }
  bfStart := f.flags.getLsbD 1

/-- Whether an entry admits a port (R22). -/
def Admit.accepts (a : Admit) (p : Port) : Bool :=
  match a, p with
  | .x, .x => true
  | .x, .y => false
  | .y, .x => false
  | .y, .y => true
  | .either, _ => true

/-- Whether an entry is enabled and holds the identifier (R26). -/
def entryMatches (identifier : BitVec 32) : Option StreamEntry → Bool
  | none => false
  | some e => e.enabled && decide (e.identifier = identifier)

/-- The index of the enabled entry with the identifier (R26). -/
def lookupStream (streams : Table 26 (Option StreamEntry)) (identifier : BitVec 32) : Option (Fin 26) :=
  (List.finRange 26).find? (fun i => entryMatches identifier (streams.get i))

/-- What becomes of a sample placed by its offset (R32). -/
inductive Placement where
  | taken
  | duplicate
  | late
  | early
deriving DecidableEq, Repr

/-- The offset of a count from c0 (R32). -/
def offsetOf (ncount c0 count : Nat) : Nat :=
  (count + ncount - c0) % ncount

/-- The disposal of a sample for a slot at an offset (R32). -/
def placement (cells : Table 8 (Table 26 (Option Sample))) (ncount offset : Nat) (slot : Slot) : Placement :=
  if h : offset < 8 then
    if ((cells.get ⟨offset, h⟩).get slot).isSome then .duplicate else .taken
  else if ncount / 2 ≤ offset then .late
  else .early

/-- The counter of a disposal (R32). -/
def StreamCounters.count (p : Placement) (c : StreamCounters) : StreamCounters :=
  match p with
  | .taken => { c with taken := bump c.taken }
  | .duplicate => { c with duplicate := bump c.duplicate }
  | .late => { c with late := bump c.late }
  | .early => { c with early := bump c.early }

/-- A sample is placed in the open set at an offset. -/
def putSample (cells : Table 8 (Table 26 (Option Sample))) (offset : Nat) (slot : Slot) (smp : Sample) :
    Table 8 (Table 26 (Option Sample)) :=
  if h : offset < 8 then cells.modify ⟨offset, h⟩ (fun row => row.set slot (some smp)) else cells

/-- The alignment store takes a sample under the entry that matched (R32). -/
def placeSample (i : Fin 26) (e : StreamEntry) (f : BayFrame) (s : State) : State :=
  let ncount := s.yard.frequency.ncount
  let offset := offsetOf ncount s.store.c0 f.count
  let p := placement s.store.cells ncount offset e.slot
  { s with
    streams := s.streams.set i (some { e with counters := e.counters.count p })
    store :=
      match p with
      | .taken => { s.store with cells := putSample s.store.cells offset e.slot (sampleOf f) }
      | _ => s.store }

/-- The stream table disposes of a VALID bay frame (R26). -/
def streamFrame (port : Port) (f : BayFrame) (s : State) : State :=
  match lookupStream s.streams f.identifier with
  | none => { s with ports := s.ports.modify port (fun p => { p with unknownId := bump p.unknownId }) }
  | some i =>
    match s.streams.get i with
    | none => s
    | some e =>
      if e.admitted.accepts port = false then
        { s with ports := s.ports.modify port (fun p => { p with wrongPort := bump p.wrongPort }) }
      else if f.flags.getLsbD 0 then
        { s with ports := s.ports.modify port (fun p => { p with invalid := bump p.invalid }) }
      else placeSample i e f s

/-- The bay frame that a string of bytes is, with a sample count below Ncount (R19). -/
def validBayFrame (ncount : Nat) (frame : List Byte) : Option BayFrame :=
  match readBayFrame frame with
  | none => none
  | some f => if f.count < ncount then some f else none

/-- A frame received whole on a port (R19, R20, R26, R32). -/
def receiveFrame (port : Port) (frame : List Byte) (s : State) : State :=
  if crc32Holds frame then
    let heard : PortState → PortState := fun p => { p with link := .up, silence := 0 }
    match validBayFrame s.yard.frequency.ncount frame with
    | none => { s with ports := s.ports.modify port (fun p => { heard p with badFormat := bump p.badFormat }) }
    | some f =>
      let t := { s with ports := s.ports.modify port (fun p => { heard p with valid := bump p.valid }) }
      match s.mode with
      | .halted => t
      | .setup | .run => streamFrame port f t
  else { s with ports := s.ports.modify port (fun p => { p with badCrc := bump p.badCrc }) }

/-- PORT_FRAME_RECEIVED (R19). -/
def execPortFrameReceived (port : Port) (frame : List Byte) (s : State) : Host.Outcome State Fault Refusal :=
  .next (receiveFrame port frame s)

/-- The frame on the fibre is finished and the one waiting starts (R21). -/
def PortState.sent (p : PortState) : PortState :=
  match p.fibre with
  | none => p
  | some _ => { p with fibre := p.waiting.map TripFrame.bytes, waiting := none }

/-- TRIP_FRAME_SENT (R21). -/
def execTripFrameSent (port : Port) (s : State) : Host.Outcome State Fault Refusal :=
  .next { s with ports := s.ports.modify port PortState.sent }

/-! ### Scaling (R35, R80) -/

/-- The clamp of R35. -/
def clampRaw (raw : BitVec 16) : Int :=
  max raw.toInt (-32767)

/-- Whether the clamp of R35 acts. -/
def clamped (raw : BitVec 16) : Bool :=
  decide (raw.toInt < -32767)

/-- The sign of a polarity (R5). -/
def Polarity.sign : Polarity → Int
  | .plus => 1
  | .minus => -1

/-- The product divided by 16,384, rounded to nearest with a half away from zero (R80). -/
def roundScaled (product : Int) : Int :=
  let m : Nat := (product.natAbs + 8192) / 16384
  if product < 0 then -(m : Int) else (m : Int)

/-- The scaled current (R80). -/
def scaleRaw (r : BayRecord) (raw : BitVec 16) : Int :=
  roundScaled (clampRaw raw * r.polarity.sign * (r.ratio : Int))

/-- The ring entry of a received sample (R36). -/
def presentEntry (r : BayRecord) (smp : Sample) : RingEntry where
  currents := smp.currents.map (scaleRaw r)
  mark := .present
  mismatch := false

/-- How many phases of a sample the clamp acts on (R35). -/
def clampCount (smp : Sample) : Nat :=
  smp.currents.cells.countP clamped

/-! ### The close, slot by slot (R35 to R41) -/

/-- What the close decides for a slot: what the store keeps, what is published, what the stream entry counts, and whether a read
found a parity mismatch. -/
structure SlotClose where
  store : BayStore
  contacts : Option Contacts
  bfStart : Bool
  clamps : Nat
  substituted : Bool
  mismatch : Bool
deriving DecidableEq, Repr

/-- One more set since the last substitution (R41). -/
def sinceMore (b : BayStore) : Nat :=
  min (b.sinceSub + 1) Config.recoverySets

/-- A received sample of a slot that is not LOST (R36). -/
def closeReceived (r : BayRecord) (b : BayStore) (smp : Sample) : SlotClose where
  store := { b with ring := b.ring.push (presentEntry r smp), gap := 0, bfStart := smp.bfStart, sinceSub := sinceMore b }
  contacts := some smp.contacts
  bfStart := smp.bfStart
  clamps := clampCount smp
  substituted := false
  mismatch := false

/-- A received sample of a LOST slot (R39): the 24th in a row ends LOST, and the count then
stands at 24 (log 26). -/
def closeRecovering (r : BayRecord) (b : BayStore) (smp : Sample) : SlotClose where
  store :=
    { ring := b.ring.push (presentEntry r smp)
      gap := 0
      recovery := min (b.recovery + 1) Config.recoverySets
      lost := decide (b.recovery + 1 < Config.recoverySets)
      bfStart := smp.bfStart
      sinceSub := sinceMore b }
  contacts := some smp.contacts
  bfStart := smp.bfStart
  clamps := clampCount smp
  substituted := false
  mismatch := false

/-- The entry for set n - 24, which stands at depth 23 before the close of set n is written (R34, R37). -/
def substituteSource (b : BayStore) : RingEntry :=
  b.ring.get 23

/-- A first or second miss in a row (R37); where the entry read is in parity mismatch, zeros take the copy's place (R154;
log 7). -/
def closeSubstituted (b : BayStore) : SlotClose :=
  let e := substituteSource b
  { store :=
      { b with
        ring := b.ring.push (if e.mismatch then RingEntry.zero else { e with mark := .substituted })
        gap := b.gap + 1
        sinceSub := if e.mismatch then sinceMore b else 0 }
    contacts := none
    bfStart := b.bfStart
    clamps := 0
    substituted := true
    mismatch := e.mismatch }

/-- The third miss in a row: the slot becomes LOST (R38). -/
def closeLost (b : BayStore) : SlotClose where
  store :=
    { b with ring := b.ring.push RingEntry.zero, recovery := 0, lost := true, bfStart := false, sinceSub := sinceMore b }
  contacts := none
  bfStart := false
  clamps := 0
  substituted := false
  mismatch := false

/-- A miss of a LOST slot (R39). -/
def closeStillLost (b : BayStore) : SlotClose where
  store := { b with ring := b.ring.push RingEntry.zero, recovery := 0, sinceSub := sinceMore b }
  contacts := none
  bfStart := false
  clamps := 0
  substituted := false
  mismatch := false

/-- An UNUSED slot: its cell is discarded and nothing is stored or published (R35; log 24). -/
def closeUnused (b : BayStore) : SlotClose where
  store := b
  contacts := none
  bfStart := false
  clamps := 0
  substituted := false
  mismatch := false

/-- The path of a slot at a close (the table before R35). -/
def closeSlot (r : BayRecord) (cell : Option Sample) (b : BayStore) : SlotClose :=
  if r.kind.used then
    match cell with
    | some smp => if b.lost then closeRecovering r b smp else closeReceived r b smp
    | none => if b.lost then closeStillLost b else if b.gap ≤ 1 then closeSubstituted b else closeLost b
  else closeUnused b

/-- The SUBSTITUTED and OVERRANGE counters of an entry at a close (R35, R37). -/
def StreamEntry.countClose (closes : Table 26 SlotClose) (e : StreamEntry) : StreamEntry :=
  let c := closes.get e.slot
  { e with
    counters :=
      { e.counters with
        substituted := bumpBy c.substituted.toNat e.counters.substituted
        overrange := bumpBy c.clamps e.counters.overrange } }

/-! ### The close -/

/-- A ring entry is upset: a later read of it finds a parity mismatch (log 6). -/
def BayStore.upset (depth : Fin 32) (b : BayStore) : BayStore :=
  { b with ring := b.ring.modify depth (fun e => { e with mismatch := true }) }

/-- The ring entries named are upset. -/
def applyUpsets (upsets : List Upset) (s : State) : State :=
  { s with
    store :=
      { s.store with
        slots := upsets.foldl (fun slots u => slots.modify u.slot (BayStore.upset u.depth)) s.store.slots } }

/-- Set periods since the nominal instant of c0 (R33; log 13). -/
def setsSinceC0 (s : State) : Nat :=
  offsetOf s.yard.frequency.ncount s.store.c0 s.timer.count

/-- R33: the deadline of c0 is reached and no earlier set is in evaluation; a STOPPED timer reaches no deadline. -/
def closeDue (s : State) : Bool :=
  s.timer.running && s.published.isNone && decide (s.yard.alignDelay ≤ setsSinceC0 s)

/-- The stamp of c0: the second count in force at its nominal instant (R27). -/
def stampOfC0 (s : State) : Stamp where
  second := if s.store.c0 ≤ s.timer.count then s.timer.second else (s.timer.second + 65535) % 65536
  count := s.store.c0

/-- Entry to RUN (R174). -/
def enterRun (s : State) : State :=
  driveLines
    { s with
      mode := .run
      evaluator := { s.evaluator with operate := Table.fill 4 (Table.fill 3 0), checkOperate := Table.fill 3 0 }
      detectors := Detectors.reset
      trip := s.trip.clearLatches
      bf := idleTimers }

/-- Return from RUN to SETUP (R174). -/
def returnToSetup (s : State) : State :=
  driveLines
    { s with
      mode := .setup
      trip := s.trip.clearLatches
      bf := idleTimers }

/-- What the taking of a close does to the request in flight: BANK-APPLY is copied and answered (R16), MODE is made and answered
(R173), SETTLE notes the close (R176). -/
def closeFlight (s : State) : State :=
  match s.link.flight with
  | some .bankApply =>
    let t := copyBank s
    { t with link := t.link.answerHead .done [] }
  | some (.mode toRun) =>
    let t := if toRun then enterRun s else returnToSetup s
    { t with link := t.link.answerHead .done [] }
  | some (.settle _) => { s with link := { s.link with flight := some (.settle true) } }
  | some .restart => s
  | none => s

/-- What the close decides for every slot. -/
def slotCloses (s : State) : Table 26 SlotClose :=
  Table.build (fun b => closeSlot (s.bays.get b) ((s.store.cells.get 0).get b) (s.store.slots.get b))

/-- The store decides every slot, writes the rings and advances c0 (R33 to R41). -/
def writeClose (s : State) : State :=
  { s with
    streams := s.streams.map (Option.map (StreamEntry.countClose (slotCloses s)))
    store :=
      { c0 := (s.store.c0 + 1) % s.yard.frequency.ncount
        cells := s.store.cells.shift (Table.fill 26 none)
        slots := (slotCloses s).map SlotClose.store
        lastClosed := some (stampOfC0 s) } }

/-- Whether a read of the close finds a parity mismatch (R37, R154). -/
def closeMismatch (s : State) : Bool :=
  (slotCloses s).cells.any SlotClose.mismatch

/-- The set that the close publishes (R40). -/
def publication (s : State) : Published where
  stamp := stampOfC0 s
  contacts := (slotCloses s).map SlotClose.contacts
  bfStart := (slotCloses s).map SlotClose.bfStart
  runAtClose := decide (s.mode = .run)

/-- The close is written, and the set is published unless a read found a parity mismatch (R33, R40, R154). -/
def closeStore (s : State) : State :=
  if closeMismatch s then reportCheck .storeParity (writeClose s)
  else { writeClose s with published := some (publication s) }

/-- The close of set c0 (R33; log 8 for its order). -/
def closeSet (s : State) : State :=
  closeStore (closeFlight s)

/-- SET_CLOSE (R33): no event while R33 allows no close (log 2). -/
def execSetClose (upsets : List Upset) (s : State) : Host.Outcome State Fault Refusal :=
  .next (if closeDue s then closeSet (applyUpsets upsets s) else applyUpsets upsets s)

end Sys2Proof.Machine
end

