-- ==== Sys2Proof/Machine/Positions.lean ====
section
/-! DEFINITION. The position replica's work on a set (03_position_replica.md, R44 to R57). -/

namespace Sys2Proof.Machine

open Sys2Proof

/-- Contact decoding (R44). -/
def ContactPair.decode (p : ContactPair) : Position :=
  match p.closed, p.opened with
  | true, false => .closed
  | false, true => .opened
  | false, false => .travel
  | true, true => .invalid

/-- The zoning position of a feeder isolator: the forced value if there is one, else the decoded or held state, and every state
but OPEN counts as closed (R48, R50). -/
def zoningClosed (forced : Forced) (p : Position) : Bool :=
  match forced with
  | .closed => true
  | .opened => false
  | .none => decide (p ≠ .opened)

/-- A count of sets with a state, stopping at a maximum; any other state sets it to 0 (R51, R52, R53, R54). -/
def countWhile (holds : Bool) (stop n : Nat) : Nat :=
  if holds then min (n + 1) stop else 0

/-- The three positions of a set: decoded where contact pairs are published, held where none are (R46). -/
def SlotPositions.observe (c : Option Contacts) (q : SlotPositions) : SlotPositions :=
  match c with
  | none => { q with received := false }
  | some c =>
    { q with isoA := c.isoA.decode, isoB := c.isoB.decode, breaker := c.breaker.decode, received := true }

/-- The counts, zoning positions and causes of a feeder (R48, R50 to R52). -/
def SlotPositions.feeder (bank : Bank) (q : SlotPositions) : SlotPositions :=
  let travelA := countWhile (decide (q.isoA = .travel)) Config.travelMax q.travelA
  let travelB := countWhile (decide (q.isoB = .travel)) Config.travelMax q.travelB
  let invalidA := countWhile (decide (q.isoA = .invalid)) Config.invalidMax q.invalidA
  let invalidB := countWhile (decide (q.isoB = .invalid)) Config.invalidMax q.invalidB
  { q with
    travelA := travelA
    travelB := travelB
    invalidA := invalidA
    invalidB := invalidB
    closedA := zoningClosed q.forcedA q.isoA
    closedB := zoningClosed q.forcedB q.isoB
    causeTravel := decide (bank.travelSets ≤ travelA) || decide (bank.travelSets ≤ travelB)
    causeInvalid := decide (invalidA = Config.invalidMax) || decide (invalidB = Config.invalidMax)
    causeForced := decide (q.forcedA ≠ .none) || decide (q.forcedB ≠ .none) }

/-- The counts, exclusion and cause of a junction (R48, R53, R54). -/
def SlotPositions.junction (bank : Bank) (q : SlotPositions) : SlotPositions :=
  let openSettle := countWhile (decide (q.breaker = .opened)) Config.openSettleMax q.openSettle
  let invalidBreaker := countWhile (decide (q.breaker = .invalid)) Config.invalidMax q.invalidBreaker
  { q with
    openSettle := openSettle
    invalidBreaker := invalidBreaker
    excluded := decide (q.breaker = .opened) && decide (bank.openSettleSets ≤ openSettle)
    causeBreaker := decide (invalidBreaker = Config.invalidMax) }

/-- The replica of one slot for a set; an UNUSED slot does not change (R44 to R46). -/
def SlotPositions.derive (bank : Bank) (k : BayKind) (c : Option Contacts) (q : SlotPositions) : SlotPositions :=
  match k with
  | .unused => q
  | .feeder _ => (q.observe c).feeder bank
  | .junction _ _ => (q.observe c).junction bank

/-- Stage 1 of a set's evaluation: the positions of the set (R46). -/
def deriveReplica (p : Published) (s : State) : State :=
  { s with
    replica :=
      { slots :=
          Table.build
            (fun b => (s.replica.slots.get b).derive s.active (s.bays.get b).kind (p.contacts.get b))
        stamp := some p.stamp } }

end Sys2Proof.Machine
end

