-- ==== Sys2Proof/Machine/Zones.lean ====
section
/-! DEFINITION. The zone assembler's work on a set (04_zone_assembly.md, R61 to R74). -/

namespace Sys2Proof.Machine

open Sys2Proof

/-- What the assembler reads: SECTIONS, the bay table and the replica's results (R67). -/
structure ZoneInput where
  sections : SectionCount
  bays : Table 26 BayRecord
  positions : Table 26 SlotPositions

/-- Both sections of a side are in use (R61, R63). -/
def ZoneInput.sideInUse (z : ZoneInput) (k : Side) : Bool :=
  z.sections.inUse k.busA && z.sections.inUse k.busB

/-- A linking feeder of a side (R61). -/
def ZoneInput.links (z : ZoneInput) (k : Side) (b : Slot) : Bool :=
  decide ((z.bays.get b).kind = .feeder k) && (z.positions.get b).closedA && (z.positions.get b).closedB && z.sideInUse k

/-- The two sections of a side are linked (R62). -/
def ZoneInput.linked (z : ZoneInput) (k : Side) : Bool :=
  allSlots.any (z.links k)

/-- The side that a section belongs to (R4). -/
def sideOf (s : Bus) : Side :=
  if s.val < 2 then .one else .two

/-- The name of zone(s): the lowest index among its sections (R62). -/
def ZoneInput.zoneName (z : ZoneInput) (s : Bus) : Bus :=
  if z.linked (sideOf s) then (sideOf s).busA else s

/-- The zone that a feeder is a member of, by its name (R63). -/
def ZoneInput.feederZone (z : ZoneInput) (k : Side) (q : SlotPositions) : Option Bus :=
  if z.sideInUse k then
    if q.closedA then some (z.zoneName k.busA)
    else if q.closedB then some (z.zoneName k.busB)
    else none
  else none

/-- The role of a junction (R64). -/
def ZoneInput.role (z : ZoneInput) (j : Junction) (q : SlotPositions) : Role :=
  if (z.sections.inUse j.first && z.sections.inUse j.second) = false then .outOfUse
  else if q.excluded then .excluded
  else if z.zoneName j.first = z.zoneName j.second then .internal
  else .member

/-- The entry of a slot in the member list of zone g, if it is a member (R63, R64). -/
def ZoneInput.memberOf (z : ZoneInput) (g : Bus) (b : Slot) : Option Member :=
  match (z.bays.get b).kind with
  | .unused => none
  | .feeder k => if z.feederZone k (z.positions.get b) = some g then some ⟨b, false⟩ else none
  | .junction j c =>
    match z.role j (z.positions.get b) with
    | .member =>
      if z.zoneName (j.ct c) = g then some ⟨b, true⟩
      else if z.zoneName (j.far c) = g then some ⟨b, false⟩
      else none
    | .internal => none
    | .excluded => none
    | .outOfUse => none

/-- The member list of zone g, in ascending order of slot (R65). -/
def ZoneInput.members (z : ZoneInput) (g : Bus) : List Member :=
  allSlots.filterMap (z.memberOf g)

/-- The check zone member list: every FEEDER (R66). -/
def ZoneInput.checkMembers (z : ZoneInput) : List Member :=
  allSlots.filterMap (fun b => if (z.bays.get b).kind.isFeeder then some ⟨b, false⟩ else none)

/-- The section set of zone g (R62). -/
def ZoneInput.buses (z : ZoneInput) (g : Bus) : BusSet :=
  BitVec.ofFnLE (fun s => z.sections.inUse s && decide (z.zoneName s = g))

/-- The zone of a set that holds a section. -/
def Topology.zoneOf (t : Topology) (s : Bus) : Option Zone :=
  t.zones.find? (fun z => z.buses.getLsbD s.val)

/-- The change mark of a section in use (R68). -/
def ZoneInput.marked (z : ZoneInput) (before : Option Topology) (s : Bus) : Bool :=
  match before with
  | none => true
  | some t =>
    match t.zoneOf s with
    | none => true
    | some old => decide (z.buses (z.zoneName s) ≠ old.buses) || decide (z.members (z.zoneName s) ≠ old.members)

/-- The change mark of any section; one not in use carries none (R68). -/
def ZoneInput.mark (z : ZoneInput) (before : Option Topology) (s : Bus) : Bool :=
  z.sections.inUse s && z.marked before s

/-- A zone is changed when one of its sections is marked (R68). -/
def ZoneInput.zone (z : ZoneInput) (before : Option Topology) (g : Bus) : Zone where
  name := g
  buses := z.buses g
  members := z.members g
  changed := allBuses.any (fun s => (z.buses g).getLsbD s.val && z.mark before s)

/-- The zones in ascending order of name (R62). -/
def ZoneInput.zones (z : ZoneInput) (before : Option Topology) : List Zone :=
  (allBuses.filter (fun g => z.sections.inUse g && decide (z.zoneName g = g))).map (z.zone before)

/-- Whether a slot has its breaker in the trip scope of a section in use (R71). -/
def ZoneInput.inScope (z : ZoneInput) (s : Bus) (b : Slot) : Bool :=
  z.sections.inUse s &&
    match (z.bays.get b).kind with
    | .unused => false
    | .feeder k =>
      (decide (s = k.busA) && (z.positions.get b).closedA) || (decide (s = k.busB) && (z.positions.get b).closedB)
    | .junction j _ => decide (s = j.first) || decide (s = j.second)

/-- The trip scope of a section (R71). -/
def ZoneInput.scope (z : ZoneInput) (s : Bus) : Bitmap :=
  BitVec.ofFnLE (z.inScope s)

/-- The connected sections of a bay (R72). -/
def ZoneInput.connectedTo (z : ZoneInput) (b : Slot) : BusSet :=
  match (z.bays.get b).kind with
  | .unused => 0
  | .feeder k =>
    BitVec.ofFnLE (fun s => z.sections.inUse s &&
      ((decide (s = k.busA) && (z.positions.get b).closedA) || (decide (s = k.busB) && (z.positions.get b).closedB)))
  | .junction j _ => BitVec.ofFnLE (fun s => z.sections.inUse s && (decide (s = j.first) || decide (s = j.second)))

/-- The role of a slot, for JUNCTION slots (R64, R73). -/
def ZoneInput.roleOf (z : ZoneInput) (b : Slot) : Option Role :=
  match (z.bays.get b).kind with
  | .unused => none
  | .feeder _ => none
  | .junction j _ => some (z.role j (z.positions.get b))

/-- The assembler's results for a set (R67). -/
def ZoneInput.derive (z : ZoneInput) (before : Option Topology) (stamp : Stamp) : Topology where
  stamp := stamp
  sections := z.sections
  zones := z.zones before
  marks := Table.build (z.mark before)
  checkMembers := z.checkMembers
  checkChanged :=
    match before with
    | none => true
    | some t => decide (z.checkMembers ≠ t.checkMembers)
  scopes := Table.build z.scope
  connected := Table.build z.connectedTo
  roles := Table.build z.roleOf

/-- Whether the zone of the set before with the same section set had another member list (R74). -/
def Topology.listDiffers (before : Topology) (z : Zone) : Bool :=
  match before.zones.find? (fun o => decide (o.buses = z.buses)) with
  | none => false
  | some o => decide (o.members ≠ z.members)

/-- The TOPOLOGY notice cause of a set (R74). -/
def topologyCause (before : Option Topology) (now : Topology) : Bool :=
  match before with
  | none => true
  | some t =>
    decide (t.zones.map Zone.buses ≠ now.zones.map Zone.buses)
      || now.zones.any t.listDiffers
      || decide (t.checkMembers ≠ now.checkMembers)

/-- What the assembler reads in a state. -/
def State.zoneInput (s : State) : ZoneInput where
  sections := s.yard.sections
  bays := s.bays
  positions := s.replica.slots

/-- The assembler's results for the set with a stamp, from the state its positions are derived in (R67). -/
def newTopology (stamp : Stamp) (s : State) : Topology :=
  s.zoneInput.derive s.topology stamp

/-- Stage 2 of a set's evaluation: the zones and memberships of the set, and the TOPOLOGY notice cause (R67, R74). -/
def assembleZones (stamp : Stamp) (s : State) : State :=
  let t : State := { s with topology := some (newTopology stamp s) }
  if topologyCause s.topology (newTopology stamp s) then causeTopology t else t

end Sys2Proof.Machine
end

