-- ==== Sys2Proof/Machine/Flags.lean ====
section
/-! DEFINITION. The measured sums and every flag computed from them: d, r, D, R (R82, R84), the operate comparisons (R88, R95), the
operate counters and flags (R90, R91), the suspect flags (R100, R101), the bay current and its judgement (R98, R99), and the
detector's tests and transitions (R107 to R111, R113). -/

namespace Sys2Proof.Machine

open Sys2Proof

/-! ### Sums (R82, R84) -/

/-- The ring entry of a slot at a depth. -/
def ringEntry (slots : Table 26 BayStore) (b : Slot) (i : Fin 32) : RingEntry :=
  (slots.get b).ring.get i

/-- The phase current of a slot at a depth. -/
def current (slots : Table 26 BayStore) (b : Slot) (i : Fin 32) (p : Phase) : Int :=
  (ringEntry slots b i).currents.get p

/-- A current under a member's sign (R82). -/
def Member.signed (m : Member) (c : Int) : Int :=
  if m.minus then -c else c

/-- The differential d of one stored set (R82). -/
def sumD (slots : Table 26 BayStore) (ms : List Member) (p : Phase) (i : Fin 32) : Int :=
  (ms.map (fun m => m.signed (current slots m.slot i p))).sum

/-- The restraint r of one stored set (R82). -/
def sumR (slots : Table 26 BayStore) (ms : List Member) (p : Phase) (i : Fin 32) : Nat :=
  (ms.map (fun m => (current slots m.slot i p).natAbs)).sum

/-- The depths of the window, 0 to 11 (R84). -/
def windowDepths : List (Fin 32) :=
  (List.finRange 12).map (fun i => ⟨i.val, by omega⟩)

/-- The windowed differential D (R84). -/
def windowD (slots : Table 26 BayStore) (ms : List Member) (p : Phase) : Nat :=
  (windowDepths.map (fun i => (sumD slots ms p i).natAbs)).sum

/-- The windowed restraint R (R84). -/
def windowR (slots : Table 26 BayStore) (ms : List Member) (p : Phase) : Nat :=
  (windowDepths.map (fun i => sumR slots ms p i)).sum

/-! ### Operate comparison (R88, R95) -/

/-- The biased comparison of D and R with a pick-up and a slope in sixty-fourths. -/
def operateHolds (idmin slope d r : Nat) : Bool :=
  decide (12 * idmin ≤ d) && decide (slope * r ≤ 64 * d)

/-- The slope that a detector state selects (R88, R95, R112). -/
def slopeFor (state : DetectorState) (normal high : Nat) : Nat :=
  if state = .external then high else normal

/-- The update of an operate counter (R90, R95). -/
def countOperate (holds : Bool) (n counter : Nat) : Nat :=
  if holds then min (counter + 1) n else 0

/-- The settings of one comparison: pick-up, normal slope, high slope, operate sets. -/
structure Comparison where
  idmin : Nat
  slope : Nat
  slopeHigh : Nat
  sets : Nat
deriving DecidableEq, Repr

/-- The comparison of a zone (R88). -/
def Bank.zoneComparison (b : Bank) : Comparison :=
  ⟨b.zoneIdmin, b.zoneSlope, b.zoneSlopeHigh, b.zoneOperateSets⟩

/-- The comparison of the check zone (R95). -/
def Bank.checkComparison (b : Bank) : Comparison :=
  ⟨b.checkIdmin, b.checkSlope, b.checkSlopeHigh, b.checkOperateSets⟩

/-- Whether C holds for a member list and phase with a detector state (R88, R95). -/
def Comparison.holds (c : Comparison) (slots : Table 26 BayStore) (ms : List Member) (p : Phase) (state : DetectorState) : Bool :=
  operateHolds c.idmin (slopeFor state c.slope c.slopeHigh) (windowD slots ms p) (windowR slots ms p)

/-- The results of one phase, with the counter after its update (R82, R84, R88, R91, R95, R100 to R102). -/
def Comparison.result (c : Comparison) (supIdmin : Nat) (slots : Table 26 BayStore) (ms : List Member) (p : Phase)
    (state : DetectorState) (counter : Nat) : PhaseResult where
  setDiff := sumD slots ms p 0
  setRestraint := sumR slots ms p 0
  diff := windowD slots ms p
  restraint := windowR slots ms p
  held := c.holds slots ms p state
  highSlope := decide (state = .external)
  detector := state
  counter := counter
  operates := decide (counter = c.sets)
  suspect := decide (12 * supIdmin ≤ windowD slots ms p) && decide (counter < c.sets)

/-! ### Bay current (R98, R99) -/

/-- The sum of a phase's magnitudes over the window (R98). -/
def phaseCurrent (slots : Table 26 BayStore) (b : Slot) (p : Phase) : Nat :=
  (windowDepths.map (fun i => (current slots b i p).natAbs)).sum

/-- b_cur (R98). -/
def bayCurrent (slots : Table 26 BayStore) (b : Slot) : Nat :=
  max (phaseCurrent slots b 0) (max (phaseCurrent slots b 1) (phaseCurrent slots b 2))

/-- Current present or absent (R99). -/
def currentPresent (k : BayKind) (lost : Bool) (breaker : Position) (bCur bfCurrent : Nat) : Bool :=
  if lost then
    match k with
    | .unused => false
    | .feeder _ => true
    | .junction _ _ => decide (breaker ≠ .opened)
  else decide (12 * bfCurrent ≤ bCur)

/-! ### External fault detector (R107 to R111, R113) -/

/-- The restraint test (R107). -/
def restraintTest (bank : Bank) (r : Nat) : Bool :=
  decide (bank.extRestraint ≤ r)

/-- The ratio test (R107). -/
def ratioTest (bank : Bank) (d : Int) (r : Nat) : Bool :=
  decide (64 * d.natAbs < bank.extRatio * r)

/-- One transition of a detector on the d and r of a set (R108 to R111). -/
def Detector.transition (bank : Bank) (d : Int) (r : Nat) (x : Detector) : Detector :=
  match x.state with
  | .quiet =>
    if restraintTest bank r then
      if ratioTest bank d r then ⟨.watch, 0⟩ else ⟨.settle, 0⟩
    else ⟨.quiet, 0⟩
  | .watch => if restraintTest bank r && ratioTest bank d r then ⟨.external, bank.extHold⟩ else ⟨.settle, 0⟩
  | .external => if 1 < x.hold then ⟨.external, x.hold - 1⟩ else ⟨.settle, 0⟩
  | .settle => if 2 * r < bank.extRestraint then ⟨.quiet, 0⟩ else ⟨.settle, 0⟩

/-- The largest hold count among the detectors in EXTERNAL (R113). -/
def largestHold (ds : List Detector) : Nat :=
  (ds.map (fun x => if x.state = .external then x.hold else 0)).foldr max 0

/-- The state and hold count that a changed zone takes from its sections (R113). -/
def mergeDetectors (ds : List Detector) : Detector :=
  if ds.any (fun x => decide (x.state = .external)) then ⟨.external, largestHold ds⟩
  else if ds.any (fun x => decide (x.state = .settle)) then ⟨.settle, 0⟩
  else if ds.any (fun x => decide (x.state = .watch)) then ⟨.settle, 0⟩
  else ⟨.quiet, 0⟩

end Sys2Proof.Machine
end

