-- ==== Sys2Proof/Machine/Differential.lean ====
section
/-! DEFINITION. The differential evaluator's and the external fault detector's work on a set (05_differential_measurement.md, R86
to R102; 06_external_fault_detection.md, R106, R113 to R115). -/

namespace Sys2Proof.Machine

open Sys2Proof

/-- The sections of a zone, in ascending order. -/
def Zone.list (z : Zone) : List Bus :=
  allBuses.filter (fun s => z.buses.getLsbD s.val)

/-- The effect of the change marks on the operate counters (R70). -/
def Evaluator.restart (t : Topology) (e : Evaluator) : Evaluator :=
  { e with
    operate :=
      Table.build (fun s =>
        match t.zoneOf s with
        | none => e.operate.get s
        | some z => if z.changed then Table.fill 3 0 else e.operate.get s)
    checkOperate := if t.checkChanged then Table.fill 3 0 else e.checkOperate }

/-- Whether a read of the newest stored set of any member finds a parity mismatch (R87, R115). -/
def newestMismatch (slots : Table 26 BayStore) (t : Topology) : Bool :=
  t.zones.any (fun z => z.members.any (fun m => (ringEntry slots m.slot 0).mismatch))
    || t.checkMembers.any (fun m => (ringEntry slots m.slot 0).mismatch)

/-- Whether any read of the windows and bay currents of a set finds a parity mismatch (R87, R98). -/
def windowMismatch (slots : Table 26 BayStore) (bays : Table 26 BayRecord) : Bool :=
  allSlots.any (fun b => (bays.get b).kind.used && windowDepths.any (fun i => (ringEntry slots b i).mismatch))

/-- The detector of a zone and phase before its transition: merged when the zone is changed, else the one its sections hold
(R105, R113; log 23). -/
def zoneDetector (d : Detectors) (z : Zone) (p : Phase) : Detector :=
  if z.changed then mergeDetectors (z.list.map (fun s => (d.zones.get s).get p)) else (d.zones.get z.name).get p

/-- The check zone's detector of a phase before its transition (R114). -/
def checkDetector (d : Detectors) (changed : Bool) (p : Phase) : Detector :=
  if changed then mergeDetectors [d.check.get p] else d.check.get p

/-- Every detector acts on the newest stored set (R106); a section not in use is not acted on. -/
def Detectors.act (bank : Bank) (slots : Table 26 BayStore) (t : Topology) (d : Detectors) : Detectors where
  zones :=
    Table.build (fun s =>
      match t.zoneOf s with
      | none => d.zones.get s
      | some z =>
        Table.build (fun p =>
          (zoneDetector d z p).transition bank (sumD slots z.members p 0) (sumR slots z.members p 0)))
  check :=
    Table.build (fun p =>
      (checkDetector d t.checkChanged p).transition bank (sumD slots t.checkMembers p 0) (sumR slots t.checkMembers p 0))

/-- The operate counters after the comparisons of a set (R90, R95); a section not in use keeps its own (R93). -/
def Evaluator.update (bank : Bank) (slots : Table 26 BayStore) (t : Topology) (d : Detectors) (e : Evaluator) : Evaluator :=
  { e with
    operate :=
      Table.build (fun s =>
        match t.zoneOf s with
        | none => e.operate.get s
        | some z =>
          Table.build (fun p =>
            countOperate (bank.zoneComparison.holds slots z.members p ((d.zones.get z.name).get p).state)
              bank.zoneOperateSets ((e.operate.get z.name).get p)))
    checkOperate :=
      Table.build (fun p =>
        countOperate (bank.checkComparison.holds slots t.checkMembers p (d.check.get p).state)
          bank.checkOperateSets (e.checkOperate.get p)) }

/-- The results of a bay slot (R98, R99, R102). -/
def bayResult (s : State) (b : Slot) : Option BayResult :=
  if (s.bays.get b).kind.used then
    some
      { currents := (ringEntry s.store.slots b 0).currents
        mark := (ringEntry s.store.slots b 0).mark
        current := bayCurrent s.store.slots b
        present :=
          currentPresent (s.bays.get b).kind (s.store.slots.get b).lost (s.replica.slots.get b).breaker
            (bayCurrent s.store.slots b) (s.active.bfCurrent.get b) }
  else none

/-- The results of a set, from the counters after their update and the detectors after their action (R102). -/
def resultsOf (t : Topology) (s : State) : Results where
  stamp := t.stamp
  zones :=
    t.zones.map (fun z =>
      { name := z.name
        buses := z.buses
        phases :=
          Table.build (fun p =>
            s.active.zoneComparison.result s.active.supIdmin s.store.slots z.members p
              ((s.detectors.zones.get z.name).get p).state ((s.evaluator.operate.get z.name).get p)) })
  check :=
    Table.build (fun p =>
      s.active.checkComparison.result s.active.supIdmin s.store.slots t.checkMembers p
        (s.detectors.check.get p).state (s.evaluator.checkOperate.get p))
  bays := Table.build (bayResult s)

/-- How the evaluator's work on a set ended: whole, or abandoned on a parity mismatch (R87). -/
inductive Measured where
  | whole (s : State) (r : Results)
  | abandoned (s : State)

/-- Stage 3 of a set's evaluation: the change marks, the detectors, the comparisons and the results (R86, R89, R115). -/
def measureSet (t : Topology) (s : State) : Measured :=
  let s1 : State := { s with evaluator := s.evaluator.restart t }
  if newestMismatch s.store.slots t then .abandoned s1
  else
    let s2 : State := { s1 with detectors := s1.detectors.act s.active s.store.slots t }
    if windowMismatch s.store.slots s.bays then .abandoned s2
    else
      let s3 : State := { s2 with evaluator := s2.evaluator.update s.active s.store.slots t s2.detectors }
      .whole { s3 with evaluator := { s3.evaluator with results := some (resultsOf t s3) } } (resultsOf t s3)

end Sys2Proof.Machine
end

