-- ==== Sys2Proof/Machine/Supervise.lean ====
section
/-! DEFINITION. The supervision unit's work on a set (08_supervision_and_blocking.md, R139 to R152). -/

namespace Sys2Proof.Machine

open Sys2Proof

/-- The place of a code in the response table. -/
def Code.index : Code → Fin 9
  | .streamLost => 0
  | .streamGap => 1
  | .zoneCtSuspect => 2
  | .checkCtSuspect => 3
  | .isolatorTravel => 4
  | .isolatorInvalid => 5
  | .breakerInvalid => 6
  | .positionForced => 7
  | .portSilent => 8

/-- The nine codes in ascending order (R140). -/
def allCodes : List Code :=
  [.streamLost, .streamGap, .zoneCtSuspect, .checkCtSuspect, .isolatorTravel, .isolatorInvalid, .breakerInvalid,
    .positionForced, .portSilent]

/-- The scopes of the kind that R140 gives a code, in ascending order. -/
def Code.scopes : Code → List Scope
  | .zoneCtSuspect => allBuses.map Scope.bus
  | .checkCtSuspect => [.check]
  | .portSilent => [.port .x, .port .y]
  | .streamLost | .streamGap | .isolatorTravel | .isolatorInvalid | .breakerInvalid | .positionForced => allSlots.map Scope.bay

/-- Every pair of code and scope, in the order of the condition table (R139). -/
def conditionKeys : List (Code × Scope) :=
  allCodes.flatMap (fun c => c.scopes.map (fun sc => (c, sc)))

/-- Whether a code applies to a bay kind (R140). -/
def Code.appliesTo (c : Code) (k : BayKind) : Bool :=
  match c with
  | .streamLost | .streamGap => k.used
  | .isolatorTravel | .isolatorInvalid | .positionForced => k.isFeeder
  | .breakerInvalid => k.isJunction
  | .zoneCtSuspect | .checkCtSuspect | .portSilent => false

/-- Whether a pair of code and scope can exist (R139). -/
def pairExists (s : State) (c : Code) (sc : Scope) : Bool :=
  match sc with
  | .bay b => c.appliesTo (s.bays.get b).kind
  | .bus k => decide (c = .zoneCtSuspect) && s.yard.sections.inUse k
  | .check => decide (c = .checkCtSuspect)
  | .port _ => decide (c = .portSilent)

/-! ### CT supervision counts (R70, R141) -/

/-- One count, stopping at 12,000; 0 when not suspect. -/
def countSuspect (suspect : Bool) (n : Nat) : Nat :=
  if suspect then min (n + 1) Config.ctMax else 0

/-- The suspect flag of a zone and phase in the results of a set. -/
def Results.suspect (r : Results) (g : Bus) (p : Phase) : Bool :=
  match r.zones.find? (fun z => decide (z.name = g)) with
  | none => false
  | some z => (z.phases.get p).suspect

/-- The CT supervision counts after the marks and the suspect flags of a set; a section not in use keeps its own. -/
def Supervision.countCt (t : Topology) (r : Results) (v : Supervision) : Supervision :=
  { v with
    ctCounts :=
      Table.build (fun s =>
        match t.zoneOf s with
        | none => v.ctCounts.get s
        | some z =>
          Table.build (fun p => countSuspect (r.suspect z.name p) (if z.changed then 0 else (v.ctCounts.get s).get p)))
    checkCt :=
      Table.build (fun p => countSuspect (r.check.get p).suspect (if t.checkChanged then 0 else v.checkCt.get p)) }

/-! ### Causes (R140, R142) -/

/-- Whether an enabled entry admits a port. -/
def anyAdmits (streams : Table 26 (Option StreamEntry)) (p : Port) : Bool :=
  streams.cells.any (fun e => match e with
    | some e => e.enabled && e.admitted.accepts p
    | none => false)

/-- Whether a port is silent (R142). -/
def portSilent (s : State) (p : Port) : Bool :=
  decide ((s.ports.get p).link = .down) && anyAdmits s.streams p

/-- Whether some phase of a section or of the check zone has been suspect for SUP_SETS sets (R140). -/
def anyPhaseReaches (counts : Table 3 Nat) (supSets : Nat) : Bool :=
  counts.cells.any (fun n => decide (supSets ≤ n))

/-- The cause of a code at a scope (R140). -/
def causePresent (s : State) (c : Code) (sc : Scope) : Bool :=
  match c, sc with
  | .streamLost, .bay b => (s.store.slots.get b).lost
  | .streamGap, .bay b => decide ((s.store.slots.get b).sinceSub < Config.recoverySets)
  | .zoneCtSuspect, .bus k => anyPhaseReaches (s.supervision.ctCounts.get k) s.active.supSets
  | .checkCtSuspect, .check => anyPhaseReaches s.supervision.checkCt s.active.supSets
  | .isolatorTravel, .bay b => (s.replica.slots.get b).causeTravel
  | .isolatorInvalid, .bay b => (s.replica.slots.get b).causeInvalid
  | .breakerInvalid, .bay b => (s.replica.slots.get b).causeBreaker
  | .positionForced, .bay b => (s.replica.slots.get b).causeForced
  | .portSilent, .port p => portSilent s p
  | _, _ => false

/-! ### Reach and entries (R143, R144, R148) -/

/-- The reach of nothing. -/
def Reach.empty : Reach where
  buses := 0
  check := false

/-- The union of two reaches. -/
def Reach.join (a b : Reach) : Reach where
  buses := a.buses ||| b.buses
  check := a.check || b.check

/-- What a pair of code and scope reaches at a set (R144, R148). -/
def reachOf (bays : Table 26 BayRecord) (t : Topology) (c : Code) (sc : Scope) : Reach :=
  match sc with
  | .bay b =>
    if c = .positionForced then Reach.empty
    else ⟨t.connected.get b, decide (c = .streamLost) && (bays.get b).kind.isFeeder⟩
  | .bus s => ⟨BitVec.ofFnLE (fun k => decide (k = s)), false⟩
  | .check => ⟨0, true⟩
  | .port _ => Reach.empty

/-- The entry of a pair after a set, from the entry before it and the cause (R143). -/
def treatEntry (stamp : Stamp) (latch : Bool) (reach : Reach) (c : Code) (sc : Scope) (present : Bool)
    (old : Option Condition) : Option Condition :=
  match old with
  | none =>
    if present then some ⟨c, sc, true, if latch then some reach else none, stamp⟩ else none
  | some e =>
    if present then some { e with active := true }
    else if e.latched.isSome then some { e with active := false }
    else none

/-- Whether the treatment of a pair is one of those that raise an ALARM cause (R143). -/
def entryChanged (present : Bool) (old : Option Condition) : Bool :=
  match old with
  | none => present
  | some e => e.active != present

/-- The entry of a pair in a table. -/
def findEntry (cs : List Condition) (c : Code) (sc : Scope) : Option Condition :=
  cs.find? (fun e => decide (e.code = c) && decide (e.scope = sc))

/-- The response to a code. -/
def Supervision.response (v : Supervision) (c : Code) : Response :=
  v.responses.get c.index

/-- The entry of a pair after a set; a pair that cannot exist is not treated (R143). -/
def nextEntry (t : Topology) (s : State) (key : Code × Scope) : Option Condition :=
  let old := findEntry s.supervision.conditions key.1 key.2
  if pairExists s key.1 key.2 then
    treatEntry t.stamp (s.supervision.response key.1).latch (reachOf s.bays t key.1 key.2) key.1 key.2
      (causePresent s key.1 key.2) old
  else old

/-- The condition table after a set, in the order of R139. -/
def nextConditions (t : Topology) (s : State) : List Condition :=
  conditionKeys.filterMap (nextEntry t s)

/-- Whether a set raises the ALARM notice cause (R143). -/
def alarmCause (s : State) : Bool :=
  conditionKeys.any (fun key =>
    pairExists s key.1 key.2
      && entryChanged (causePresent s key.1 key.2) (findEntry s.supervision.conditions key.1 key.2)
      && decide ((s.supervision.response key.1).level ≠ .none))

/-! ### Blocks (R147 to R149) -/

/-- What an entry reaches under BLOCK_ZONE (R148). -/
def Condition.reach (bays : Table 26 BayRecord) (t : Topology) (e : Condition) : Reach :=
  let kept := e.latched.getD Reach.empty
  if e.active then (reachOf bays t e.code e.scope).join kept else kept

/-- Whether the table holds an entry whose code's level is BLOCK_ALL (R149). -/
def blocksAll (v : Supervision) : Bool :=
  v.conditions.any (fun e => decide ((v.response e.code).level = .blockAll))

/-- Whether some BLOCK_ZONE entry reaches what a test picks (R149). -/
def blocksZone (bays : Table 26 BayRecord) (t : Topology) (v : Supervision) (picks : Reach → Bool) : Bool :=
  v.conditions.any (fun e => decide ((v.response e.code).level = .blockZone) && picks (e.reach bays t))

/-- The block flags of a set (R149). -/
def Supervision.block (bays : Table 26 BayRecord) (t : Topology) (v : Supervision) : Supervision :=
  { v with
    blockFlags :=
      Table.build (fun s => v.hostBlocks.get s || blocksZone bays t v (fun r => r.buses.getLsbD s.val) || blocksAll v)
    checkBlocked := blocksZone bays t v Reach.check || blocksAll v }

/-- Stage 4 of a set's evaluation: counts, causes, entries, at most one ALARM cause, block flags (R152). -/
def superviseSet (t : Topology) (r : Results) (s : State) : State :=
  let s1 : State := { s with supervision := s.supervision.countCt t r }
  let s2 : State := { s1 with supervision := { s1.supervision with conditions := nextConditions t s1 } }
  let s3 := if alarmCause s1 then causeAlarm s2 else s2
  { s3 with supervision := s3.supervision.block s3.bays t }

end Sys2Proof.Machine
end

