-- ==== Sys2Proof/Machine/Commands.lean ====
section
/-! DEFINITION. The remaining requests: mode and restart (R170 to R177), responses, reading (R42, R58, R75, R103, R162, R171),
and the operator's commands (R49, R127, R128, R146, R150, R151, R163, R181). -/

namespace Sys2Proof.Machine

open Sys2Proof

/-! ### IDENT, MODE, RESTART, SETTLE -/

/-- The IDENT reply data (R170, R184). -/
def identBytes (s : State) : List Byte :=
  u16 Config.partCode ++ u8 Config.designRevision ++ u8 26 ++ u8 s.rate.toNat ++ u8 s.mode.code

/-- IDENT (R170). -/
def execIdent (tag : Byte) (payload : List Byte) (s : State) : Host.Outcome State Fault Refusal :=
  .next (serve ⟨0x01, tag, payload⟩ (fun _ s => .done s (identBytes s)) s)

/-- The target mode of MODE (R173). -/
def readTarget (b : Byte) : Option Mode :=
  if b.toNat = 0 then some .setup else if b.toNat = 1 then some .run else none

/-- The rule of MODE (R11, R173). -/
def ruleMode (payload : List Byte) (s : State) : Service :=
  match payload with
  | [target] =>
    match readTarget target with
    | none => .refuse .outOfRange []
    | some m =>
      if m = s.mode then .done s []
      else if m = .run then
        match failedCheck s with
        | some (check, slot) => .refuse .inconsistent (u8 check ++ u8 slot)
        | none => .hold (.mode true)
      else .hold (.mode false)
  | _ => .refuse .badLength []

/-- MODE (R173). -/
def execMode (tag : Byte) (payload : List Byte) (s : State) : Host.Outcome State Fault Refusal :=
  .next (serve ⟨0x02, tag, payload⟩ ruleMode s)

/-- RESTART (R177): its DONE reply is placed and it waits at the head. -/
def execRestart (tag : Byte) (payload : List Byte) (s : State) : Host.Outcome State Fault Refusal :=
  .next (serve ⟨0x03, tag, payload⟩ (fun _ _ => .restart) s)

/-- Whether the DONE reply of the RESTART has left the transmitter (R177). -/
def ControlLink.restartReplyLeft (l : ControlLink) : Bool :=
  !l.replies.any (fun r => r.ofRestart) &&
    match l.line with
    | none => true
    | some f => !f.ofRestart

/-- Whether the restart is due: RESTART waits at the head, its reply has left and no set is in evaluation (R177). -/
def restartDue (s : State) : Bool :=
  decide (s.link.flight = some .restart) && s.link.restartReplyLeft && s.published.isNone && decide (s.mode ≠ .halted)

/-- RESTART_MADE (R177): no event while the restart is not due (log 2). -/
def execRestartMade (s : State) : Host.Outcome State Fault Refusal :=
  .next (if restartDue s then makeRestart s else s)

/-- SETTLE (R176): in flight until the next set closed after its service has been evaluated whole. -/
def execSettle (tag : Byte) (payload : List Byte) (s : State) : Host.Outcome State Fault Refusal :=
  .next (serve ⟨0x4F, tag, payload⟩ (fun _ _ => .hold (.settle false)) s)

/-! ### RESPONSE-SET, RESPONSE-GET (R145, R146) -/

/-- The levels allowed for a code (R145). -/
def Code.allows (c : Code) (l : Level) : Bool :=
  match c, l with
  | .streamLost, .blockZone => true
  | .streamLost, .blockAll => true
  | .streamLost, _ => false
  | .checkCtSuspect, .blockZone => false
  | .checkCtSuspect, _ => true
  | .positionForced, .none => true
  | .positionForced, .alarm => true
  | .positionForced, _ => false
  | .portSilent, .blockZone => false
  | .portSilent, _ => true
  | .streamGap, _ => true
  | .zoneCtSuspect, _ => true
  | .isolatorTravel, _ => true
  | .isolatorInvalid, _ => true
  | .breakerInvalid, _ => true

/-- The rule of RESPONSE-SET (R146). -/
def ruleResponseSet (payload : List Byte) (s : State) : Service :=
  match payload with
  | [code, level, latch] =>
    match readCode code, readLevel level, readFlag latch with
    | some c, some l, some f =>
      if c.allows l then
        .done { s with supervision := { s.supervision with responses := s.supervision.responses.set c.index ⟨l, f⟩ } } []
      else .refuse .outOfRange []
    | _, _, _ => .refuse .outOfRange []
  | _ => .refuse .badLength []

/-- RESPONSE_SET (R146). -/
def execResponseSet (tag : Byte) (payload : List Byte) (s : State) : Host.Outcome State Fault Refusal :=
  .next (serve ⟨0x24, tag, payload⟩ ruleResponseSet s)

/-- The rule of RESPONSE-GET (R146). -/
def ruleResponseGet (payload : List Byte) (s : State) : Service :=
  match payload with
  | [code] =>
    match readCode code with
    | none => .refuse .outOfRange []
    | some c => .done s (u8 (s.supervision.response c).level.code ++ flagByte (s.supervision.response c).latch)
  | _ => .refuse .badLength []

/-- RESPONSE_GET (R146). -/
def execResponseGet (tag : Byte) (payload : List Byte) (s : State) : Host.Outcome State Fault Refusal :=
  .next (serve ⟨0x25, tag, payload⟩ ruleResponseGet s)

/-! ### STATUS, TOPOLOGY, MEASURE, POSITIONS, COUNTERS -/

/-- The rule of STATUS (R171). -/
def ruleStatus (payload : List Byte) (s : State) : Service :=
  match payload with
  | [part] =>
    if part.toNat = 0 then .done s (statusGeneral s)
    else if part.toNat = 1 then .done s (conditionBytes s.supervision.conditions)
    else .refuse .outOfRange []
  | _ => .refuse .badLength []

/-- STATUS (R171). -/
def execStatus (tag : Byte) (payload : List Byte) (s : State) : Host.Outcome State Fault Refusal :=
  .next (serve ⟨0x30, tag, payload⟩ ruleStatus s)

/-- TOPOLOGY (R75). -/
def execTopology (tag : Byte) (payload : List Byte) (s : State) : Host.Outcome State Fault Refusal :=
  .next (serve ⟨0x31, tag, payload⟩ (fun _ s => .done s (topologyBytes s.yard.sections s.topology)) s)

/-- MEASURE (R103). -/
def execMeasure (tag : Byte) (payload : List Byte) (s : State) : Host.Outcome State Fault Refusal :=
  .next (serve ⟨0x32, tag, payload⟩ (fun _ s => .done s (measureBytes s.evaluator)) s)

/-- POSITIONS (R58). -/
def execPositions (tag : Byte) (payload : List Byte) (s : State) : Host.Outcome State Fault Refusal :=
  .next (serve ⟨0x33, tag, payload⟩ (fun _ s => .done s (positionsBytes s)) s)

/-- Every counter that COUNTERS returns is set to 0 (R42). -/
def clearCounters (s : State) : State :=
  { s with
    ports := s.ports.map PortState.clearCounters
    streams := clearStreamCounters s.streams
    link := { s.link with crcErrors := 0, framing := 0, overrun := 0 } }

/-- The rule of COUNTERS (R42). -/
def ruleCounters (payload : List Byte) (s : State) : Service :=
  match payload with
  | [clear] =>
    match readFlag clear with
    | none => .refuse .outOfRange []
    | some f => .done (if f then clearCounters s else s) (countersBytes s)
  | _ => .refuse .badLength []

/-- COUNTERS (R42). -/
def execCounters (tag : Byte) (payload : List Byte) (s : State) : Host.Outcome State Fault Refusal :=
  .next (serve ⟨0x34, tag, payload⟩ ruleCounters s)

/-! ### RECORD-READ, RECORD-DISCARD (R162, R163) -/

/-- The rule of RECORD-READ (R162). -/
def ruleRecordRead (payload : List Byte) (s : State) : Service :=
  match payload with
  | [depth] =>
    if 7 < depth.toNat then .refuse .outOfRange []
    else
      match s.records.stack[depth.toNat]? with
      | none => .refuse .notFound []
      | some r => .done s (u8 s.records.stack.length ++ u8 s.records.overwrites ++ r.bytes)
  | _ => .refuse .badLength []

/-- RECORD_READ (R162). -/
def execRecordRead (tag : Byte) (payload : List Byte) (s : State) : Host.Outcome State Fault Refusal :=
  .next (serve ⟨0x38, tag, payload⟩ ruleRecordRead s)

/-- The rule of RECORD-DISCARD (R163). -/
def ruleRecordDiscard (_payload : List Byte) (s : State) : Service :=
  match s.records.stack with
  | [] => .refuse .notFound []
  | _ :: rest => .done { s with records := { s.records with stack := rest } } (u8 rest.length)

/-- RECORD_DISCARD (R163). -/
def execRecordDiscard (tag : Byte) (payload : List Byte) (s : State) : Host.Outcome State Fault Refusal :=
  .next (serve ⟨0x39, tag, payload⟩ ruleRecordDiscard s)

/-! ### TRIP-CLEAR (R127, R128) -/

/-- Whether a section lies in a zone of the partition in force one of whose operate counters stands at ZONE_OPERATE_SETS
(R127; log 23). -/
def stillOperating (s : State) (k : Bus) : Bool :=
  match s.topology with
  | none => false
  | some t =>
    match t.zoneOf k with
    | none => false
    | some z => (s.evaluator.operate.get z.name).cells.any (fun n => decide (n = s.active.zoneOperateSets))

/-- Whether TRIP-CLEAR is refused STILL_OPERATING (R127). -/
def clearRefused (s : State) : Selector → Bool
  | .one k => stillOperating s k
  | .all => allBuses.any (fun k => s.yard.sections.inUse k && stillOperating s k)

/-- The latches and captured trip sets of the sections named are cleared (R128). -/
def TripLogic.clear (sel : Selector) (x : TripLogic) : TripLogic :=
  { x with
    tripLatch := Table.build (fun k => x.tripLatch.get k && !sel.names k)
    backtripLatch := Table.build (fun k => x.backtripLatch.get k && !sel.names k)
    captured := Table.build (fun k => if sel.names k then 0 else x.captured.get k) }

/-- The rule of TRIP-CLEAR (R127, R128). -/
def ruleTripClear (payload : List Byte) (s : State) : Service :=
  match payload with
  | [sel] =>
    match readSelector sel with
    | none => .refuse .outOfRange []
    | some x =>
      if clearRefused s x then .refuse .stillOperating []
      else .done (driveLines { s with trip := s.trip.clear x }) []
  | _ => .refuse .badLength []

/-- TRIP_CLEAR (R127, R128). -/
def execTripClear (tag : Byte) (payload : List Byte) (s : State) : Host.Outcome State Fault Refusal :=
  .next (serve ⟨0x40, tag, payload⟩ ruleTripClear s)

/-! ### ALARM-CLEAR (R151) -/

/-- Entries are removed; an ALARM cause is raised when the level of a removed entry's code is not NONE (R151; log 30). -/
def removeEntries (removed : Condition → Bool) (s : State) : State :=
  let t : State :=
    { s with supervision := { s.supervision with conditions := s.supervision.conditions.filter (fun e => !removed e) } }
  if s.supervision.conditions.any (fun e => removed e && decide ((s.supervision.response e.code).level ≠ .none)) then
    causeAlarm t
  else t

/-- ALARM-CLEAR of one code and scope (R151). -/
def clearEntry (c : Code) (sc : Scope) (s : State) : Service :=
  if c.takes sc = false then .refuse .outOfRange []
  else
    match findEntry s.supervision.conditions c sc with
    | none => .refuse .notFound []
    | some e =>
      if e.active then .refuse .stillActive []
      else .done (removeEntries (fun x => decide (x.code = c) && decide (x.scope = sc)) s) []

/-- The rule of ALARM-CLEAR (R151, R184). -/
def ruleAlarmClear (payload : List Byte) (s : State) : Service :=
  match payload with
  | [code, scope] =>
    if code.toNat = 0xFF then .done (removeEntries (fun x => !x.active) s) []
    else
      match readCode code, readScope scope with
      | some c, some sc => clearEntry c sc s
      | _, _ => .refuse .outOfRange []
  | _ => .refuse .badLength []

/-- ALARM_CLEAR (R151). -/
def execAlarmClear (tag : Byte) (payload : List Byte) (s : State) : Host.Outcome State Fault Refusal :=
  .next (serve ⟨0x41, tag, payload⟩ ruleAlarmClear s)

/-! ### ZONE-BLOCK, FORCE, NOTICE-SET -/

/-- The rule of ZONE-BLOCK (R150). -/
def ruleZoneBlock (payload : List Byte) (s : State) : Service :=
  match payload with
  | [sel, value] =>
    match readSelector sel, readFlag value with
    | some x, some v =>
      .done
        { s with
          supervision :=
            { s.supervision with
              hostBlocks := Table.build (fun k => if x.names k then v else s.supervision.hostBlocks.get k) } } []
    | _, _ => .refuse .outOfRange []
  | _ => .refuse .badLength []

/-- ZONE_BLOCK (R150). -/
def execZoneBlock (tag : Byte) (payload : List Byte) (s : State) : Host.Outcome State Fault Refusal :=
  .next (serve ⟨0x42, tag, payload⟩ ruleZoneBlock s)

/-- An isolator byte: whether it names isolator B (R184). -/
def readIsolator (b : Byte) : Option Bool :=
  readFlag b

/-- A forced value is stored or removed (R49). -/
def SlotPositions.store (isoB : Bool) (v : Forced) (q : SlotPositions) : SlotPositions :=
  if isoB then { q with forcedB := v } else { q with forcedA := v }

/-- The rule of FORCE (R49). -/
def ruleForce (payload : List Byte) (s : State) : Service :=
  match payload with
  | [slot, isolator, value] =>
    match readSlot slot, readIsolator isolator, readForced value with
    | some b, some i, some v =>
      if (s.bays.get b).kind.isFeeder then
        .done { s with replica := { s.replica with slots := s.replica.slots.modify b (SlotPositions.store i v) } } []
      else .refuse .outOfRange []
    | _, _, _ => .refuse .outOfRange []
  | _ => .refuse .badLength []

/-- FORCE (R49). -/
def execForce (tag : Byte) (payload : List Byte) (s : State) : Host.Outcome State Fault Refusal :=
  .next (serve ⟨0x44, tag, payload⟩ ruleForce s)

/-- A class as NOTICE-SET writes it (R181). -/
def NoticeClass.write (enabled : Bool) (interval : Nat) (c : NoticeClass) : NoticeClass :=
  if enabled then { c with enabled := true, interval := interval }
  else { enabled := false, interval := interval, timer := none, pending := false }

/-- NOTICE-SET on a class; a class disabled has its slot emptied (R181). -/
def ControlLink.setClass (cls : Moderated) (enabled : Bool) (interval : Nat) (l : ControlLink) : ControlLink :=
  match cls with
  | .alarm =>
    { l with
      alarm := l.alarm.write enabled interval
      slots := { l.slots with alarm := if enabled then l.slots.alarm else none } }
  | .topology =>
    { l with
      topology := l.topology.write enabled interval
      slots := { l.slots with topology := if enabled then l.slots.topology else none } }

/-- The class that a byte of NOTICE-SET names (R184). -/
def readClass (b : Byte) : Option Moderated :=
  if b.toNat = 0x62 then some .alarm else if b.toNat = 0x63 then some .topology else none

/-- The rule of NOTICE-SET (R181). -/
def ruleNoticeSet (payload : List Byte) (s : State) : Service :=
  match payload with
  | [cls, flag, n1, n0] =>
    match readClass cls, readFlag flag with
    | some k, some e =>
      if 2400 < natOfBytes [n1, n0] then .refuse .outOfRange []
      else .done { s with link := s.link.setClass k e (natOfBytes [n1, n0]) } []
    | _, _ => .refuse .outOfRange []
  | _ => .refuse .badLength []

/-- NOTICE_SET (R181). -/
def execNoticeSet (tag : Byte) (payload : List Byte) (s : State) : Host.Outcome State Fault Refusal :=
  .next (serve ⟨0x48, tag, payload⟩ ruleNoticeSet s)

end Sys2Proof.Machine
end

