-- ==== Sys2Proof/Machine/Trip.lean ====
section
/-! DEFINITION. Trip logic, breaker failure timers and record stack on a set (07_tripping_and_breaker_failure.md, R119 to R138;
09_trip_records.md, R158 to R161). -/

namespace Sys2Proof.Machine

open Sys2Proof

/-! ### Release (R120) -/

/-- The results of the zone with a name. -/
def Results.zone (r : Results) (g : Bus) : Option ZoneResult :=
  r.zones.find? (fun z => decide (z.name = g))

/-- Whether a zone operates in a phase (R91). -/
def Results.operates (r : Results) (g : Bus) (p : Phase) : Bool :=
  match r.zone g with
  | none => false
  | some z => (z.phases.get p).operates

/-- The release mode applied to a zone (R120). -/
def releaseMode (bank : Bank) (z : Zone) : ReleaseMode :=
  if z.list.all (fun s => decide (bank.releaseMode.get s = .unchecked)) then .unchecked else .checked

/-- Whether a phase of a zone is released (R120, conditions 2 and 3). -/
def phaseReleased (s : State) (r : Results) (z : Zone) (p : Phase) : Bool :=
  r.operates z.name p &&
    (decide (releaseMode s.active z = .unchecked) || (!s.supervision.checkBlocked && (r.check.get p).operates))

/-- The released phases of a zone. -/
def releasedPhases (s : State) (r : Results) (z : Zone) : Table 3 Bool :=
  Table.build (phaseReleased s r z)

/-- Whether a section of a zone is blocked (R120, condition 1). -/
def zoneBlocked (s : State) (z : Zone) : Bool :=
  z.list.any (fun k => s.supervision.blockFlags.get k)

/-- Whether a zone trips at a set, in RUN (R120). -/
def zoneTrips (s : State) (r : Results) (z : Zone) : Bool :=
  !zoneBlocked s z && (releasedPhases s r z).cells.any id

/-! ### Latching (R121) -/

/-- Whether a section is newly latched at a set (R121). -/
def newlyLatched (s : State) (r : Results) (t : Topology) (k : Bus) : Bool :=
  match t.zoneOf k with
  | none => false
  | some z => zoneTrips s r z && !s.trip.tripLatch.get k

/-- The union of the bitmaps of the sections that a test picks. -/
def unionOver (scopes : Table 4 Bitmap) (ks : List Bus) : Bitmap :=
  ks.foldl (fun m k => m ||| scopes.get k) 0

/-- The trip scopes of the newly latched sections of the zone that holds a section (R121). -/
def newScopes (s : State) (r : Results) (t : Topology) (k : Bus) : Bitmap :=
  match t.zoneOf k with
  | none => 0
  | some z => unionOver t.scopes (z.list.filter (newlyLatched s r t))

/-- Trip latches and captured trip sets after the release of a set (R121). -/
def latchZones (s : State) (r : Results) (t : Topology) : TripLogic :=
  { s.trip with
    tripLatch := Table.build (fun k => s.trip.tripLatch.get k || newlyLatched s r t k)
    captured :=
      Table.build (fun k =>
        if newlyLatched s r t k then s.trip.captured.get k ||| newScopes s r t k else s.trip.captured.get k) }

/-- The tripped bays of a section (R124). -/
def trippedBays (x : TripLogic) (t : Topology) (k : Bus) : Bitmap :=
  if x.tripLatch.get k || x.backtripLatch.get k then t.scopes.get k ||| x.captured.get k else 0

/-- The tripped bays of all sections. -/
def allTrippedBays (x : TripLogic) (t : Topology) : Bitmap :=
  allBuses.foldl (fun m k => m ||| trippedBays x t k) 0

/-! ### Breaker failure timers (R132 to R136) -/

/-- The two-set counts of absence (R133). -/
def countAbsent (present : Bool) (n : Nat) : Nat :=
  if present then 0 else min (n + 1) 2

/-- One action of a timer on a set (R133, R136). -/
def BfTimer.act (bfSets : Nat) (init present : Bool) (x : BfTimer) : BfTimer :=
  match x.state with
  | .idle => if init && present then ⟨.timing, bfSets, 0, 0⟩ else ⟨.idle, 0, 0, 0⟩
  | .timing =>
    let c := countAbsent present x.currentAbsent
    let i := countAbsent init x.initAbsent
    if c = 2 ∨ i = 2 then ⟨.idle, 0, 0, 0⟩
    else if x.countdown ≤ 1 then ⟨.expired, 0, c, i⟩
    else ⟨.timing, x.countdown - 1, c, i⟩
  | .expired =>
    let c := countAbsent present x.currentAbsent
    let i := countAbsent init x.initAbsent
    if c = 2 ∧ i = 2 then ⟨.idle, 0, 0, 0⟩ else ⟨.expired, 0, c, i⟩

/-- Initiation of a timer (R132; log 14 for BF-start of a LOST bay). -/
def initiation (s : State) (p : Published) (x : TripLogic) (t : Topology) (b : Slot) : Bool :=
  (allTrippedBays x t).getLsbD b.val || (p.bfStart.get b && !(s.store.slots.get b).lost)

/-- The judgement of a bay's current in the results of a set (R99). -/
def Results.present (r : Results) (b : Slot) : Bool :=
  match r.bays.get b with
  | none => false
  | some y => y.present

/-- b_cur in the results of a set (R98). -/
def Results.current (r : Results) (b : Slot) : Nat :=
  match r.bays.get b with
  | none => 0
  | some y => y.current

/-- Every timer of a used slot acts once (R133); initiation is formed for all of them first (R132). -/
def actTimers (s : State) (p : Published) (r : Results) (x : TripLogic) (t : Topology) : Table 26 BfTimer :=
  Table.build (fun b =>
    if (s.bays.get b).kind.used then
      (s.bf.get b).act (s.active.bfSets.get b) (initiation s p x t b) (r.present b)
    else s.bf.get b)

/-- The timers that enter EXPIRED (R135), in ascending order of slot. -/
def expiredNow (before after : Table 26 BfTimer) : List Slot :=
  allSlots.filter (fun b => decide ((before.get b).state = .timing) && decide ((after.get b).state = .expired))

/-- Whether a section is backtripped by one of the timers that expired (R135). -/
def backtripped (t : Topology) (expired : List Slot) (k : Bus) : Bool :=
  expired.any (fun b => (t.connected.get b).getLsbD k.val)

/-- Backtrip latches and captured trip sets after the expiries of a set (R135). -/
def backtripLatches (x : TripLogic) (t : Topology) (expired : List Slot) : TripLogic :=
  { x with
    backtripLatch := Table.build (fun k => x.backtripLatch.get k || backtripped t expired k)
    captured :=
      Table.build (fun k => if backtripped t expired k then x.captured.get k ||| t.scopes.get k else x.captured.get k) }

/-! ### Bitmap and records (R123, R124, R159 to R161) -/

/-- The slots whose timer is in TIMING. -/
def timingSlots (bf : Table 26 BfTimer) : Bitmap :=
  BitVec.ofFnLE (fun b => decide ((bf.get b).state = .timing))

/-- The trip bitmap of a set (R124). -/
def tripBitmap (x : TripLogic) (t : Topology) (bf : Table 26 BfTimer) : Bitmap :=
  allTrippedBays x t ||| timingSlots bf

/-- The zone phase data of a record (R159). -/
def phaseRecords (r : Results) (g : Bus) : Table 3 PhaseRecord :=
  match r.zone g with
  | none => Table.fill 3 ⟨0, 0, .quiet⟩
  | some z => z.phases.map (fun q => ⟨q.diff, q.restraint, q.detector⟩)

/-- The ZONE_TRIP record of a zone (R123, R159). -/
def zoneTripRecord (s : State) (r : Results) (stamp : Stamp) (bitmap : Bitmap) (z : Zone) : ZoneTripRecord where
  stamp := stamp
  buses := z.buses
  release := releaseMode s.active z
  released := releasedPhases s r z
  phases := phaseRecords r z.name
  check :=
    match releaseMode s.active z with
    | .checked => some (r.check.map (fun q => ⟨q.diff, q.restraint⟩))
    | .unchecked => none
  bitmap := bitmap

/-- The BACKTRIP record of a timer (R135, R160). -/
def backtripRecord (r : Results) (t : Topology) (stamp : Stamp) (bitmap : Bitmap) (b : Slot) : BacktripRecord where
  stamp := stamp
  bay := b
  current := r.current b
  buses := t.connected.get b
  bitmap := bitmap

/-- One record is placed at depth 0 (R161). -/
def RecordStack.push (rs : RecordStack) (r : TripRecord) : RecordStack where
  stack := (r :: rs.stack).take Config.stackMax
  overwrites := if Config.stackMax ≤ rs.stack.length then min (rs.overwrites + 1) Config.overwriteMax else rs.overwrites

/-- The zones that latch a section anew at a set, in ascending order of name (R121). -/
def latchingZones (s : State) (r : Results) (t : Topology) : List Zone :=
  t.zones.filter (fun z => z.list.any (newlyLatched s r t))

/-- The records of a set in the order of R123 and R135. -/
def setRecords (s : State) (r : Results) (t : Topology) (stamp : Stamp) (bitmap : Bitmap) (expired : List Slot) :
    List TripRecord :=
  (latchingZones s r t).map (fun z => .zoneTrip (zoneTripRecord s r stamp bitmap z))
    ++ expired.map (fun b => .backtrip (backtripRecord r t stamp bitmap b))

/-! ### The work of trip logic on a set (R119) -/

/-- Trip logic acts as in RUN only when the mode is RUN both at the close and now (R174). -/
def actsInRun (s : State) (p : Published) : Bool :=
  decide (s.mode = .run) && p.runAtClose

/-- Release, latching, timers, bitmap, records and notice causes of a set in RUN (R120 to R124, R131 to R136, R138, R161). -/
def tripSet (p : Published) (t : Topology) (r : Results) (s : State) : State :=
  let latched := latchZones s r t
  let bf := actTimers s p r latched t
  let expired := expiredNow s.bf bf
  let tripped := backtripLatches latched t expired
  let bitmap := tripBitmap tripped t bf
  let s1 : State :=
    { s with
      trip := { tripped with bitmap := bitmap }
      bf := bf
      records := (setRecords s r t p.stamp bitmap expired).foldl RecordStack.push s.records }
  causeTrips p.stamp (allBuses.any (newlyLatched s r t)) (!expired.isEmpty) (driveLines s1)

/-- Stages 5 to 7 up to the bitmap: in RUN as above, else nothing but an empty bitmap (R119, R174). -/
def tripStage (p : Published) (t : Topology) (r : Results) (s : State) : State :=
  if actsInRun s p then tripSet p t r s else { s with trip := { s.trip with bitmap := 0 } }

/-- The trip frame of a set is handed to both ports (R125). -/
def handTripFrame (stamp : Stamp) (s : State) : State :=
  { s with ports := s.ports.map (PortState.hand { count := stamp.count, bitmap := s.trip.bitmap }) }

end Sys2Proof.Machine
end

