-- ==== Sys2Proof/Machine/Evaluate.lean ====
section
/-! DEFINITION. The evaluation of a set as one step (R86, R119, R152), cut short by REFCLK_ABSENT (R155), and the two expiries that
fall within an evaluation (R110, R135). -/

namespace Sys2Proof.Machine

open Sys2Proof

/-- SETTLE in flight is answered once the set closed after its service has been evaluated whole (R176). -/
def answerSettle (s : State) : State :=
  match s.link.flight with
  | some (.settle true) => { s with link := s.link.answerHead .done [] }
  | some (.settle false) => s
  | some .bankApply => s
  | some (.mode _) => s
  | some .restart => s
  | none => s

/-- The end of a set's evaluation: trip logic, the trip frame, SETTLE (R119, R125, R176). -/
def finishSet (p : Published) (t : Topology) (r : Results) (s : State) : State :=
  let s1 := handTripFrame p.stamp (tripStage p t r s)
  answerSettle { s1 with published := none }

/-- Stages 3 and later, on the topology of the set; a set abandoned on a parity mismatch leads to HALTED (R87, R154). -/
def evaluateFrom (p : Published) (t : Topology) (s : State) : State :=
  match measureSet t s with
  | .abandoned s1 => reportCheck .storeParity s1
  | .whole s1 r => finishSet p t r (superviseSet t r s1)

/-- The whole evaluation of the set in evaluation (R86). -/
def evaluateSet (s : State) : State :=
  match s.published with
  | none => s
  | some p =>
    let s1 := deriveReplica p s
    evaluateFrom p (newTopology p.stamp s1) (assembleZones p.stamp s1)

/-- How far the blocks' work has come when REFCLK is reported absent, and whether a read of theirs finds a parity mismatch at that
moment. -/
structure CutShort where
  state : State
  mismatch : Bool

/-- Stage 3 and, where it acted, stage 4 of an evaluation that is cut short (R155). -/
def measurePart (supervised : Bool) (t : Topology) (s : State) : CutShort :=
  match measureSet t s with
  | .abandoned s1 => ⟨s1, true⟩
  | .whole s1 r => ⟨if supervised then superviseSet t r s1 else s1, false⟩

/-- The first stages of an evaluation that is cut short: the replica, the assembler, the evaluator with the detector, the
supervision unit (R155; log 9). -/
def evaluatePart (acted : Nat) (p : Published) (s : State) : CutShort :=
  let s1 := deriveReplica p s
  let s2 := assembleZones p.stamp s1
  if acted = 0 then ⟨s, false⟩
  else if acted = 1 then ⟨s1, false⟩
  else if acted = 2 then ⟨s2, false⟩
  else measurePart (decide (acted = 4)) (newTopology p.stamp s1) s2

/-- What stands of the blocks' work at the report: the stages of a set in evaluation that have acted; with none, where TIMER_FAULT is
taken first, the close just taken whose reads find a parity mismatch at that moment (R154, R155; log 9, log 34). -/
def cutShort (m : ClockReport) (s : State) : CutShort :=
  match s.published with
  | some p => evaluatePart m.acted.val p s
  | none =>
    let t := closeFlight s
    if m.clockFirst && closeDue s && closeMismatch t then ⟨writeClose t, true⟩ else ⟨s, false⟩

/-- TIMER_FAULT is reported, and with it the STORE_PARITY of a mismatch found at the same moment: whichever is taken first halts
the device, and the other is recorded beside it (R153; log 34). -/
def reportAbsent (clockFirst : Bool) (c : CutShort) : State :=
  if c.mismatch then
    if clockFirst then reportCheck .storeParity (reportCheck .timerFault c.state)
    else reportCheck .timerFault (reportCheck .storeParity c.state)
  else reportCheck .timerFault c.state

/-- EVALUATE_SET (R86): no event while no set is in evaluation (log 2). -/
def execEvaluateSet (upsets : List Upset) (s : State) : Host.Outcome State Fault Refusal :=
  .next (evaluateSet (applyUpsets upsets s))

/-- REFCLK_ABSENT (R29, R153, R155): the set in evaluation is evaluated no further and TIMER_FAULT is reported. -/
def execRefclkAbsent (moment : ClockReport) (s : State) : Host.Outcome State Fault Refusal :=
  .next (reportAbsent moment.clockFirst (cutShort moment s))

/-- The detector with a name. -/
def Detectors.named (d : Detectors) : DetectorName → Detector
  | .bus s p => (d.zones.get s).get p
  | .check p => d.check.get p

/-- EXTERNAL_HOLD_EXPIRY (R110): the evaluation in which the detector, in EXTERNAL until now, goes to SETTLE; no event where the
set in evaluation does not bring that (log 2, log 3). -/
def execExternalHoldExpiry (detector : DetectorName) (s : State) : Host.Outcome State Fault Refusal :=
  let t := evaluateSet s
  .next
    (if (s.detectors.named detector).state = .external ∧ (t.detectors.named detector).state = .settle then t else s)

/-- BF_TIMER_EXPIRY (R135): the evaluation in which the timer, in TIMING until now, enters EXPIRED; no event where the set in
evaluation does not bring that (log 2, log 3). -/
def execBfTimerExpiry (slot : Slot) (s : State) : Host.Outcome State Fault Refusal :=
  let t := evaluateSet s
  .next (if (s.bf.get slot).state = .timing ∧ (t.bf.get slot).state = .expired then t else s)

end Sys2Proof.Machine
end

