-- ==== Sys2Proof/Machine/Link.lean ====
section
/-! DEFINITION. The byte side of the control link (10_control_link_modes_and_notices.md): CONTROL_BYTE_RECEIVED, GAP_TIMEOUT,
FRAME_TRANSMITTED and UNKNOWN_KIND_REQUEST (R167 to R169, R182). -/

namespace Sys2Proof.Machine

open Sys2Proof

/-- The value of LEN in the bytes kept after SYNC (R183). -/
def lenOf (got : List Byte) : Nat :=
  natOfBytes (got.take 2)

/-- The request of a whole frame, from the bytes kept after SYNC: LEN, KIND, TAG, payload, CRC (R183). -/
def requestOf (got : List Byte) : Request where
  kind := (got.drop 2).headD 0
  tag := (got.drop 3).headD 0
  payload := (got.drop 4).take (lenOf got)

/-- Whether the CRC of a whole frame agrees with the CRC computed (R167, R183). -/
def crcAgrees (got : List Byte) : Bool :=
  decide (natOfBytes (got.drop (4 + lenOf got)) = (crc16 (got.take (4 + lenOf got))).toNat)

/-- A frame given up: FRAMING counts it and the framer hunts again (R167). -/
def ControlLink.dropFrame (l : ControlLink) : ControlLink :=
  { l with framer := .hunt, framing := bump l.framing }

/-- A byte kept in HEADER: LEN is checked after its second byte, and the TAG byte leads to BODY (R167). -/
def ControlLink.headerByte (got : List Byte) (l : ControlLink) : ControlLink :=
  if got.length = 2 ∧ Config.payloadMax < lenOf got then l.dropFrame
  else if got.length = 4 then { l with framer := .body got }
  else { l with framer := .header got }

/-- A byte kept in BODY: after the second CRC byte the frame is checked and offered to the request queue (R167, R168). -/
def ControlLink.bodyByte (got : List Byte) (l : ControlLink) : ControlLink :=
  if got.length = 6 + lenOf got then
    if crcAgrees got then { l with framer := .hunt }.offer (requestOf got)
    else { l with framer := .hunt, crcErrors := bump l.crcErrors }
  else { l with framer := .body got }

/-- The receive framer acts on a byte (R167). -/
def ControlLink.receive (b : Byte) (inError : Bool) (l : ControlLink) : ControlLink :=
  match l.framer with
  | .hunt => if inError = false ∧ b = Config.syncByte then { l with framer := .header [] } else l
  | .header got => if inError then l.dropFrame else l.headerByte (got ++ [b])
  | .body got => if inError then l.dropFrame else l.bodyByte (got ++ [b])

/-- CONTROL_BYTE_RECEIVED (R167). -/
def execControlByteReceived (byte : Byte) (inError : Bool) (s : State) : Host.Outcome State Fault Refusal :=
  .next { s with link := s.link.receive byte inError }

/-- The gap timer runs in HEADER and BODY and its expiry gives the frame up (R167). -/
def ControlLink.gap (l : ControlLink) : ControlLink :=
  match l.framer with
  | .hunt => l
  | .header _ => l.dropFrame
  | .body _ => l.dropFrame

/-- GAP_TIMEOUT (R167): no event in HUNT, where the gap timer does not run (log 2). -/
def execGapTimeout (s : State) : Host.Outcome State Fault Refusal :=
  .next { s with link := s.link.gap }

/-- The transmitter has finished its frame and takes the next (R182). Where that frame was the DONE reply of a RESTART, a notice that
waits is taken too, before the restart empties the slots: R177 and R182 do not order the two (DESIGN CHOICE, log 32; unsafe). -/
def ControlLink.transmitted (l : ControlLink) : ControlLink :=
  match l.line with
  | none => l
  | some _ => { l with line := none }.kick

/-- FRAME_TRANSMITTED (R182): no event while the line is idle (log 2). -/
def execFrameTransmitted (s : State) : Host.Outcome State Fault Refusal :=
  .next { s with link := s.link.transmitted }

/-- UNKNOWN_KIND_REQUEST (R169): the common checks refuse a KIND that names no request; no event for a KIND that names one
(log 2). -/
def execUnknownKindRequest (kind tag : Byte) (payload : List Byte) (s : State) : Host.Outcome State Fault Refusal :=
  .next
    (match requestRow kind with
     | none => serve ⟨kind, tag, payload⟩ (fun _ _ => .refuse .unknownKind []) s
     | some _ => s)

end Sys2Proof.Machine
end

