-- ==== Sys2Proof/Machine/Structure.lean ====
section
/-! DEFINITION. The requests that describe the yard and its streams, and the setting banks
(01_switchyard_description_and_setting_banks.md, 02_bay_streams_and_sample_alignment.md): STREAM-SET to BANK-APPLY, RESPONSE-SET,
RESPONSE-GET. -/

namespace Sys2Proof.Machine

open Sys2Proof

/-! ### Stream table (R23 to R25) -/

/-- The operands of STREAM-SET. -/
structure StreamOperands where
  index : Fin 26
  identifier : BitVec 32
  slot : Slot
  admitted : Admit
  enabled : Bool
deriving DecidableEq, Repr

/-- The operands of STREAM-SET, if every one is in its range (R23). -/
def readStream (index : Byte) (identifier : Nat) (slot admitted enabled : Byte) : Option StreamOperands :=
  match readSlot index, readSlot slot, readAdmit admitted, readFlag enabled with
  | some i, some b, some a, some e => if identifier = 0 then none else some ⟨i, BitVec.ofNat 32 identifier, b, a, e⟩
  | _, _, _, _ => none

/-- Whether a non-empty entry holds the identifier or names the slot of the operands (R23). -/
def StreamOperands.clashes (o : StreamOperands) : Option StreamEntry → Bool
  | none => false
  | some e => decide (e.identifier = o.identifier) || decide (e.slot = o.slot)

/-- Whether an entry at another index clashes (R23). -/
def StreamOperands.duplicates (o : StreamOperands) (streams : Table 26 (Option StreamEntry)) : Bool :=
  (List.finRange 26).any (fun j => decide (j ≠ o.index) && o.clashes (streams.get j))

/-- The entry written: the counters are kept where identifier and slot are those held (R23). -/
def StreamOperands.entry (o : StreamOperands) (old : Option StreamEntry) : StreamEntry where
  identifier := o.identifier
  slot := o.slot
  admitted := o.admitted
  enabled := o.enabled
  counters :=
    match old with
    | none => StreamCounters.zero
    | some e => if e.identifier = o.identifier ∧ e.slot = o.slot then e.counters else StreamCounters.zero

/-- The rule of STREAM-SET (R23). -/
def ruleStreamSet (payload : List Byte) (s : State) : Service :=
  match payload with
  | [index, i3, i2, i1, i0, slot, admitted, enabled] =>
    if s.mode = .run then .refuse .wrongMode []
    else
      match readStream index (natOfBytes [i3, i2, i1, i0]) slot admitted enabled with
      | none => .refuse .outOfRange []
      | some o =>
        if o.duplicates s.streams then .refuse .duplicate []
        else .done { s with streams := s.streams.set o.index (some (o.entry (s.streams.get o.index))) } []
  | _ => .refuse .badLength []

/-- STREAM_SET (R23). -/
def execStreamSet (tag : Byte) (payload : List Byte) (s : State) : Host.Outcome State Fault Refusal :=
  .next (serve ⟨0x10, tag, payload⟩ ruleStreamSet s)

/-- The rule of STREAM-DROP (R24). -/
def ruleStreamDrop (payload : List Byte) (s : State) : Service :=
  match payload with
  | [index] =>
    if s.mode = .run then .refuse .wrongMode []
    else
      match readSlot index with
      | none => .refuse .outOfRange []
      | some i => .done { s with streams := s.streams.set i none } []
  | _ => .refuse .badLength []

/-- STREAM_DROP (R24). -/
def execStreamDrop (tag : Byte) (payload : List Byte) (s : State) : Host.Outcome State Fault Refusal :=
  .next (serve ⟨0x11, tag, payload⟩ ruleStreamDrop s)

/-- STREAM_LIST (R25). -/
def execStreamList (tag : Byte) (payload : List Byte) (s : State) : Host.Outcome State Fault Refusal :=
  .next (serve ⟨0x12, tag, payload⟩ (fun _ s => .done s (s.streams.cells.flatMap streamFields)) s)

/-! ### Bay table (R6 to R8) -/

/-- A bay slot's record is replaced by one that differs: its dynamic state returns to its hard-reset values and its condition
entries are removed (R7). -/
def replaceRecord (b : Slot) (r : BayRecord) (s : State) : State :=
  { s with
    bays := s.bays.set b r
    store := { s.store with slots := s.store.slots.set b BayStore.reset }
    replica := { s.replica with slots := s.replica.slots.set b SlotPositions.reset }
    bf := s.bf.set b BfTimer.reset
    supervision :=
      { s.supervision with conditions := s.supervision.conditions.filter (fun e => decide (e.scope ≠ .bay b)) } }

/-- The rule of BAY-SET (R6, R7). -/
def ruleBaySet (payload : List Byte) (s : State) : Service :=
  match payload with
  | [slot, kind, side, junction, ct, polarity, r1, r0] =>
    if s.mode = .run then .refuse .wrongMode []
    else
      match readSlot slot, readRecord kind side junction ct polarity r1 r0 with
      | some b, some r => if s.bays.get b = r then .done s [] else .done (replaceRecord b r s) []
      | _, _ => .refuse .outOfRange []
  | _ => .refuse .badLength []

/-- BAY_SET (R6, R7). -/
def execBaySet (tag : Byte) (payload : List Byte) (s : State) : Host.Outcome State Fault Refusal :=
  .next (serve ⟨0x14, tag, payload⟩ ruleBaySet s)

/-- The rule of BAY-GET (R8). -/
def ruleBayGet (payload : List Byte) (s : State) : Service :=
  match payload with
  | [slot] =>
    match readSlot slot with
    | none => .refuse .outOfRange []
    | some b => .done s (recordFields b (s.bays.get b))
  | _ => .refuse .badLength []

/-- BAY_GET (R8). -/
def execBayGet (tag : Byte) (payload : List Byte) (s : State) : Host.Outcome State Fault Refusal :=
  .next (serve ⟨0x15, tag, payload⟩ ruleBayGet s)

/-! ### Yard settings (R2, R3) -/

/-- The three values of YARD-SET, if each is among the values of R1. -/
def readYard (sections frequency delay : Byte) : Option Yard :=
  match readSections sections, readFrequency frequency with
  | some n, some f => if 1 ≤ delay.toNat ∧ delay.toNat ≤ 4 then some ⟨n, f, delay.toNat⟩ else none
  | _, _ => none

/-- Whether a section is 2 or 3. -/
def outerBus (k : Bus) : Bool :=
  decide (2 ≤ k.val)

/-- Whether a scope is section 2 or section 3. -/
def outerScope : Scope → Bool
  | .bus k => outerBus k
  | .bay _ => false
  | .check => false
  | .port _ => false

/-- The per-section state of sections 2 and 3 returns to its hard-reset values and their condition entries are removed
(R2, R157). -/
def resetOuter (s : State) : State :=
  { s with
    evaluator :=
      { s.evaluator with
        operate := Table.build (fun k => if outerBus k then Table.fill 3 0 else s.evaluator.operate.get k) }
    detectors :=
      { s.detectors with
        zones := Table.build (fun k => if outerBus k then Table.fill 3 Detector.reset else s.detectors.zones.get k) }
    supervision :=
      { s.supervision with
        ctCounts := Table.build (fun k => if outerBus k then Table.fill 3 0 else s.supervision.ctCounts.get k)
        conditions := s.supervision.conditions.filter (fun e => !outerScope e.scope) } }

/-- The yard settings are written and each one that changed takes its consequence (R2). The frequency restart, with the notices
made at its instant, is taken before the consequence of SECTIONS: R2 puts it first only against ALIGN_DELAY (DESIGN CHOICE, log 21;
unsafe). -/
def writeYard (y : Yard) (s : State) : State :=
  let s1 : State := { s with yard := y }
  let s2 := if s.yard.frequency = y.frequency then s1 else frequencyRestart s1
  if s.yard.sections = y.sections then s2 else resetOuter s2

/-- The rule of YARD-SET (R2). -/
def ruleYardSet (payload : List Byte) (s : State) : Service :=
  match payload with
  | [sections, frequency, delay] =>
    if s.mode = .run then .refuse .wrongMode []
    else
      match readYard sections frequency delay with
      | none => .refuse .outOfRange []
      | some y => .done (writeYard y s) []
  | _ => .refuse .badLength []

/-- YARD_SET (R2). -/
def execYardSet (tag : Byte) (payload : List Byte) (s : State) : Host.Outcome State Fault Refusal :=
  .next (serve ⟨0x16, tag, payload⟩ ruleYardSet s)

/-- The three bytes of YARD-GET (R3, R184). -/
def Yard.bytes (y : Yard) : List Byte :=
  u8 y.sections.number ++ u8 y.frequency.number ++ u8 y.alignDelay

/-- YARD_GET (R3). -/
def execYardGet (tag : Byte) (payload : List Byte) (s : State) : Host.Outcome State Fault Refusal :=
  .next (serve ⟨0x17, tag, payload⟩ (fun _ s => .done s s.yard.bytes) s)

/-! ### Setting banks (R13 to R16) -/

/-- The rule of BANK-WRITE (R13). -/
def ruleBankWrite (payload : List Byte) (s : State) : Service :=
  match payload with
  | [item, index, v3, v2, v1, v0] =>
    match readItem item index with
    | none => .refuse .outOfRange []
    | some i =>
      if i.admits (natOfBytes [v3, v2, v1, v0]) then
        .done { s with edit := s.edit.write i (natOfBytes [v3, v2, v1, v0]) } []
      else .refuse .outOfRange []
  | _ => .refuse .badLength []

/-- BANK_WRITE (R13). -/
def execBankWrite (tag : Byte) (payload : List Byte) (s : State) : Host.Outcome State Fault Refusal :=
  .next (serve ⟨0x20, tag, payload⟩ ruleBankWrite s)

/-- The bank that a selector byte names (R184). -/
def selectBank (s : State) (bank : Byte) : Option Bank :=
  if bank.toNat = 0 then some s.active else if bank.toNat = 1 then some s.edit else none

/-- The rule of BANK-READ (R14). -/
def ruleBankRead (payload : List Byte) (s : State) : Service :=
  match payload with
  | [bank, item, index] =>
    match selectBank s bank, readItem item index with
    | some b, some i => .done s (u32 (b.item i))
    | _, _ => .refuse .outOfRange []
  | _ => .refuse .badLength []

/-- BANK_READ (R14). -/
def execBankRead (tag : Byte) (payload : List Byte) (s : State) : Host.Outcome State Fault Refusal :=
  .next (serve ⟨0x21, tag, payload⟩ ruleBankRead s)

/-- The rule of BANK-APPLY: at once outside RUN, in flight in RUN (R15, R16). -/
def ruleBankApply (_payload : List Byte) (s : State) : Service :=
  match s.edit.failedRelation with
  | some n => .refuse .inconsistent (u8 n ++ u8 noSlot)
  | none => if s.mode = .run then .hold .bankApply else .done (copyBank s) []

/-- BANK_APPLY (R15, R16). -/
def execBankApply (tag : Byte) (payload : List Byte) (s : State) : Host.Outcome State Fault Refusal :=
  .next (serve ⟨0x22, tag, payload⟩ ruleBankApply s)

end Sys2Proof.Machine
end

