-- ==== Sys2Proof/Machine/Dispatch.lean ====
section
/-! DEFINITION. One arm for each command. -/

namespace Sys2Proof.Machine

open Sys2Proof

def exec (i : Instr) (s : State) : Host.Outcome State Fault Refusal :=
  match i with
  | .hardReset rate1 rate0 => Sys2Proof.Machine.execHardReset rate1 rate0 s
  | .refclkAbsent acted => Sys2Proof.Machine.execRefclkAbsent acted s
  | .setInstant => Sys2Proof.Machine.execSetInstant s
  | .sampleCountWrap => Sys2Proof.Machine.execSampleCountWrap s
  | .linkDown port => Sys2Proof.Machine.execLinkDown port s
  | .portFrameReceived port frame => Sys2Proof.Machine.execPortFrameReceived port frame s
  | .tripFrameSent port => Sys2Proof.Machine.execTripFrameSent port s
  | .setClose upsets => Sys2Proof.Machine.execSetClose upsets s
  | .evaluateSet upsets => Sys2Proof.Machine.execEvaluateSet upsets s
  | .externalHoldExpiry detector => Sys2Proof.Machine.execExternalHoldExpiry detector s
  | .bfTimerExpiry slot => Sys2Proof.Machine.execBfTimerExpiry slot s
  | .moderationTimerExpiry cls => Sys2Proof.Machine.execModerationTimerExpiry cls s
  | .controlByteReceived byte inError => Sys2Proof.Machine.execControlByteReceived byte inError s
  | .gapTimeout => Sys2Proof.Machine.execGapTimeout s
  | .frameTransmitted => Sys2Proof.Machine.execFrameTransmitted s
  | .unknownKindRequest kind tag payload => Sys2Proof.Machine.execUnknownKindRequest kind tag payload s
  | .ident tag payload => Sys2Proof.Machine.execIdent tag payload s
  | .mode tag payload => Sys2Proof.Machine.execMode tag payload s
  | .restart tag payload => Sys2Proof.Machine.execRestart tag payload s
  | .restartMade => Sys2Proof.Machine.execRestartMade s
  | .streamSet tag payload => Sys2Proof.Machine.execStreamSet tag payload s
  | .streamDrop tag payload => Sys2Proof.Machine.execStreamDrop tag payload s
  | .streamList tag payload => Sys2Proof.Machine.execStreamList tag payload s
  | .baySet tag payload => Sys2Proof.Machine.execBaySet tag payload s
  | .bayGet tag payload => Sys2Proof.Machine.execBayGet tag payload s
  | .yardSet tag payload => Sys2Proof.Machine.execYardSet tag payload s
  | .yardGet tag payload => Sys2Proof.Machine.execYardGet tag payload s
  | .bankWrite tag payload => Sys2Proof.Machine.execBankWrite tag payload s
  | .bankRead tag payload => Sys2Proof.Machine.execBankRead tag payload s
  | .bankApply tag payload => Sys2Proof.Machine.execBankApply tag payload s
  | .responseSet tag payload => Sys2Proof.Machine.execResponseSet tag payload s
  | .responseGet tag payload => Sys2Proof.Machine.execResponseGet tag payload s
  | .status tag payload => Sys2Proof.Machine.execStatus tag payload s
  | .topology tag payload => Sys2Proof.Machine.execTopology tag payload s
  | .measure tag payload => Sys2Proof.Machine.execMeasure tag payload s
  | .positions tag payload => Sys2Proof.Machine.execPositions tag payload s
  | .counters tag payload => Sys2Proof.Machine.execCounters tag payload s
  | .recordRead tag payload => Sys2Proof.Machine.execRecordRead tag payload s
  | .recordDiscard tag payload => Sys2Proof.Machine.execRecordDiscard tag payload s
  | .tripClear tag payload => Sys2Proof.Machine.execTripClear tag payload s
  | .alarmClear tag payload => Sys2Proof.Machine.execAlarmClear tag payload s
  | .zoneBlock tag payload => Sys2Proof.Machine.execZoneBlock tag payload s
  | .force tag payload => Sys2Proof.Machine.execForce tag payload s
  | .noticeSet tag payload => Sys2Proof.Machine.execNoticeSet tag payload s
  | .settle tag payload => Sys2Proof.Machine.execSettle tag payload s

end Sys2Proof.Machine
end

