-- ==== Sys2Proof/WellFormed.lean ====
section
/-! DEFINITION. Which terms of Instr can come from outside: a payload no longer than LEN can say (R183), a KIND of
UNKNOWN_KIND_REQUEST that names no request (R169), ring entries upset at most once each in one command. Every other bound is in
the operands' types. -/

namespace Sys2Proof

/-- A payload that a frame can carry (R183). -/
def payloadFits (payload : List Byte) : Bool :=
  decide (payload.length ≤ Config.payloadMax)

/-- The upsets of one command name no ring entry twice. -/
def upsetsDistinct (upsets : List Upset) : Bool :=
  decide upsets.Nodup

/-- The command can come from outside. -/
def Instr.wf : Instr → Bool
  | .hardReset _ _ => true
  | .refclkAbsent _ => true
  | .setInstant => true
  | .sampleCountWrap => true
  | .linkDown _ => true
  | .portFrameReceived _ _ => true
  | .tripFrameSent _ => true
  | .setClose upsets => upsetsDistinct upsets
  | .evaluateSet upsets => upsetsDistinct upsets
  | .externalHoldExpiry _ => true
  | .bfTimerExpiry _ => true
  | .moderationTimerExpiry _ => true
  | .controlByteReceived _ _ => true
  | .gapTimeout => true
  | .frameTransmitted => true
  | .unknownKindRequest kind _ payload => (requestRow kind).isNone && payloadFits payload
  | .ident _ payload => payloadFits payload
  | .mode _ payload => payloadFits payload
  | .restart _ payload => payloadFits payload
  | .restartMade => true
  | .streamSet _ payload => payloadFits payload
  | .streamDrop _ payload => payloadFits payload
  | .streamList _ payload => payloadFits payload
  | .baySet _ payload => payloadFits payload
  | .bayGet _ payload => payloadFits payload
  | .yardSet _ payload => payloadFits payload
  | .yardGet _ payload => payloadFits payload
  | .bankWrite _ payload => payloadFits payload
  | .bankRead _ payload => payloadFits payload
  | .bankApply _ payload => payloadFits payload
  | .responseSet _ payload => payloadFits payload
  | .responseGet _ payload => payloadFits payload
  | .status _ payload => payloadFits payload
  | .topology _ payload => payloadFits payload
  | .measure _ payload => payloadFits payload
  | .positions _ payload => payloadFits payload
  | .counters _ payload => payloadFits payload
  | .recordRead _ payload => payloadFits payload
  | .recordDiscard _ payload => payloadFits payload
  | .tripClear _ payload => payloadFits payload
  | .alarmClear _ payload => payloadFits payload
  | .zoneBlock _ payload => payloadFits payload
  | .force _ payload => payloadFits payload
  | .noticeSet _ payload => payloadFits payload
  | .settle _ payload => payloadFits payload

end Sys2Proof
end

