-- ==== Sys2Proof/Safety.lean ====
section
/-! DEFINITION. The terms in which statements about the device are made: when a request is served and how its reply goes out, and
the invariants of a sound state. -/

namespace Sys2Proof.Machine

open Sys2Proof

/-! ### Requests and replies -/

/-- The request that a command of the table stands for, if it is a request (R169). -/
def askedBy : Instr → Option Request
  | .hardReset _ _ => none
  | .refclkAbsent _ => none
  | .setInstant => none
  | .sampleCountWrap => none
  | .linkDown _ => none
  | .portFrameReceived _ _ => none
  | .tripFrameSent _ => none
  | .setClose _ => none
  | .evaluateSet _ => none
  | .externalHoldExpiry _ => none
  | .bfTimerExpiry _ => none
  | .moderationTimerExpiry _ => none
  | .controlByteReceived _ _ => none
  | .gapTimeout => none
  | .frameTransmitted => none
  | .unknownKindRequest kind tag payload => some ⟨kind, tag, payload⟩
  | .ident tag payload => some ⟨0x01, tag, payload⟩
  | .mode tag payload => some ⟨0x02, tag, payload⟩
  | .restart tag payload => some ⟨0x03, tag, payload⟩
  | .restartMade => none
  | .streamSet tag payload => some ⟨0x10, tag, payload⟩
  | .streamDrop tag payload => some ⟨0x11, tag, payload⟩
  | .streamList tag payload => some ⟨0x12, tag, payload⟩
  | .baySet tag payload => some ⟨0x14, tag, payload⟩
  | .bayGet tag payload => some ⟨0x15, tag, payload⟩
  | .yardSet tag payload => some ⟨0x16, tag, payload⟩
  | .yardGet tag payload => some ⟨0x17, tag, payload⟩
  | .bankWrite tag payload => some ⟨0x20, tag, payload⟩
  | .bankRead tag payload => some ⟨0x21, tag, payload⟩
  | .bankApply tag payload => some ⟨0x22, tag, payload⟩
  | .responseSet tag payload => some ⟨0x24, tag, payload⟩
  | .responseGet tag payload => some ⟨0x25, tag, payload⟩
  | .status tag payload => some ⟨0x30, tag, payload⟩
  | .topology tag payload => some ⟨0x31, tag, payload⟩
  | .measure tag payload => some ⟨0x32, tag, payload⟩
  | .positions tag payload => some ⟨0x33, tag, payload⟩
  | .counters tag payload => some ⟨0x34, tag, payload⟩
  | .recordRead tag payload => some ⟨0x38, tag, payload⟩
  | .recordDiscard tag payload => some ⟨0x39, tag, payload⟩
  | .tripClear tag payload => some ⟨0x40, tag, payload⟩
  | .alarmClear tag payload => some ⟨0x41, tag, payload⟩
  | .zoneBlock tag payload => some ⟨0x42, tag, payload⟩
  | .force tag payload => some ⟨0x44, tag, payload⟩
  | .noticeSet tag payload => some ⟨0x48, tag, payload⟩
  | .settle tag payload => some ⟨0x4F, tag, payload⟩

/-- While the line is free nothing waits for it (R182). -/
abbrev ControlLink.Settled (l : ControlLink) : Prop :=
  l.line = none → l.replies = [] ∧ l.slots = NoticeSlots.empty

/-- It is the request's turn and `rest` stands behind it: it is at the head of the queue, or the queue is empty, no frame is on
its way in, and the request arrives whole (R168; log 4). -/
abbrev State.Turn (req : Request) (rest : List Request) (s : State) : Prop :=
  s.link.requests = req :: rest ∨ (s.link.requests = [] ∧ rest = [] ∧ s.link.framer = .hunt)

/-- The head request can be served (R168). -/
abbrev State.Free (s : State) : Prop :=
  s.link.flight = none ∧ s.link.replies.length < 4 ∧ s.published = none

/-- The request is served now. -/
abbrev State.Served (req : Request) (rest : List Request) (s : State) : Prop :=
  s.link.Settled ∧ s.Turn req rest ∧ s.Free

/-- The request stands at the head of the queue, with the rest behind it. -/
def State.fronted (req : Request) (rest : List Request) (s : State) : State :=
  { s with link := { s.link with requests := req :: rest } }

/-- A reply goes out: onto the free line, or behind the replies that wait (R168, R182). -/
def ControlLink.withReply (kind tag : Byte) (payload : List Byte) (l : ControlLink) : ControlLink :=
  match l.line with
  | none => { l with line := some ⟨controlFrame kind tag payload, false⟩ }
  | some _ => { l with replies := l.replies ++ [⟨kind, tag, payload, false⟩] }

/-- The request is answered and leaves the queue: KIND plus 0x80, its TAG, the status byte and the data (R168, R169). -/
def ControlLink.answered (req : Request) (rest : List Request) (status : Nat) (data : List Byte) (l : ControlLink) :
    ControlLink :=
  { l with requests := rest, flight := none }.withReply
    (if req.kind.toNat < 128 then req.kind + 0x80 else 0xFF) req.tag (u8 status ++ data)

/-- The request stays at the head of the queue, in flight (R168). -/
def ControlLink.inFlight (req : Request) (rest : List Request) (f : Flight) (l : ControlLink) : ControlLink :=
  { l with requests := req :: rest, flight := some f }

/-- The request is answered, and nothing but the control link changes. -/
def State.replied (req : Request) (rest : List Request) (status : Nat) (data : List Byte) (s : State) : State :=
  { s with link := s.link.answered req rest status data }

/-- Bytes received one after the other without error. -/
def feed : List Byte → State → Host.Outcome State Fault Refusal
  | [], s => .next s
  | b :: bs, s =>
    match exec (.controlByteReceived b false) s with
    | .next t => feed bs t
    | .fault f => .fault f
    | .refused r => .refused r

/-- The two bytes by which a request names a bank item (R183). -/
def BankItem.bytes : BankItem → List Byte
  | .zoneIdmin => [0x01, 0]
  | .zoneSlope => [0x02, 0]
  | .zoneSlopeHigh => [0x03, 0]
  | .zoneOperateSets => [0x04, 0]
  | .checkIdmin => [0x05, 0]
  | .checkSlope => [0x06, 0]
  | .checkSlopeHigh => [0x07, 0]
  | .checkOperateSets => [0x08, 0]
  | .extRestraint => [0x09, 0]
  | .extRatio => [0x0A, 0]
  | .extHold => [0x0B, 0]
  | .supIdmin => [0x0C, 0]
  | .supSets => [0x0D, 0]
  | .releaseMode s => 0x0E :: u8 s.val
  | .bfCurrent b => 0x0F :: u8 b.val
  | .bfSets b => 0x10 :: u8 b.val
  | .travelSets => [0x11, 0]
  | .openSettleSets => [0x12, 0]

/-- The bytes of a bay frame (R186). -/
def bayFrameBytes (f : BayFrame) : List Byte :=
  let body := 0xB1 :: (u32 f.identifier.toNat ++ u16 f.count ++ [f.flags, f.contacts] ++ f.currents.cells.flatMap (fun c => u16 c.toNat))
  body ++ u32 (crc32 body).toNat

/-- A check of R11 fails, with the slot number of its detail. -/
def State.CheckFails (s : State) (check slot : Nat) : Prop :=
  match check with
  | 1 =>
    ∃ b : Slot, b.val = slot ∧
      (((s.bays.get b).kind ≠ .unused ∧ ∀ i e, s.streams.get i = some e → e.slot ≠ b) ∨
        ((s.bays.get b).kind = .unused ∧ ∃ i e, s.streams.get i = some e ∧ e.slot = b))
  | 2 =>
    ∃ b : Slot, b.val = slot ∧ s.yard.sections = .two ∧
      ((s.bays.get b).kind = .feeder .two ∨
        ∃ c, (s.bays.get b).kind = .junction .coupler2 c ∨ (s.bays.get b).kind = .junction .sectionA c ∨
          (s.bays.get b).kind = .junction .sectionB c)
  | 3 =>
    ∃ a b : Slot, b.val = slot ∧ a < b ∧
      ∃ j c c', (s.bays.get a).kind = .junction j c ∧ (s.bays.get b).kind = .junction j c'
  | 4 => slot = 255 ∧ ∀ b side, (s.bays.get b).kind ≠ .feeder side
  | 5 => slot = 255 ∧ (s.active.zoneSlopeHigh < s.active.zoneSlope ∨ s.active.checkSlopeHigh < s.active.checkSlope)
  | _ => False

/-- The checks of R11, in their order and over the slots in ascending order, stop at this one. -/
def State.FirstFailure (s : State) (check slot : Nat) : Prop :=
  s.CheckFails check slot ∧ (∀ c b, c < check → ¬ s.CheckFails c b) ∧ ∀ b, b < slot → ¬ s.CheckFails check b

/-- The value of a bank item after a hard reset (R12). -/
def BankItem.resetValue : BankItem → Nat
  | .zoneIdmin => 500
  | .zoneSlope => 32
  | .zoneSlopeHigh => 52
  | .zoneOperateSets => 2
  | .checkIdmin => 500
  | .checkSlope => 16
  | .checkSlopeHigh => 40
  | .checkOperateSets => 2
  | .extRestraint => 5000
  | .extRatio => 16
  | .extHold => 240
  | .supIdmin => 50
  | .supSets => 2400
  | .releaseMode _ => 0
  | .bfCurrent _ => 100
  | .bfSets _ => 180
  | .travelSets => 6000
  | .openSettleSets => 24

/-- R33 allows the close of the set for c0: the sample count is ALIGN_DELAY or more ahead of it around Ncount (DEDUCED, log 13). -/
abbrev State.Due (s : State) : Prop :=
  s.timer.running = true ∧ s.published = none ∧
    s.yard.alignDelay ≤ (s.timer.count + s.yard.frequency.ncount - s.store.c0) % s.yard.frequency.ncount

/-- No slot that the next close would substitute finds the entry it copies in parity mismatch (R37, R154). -/
abbrev State.SoundSources (s : State) : Prop :=
  ∀ b : Slot, ((s.store.slots.get b).ring.get 23).mismatch = false

/-- No ring entry that an evaluation reads is in parity mismatch (R34, R87). -/
abbrev State.SoundWindow (s : State) : Prop :=
  ∀ (b : Slot) (i : Fin 32), (s.bays.get b).kind ≠ .unused → i.val < 12 → ((s.store.slots.get b).ring.get i).mismatch = false

/-- A trip frame is handed to a port (R21, R125). -/
def PortState.given (f : TripFrame) (p : PortState) : PortState :=
  if p.fibre = none then { p with fibre := some f.bytes } else { p with waiting := some f }

/-- The current of a member at a depth, under its sign (R82). -/
def signedCurrent (s : State) (m : Member) (p : Phase) (i : Fin 32) : Int :=
  (if m.minus then -1 else 1) * ((s.store.slots.get m.slot).ring.get i).currents.get p

/-- D of R84: the magnitudes of the signed sums over the twelve newest stored sets. -/
def windowedD (s : State) (ms : List Member) (p : Phase) : Nat :=
  ∑ i : Fin 12, ((ms.map (fun m => signedCurrent s m p (Fin.castLE (by decide) i))).sum).natAbs

/-- R of R84: the sums of magnitudes over the twelve newest stored sets. -/
def windowedR (s : State) (ms : List Member) (p : Phase) : Nat :=
  ∑ i : Fin 12, (ms.map (fun m => (signedCurrent s m p (Fin.castLE (by decide) i)).natAbs)).sum

/-- The section is in use (R4). -/
abbrev State.InUse (s : State) (k : Bus) : Prop :=
  k.val < 2 ∨ s.yard.sections = .four

/-- The zone holds the section (R62). -/
abbrev Zone.Holds (z : Zone) (k : Bus) : Prop :=
  z.buses.getLsbD k.val = true

/-- d of R82 for the newest stored set. -/
def newestD (s : State) (ms : List Member) (p : Phase) : Int :=
  (ms.map (fun m => signedCurrent s m p 0)).sum

/-- r of R82 for the newest stored set. -/
def newestR (s : State) (ms : List Member) (p : Phase) : Nat :=
  (ms.map (fun m => (signedCurrent s m p 0).natAbs)).sum

/-- The magnitudes of one phase of a bay over the twelve newest stored sets (R98). -/
def windowedPhase (s : State) (b : Slot) (p : Phase) : Nat :=
  ∑ i : Fin 12, (((s.store.slots.get b).ring.get (Fin.castLE (by decide) i)).currents.get p).natAbs

/-- b_cur of R98: the largest of the three phases. -/
def windowedBay (s : State) (b : Slot) : Nat :=
  max (windowedPhase s b 0) (max (windowedPhase s b 1) (windowedPhase s b 2))

/-- The bay's current is present (R99), with the breaker position of the evaluated set. -/
def State.CurrentPresent (s t : State) (b : Slot) : Prop :=
  ((s.store.slots.get b).lost = false ∧ 12 * s.active.bfCurrent.get b ≤ windowedBay s b) ∨
    ((s.store.slots.get b).lost = true ∧
      ((∃ side, (s.bays.get b).kind = .feeder side) ∨
        ((∃ j c, (s.bays.get b).kind = .junction j c) ∧ (t.replica.slots.get b).breaker ≠ .opened)))

/-- The results that the evaluator keeps for one phase of a member list (R88, R91, R95, R100 to R102): the sums of the list, the
comparison with a pick-up and a slope, and the counter after the update against the operate sets. -/
def PhaseResult.Shows (q : PhaseResult) (s : State) (ms : List Member) (p : Phase) (state : DetectorState)
    (idmin slope sets counter : Nat) : Prop :=
  q.setDiff = newestD s ms p ∧ q.setRestraint = newestR s ms p ∧ q.diff = windowedD s ms p ∧ q.restraint = windowedR s ms p ∧
    (q.held = true ↔ 12 * idmin ≤ windowedD s ms p ∧ slope * windowedR s ms p ≤ 64 * windowedD s ms p) ∧
    (q.highSlope = true ↔ state = .external) ∧ q.detector = state ∧ q.counter = counter ∧
    (q.operates = true ↔ counter = sets) ∧ (q.suspect = true ↔ 12 * s.active.supIdmin ≤ windowedD s ms p ∧ counter < sets)

/-- A phase of a zone is released by the operate counters, the release modes and the check zone of an evaluated set
(R120, conditions 2 and 3; log 23). -/
abbrev State.Releases (t : State) (z : Zone) (p : Phase) : Prop :=
  (t.evaluator.operate.get z.name).get p = t.active.zoneOperateSets ∧
    ((∀ k, z.Holds k → t.active.releaseMode.get k = .unchecked) ∨
      (t.supervision.checkBlocked = false ∧ t.evaluator.checkOperate.get p = t.active.checkOperateSets))

/-- What the operate counters, the release modes and the block flags of an evaluated set make of a zone (R120). -/
def State.Trips (t : State) (z : Zone) : Prop :=
  (∀ k, z.Holds k → t.supervision.blockFlags.get k = false) ∧ ∃ p, t.Releases z p

/-- The section's trip latch is newly set (R121). -/
abbrev NewlyLatched (s t : State) (k : Bus) : Prop :=
  s.trip.tripLatch.get k = false ∧ t.trip.tripLatch.get k = true

/-- The bay's timer enters EXPIRED (R133). -/
abbrev Expires (s t : State) (b : Slot) : Prop :=
  (s.bf.get b).state = .timing ∧ (t.bf.get b).state = .expired

/-- A timer went from TIMING to EXPIRED on a bay that stands on the section (R135). -/
def BacktripsOn (s t : State) (tp : Topology) (k : Bus) : Prop :=
  ∃ b, Expires s t b ∧ (tp.connected.get b).getLsbD k.val = true

/-- The captured trip set of a section holds the bay after the release and latching of a set, before any timer acts (R121). -/
def CapturedAtRelease (s t : State) (tp : Topology) (k : Bus) (b : Slot) : Prop :=
  (s.trip.captured.get k).getLsbD b.val = true ∨
    (NewlyLatched s t k ∧
      ∃ z ∈ tp.zones, z.Holds k ∧ ∃ j, z.Holds j ∧ NewlyLatched s t j ∧ (tp.scopes.get j).getLsbD b.val = true)

/-- Initiation of a timer (R132): its bay is a tripped bay of a latched section, latches and captured trip sets as the release leaves
them, or its published BF-start is set and the bay is not LOST (log 14). -/
def Initiated (s t : State) (p : Published) (tp : Topology) (b : Slot) : Prop :=
  (∃ k, (t.trip.tripLatch.get k = true ∨ s.trip.backtripLatch.get k = true) ∧
      ((tp.scopes.get k).getLsbD b.val = true ∨ CapturedAtRelease s t tp k b)) ∨
    (p.bfStart.get b = true ∧ (s.store.slots.get b).lost = false)

/-- The ZONE_TRIP record of a zone (R123, R159). -/
def zoneTripOf (s t : State) (tp : Topology) (z : Zone) : ZoneTripRecord where
  stamp := tp.stamp
  buses := z.buses
  release := if ∀ k, z.Holds k → s.active.releaseMode.get k = .unchecked then .unchecked else .checked
  released := Table.build (fun p => decide (t.Releases z p))
  phases :=
    Table.build (fun p => ⟨windowedD s z.members p, windowedR s z.members p, ((t.detectors.zones.get z.name).get p).state⟩)
  check :=
    if ∀ k, z.Holds k → s.active.releaseMode.get k = .unchecked then none
    else some (Table.build (fun p => ⟨windowedD s tp.checkMembers p, windowedR s tp.checkMembers p⟩))
  bitmap := t.trip.bitmap

/-- The BACKTRIP record of a bay (R135, R160). -/
def backtripOf (s t : State) (tp : Topology) (b : Slot) : BacktripRecord where
  stamp := tp.stamp
  bay := b
  current := windowedBay s b
  buses := tp.connected.get b
  bitmap := t.trip.bitmap

/-- What an evaluated set pushes (R121, R123, R135, R161): a ZONE_TRIP record of every zone with a newly latched section, in ascending
order of name, then a BACKTRIP record of every bay whose timer enters EXPIRED, in ascending order of slot. -/
structure Pushes (s t : State) (tp : Topology) (zs : List Zone) (bs : List Slot) : Prop where
  zoneOrder : zs.Pairwise (fun y z => y.name < z.name)
  zones : ∀ z, z ∈ zs ↔ z ∈ tp.zones ∧ ∃ k, z.Holds k ∧ NewlyLatched s t k
  slotOrder : bs.Pairwise (fun a b => a < b)
  slots : ∀ b, b ∈ bs ↔ Expires s t b
  records : t.records =
    (zs.map (fun z => TripRecord.zoneTrip (zoneTripOf s t tp z)) ++ bs.map (fun b => TripRecord.backtrip (backtripOf s t tp b))).foldl
      RecordStack.push s.records

/-- The sections of a table of flags as a byte (R183). -/
def flaggedBuses (f : Table 4 Bool) : Byte :=
  (if f.get 0 = true then 1 else 0) + (if f.get 1 = true then 2 else 0) + (if f.get 2 = true then 4 else 0)
    + (if f.get 3 = true then 8 else 0)

/-- The payload of a TRIP or BACKTRIP notice (R179, R185). -/
def latchSnapshot (stamp : Stamp) (x : TripLogic) : List Byte :=
  [flaggedBuses x.tripLatch, flaggedBuses x.backtripLatch] ++ u32 x.bitmap.toNat ++ u16 stamp.second ++ u16 stamp.count

/-- A notice waits in its slot, or the transmitter has taken it (R179, R182). -/
def ControlLink.Carries (l : ControlLink) (slot : Option (List Byte)) (kind : Byte) (payload : List Byte) : Prop :=
  slot = some payload ∨ l.line = some ⟨controlFrame kind 0 payload, false⟩

/-- What a cause makes of a moderated class, with what it means that a notice is made (R180). -/
def NoticeClass.CausedTo (c d : NoticeClass) (made : Prop) : Prop :=
  (c.enabled = false → d = c) ∧ (c.enabled = true → c.timer ≠ none → d = { c with pending := true }) ∧
    (c.enabled = true → c.timer = none →
      d = { c with timer := if c.interval = 0 then none else some c.interval } ∧ made)

/-- The next nominal set instant makes a notice of the class: the timer reaches 0 with the pending mark set (R180). -/
def NoticeClass.Due (c : NoticeClass) : Prop :=
  c.pending = true ∧ ∃ k, c.timer = some k ∧ k ≤ 1

/-- What a nominal set instant makes of a moderated class (R180). -/
def NoticeClass.SteppedTo (c d : NoticeClass) : Prop :=
  (c.timer = none → d = c) ∧
    ∀ k, c.timer = some k →
      (1 < k → d = { c with timer := some (k - 1) }) ∧
      (k ≤ 1 →
        d = { c with
              pending := false
              timer := if c.pending = true ∧ c.interval ≠ 0 then some c.interval else none })

/-- What a nominal set instant makes of the control link, with the notices that ALARM and TOPOLOGY carry then: both classes step, a
class that is due places its notice, and a free transmitter takes TOPOLOGY before ALARM (R180, R182; log 33). -/
structure ControlLink.SteppedTo (alarm topology : List Byte) (l m : ControlLink) : Prop where
  alarmClass : l.alarm.SteppedTo m.alarm
  topologyClass : l.topology.SteppedTo m.topology
  alarmSlot : ¬ l.alarm.Due → m.slots.alarm = l.slots.alarm
  topologySlot : ¬ l.topology.Due → m.slots.topology = l.slots.topology
  alarmWaits : l.alarm.Due → (l.line ≠ none ∨ l.topology.Due) → m.slots.alarm = some alarm
  topologyWaits : l.topology.Due → l.line ≠ none → m.slots.topology = some topology
  alarmTaken : l.alarm.Due → l.line = none → ¬ l.topology.Due →
    m.slots.alarm = none ∧ m.line = some ⟨controlFrame 0x62 0 alarm, false⟩
  topologyTaken : l.topology.Due → l.line = none →
    m.slots.topology = none ∧ m.line = some ⟨controlFrame 0x63 0 topology, false⟩
  line : (l.line ≠ none ∨ (¬ l.alarm.Due ∧ ¬ l.topology.Due)) → m.line = l.line
  others :
    m = { l with
          alarm := m.alarm
          topology := m.topology
          line := m.line
          slots := { l.slots with alarm := m.slots.alarm, topology := m.slots.topology } }

/-- The partition or a member list of a set is not that of the set held from before (R74). -/
def TopologyDiffers (before : Option Topology) (tp : Topology) : Prop :=
  before = none ∨ ∃ old, before = some old ∧
    (old.zones.map (fun z => z.buses) ≠ tp.zones.map (fun z => z.buses) ∨
      (∃ z ∈ tp.zones, ∃ y ∈ old.zones, y.buses = z.buses ∧ y.members ≠ z.members) ∨ old.checkMembers ≠ tp.checkMembers)

/-- The section in use is marked changed against the set held from before (R68). -/
def MarkedChanged (before : Option Topology) (tp : Topology) (k : Bus) : Prop :=
  before = none ∨ ∃ old, before = some old ∧
    (old.zoneOf k = none ∨ ∃ y z, old.zoneOf k = some y ∧ z ∈ tp.zones ∧ z.Holds k ∧ (z.buses ≠ y.buses ∨ z.members ≠ y.members))

/-- The cause of a code at a scope for an evaluated set (R140, R142). -/
def Caused (s t : State) (c : Code) (sc : Scope) : Prop :=
  (∃ b, sc = .bay b ∧
    ((c = .streamLost ∧ (s.store.slots.get b).lost = true) ∨ (c = .streamGap ∧ (s.store.slots.get b).sinceSub < 24) ∨
      (c = .isolatorTravel ∧ (t.replica.slots.get b).causeTravel = true) ∨
      (c = .isolatorInvalid ∧ (t.replica.slots.get b).causeInvalid = true) ∨
      (c = .breakerInvalid ∧ (t.replica.slots.get b).causeBreaker = true) ∨
      (c = .positionForced ∧ (t.replica.slots.get b).causeForced = true))) ∨
  (∃ k, sc = .bus k ∧ c = .zoneCtSuspect ∧ ∃ p, s.active.supSets ≤ (t.supervision.ctCounts.get k).get p) ∨
  (sc = .check ∧ c = .checkCtSuspect ∧ ∃ p, s.active.supSets ≤ t.supervision.checkCt.get p) ∨
  ∃ p, sc = .port p ∧ c = .portSilent ∧ (s.ports.get p).link = .down ∧
    ∃ i e, s.streams.get i = some e ∧ e.enabled = true ∧
      (e.admitted = .either ∨ (e.admitted = .x ∧ p = .x) ∨ (e.admitted = .y ∧ p = .y))

/-- The captured scope that a latched entry takes at its creation (R144). -/
def Captures (s : State) (tp : Topology) (c : Code) (sc : Scope) (r : Reach) : Prop :=
  (∀ k : Bus, r.buses.getLsbD k.val = true ↔
    sc = .bus k ∨ ∃ b, sc = .bay b ∧ c ≠ .positionForced ∧ (tp.connected.get b).getLsbD k.val = true) ∧
  (r.check = true ↔ sc = .check ∨ (c = .streamLost ∧ ∃ b side, sc = .bay b ∧ (s.bays.get b).kind = .feeder side))

/-- The entry of a pair of code and scope in the condition table (R139). -/
def State.entryOf (s : State) (key : Code × Scope) : Option Condition :=
  s.supervision.conditions.find? (fun e => e.code = key.1 ∧ e.scope = key.2)

/-- A section is reached by an entry at BLOCK_ZONE (R148). -/
def Condition.Reaches (tp : Topology) (e : Condition) (k : Bus) : Prop :=
  (∃ r, e.latched = some r ∧ r.buses.getLsbD k.val = true) ∨
    (e.active = true ∧ (e.scope = .bus k ∨ ∃ b, e.scope = .bay b ∧ e.code ≠ .positionForced ∧ (tp.connected.get b).getLsbD k.val = true))

/-! ### Invariants -/

/-- The lines, the latches, the timers and the sample timer follow the mode (R122, R126, R137, R153, R172). -/
structure State.Driven (s : State) : Prop where
  healthy : s.lines.healthy = decide (s.mode ≠ .halted)
  trip : ∀ k, s.lines.trip.get k = (decide (s.mode = .run) && (s.trip.tripLatch.get k || s.trip.backtripLatch.get k))
  latches : s.mode ≠ .run → ∀ k, s.trip.tripLatch.get k = false ∧ s.trip.backtripLatch.get k = false
  timers : s.mode ≠ .run → ∀ b, s.bf.get b = BfTimer.reset
  captured : ∀ k, s.trip.tripLatch.get k = false → s.trip.backtripLatch.get k = false → s.trip.captured.get k = 0
  clock : s.timer.running = decide (s.mode ≠ .halted)
  haltCode : s.mode = .halted ↔ s.supervision.haltCode ≠ none
  evaluation : s.mode = .halted → s.published = none
  waiting : s.mode = .halted → s.ports.x.waiting = none ∧ s.ports.y.waiting = none

/-- A detector's hold count (R105). -/
abbrev Detector.Bounded (extHold : Nat) (d : Detector) : Prop :=
  d.hold ≤ extHold ∧ (d.state = .external → 1 ≤ d.hold) ∧ (d.state ≠ .external → d.hold = 0)

/-- A breaker failure timer's counts (R131). -/
abbrev BfTimer.Bounded (t : BfTimer) : Prop :=
  t.countdown ≤ 600 ∧ t.currentAbsent ≤ 2 ∧ t.initAbsent ≤ 2 ∧ (t.state ≠ .timing → t.countdown = 0)
    ∧ (t.state = .timing → 1 ≤ t.countdown)

/-- Both banks lie in their ranges, ACTIVE meets the cross-relations, and what the settings bound is bounded
(R1, R5, R12, R15, R17, R90, R105, R131, R145). -/
structure State.Ranged (s : State) : Prop where
  active : ∀ i : BankItem, i.admits (s.active.item i) = true
  edit : ∀ i : BankItem, i.admits (s.edit.item i) = true
  relations : s.active.zoneSlope ≤ s.active.zoneSlopeHigh ∧ s.active.checkSlope ≤ s.active.checkSlopeHigh
  applying : s.link.flight = some .bankApply → s.edit.zoneSlope ≤ s.edit.zoneSlopeHigh ∧ s.edit.checkSlope ≤ s.edit.checkSlopeHigh
  operate : ∀ k p, (s.evaluator.operate.get k).get p ≤ s.active.zoneOperateSets
  checkOperate : ∀ p, s.evaluator.checkOperate.get p ≤ s.active.checkOperateSets
  detectors : ∀ k p, ((s.detectors.zones.get k).get p).Bounded s.active.extHold
  checkDetectors : ∀ p, (s.detectors.check.get p).Bounded s.active.extHold
  timers : ∀ b, (s.bf.get b).Bounded
  levels : ∀ c : Code, c.allows (s.supervision.response c).level = true
  delay : 1 ≤ s.yard.alignDelay ∧ s.yard.alignDelay ≤ 4
  ratio : ∀ b, 1024 ≤ (s.bays.get b).ratio ∧ (s.bays.get b).ratio ≤ 65535

/-- A moderated class (R180, R181). -/
abbrev NoticeClass.Bounded (c : NoticeClass) (slot : Option (List Byte)) : Prop :=
  c.interval ≤ 2400 ∧ (∀ t, c.timer = some t → 1 ≤ t ∧ t ≤ 2400) ∧ (c.pending = true → c.timer ≠ none)
    ∧ (c.enabled = false → c.timer = none ∧ slot = none)

/-- The framer holds as many bytes as its state allows (R167). -/
def Framer.Bounded : Framer → Prop
  | .hunt => True
  | .header got => got.length < 4 ∧ (2 ≤ got.length → lenOf got ≤ 1024)
  | .body got => 4 ≤ got.length ∧ lenOf got ≤ 1024 ∧ got.length < 6 + lenOf got

/-- The queues of the control link and the record stack keep within their sizes, and a request in flight stands at the head
(R158, R167, R168, R180 to R182). -/
structure State.Queued (s : State) : Prop where
  requests : s.link.requests.length ≤ 4
  replies : s.link.replies.length ≤ 4
  head : s.link.flight ≠ none → s.link.requests ≠ []
  room : s.link.flight ≠ none → s.link.flight ≠ some .restart → s.link.replies.length < 4
  settled : s.link.Settled
  framer : s.link.framer.Bounded
  alarm : s.link.alarm.Bounded s.link.slots.alarm
  topology : s.link.topology.Bounded s.link.slots.topology
  counters : s.link.crcErrors ≤ 65535 ∧ s.link.framing ≤ 65535 ∧ s.link.overrun ≤ 65535
  stack : s.records.stack.length ≤ 8
  overwrites : s.records.overwrites ≤ 255

/-- A port's counters and its link state (R20, R42). -/
abbrev PortState.Bounded (p : PortState) : Prop :=
  p.silence ≤ 24 ∧ (p.link = .down ↔ p.silence = 24) ∧ p.valid ≤ 65535 ∧ p.badCrc ≤ 65535 ∧ p.badFormat ≤ 65535
    ∧ p.unknownId ≤ 65535 ∧ p.wrongPort ≤ 65535 ∧ p.invalid ≤ 65535

/-- A stream entry's counters (R42). -/
abbrev StreamCounters.Bounded (c : StreamCounters) : Prop :=
  c.taken ≤ 65535 ∧ c.duplicate ≤ 65535 ∧ c.late ≤ 65535 ∧ c.early ≤ 65535 ∧ c.substituted ≤ 65535 ∧ c.overrange ≤ 65535

/-- The stream table holds no identifier and no slot twice and no identifier 0, and every counter of the ports and of the table
keeps within 16 bits (R20, R22, R42). -/
structure State.Paired (s : State) : Prop where
  identifier : ∀ i j e f, s.streams.get i = some e → s.streams.get j = some f → e.identifier = f.identifier → i = j
  slot : ∀ i j e f, s.streams.get i = some e → s.streams.get j = some f → e.slot = f.slot → i = j
  nonzero : ∀ i e, s.streams.get i = some e → e.identifier ≠ 0
  counters : ∀ i e, s.streams.get i = some e → e.counters.Bounded
  portX : s.ports.x.Bounded
  portY : s.ports.y.Bounded

/-- Every scaled current of a ring entry (R81). -/
abbrev RingEntry.Bounded (e : RingEntry) : Prop :=
  ∀ p, (e.currents.get p).natAbs ≤ 131066

/-- The counts kept for a slot of the alignment store (R35 to R41). -/
abbrev BayStore.Bounded (b : BayStore) : Prop :=
  b.gap ≤ 2 ∧ b.recovery ≤ 24 ∧ (b.lost = true → b.recovery < 24) ∧ b.sinceSub ≤ 24 ∧ ∀ i, (b.ring.get i).Bounded

/-- The counts of a slot of the replica (R51 to R54). -/
abbrev SlotPositions.Bounded (q : SlotPositions) : Prop :=
  q.travelA ≤ 24000 ∧ q.travelB ≤ 24000 ∧ q.invalidA ≤ 3 ∧ q.invalidB ≤ 3 ∧ q.openSettle ≤ 48 ∧ q.invalidBreaker ≤ 3

/-- The sample timer, the alignment store, the replica and the CT supervision counts keep within their ranges, and an UNUSED slot
is at rest (R27, R31, R35 to R41, R44, R51 to R54, R81, R131, R141). -/
structure State.Stored (s : State) : Prop where
  count : s.timer.count < s.yard.frequency.ncount
  second : s.timer.second < 65536
  c0 : s.store.c0 < s.yard.frequency.ncount
  ratio : ∀ b, (s.bays.get b).ratio ≤ 65535
  slots : ∀ b, (s.store.slots.get b).Bounded
  positions : ∀ b, (s.replica.slots.get b).Bounded
  unused : ∀ b, (s.bays.get b).kind = .unused →
    s.bf.get b = BfTimer.reset ∧ s.replica.slots.get b = SlotPositions.reset ∧ (s.store.slots.get b).lost = false
  ct : ∀ k p, (s.supervision.ctCounts.get k).get p ≤ 12000
  checkCt : ∀ p, s.supervision.checkCt.get p ≤ 12000

/-- The pairs of code and scope that can exist, in the order of the condition table (R139). -/
def State.possibleKeys (s : State) : List (Code × Scope) :=
  conditionKeys.filter (fun key => pairExists s key.1 key.2)

/-- The condition table holds possible pairs only, each at most once and in order, and every entry that is not active is latched
(R139). -/
structure State.Tabled (s : State) : Prop where
  keys : (s.supervision.conditions.map (fun e => (e.code, e.scope))).Sublist s.possibleKeys
  latched : ∀ e ∈ s.supervision.conditions, e.active = false → e.latched ≠ none

end Sys2Proof.Machine
end

