-- ==== Sys2Proof/Certificates/Slice0/Obligations.lean ====
section
/-! DEFINITION. The statements for the provers. -/

open Sys2Proof Sys2Proof.Machine

/-! ### The machine as a whole -/

/-- A step takes the command at the front of the queue, and an empty queue leaves the device as it is (log 1). -/
def Obligations.StepTakesFrontCommand : Prop :=
  ∀ (c : Instr) (rest : List Instr) (s : State),
    step { s with pending := c :: rest } = exec c { s with pending := rest } ∧
      step { s with pending := [] } = .next { s with pending := [] }

/-- Every command, in every state, answers a next state: a failed integrity check leads to HALTED, which is a state (R153), and a
request that the manual refuses is answered with its status (R169). That a row given while the condition of its event does not hold
answers next as well is the model's choice (log 2). The queue `pending`, which every command leaves as it was, is the model's own
(log 1), and so is that a hard reset leaves it (log 17). -/
def Obligations.EveryCommandAnswersNext : Prop :=
  ∀ (c : Instr) (s : State), ∃ t, exec c s = .next t ∧ t.pending = s.pending

/-- What a hard reset leaves in every block (R1, R5, R12, R20, R43, R59, R76, R92, R117, R130, R137, R145, R153, R156, R165, R178). The
straps are operands of the row (log 10), and the waiting commands are the model's own (log 17). Not stated are what the replica shows
as zoning positions, exclusion, reception and causes before its first set (log 11) and the SYNC line. -/
def Obligations.HardResetLeavesResetValues : Prop :=
  ∀ (r1 r0 : Bool) (s : State), ∃ t, exec (.hardReset r1 r0) s = .next t ∧
    t.mode = .setup ∧ t.lines.healthy = true ∧ (∀ k, t.lines.trip.get k = false) ∧
    t.rate.toNat = 2 * r1.toNat + r0.toNat ∧
    t.timer.running = true ∧ t.timer.count = 0 ∧ t.timer.second = 0 ∧ t.timer.period = 20000 ∧
    t.yard = ⟨.two, .hz50, 2⟩ ∧ (∀ b, t.bays.get b = ⟨.unused, .plus, 16384⟩) ∧
    (∀ i : BankItem, t.active.item i = i.resetValue ∧ t.edit.item i = i.resetValue) ∧
    (∀ p, t.ports.get p =
      { link := .down, silence := 24, valid := 0, badCrc := 0, badFormat := 0, unknownId := 0, wrongPort := 0, invalid := 0,
        fibre := none, waiting := none }) ∧
    (∀ i, t.streams.get i = none) ∧
    t.store.c0 = 0 ∧ t.store.lastClosed = none ∧ (∀ i b, (t.store.cells.get i).get b = none) ∧
    (∀ b, (t.store.slots.get b).gap = 0 ∧ (t.store.slots.get b).recovery = 0 ∧ (t.store.slots.get b).lost = false ∧
      (t.store.slots.get b).bfStart = false ∧ (t.store.slots.get b).sinceSub = 24 ∧
      ∀ i, ((t.store.slots.get b).ring.get i).mark = .zero ∧ ((t.store.slots.get b).ring.get i).mismatch = false ∧
        ∀ p, ((t.store.slots.get b).ring.get i).currents.get p = 0) ∧
    t.published = none ∧ t.replica.stamp = none ∧
    (∀ b, (t.replica.slots.get b).isoA = .noData ∧ (t.replica.slots.get b).isoB = .noData ∧
      (t.replica.slots.get b).breaker = .noData ∧ (t.replica.slots.get b).forcedA = .none ∧
      (t.replica.slots.get b).forcedB = .none ∧ (t.replica.slots.get b).travelA = 0 ∧ (t.replica.slots.get b).travelB = 0 ∧
      (t.replica.slots.get b).invalidA = 0 ∧ (t.replica.slots.get b).invalidB = 0 ∧
      (t.replica.slots.get b).openSettle = 0 ∧ (t.replica.slots.get b).invalidBreaker = 0) ∧
    t.topology = none ∧ t.evaluator.results = none ∧
    (∀ p, t.evaluator.checkOperate.get p = 0 ∧ t.detectors.check.get p = ⟨.quiet, 0⟩ ∧ t.supervision.checkCt.get p = 0 ∧
      ∀ k, (t.evaluator.operate.get k).get p = 0 ∧ (t.detectors.zones.get k).get p = ⟨.quiet, 0⟩ ∧
        (t.supervision.ctCounts.get k).get p = 0) ∧
    t.supervision.conditions = [] ∧
    t.supervision.responses.cells =
      [⟨.blockZone, false⟩, ⟨.none, false⟩, ⟨.blockZone, true⟩, ⟨.alarm, false⟩, ⟨.alarm, false⟩, ⟨.alarm, false⟩, ⟨.alarm, false⟩,
        ⟨.alarm, false⟩, ⟨.alarm, false⟩] ∧
    (∀ k, t.supervision.hostBlocks.get k = false ∧ t.supervision.blockFlags.get k = false) ∧
    t.supervision.checkBlocked = false ∧ t.supervision.haltCode = none ∧ t.supervision.storeParity = false ∧
    t.supervision.timerFault = false ∧
    (∀ k, t.trip.tripLatch.get k = false ∧ t.trip.backtripLatch.get k = false ∧ t.trip.captured.get k = 0) ∧ t.trip.bitmap = 0 ∧
    (∀ b, t.bf.get b = ⟨.idle, 0, 0, 0⟩) ∧ t.records.stack = [] ∧ t.records.overwrites = 0 ∧
    t.link =
      { framer := .hunt, requests := [], flight := none, replies := [], line := none, crcErrors := 0, framing := 0, overrun := 0,
        slots := ⟨none, none, none, none, none⟩, alarm := ⟨true, 24, none, false⟩, topology := ⟨false, 120, none, false⟩ }

/-- While a set is in evaluation no command but a hard reset changes the ACTIVE bank, the bay table, the yard settings or a stored
forced value: every stage of a set reads what stood when its close was taken (R16, R50, R67; log 28). -/
def Obligations.EvaluationReadsWhatTheCloseFound : Prop :=
  ∀ (c : Instr) (s t : State), s.published ≠ none → (∀ r1 r0, c ≠ .hardReset r1 r0) → exec c s = .next t →
    t.active = s.active ∧ t.bays = s.bays ∧ t.yard = s.yard ∧
      ∀ b, (t.replica.slots.get b).forcedA = (s.replica.slots.get b).forcedA ∧
        (t.replica.slots.get b).forcedB = (s.replica.slots.get b).forcedB

/-- HALTED is left by a hard reset alone, and until then the halt code, the banks, the bay table, the stored sets with every ring
entry and count, the condition and response tables, the host blocks, the block flags and the CT supervision counts stand (R34, R47,
R152, R153, R154, R172, R175). Whether a read of an entry would find its parity in mismatch may change with the operands (log 6). -/
def Obligations.HaltedIsLeftByHardResetAlone : Prop :=
  ∀ (c : Instr) (s t : State), s.Driven → s.mode = .halted → (∀ r1 r0, c ≠ .hardReset r1 r0) → exec c s = .next t →
    t.mode = .halted ∧ t.supervision.haltCode = s.supervision.haltCode ∧ t.timer = s.timer ∧ t.lines = s.lines ∧
      t.active = s.active ∧ t.edit = s.edit ∧ t.bays = s.bays ∧ t.yard = s.yard ∧ t.replica = s.replica ∧
      t.topology = s.topology ∧ t.evaluator = s.evaluator ∧ t.detectors = s.detectors ∧
      t.supervision.conditions = s.supervision.conditions ∧ t.trip = s.trip ∧ t.bf = s.bf ∧
      t.supervision.responses = s.supervision.responses ∧ t.supervision.hostBlocks = s.supervision.hostBlocks ∧
      t.supervision.blockFlags = s.supervision.blockFlags ∧ t.supervision.checkBlocked = s.supervision.checkBlocked ∧
      t.supervision.ctCounts = s.supervision.ctCounts ∧ t.supervision.checkCt = s.supervision.checkCt ∧
      t.rate = s.rate ∧ t.published = s.published ∧ t.store.lastClosed = s.store.lastClosed ∧
      t.store.c0 = s.store.c0 ∧ t.store.cells = s.store.cells ∧
      (∀ b, (t.store.slots.get b).gap = (s.store.slots.get b).gap ∧
        (t.store.slots.get b).recovery = (s.store.slots.get b).recovery ∧ (t.store.slots.get b).lost = (s.store.slots.get b).lost ∧
        (t.store.slots.get b).bfStart = (s.store.slots.get b).bfStart ∧
        (t.store.slots.get b).sinceSub = (s.store.slots.get b).sinceSub ∧
        ∀ i, ((t.store.slots.get b).ring.get i).currents = ((s.store.slots.get b).ring.get i).currents ∧
          ((t.store.slots.get b).ring.get i).mark = ((s.store.slots.get b).ring.get i).mark) ∧
      ∀ i, (t.streams.get i).map (fun e => (e.identifier, e.slot, e.admitted, e.enabled)) =
        (s.streams.get i).map (fun e => (e.identifier, e.slot, e.admitted, e.enabled))

/-- A trip latch or a backtrip latch is set by nothing but the evaluation of a set, in RUN, of a set closed in RUN
(R122, R174). -/
def Obligations.LatchesRiseInEvaluationInRunOnly : Prop :=
  ∀ (c : Instr) (s t : State) (k : Bus), exec c s = .next t →
    ((s.trip.tripLatch.get k = false ∧ t.trip.tripLatch.get k = true) ∨
      (s.trip.backtripLatch.get k = false ∧ t.trip.backtripLatch.get k = true)) →
    s.mode = .run ∧ (∃ p, s.published = some p ∧ p.runAtClose = true) ∧
      ((∃ u, c = .evaluateSet u) ∨ (∃ d, c = .externalHoldExpiry d) ∨ (∃ b, c = .bfTimerExpiry b))

/-! ### Sample timer, ports (chapter 2) -/

/-- A nominal set instant (R20, R27, R28): the counts advance, SYNC pulses at count 0, every port counts one more set of silence and
goes DOWN at 24; a STOPPED timer marks none. SAMPLE_COUNT_WRAP is the instant taken at the last count, LINK_DOWN the one that brings
an UP port's silence count to 24; at any other instant these two are no events (log 2, log 3). A running moderation timer above 1
goes down by one, an idle one stays idle, and nothing else of the control link changes but the slot, or on an idle line the line,
that takes a notice made at an expiry (R180; stated where nothing waits for a free line). -/
def Obligations.SetInstantAdvancesTimerAndSilence : Prop :=
  ∀ s : State,
    (s.timer.running = false → exec .setInstant s = .next s ∧ exec .sampleCountWrap s = .next s ∧
      ∀ p, exec (.linkDown p) s = .next s) ∧
    (s.timer.running = true → ∃ t, exec .setInstant s = .next t ∧
      (s.timer.count + 1 < s.yard.frequency.ncount →
        t.timer.count = s.timer.count + 1 ∧ t.timer.second = s.timer.second ∧ exec .sampleCountWrap s = .next s) ∧
      (s.yard.frequency.ncount ≤ s.timer.count + 1 →
        t.timer.count = 0 ∧ t.timer.second = (s.timer.second + 1) % 65536 ∧ exec .sampleCountWrap s = .next t) ∧
      t.timer.running = true ∧
      t.timer.period =
        (if s.yard.frequency = .hz50 then 20000 else if t.timer.count % 3 = 2 then 16666 else 16667) ∧
      (t.lines.sync = true ↔ t.timer.count = 0) ∧
      (∀ p, (t.ports.get p).silence = min ((s.ports.get p).silence + 1) 24 ∧
        ((t.ports.get p).link = .up ↔ (s.ports.get p).link = .up ∧ (s.ports.get p).silence < 23) ∧
        ((s.ports.get p).link = .up → 23 ≤ (s.ports.get p).silence → exec (.linkDown p) s = .next t) ∧
        (((s.ports.get p).link = .down ∨ (s.ports.get p).silence < 23) → exec (.linkDown p) s = .next s)) ∧
      t.ports =
        { x := { s.ports.x with silence := t.ports.x.silence, link := t.ports.x.link }
          y := { s.ports.y with silence := t.ports.y.silence, link := t.ports.y.link } } ∧
      t = { s with timer := t.timer, lines := { s.lines with sync := t.lines.sync }, ports := t.ports, link := t.link } ∧
      (∀ k, 1 < k → s.link.alarm.timer = some k → t.link.alarm = { s.link.alarm with timer := some (k - 1) }) ∧
      (s.link.alarm.timer = none → t.link.alarm = s.link.alarm) ∧
      (∀ k, 1 < k → s.link.topology.timer = some k → t.link.topology = { s.link.topology with timer := some (k - 1) }) ∧
      (s.link.topology.timer = none → t.link.topology = s.link.topology) ∧
      (s.link.Settled →
        let alarmMade : Prop := s.link.alarm.pending = true ∧ ∃ k, s.link.alarm.timer = some k ∧ k ≤ 1
        let topologyMade : Prop := s.link.topology.pending = true ∧ ∃ k, s.link.topology.timer = some k ∧ k ≤ 1
        t.link =
          { s.link with
            alarm := t.link.alarm
            topology := t.link.topology
            line := t.link.line
            slots := { s.link.slots with alarm := t.link.slots.alarm, topology := t.link.slots.topology } } ∧
        (¬ alarmMade → t.link.slots.alarm = s.link.slots.alarm) ∧
        (¬ topologyMade → t.link.slots.topology = s.link.slots.topology) ∧
        ((s.link.line ≠ none ∨ (¬ alarmMade ∧ ¬ topologyMade)) → t.link.line = s.link.line)))

/-- MODERATION_TIMER_EXPIRY for both classes (R180): with the pending mark a notice of the state at that moment is made and the
timer restarts, or is idle for an interval of 0; without it the timer is idle. That the row gives the very state of SET_INSTANT is DEDUCED
(log 3). -/
def Obligations.ModerationExpiryMakesPendingNotice : Prop :=
  ∀ s : State, s.timer.running = true →
    (s.link.alarm.timer = some 1 → ∃ t, exec (.moderationTimerExpiry .alarm) s = .next t ∧ exec .setInstant s = .next t ∧
      t.link.alarm.pending = false ∧
      (s.link.alarm.pending = false → t.link.alarm.timer = none) ∧
      (s.link.alarm.pending = true →
        t.link.alarm.timer = (if s.link.alarm.interval = 0 then none else some s.link.alarm.interval) ∧
        (t.link.slots.alarm = some (conditionBytes s.supervision.conditions) ∨
          (s.link.line = none ∧
            t.link.line = some ⟨controlFrame 0x62 0 (conditionBytes s.supervision.conditions), false⟩)))) ∧
    (s.link.topology.timer = some 1 → ∃ t, exec (.moderationTimerExpiry .topology) s = .next t ∧
      exec .setInstant s = .next t ∧ t.link.topology.pending = false ∧
      (s.link.topology.pending = false → t.link.topology.timer = none) ∧
      (s.link.topology.pending = true →
        t.link.topology.timer = (if s.link.topology.interval = 0 then none else some s.link.topology.interval) ∧
        (t.link.slots.topology = some (topologyHead s.yard.sections s.topology) ∨
          (s.link.line = none ∧
            t.link.line = some ⟨controlFrame 0x63 0 (topologyHead s.yard.sections s.topology), false⟩))))

/-- The receiver of a port and the stream table (R19, R20, R26, R186). A string that ends in another word than its CRC-32 counts BAD_CRC
and nothing else changes; one whose CRC holds but is no bay frame (its length, its type, or a sample count at or above Ncount) counts
BAD_FORMAT and is heard. A VALID bay frame does not reach the alignment store in HALTED, where it is counted and discarded, nor where
no enabled entry holds its identifier, its entry does not take the port, or its quality is INVALID: these are counted on the port. -/
def Obligations.PortDisposesOfUnwantedFrames : Prop :=
  (∀ (s : State) (p : Port) (body : List Byte) (crc : BitVec 32),
    (crc ≠ crc32 body →
      exec (.portFrameReceived p (body ++ u32 crc.toNat)) s =
        .next { s with ports := s.ports.modify p (fun q => { q with badCrc := min (q.badCrc + 1) 65535 }) }) ∧
    ((body.length ≠ 15 ∨ body.head? ≠ some 0xB1) →
      exec (.portFrameReceived p (body ++ u32 (crc32 body).toNat)) s =
        .next
          { s with
            ports := s.ports.modify p (fun q =>
              { q with link := .up, silence := 0, badFormat := min (q.badFormat + 1) 65535 }) }) ∧
    ∀ f : BayFrame, f.count < 65536 → s.yard.frequency.ncount ≤ f.count →
      exec (.portFrameReceived p (bayFrameBytes f)) s =
        .next
          { s with
            ports := s.ports.modify p (fun q =>
              { q with link := .up, silence := 0, badFormat := min (q.badFormat + 1) 65535 }) }) ∧
  ∀ (s : State) (p : Port) (f : BayFrame), f.count < s.yard.frequency.ncount →
    (s.mode = .halted →
      exec (.portFrameReceived p (bayFrameBytes f)) s =
        .next { s with ports := s.ports.modify p (fun q => { q with link := .up, silence := 0, valid := min (q.valid + 1) 65535 }) }) ∧
    (s.mode ≠ .halted → (∀ i e, s.streams.get i = some e → e.enabled = true → e.identifier ≠ f.identifier) →
      exec (.portFrameReceived p (bayFrameBytes f)) s =
        .next
          { s with
            ports := s.ports.modify p (fun q =>
              { q with link := .up, silence := 0, valid := min (q.valid + 1) 65535, unknownId := min (q.unknownId + 1) 65535 }) }) ∧
    ∀ i e, s.Paired → s.mode ≠ .halted → s.streams.get i = some e → e.enabled = true → e.identifier = f.identifier →
      (((e.admitted = .x ∧ p = .y) ∨ (e.admitted = .y ∧ p = .x)) →
        exec (.portFrameReceived p (bayFrameBytes f)) s =
          .next
            { s with
              ports := s.ports.modify p (fun q =>
                { q with link := .up, silence := 0, valid := min (q.valid + 1) 65535,
                         wrongPort := min (q.wrongPort + 1) 65535 }) }) ∧
      ((e.admitted = .either ∨ (e.admitted = .x ∧ p = .x) ∨ (e.admitted = .y ∧ p = .y)) → f.flags.getLsbD 0 = true →
        exec (.portFrameReceived p (bayFrameBytes f)) s =
          .next
            { s with
              ports := s.ports.modify p (fun q =>
                { q with link := .up, silence := 0, valid := min (q.valid + 1) 65535,
                         invalid := min (q.invalid + 1) 65535 }) })

/-- A bay frame accepted by the stream table is placed, or discarded, by its offset from c0, and its entry counts the outcome
(R26, R32). -/
def Obligations.AcceptedFrameIsPlacedByOffset : Prop :=
  ∀ (s : State) (p : Port) (f : BayFrame) (i : Fin 26) (e : StreamEntry),
    s.Paired → s.mode ≠ .halted → s.store.c0 < s.yard.frequency.ncount → f.count < s.yard.frequency.ncount →
    s.streams.get i = some e → e.enabled = true → e.identifier = f.identifier →
    (e.admitted = .either ∨ (e.admitted = .x ∧ p = .x) ∨ (e.admitted = .y ∧ p = .y)) → f.flags.getLsbD 0 = false →
    let offset := (f.count + s.yard.frequency.ncount - s.store.c0) % s.yard.frequency.ncount
    let sample : Sample :=
      { currents := f.currents
        contacts :=
          { isoA := ⟨f.contacts.getLsbD 0, f.contacts.getLsbD 1⟩
            isoB := ⟨f.contacts.getLsbD 2, f.contacts.getLsbD 3⟩
            breaker := ⟨f.contacts.getLsbD 4, f.contacts.getLsbD 5⟩ }
        bfStart := f.flags.getLsbD 1 }
    let heard : Ports := s.ports.modify p (fun q => { q with link := .up, silence := 0, valid := min (q.valid + 1) 65535 })
    (∀ h : offset < 8,
      ((s.store.cells.get ⟨offset, h⟩).get e.slot = none →
        exec (.portFrameReceived p (bayFrameBytes f)) s =
          .next
            { s with
              ports := heard
              streams := s.streams.set i (some { e with counters := { e.counters with taken := min (e.counters.taken + 1) 65535 } })
              store :=
                { s.store with
                  cells := s.store.cells.set ⟨offset, h⟩ ((s.store.cells.get ⟨offset, h⟩).set e.slot (some sample)) } }) ∧
      ((s.store.cells.get ⟨offset, h⟩).get e.slot ≠ none →
        exec (.portFrameReceived p (bayFrameBytes f)) s =
          .next
            { s with
              ports := heard
              streams :=
                s.streams.set i (some { e with counters := { e.counters with duplicate := min (e.counters.duplicate + 1) 65535 } }) })) ∧
    (s.yard.frequency.ncount / 2 ≤ offset →
      exec (.portFrameReceived p (bayFrameBytes f)) s =
        .next
          { s with
            ports := heard
            streams := s.streams.set i (some { e with counters := { e.counters with late := min (e.counters.late + 1) 65535 } }) }) ∧
    (8 ≤ offset → offset < s.yard.frequency.ncount / 2 →
      exec (.portFrameReceived p (bayFrameBytes f)) s =
        .next
          { s with
            ports := heard
            streams := s.streams.set i (some { e with counters := { e.counters with early := min (e.counters.early + 1) 65535 } }) })

/-- TRIP_FRAME_SENT (R21, R186): the frame on the fibre is finished and the one waiting, if any, starts, as its 11 bytes; the other
port is not touched. -/
def Obligations.SentTripFrameMakesRoomForTheNext : Prop :=
  ∀ (s : State) (p : Port) (sent : List Byte), (s.ports.get p).fibre = some sent →
    ((s.ports.get p).waiting = none →
      exec (.tripFrameSent p) s = .next { s with ports := s.ports.modify p (fun q => { q with fibre := none }) }) ∧
    ∀ g : TripFrame, (s.ports.get p).waiting = some g →
      let body := 0xB2 :: (u16 g.count ++ u32 g.bitmap.toNat)
      exec (.tripFrameSent p) s =
        .next { s with ports := s.ports.modify p (fun q => { q with fibre := some (body ++ u32 (crc32 body).toNat), waiting := none }) }

/-! ### The close of a set (chapter 2) -/

/-- Where R33 allows no close, SET_CLOSE without upsets changes nothing (log 2; upsets mark ring entries even then, log 6); where it
allows one c0 advances, the open sets move up, and the set is published with its stamp and with the contact pairs of the slots in use
that held a sample (R27, R31, R33, R40). Of an UNUSED slot the cell is discarded: its ring and counts stand (DEDUCED, log 24), nothing
is published for it, and no entry that names it counts (R35). That a close is allowed when the sample count is at least ALIGN_DELAY
ahead of c0 around Ncount is DEDUCED (log 13). -/
def Obligations.CloseAdvancesAndPublishes : Prop :=
  ∀ s : State,
    (¬ s.Due → exec (.setClose []) s = .next s) ∧
    (s.Due → s.SoundSources → ∃ t p, exec (.setClose []) s = .next t ∧
      t.store.c0 = (s.store.c0 + 1) % s.yard.frequency.ncount ∧
      (∀ i : Fin 7, t.store.cells.get i.castSucc = s.store.cells.get i.succ) ∧
      (∀ b, (t.store.cells.get 7).get b = none) ∧
      t.published = some p ∧ t.store.lastClosed = some p.stamp ∧ p.stamp.count = s.store.c0 ∧
      p.stamp.second = (if s.store.c0 ≤ s.timer.count then s.timer.second else (s.timer.second + 65535) % 65536) ∧
      (p.runAtClose = true ↔ t.mode = .run) ∧
      (∀ b c, p.contacts.get b = some c ↔
        (s.bays.get b).kind ≠ .unused ∧ ∃ smp, (s.store.cells.get 0).get b = some smp ∧ smp.contacts = c) ∧
      (∀ b, (s.bays.get b).kind = .unused → t.store.slots.get b = s.store.slots.get b ∧ p.bfStart.get b = false ∧
        (s.Paired → ∀ i e, s.streams.get i = some e → e.slot = b → t.streams.get i = some e)) ∧
      t.timer = s.timer ∧ t.ports = s.ports ∧ t.yard = s.yard ∧ t.bays = s.bays ∧ t.edit = s.edit ∧ t.replica = s.replica ∧
      t.topology = s.topology ∧ t.supervision = s.supervision ∧ t.records = s.records ∧
      (s.link.flight = none → t.link = s.link ∧ t.mode = s.mode ∧ t.active = s.active ∧ t.evaluator = s.evaluator ∧
        t.detectors = s.detectors ∧ t.trip = s.trip ∧ t.bf = s.bf ∧ t.lines = s.lines))

/-- A sample held for a slot that is not LOST (R35, R36): its scaled currents enter the ring at depth 0 with mark PRESENT, every
older entry moves one deeper, the gap count is 0, and BF-start is kept and published. Whether the slot is LOST or not, the entry that
names it counts OVERRANGE once for each phase that the clamp acts on, stopping at 65,535, and no other counter of it changes
(R35, R39, R42). -/
def Obligations.CloseStoresReceivedSample : Prop :=
  (∀ (s : State) (b : Slot) (smp : Sample), s.Due → s.SoundSources → (s.bays.get b).kind ≠ .unused →
    (s.store.slots.get b).lost = false → (s.store.cells.get 0).get b = some smp →
    ∃ t p, exec (.setClose []) s = .next t ∧ t.published = some p ∧
      ((t.store.slots.get b).ring.get 0).mark = .present ∧ ((t.store.slots.get b).ring.get 0).mismatch = false ∧
      (∀ ph, ((t.store.slots.get b).ring.get 0).currents.get ph = scaleRaw (s.bays.get b) (smp.currents.get ph)) ∧
      (∀ i : Fin 31, (t.store.slots.get b).ring.get i.succ = (s.store.slots.get b).ring.get i.castSucc) ∧
      (t.store.slots.get b).gap = 0 ∧ (t.store.slots.get b).lost = false ∧
      (t.store.slots.get b).bfStart = smp.bfStart ∧ p.bfStart.get b = smp.bfStart ∧
      (t.store.slots.get b).sinceSub = min ((s.store.slots.get b).sinceSub + 1) 24 ∧
      (t.store.slots.get b).recovery = (s.store.slots.get b).recovery) ∧
  ∀ (s : State) (b : Slot) (smp : Sample), s.Due → s.Paired → (s.bays.get b).kind ≠ .unused →
    (s.store.cells.get 0).get b = some smp →
    ∃ t, exec (.setClose []) s = .next t ∧ ∀ i e, s.streams.get i = some e → e.slot = b →
      let clamps := (if smp.currents.get 0 = 0x8000 then 1 else 0) + (if smp.currents.get 1 = 0x8000 then 1 else 0)
        + (if smp.currents.get 2 = 0x8000 then 1 else 0)
      t.streams.get i =
        some { e with counters := { e.counters with overrange := min (e.counters.overrange + clamps) 65535 } }

/-- A first or second miss in a row (R37, R41): the entry for n - 24 is written again with mark SUBSTITUTED, the gap count rises,
the entry that names the slot counts SUBSTITUTED (stated for counters within their 16 bits), and the last received BF-start is published. -/
def Obligations.CloseSubstitutesAMissingSample : Prop :=
  ∀ (s : State) (b : Slot), s.Due → s.SoundSources → (s.bays.get b).kind ≠ .unused →
    (s.store.slots.get b).lost = false → (s.store.cells.get 0).get b = none → (s.store.slots.get b).gap ≤ 1 →
    ∃ t p, exec (.setClose []) s = .next t ∧ t.published = some p ∧
      ((t.store.slots.get b).ring.get 0).mark = .substituted ∧
      ((t.store.slots.get b).ring.get 0).currents = ((s.store.slots.get b).ring.get 23).currents ∧
      (∀ i : Fin 31, (t.store.slots.get b).ring.get i.succ = (s.store.slots.get b).ring.get i.castSucc) ∧
      (t.store.slots.get b).gap = (s.store.slots.get b).gap + 1 ∧ (t.store.slots.get b).lost = false ∧
      (t.store.slots.get b).sinceSub = 0 ∧ p.contacts.get b = none ∧
      p.bfStart.get b = (s.store.slots.get b).bfStart ∧ (t.store.slots.get b).bfStart = (s.store.slots.get b).bfStart ∧
      (s.Paired → ∀ i e, s.streams.get i = some e → e.slot = b →
        t.streams.get i = some { e with counters := { e.counters with substituted := min (e.counters.substituted + 1) 65535 } })

/-- The third miss in a row makes a slot LOST; while it is LOST each miss writes zeros and restarts the recovery, and the 24th
received sample in a row ends LOST (R38, R39). On every such close the older entries of the ring move one deeper (R34) and the sets
since substitution rise by one, up to 24 (R41); a received BF-start is published and kept as the last received one (R36, R39). -/
def Obligations.CloseLosesAndRecoversABay : Prop :=
  ∀ (s : State) (b : Slot), s.Due → s.SoundSources → (s.bays.get b).kind ≠ .unused →
    ((s.store.cells.get 0).get b = none →
      ((s.store.slots.get b).lost = true ∨ (s.store.slots.get b).gap = 2) →
      ∃ t p, exec (.setClose []) s = .next t ∧ t.published = some p ∧
        (t.store.slots.get b).ring.get 0 = ⟨Table.fill 3 0, .zero, false⟩ ∧
        (∀ i : Fin 31, (t.store.slots.get b).ring.get i.succ = (s.store.slots.get b).ring.get i.castSucc) ∧
        (t.store.slots.get b).sinceSub = min ((s.store.slots.get b).sinceSub + 1) 24 ∧
        (t.store.slots.get b).gap = (s.store.slots.get b).gap ∧ (t.store.slots.get b).lost = true ∧
        (t.store.slots.get b).recovery = 0 ∧ p.contacts.get b = none ∧ p.bfStart.get b = false ∧
        ((s.store.slots.get b).lost = false → (t.store.slots.get b).bfStart = false)) ∧
    ∀ smp, (s.store.slots.get b).lost = true → (s.store.cells.get 0).get b = some smp →
      ∃ t p, exec (.setClose []) s = .next t ∧ t.published = some p ∧
        ((t.store.slots.get b).ring.get 0).mark = .present ∧ ((t.store.slots.get b).ring.get 0).mismatch = false ∧
        (∀ ph, ((t.store.slots.get b).ring.get 0).currents.get ph = scaleRaw (s.bays.get b) (smp.currents.get ph)) ∧
        (∀ i : Fin 31, (t.store.slots.get b).ring.get i.succ = (s.store.slots.get b).ring.get i.castSucc) ∧
        (t.store.slots.get b).sinceSub = min ((s.store.slots.get b).sinceSub + 1) 24 ∧
        (t.store.slots.get b).bfStart = smp.bfStart ∧ (t.store.slots.get b).gap = 0 ∧
        ((s.store.slots.get b).recovery < 24 → (t.store.slots.get b).recovery = (s.store.slots.get b).recovery + 1) ∧
        ((t.store.slots.get b).lost = true ↔ (s.store.slots.get b).recovery + 1 < 24) ∧
        p.contacts.get b = some smp.contacts ∧ p.bfStart.get b = smp.bfStart

/-- A BANK-APPLY in flight (R15 to R17): the close copies EDIT whole into ACTIVE, brings operate counters and hold counts within
the new settings, and answers DONE. -/
def Obligations.CloseCopiesTheBankInFlight : Prop :=
  ∀ (s : State) (req : Request) (rest : List Request), s.Due → s.SoundSources → s.link.Settled →
    s.link.flight = some .bankApply → s.link.requests = req :: rest →
    ∃ t, exec (.setClose []) s = .next t ∧ t.active = s.edit ∧ t.edit = s.edit ∧
      (∀ k p, (t.evaluator.operate.get k).get p = min ((s.evaluator.operate.get k).get p) s.edit.zoneOperateSets) ∧
      (∀ p, t.evaluator.checkOperate.get p = min (s.evaluator.checkOperate.get p) s.edit.checkOperateSets) ∧
      (∀ k p, (t.detectors.zones.get k).get p =
        ⟨((s.detectors.zones.get k).get p).state, min ((s.detectors.zones.get k).get p).hold s.edit.extHold⟩) ∧
      (∀ p, t.detectors.check.get p = ⟨(s.detectors.check.get p).state, min (s.detectors.check.get p).hold s.edit.extHold⟩) ∧
      t.link = s.link.answered req rest 0 [] ∧ t.mode = s.mode ∧ t.trip = s.trip ∧ t.bf = s.bf ∧
      t.replica = s.replica ∧ t.supervision = s.supervision ∧ t.records = s.records

/-- A MODE in flight (R173, R174): the close makes the change and answers DONE. Entry to RUN zeroes counters, detectors and timers;
return to SETUP clears latches, captured trip sets and trip lines and makes every timer IDLE, keeping counters and detectors. -/
def Obligations.CloseMakesTheModeInFlight : Prop :=
  ∀ (s : State) (req : Request) (rest : List Request) (toRun : Bool), s.Due → s.SoundSources → s.link.Settled →
    s.link.flight = some (.mode toRun) → s.link.requests = req :: rest →
    ∃ t p, exec (.setClose []) s = .next t ∧ t.published = some p ∧ t.link = s.link.answered req rest 0 [] ∧
      t.mode = (if toRun then .run else .setup) ∧ (p.runAtClose = true ↔ toRun = true) ∧
      (∀ k, t.trip.tripLatch.get k = false ∧ t.trip.backtripLatch.get k = false ∧ t.trip.captured.get k = 0 ∧
        t.lines.trip.get k = false) ∧
      t.lines.healthy = true ∧ (∀ b, t.bf.get b = ⟨.idle, 0, 0, 0⟩) ∧
      (toRun = true → ∀ p, (∀ k, (t.evaluator.operate.get k).get p = 0 ∧ (t.detectors.zones.get k).get p = ⟨.quiet, 0⟩) ∧
        t.evaluator.checkOperate.get p = 0 ∧ t.detectors.check.get p = ⟨.quiet, 0⟩) ∧
      (toRun = false → t.evaluator = s.evaluator ∧ t.detectors = s.detectors) ∧
      t.active = s.active ∧ t.edit = s.edit ∧ t.supervision = s.supervision ∧ t.replica = s.replica ∧
      t.topology = s.topology ∧ t.records = s.records ∧ t.trip.bitmap = s.trip.bitmap

/-- The scaled current (R35, R80): the product of the clamped raw value, the polarity and the ratio divided by 16,384, to the
nearest integer, a half away from zero; the polarity only turns its sign. -/
def Obligations.ScalingRoundsHalfAwayFromZero : Prop :=
  ∀ (r : BayRecord) (raw : BitVec 16), r.ratio ≤ 65535 →
    let product := (if raw.toInt = -32768 then -32767 else raw.toInt) * (if r.polarity = .plus then 1 else -1) * (r.ratio : Int)
    (2 * (16384 * scaleRaw r raw - product)).natAbs ≤ 16384 ∧
      (2 * (16384 * scaleRaw r raw - product) = 16384 → 0 < product) ∧
      (2 * (16384 * scaleRaw r raw - product) = -16384 → product < 0) ∧
      scaleRaw { r with polarity := .minus } raw = - scaleRaw { r with polarity := .plus } raw ∧
      (scaleRaw r raw).natAbs ≤ 131066

/-! ### The evaluation of a set (chapters 3 to 9) -/

/-- The replica's work on a set (R44, R46, R48, R50 to R54): positions are decoded where contact pairs are published and held where
none are; the counts, zoning positions and causes follow; an UNUSED slot stands. -/
def Obligations.EvaluationDerivesPositions : Prop :=
  (∀ c o, (⟨c, o⟩ : ContactPair).decode =
    (if c = true ∧ o = false then .closed else if c = false ∧ o = true then .opened
     else if c = false ∧ o = false then .travel else .invalid)) ∧
  ∀ (s : State) (p : Published), s.published = some p →
    ∃ t, exec (.evaluateSet []) s = .next t ∧ t.replica.stamp = some p.stamp ∧ ∀ b,
      let q := s.replica.slots.get b
      let r := t.replica.slots.get b
      ((s.bays.get b).kind = .unused → r = q) ∧
      ((s.bays.get b).kind ≠ .unused →
        r.forcedA = q.forcedA ∧ r.forcedB = q.forcedB ∧
        (p.contacts.get b = none → r.received = false ∧ r.isoA = q.isoA ∧ r.isoB = q.isoB ∧ r.breaker = q.breaker) ∧
        ∀ c, p.contacts.get b = some c →
          r.received = true ∧ r.isoA = c.isoA.decode ∧ r.isoB = c.isoB.decode ∧ r.breaker = c.breaker.decode) ∧
      (∀ side, (s.bays.get b).kind = .feeder side →
        (r.closedA = true ↔ r.forcedA = .closed ∨ (r.forcedA = .none ∧ r.isoA ≠ .opened)) ∧
        (r.closedB = true ↔ r.forcedB = .closed ∨ (r.forcedB = .none ∧ r.isoB ≠ .opened)) ∧
        r.travelA = (if r.isoA = .travel then min (q.travelA + 1) 24000 else 0) ∧
        r.travelB = (if r.isoB = .travel then min (q.travelB + 1) 24000 else 0) ∧
        r.invalidA = (if r.isoA = .invalid then min (q.invalidA + 1) 3 else 0) ∧
        r.invalidB = (if r.isoB = .invalid then min (q.invalidB + 1) 3 else 0) ∧
        (r.causeTravel = true ↔ s.active.travelSets ≤ r.travelA ∨ s.active.travelSets ≤ r.travelB) ∧
        (r.causeInvalid = true ↔ r.invalidA = 3 ∨ r.invalidB = 3) ∧
        (r.causeForced = true ↔ q.forcedA ≠ .none ∨ q.forcedB ≠ .none)) ∧
      ∀ j c, (s.bays.get b).kind = .junction j c →
        r.openSettle = (if r.breaker = .opened then min (q.openSettle + 1) 48 else 0) ∧
        r.invalidBreaker = (if r.breaker = .invalid then min (q.invalidBreaker + 1) 3 else 0) ∧
        (r.excluded = true ↔ r.breaker = .opened ∧ s.active.openSettleSets ≤ r.openSettle) ∧
        (r.causeBreaker = true ↔ r.invalidBreaker = 3)

/-- The partition of a set (R61, R62, R68, R69, R74): every section in use, and no other, lies in exactly one zone; a zone is named by its lowest
section; and the two sections of a side lie in one zone exactly when a feeder of that side has both zoning positions closed.
A section in use is marked changed against the set held from before, a zone when one of its sections is, and the check zone when its
list differs; and a difference of partition or of a member list is a cause of the TOPOLOGY class, which nothing else is. -/
def Obligations.EvaluationPartitionsTheSections : Prop :=
  ∀ (s : State) (p : Published), s.published = some p →
    ∃ t tp, exec (.evaluateSet []) s = .next t ∧ t.topology = some tp ∧ tp.stamp = p.stamp ∧
      tp.sections = s.yard.sections ∧
      (∀ k, s.InUse k ↔ ∃ z ∈ tp.zones, z.Holds k) ∧
      (∀ z ∈ tp.zones, ∀ z' ∈ tp.zones, ∀ k, z.Holds k → z'.Holds k → z = z') ∧
      (∀ z ∈ tp.zones, z.Holds z.name ∧ ∀ k, z.Holds k → z.name ≤ k) ∧
      (∀ j k, j < k → (∃ z ∈ tp.zones, z.Holds j ∧ z.Holds k) →
        (j = 0 ∧ k = 1) ∨ (j = 2 ∧ k = 3)) ∧
      ((∃ z ∈ tp.zones, z.Holds 0 ∧ z.Holds 1) ↔
        ∃ b, (s.bays.get b).kind = .feeder .one ∧ (t.replica.slots.get b).closedA = true ∧
          (t.replica.slots.get b).closedB = true) ∧
      (∀ k, tp.marks.get k = true ↔ s.InUse k ∧ MarkedChanged s.topology tp k) ∧
      (∀ z ∈ tp.zones, z.changed = true ↔ ∃ k, z.Holds k ∧ tp.marks.get k = true) ∧
      (tp.checkChanged = true ↔ ∀ old, s.topology = some old → tp.checkMembers ≠ old.checkMembers) ∧
      (TopologyDiffers s.topology tp →
        s.link.topology.CausedTo t.link.topology
          (t.link.Carries t.link.slots.topology 0x63 (topologyHead s.yard.sections (some tp)))) ∧
      (¬ TopologyDiffers s.topology tp → t.link.topology = s.link.topology) ∧
      (¬ TopologyDiffers s.topology tp ∨ s.link.topology.enabled = false ∨ s.link.topology.timer ≠ none → s.link.Settled →
        t.link.slots.topology = s.link.slots.topology) ∧
      ((∃ z ∈ tp.zones, z.Holds 2 ∧ z.Holds 3) ↔
        s.yard.sections = .four ∧ ∃ b, (s.bays.get b).kind = .feeder .two ∧ (t.replica.slots.get b).closedA = true ∧
          (t.replica.slots.get b).closedB = true)

/-- The member lists of a set (R63 to R66): ascending by slot; a feeder in the zone of its A-section if isolator A counts as closed,
else in that of its B-section if isolator B does; a junction, if included between two zones in use, with a sign of -1 in the zone
of its CT section and +1 in that of its far section; the check zone holds every FEEDER. A junction's role is the first
of OUT_OF_USE, EXCLUDED, INTERNAL and MEMBER whose condition holds, and no other slot has one. -/
def Obligations.EvaluationListsTheMembers : Prop :=
  ∀ (s : State) (p : Published), s.published = some p →
    ∃ t tp, exec (.evaluateSet []) s = .next t ∧ t.topology = some tp ∧
      (∀ z ∈ tp.zones, (z.members.map (fun m => m.slot)).Pairwise (· < ·)) ∧
      (∀ z ∈ tp.zones, ∀ b minus, (⟨b, minus⟩ : Member) ∈ z.members ↔
        (minus = false ∧ (s.bays.get b).kind = .feeder .one ∧
          (if (t.replica.slots.get b).closedA = true then z.Holds 0
           else (t.replica.slots.get b).closedB = true ∧ z.Holds 1)) ∨
        (minus = false ∧ (s.bays.get b).kind = .feeder .two ∧
          (if (t.replica.slots.get b).closedA = true then z.Holds 2
           else (t.replica.slots.get b).closedB = true ∧ z.Holds 3)) ∨
        ∃ j c, (s.bays.get b).kind = .junction j c ∧ s.InUse j.first ∧ s.InUse j.second ∧
          (t.replica.slots.get b).excluded = false ∧ (¬ ∃ y ∈ tp.zones, y.Holds j.first ∧ y.Holds j.second) ∧
          (if minus = true then z.Holds (if c = true then j.second else j.first)
           else z.Holds (if c = true then j.first else j.second))) ∧
      (tp.checkMembers.map (fun m => m.slot)).Pairwise (· < ·) ∧
      (∀ b minus, (⟨b, minus⟩ : Member) ∈ tp.checkMembers ↔
        minus = false ∧ ∃ side, (s.bays.get b).kind = .feeder side) ∧
      (∀ b j c, (s.bays.get b).kind = .junction j c →
        tp.roles.get b =
          some
            (if ¬ (s.InUse j.first ∧ s.InUse j.second) then .outOfUse
             else if (t.replica.slots.get b).excluded = true then .excluded
             else if ∃ y ∈ tp.zones, y.Holds j.first ∧ y.Holds j.second then .internal
             else .member)) ∧
      ∀ b, (∀ j c, (s.bays.get b).kind ≠ .junction j c) → tp.roles.get b = none

/-- Trip scopes and connected sections (R71, R72): a section's scope names the feeders whose isolator to it counts as closed and
every junction that touches it; a bay is connected to exactly the sections whose scope names it. -/
def Obligations.ConnectedSectionsAreThoseWhoseScopeNamesTheBay : Prop :=
  ∀ (s : State) (p : Published), s.published = some p →
    ∃ t tp, exec (.evaluateSet []) s = .next t ∧ t.topology = some tp ∧
      (∀ (k : Bus) (b : Slot), (tp.connected.get b).getLsbD k.val = (tp.scopes.get k).getLsbD b.val) ∧
      ∀ (k : Bus) (b : Slot), (tp.scopes.get k).getLsbD b.val = true ↔ s.InUse k ∧
        (((s.bays.get b).kind = .feeder .one ∧ k = 0 ∧ (t.replica.slots.get b).closedA = true) ∨
          ((s.bays.get b).kind = .feeder .one ∧ k = 1 ∧ (t.replica.slots.get b).closedB = true) ∨
          ((s.bays.get b).kind = .feeder .two ∧ k = 2 ∧ (t.replica.slots.get b).closedA = true) ∨
          ((s.bays.get b).kind = .feeder .two ∧ k = 3 ∧ (t.replica.slots.get b).closedB = true) ∨
          ∃ j c, (s.bays.get b).kind = .junction j c ∧ (k = j.first ∨ k = j.second))

/-- D and R (R83, R85): for rings within the bound of R81 and a list of at most 26 members, D is at most R and R at most
40,892,592. -/
def Obligations.DifferentialIsAtMostRestraint : Prop :=
  ∀ (slots : Table 26 BayStore) (ms : List Member) (p : Phase),
    windowD slots ms p ≤ windowR slots ms p ∧
      (∀ i, (sumD slots ms p i).natAbs ≤ sumR slots ms p i) ∧
      ((∀ b i q, (((slots.get b).ring.get i).currents.get q).natAbs ≤ 131066) → ms.length ≤ 26 →
        (∀ i, sumR slots ms p i ≤ 3407716) ∧ windowR slots ms p ≤ 40892592)

/-- The operate comparison (R85, R88, R112): a comparison that fails with a slope fails with every higher one; with a slope of at
most 64 a fault fed from one side, D equal to R, meets it as soon as it meets the pick-up; and a zone without members never does. -/
def Obligations.HigherSlopeNeverCausesOperation : Prop :=
  ∀ idmin slope high d r : Nat,
    (slope ≤ high → operateHolds idmin slope d r = false → operateHolds idmin high d r = false) ∧
    (slope ≤ 64 → (operateHolds idmin slope d d = true ↔ 12 * idmin ≤ d)) ∧
    (1 ≤ idmin → operateHolds idmin slope 0 r = false)

/-- The operate counters of a set evaluated whole (R70, R84, R88, R90, R91, R95): for every zone and phase one more, up to
ZONE_OPERATE_SETS, where D and R of the window meet the pick-up and the slope that the detector's state selects, else 0; a changed
zone starts from 0; the check zone likewise. The results of the set in force (R102) hold for every zone and phase and for the check
zone d and r of the newest stored set, D, R, whether C held, the slope, the detector's state, the counter, whether the phase operates
and whether it is suspect (R100, R101), and for every used slot the entry read at depth 0, b_cur and the judgement of its current
(R98, R99). The counter of a zone is that of the section that names it (DEDUCED, log 23). -/
def Obligations.EvaluationCountsOperation : Prop :=
  ∀ (s : State) (p : Published), s.published = some p → s.SoundWindow →
    ∃ t tp r, exec (.evaluateSet []) s = .next t ∧ t.topology = some tp ∧ t.evaluator.results = some r ∧ r.stamp = p.stamp ∧
      (∀ z ∈ tp.zones, ∀ ph, ∀ k, z.Holds k →
        let slope := if ((t.detectors.zones.get z.name).get ph).state = .external then s.active.zoneSlopeHigh else s.active.zoneSlope
        let before := if z.changed = true then 0 else (s.evaluator.operate.get z.name).get ph
        (t.evaluator.operate.get k).get ph =
          (if 12 * s.active.zoneIdmin ≤ windowedD s z.members ph ∧
              slope * windowedR s z.members ph ≤ 64 * windowedD s z.members ph
           then min (before + 1) s.active.zoneOperateSets else 0)) ∧
      (∀ k, ¬ s.InUse k → t.evaluator.operate.get k = s.evaluator.operate.get k) ∧
      (r.zones.map (fun y => (y.name, y.buses)) = tp.zones.map (fun z => (z.name, z.buses))) ∧
      (∀ z ∈ tp.zones, ∃ y ∈ r.zones, y.name = z.name ∧ y.buses = z.buses ∧ ∀ ph,
        let state := ((t.detectors.zones.get z.name).get ph).state
        (y.phases.get ph).Shows s z.members ph state s.active.zoneIdmin
          (if state = .external then s.active.zoneSlopeHigh else s.active.zoneSlope) s.active.zoneOperateSets
          ((t.evaluator.operate.get z.name).get ph)) ∧
      (∀ ph,
        let state := (t.detectors.check.get ph).state
        let slope := if state = .external then s.active.checkSlopeHigh else s.active.checkSlope
        let before := if tp.checkChanged = true then 0 else s.evaluator.checkOperate.get ph
        t.evaluator.checkOperate.get ph =
          (if 12 * s.active.checkIdmin ≤ windowedD s tp.checkMembers ph ∧
              slope * windowedR s tp.checkMembers ph ≤ 64 * windowedD s tp.checkMembers ph
           then min (before + 1) s.active.checkOperateSets else 0) ∧
        (r.check.get ph).Shows s tp.checkMembers ph state s.active.checkIdmin slope s.active.checkOperateSets
          (t.evaluator.checkOperate.get ph)) ∧
      ∀ b, ((s.bays.get b).kind = .unused → r.bays.get b = none) ∧
        ((s.bays.get b).kind ≠ .unused → ∃ y, r.bays.get b = some y ∧
          y.currents = ((s.store.slots.get b).ring.get 0).currents ∧ y.mark = ((s.store.slots.get b).ring.get 0).mark ∧
          y.current = windowedBay s b ∧ (y.present = true ↔ s.CurrentPresent t b))

/-- The detector's transitions (R107 to R111): the table of the manual, for every state, d and r; and a detector that enters EXTERNAL
with a hold count of h is in EXTERNAL for h sets, whatever the currents, and in SETTLE at the set h after the entering set. -/
def Obligations.DetectorFollowsItsTable : Prop :=
  (∀ (bank : Bank) (d : Int) (r : Nat) (x : Detector),
    let restraint := bank.extRestraint ≤ r
    let qualifying := bank.extRestraint ≤ r ∧ 64 * d.natAbs < bank.extRatio * r
    (x.state = .quiet → qualifying → x.transition bank d r = ⟨.watch, 0⟩) ∧
    (x.state = .quiet → restraint → ¬ qualifying → x.transition bank d r = ⟨.settle, 0⟩) ∧
    (x.state = .quiet → ¬ restraint → x.transition bank d r = ⟨.quiet, 0⟩) ∧
    (x.state = .watch → qualifying → x.transition bank d r = ⟨.external, bank.extHold⟩) ∧
    (x.state = .watch → ¬ qualifying → x.transition bank d r = ⟨.settle, 0⟩) ∧
    (x.state = .external → 1 < x.hold → x.transition bank d r = ⟨.external, x.hold - 1⟩) ∧
    (x.state = .external → x.hold = 1 → x.transition bank d r = ⟨.settle, 0⟩) ∧
    (x.state = .settle → 2 * r < bank.extRestraint → x.transition bank d r = ⟨.quiet, 0⟩) ∧
    (x.state = .settle → bank.extRestraint ≤ 2 * r → x.transition bank d r = ⟨.settle, 0⟩)) ∧
  ∀ (bank : Bank) (currents : List (Int × Nat)) (h : Nat), 1 ≤ h →
    let last := currents.foldl (fun x c => x.transition bank c.1 c.2) (⟨.external, h⟩ : Detector)
    (currents.length < h → last = ⟨.external, h - currents.length⟩) ∧
      (currents.length = h → last = ⟨.settle, 0⟩)

/-- The detector states that a changed zone takes (R113): the strongest among its sections, EXTERNAL before SETTLE before WATCH
before QUIET, WATCH becoming SETTLE, with the largest hold count among those in EXTERNAL. -/
def Obligations.MergeTakesTheStrongestDetector : Prop :=
  ∀ ds : List Detector, (∀ x ∈ ds, x.state ≠ .external → x.hold = 0) →
    ((∃ x ∈ ds, x.state = .external) →
      (mergeDetectors ds).state = .external ∧ (∀ x ∈ ds, x.state = .external → x.hold ≤ (mergeDetectors ds).hold) ∧
        ∃ x ∈ ds, x.state = .external ∧ x.hold = (mergeDetectors ds).hold) ∧
    ((∀ x ∈ ds, x.state ≠ .external) → (∃ x ∈ ds, x.state = .settle ∨ x.state = .watch) → mergeDetectors ds = ⟨.settle, 0⟩) ∧
    ((∀ x ∈ ds, x.state = .quiet) → mergeDetectors ds = ⟨.quiet, 0⟩)

/-- The detectors of a set evaluated whole (R105, R106, R113, R114): the detector of every zone and phase takes the merge of its
sections' states where the zone is changed, else the state that the section naming it holds (DEDUCED, log 23), then one transition on
d and r of the newest stored set, and every section of the zone holds the result; the check zone likewise; a section not in use keeps
its own. EXTERNAL_HOLD_EXPIRY (R110): a detector in EXTERNAL with a hold count of 1 goes to SETTLE with hold count 0; for a section,
when every section of its side holds that state for the phase. That the row gives the very state of EVALUATE_SET is DEDUCED
(log 3). -/
def Obligations.HoldExpirySettlesTheDetector : Prop :=
  ∀ (s : State) (p : Published), s.published = some p → s.SoundWindow →
    (∃ t tp, exec (.evaluateSet []) s = .next t ∧ t.topology = some tp ∧
      (∀ z ∈ tp.zones, ∀ ph, ∀ k, z.Holds k →
        let held := (allBuses.filter (fun j => z.buses.getLsbD j.val)).map (fun j => (s.detectors.zones.get j).get ph)
        let before := if z.changed = true then mergeDetectors held else (s.detectors.zones.get z.name).get ph
        (t.detectors.zones.get k).get ph = before.transition s.active (newestD s z.members ph) (newestR s z.members ph)) ∧
      (∀ k, ¬ s.InUse k → t.detectors.zones.get k = s.detectors.zones.get k) ∧
      ∀ ph,
        let before := if tp.checkChanged = true then mergeDetectors [s.detectors.check.get ph] else s.detectors.check.get ph
        t.detectors.check.get ph =
          before.transition s.active (newestD s tp.checkMembers ph) (newestR s tp.checkMembers ph)) ∧
    (∀ ph, s.detectors.check.get ph = ⟨.external, 1⟩ →
      ∃ t, exec (.externalHoldExpiry (.check ph)) s = .next t ∧ exec (.evaluateSet []) s = .next t ∧
        t.detectors.check.get ph = ⟨.settle, 0⟩) ∧
    ∀ (k : Bus) ph, s.InUse k →
      (∀ j : Bus, j.val / 2 = k.val / 2 → (s.detectors.zones.get j).get ph = ⟨.external, 1⟩) →
      ∃ t, exec (.externalHoldExpiry (.bus k ph)) s = .next t ∧ exec (.evaluateSet []) s = .next t ∧
        (t.detectors.zones.get k).get ph = ⟨.settle, 0⟩

/-- A set evaluated whole outside RUN (R86, R119, R125, R132, R172, R174): positions, zones and measurement are those of the set,
and nothing is released, latched, timed or recorded; the trip frame carries an empty bitmap. Where nothing
waits for a free line (State.Queued), the TRIP and BACKTRIP slots stand. -/
def Obligations.EvaluationOutsideRunReleasesNothing : Prop :=
  ∀ (s : State) (p : Published), s.published = some p → s.SoundWindow → (s.mode ≠ .run ∨ p.runAtClose = false) →
    ∃ t tp r, exec (.evaluateSet []) s = .next t ∧ t.published = none ∧
      t.topology = some tp ∧ tp.stamp = p.stamp ∧ t.evaluator.results = some r ∧ r.stamp = p.stamp ∧
      t.trip = { s.trip with bitmap := 0 } ∧ t.bf = s.bf ∧ t.records = s.records ∧ t.lines = s.lines ∧
      t.ports = { x := s.ports.x.given ⟨p.stamp.count, 0⟩, y := s.ports.y.given ⟨p.stamp.count, 0⟩ } ∧
      t.mode = s.mode ∧ t.timer = s.timer ∧ t.yard = s.yard ∧ t.bays = s.bays ∧ t.active = s.active ∧ t.edit = s.edit ∧
      t.streams = s.streams ∧ t.store = s.store ∧ t.supervision.responses = s.supervision.responses ∧
      t.supervision.hostBlocks = s.supervision.hostBlocks ∧
      (s.link.Settled → t.link.slots.trip = s.link.slots.trip ∧ t.link.slots.backtrip = s.link.slots.backtrip)

/-- A set closed and evaluated whole in RUN (R120, R121): a section's trip latch is set when its zone is not blocked on any section
and operates in a phase that is unchecked or confirmed by an unblocked check zone, and stays set; the captured trip set of a newly
latched section takes the scopes of all newly latched sections of its zone, and that of a backtripped section takes its scope.
A ZONE_TRIP record of every zone with a newly latched section and a BACKTRIP record of every timer that expires are pushed, in their
order (R123, R135, R159 to R161), and a newly latched section makes a TRIP notice, an expired timer a BACKTRIP notice, of the set's
latches and bitmap (R138, R179). A zone's counter and detector are those of the section that names it (DEDUCED, log 23). -/
def Obligations.EvaluationInRunLatchesReleasedZones : Prop :=
  ∀ (s : State) (p : Published), s.published = some p → s.SoundWindow → s.mode = .run → p.runAtClose = true →
    ∃ t tp, exec (.evaluateSet []) s = .next t ∧ t.published = none ∧ t.mode = .run ∧ t.topology = some tp ∧ tp.stamp = p.stamp ∧
      (∀ z ∈ tp.zones, ∀ k, z.Holds k →
        (t.trip.tripLatch.get k = true ↔ s.trip.tripLatch.get k = true ∨ t.Trips z)) ∧
      (∀ k, ¬ s.InUse k → t.trip.tripLatch.get k = s.trip.tripLatch.get k) ∧
      (∀ k, t.trip.backtripLatch.get k = true ↔ s.trip.backtripLatch.get k = true ∨ BacktripsOn s t tp k) ∧
      (∃ zs bs, Pushes s t tp zs bs) ∧
      ((∃ k, NewlyLatched s t k) → t.link.Carries t.link.slots.trip 0x60 (latchSnapshot p.stamp t.trip)) ∧
      ((∃ b, Expires s t b) → t.link.Carries t.link.slots.backtrip 0x61 (latchSnapshot p.stamp t.trip)) ∧
      (s.link.Settled → (¬ ∃ k, NewlyLatched s t k) → t.link.slots.trip = s.link.slots.trip) ∧
      (s.link.Settled → (¬ ∃ b, Expires s t b) → t.link.slots.backtrip = s.link.slots.backtrip) ∧
      (∀ k (b : Slot), (t.trip.captured.get k).getLsbD b.val = true ↔
        (s.trip.captured.get k).getLsbD b.val = true ∨
          (BacktripsOn s t tp k ∧ (tp.scopes.get k).getLsbD b.val = true) ∨
          ∃ z ∈ tp.zones, z.Holds k ∧ t.Trips z ∧ s.trip.tripLatch.get k = false ∧
            ∃ j, z.Holds j ∧ s.trip.tripLatch.get j = false ∧ (tp.scopes.get j).getLsbD b.val = true)

/-- The order of a set closed and evaluated whole in RUN (R124 to R126): the bitmap names the scopes and captured trip sets of the
latched sections and every bay whose timer is TIMING; both ports are handed it under the set's count; the trip lines show the
latches. Every used slot's timer acts once, on the initiation that the latches as released and the published BF-start give it (R132,
R133; DEDUCED for a LOST bay's BF-start, log 14) and on the judgement of its current (R98, R99). -/
def Obligations.EvaluationInRunOrdersTheBitmap : Prop :=
  ∀ (s : State) (p : Published), s.published = some p → s.SoundWindow → s.mode = .run → p.runAtClose = true →
    ∃ t tp, exec (.evaluateSet []) s = .next t ∧ t.topology = some tp ∧
      (∀ b : Slot, t.trip.bitmap.getLsbD b.val = true ↔
        (t.bf.get b).state = .timing ∨
          ∃ k, (t.trip.tripLatch.get k = true ∨ t.trip.backtripLatch.get k = true) ∧
            ((tp.scopes.get k).getLsbD b.val = true ∨ (t.trip.captured.get k).getLsbD b.val = true)) ∧
      t.ports = { x := s.ports.x.given ⟨p.stamp.count, t.trip.bitmap⟩, y := s.ports.y.given ⟨p.stamp.count, t.trip.bitmap⟩ } ∧
      (∀ k, t.lines.trip.get k = (t.trip.tripLatch.get k || t.trip.backtripLatch.get k)) ∧
      (∀ b, (s.bays.get b).kind = .unused → t.bf.get b = s.bf.get b) ∧
      (∀ b, (s.bays.get b).kind ≠ .unused → ∀ init present : Bool, (init = true ↔ Initiated s t p tp b) →
        (present = true ↔ s.CurrentPresent t b) →
        t.bf.get b = (s.bf.get b).act (s.active.bfSets.get b) init present) ∧
      t.yard = s.yard ∧ t.bays = s.bays ∧ t.active = s.active ∧ t.edit = s.edit ∧ t.streams = s.streams ∧
      t.store = s.store ∧ t.timer = s.timer ∧ t.supervision.hostBlocks = s.supervision.hostBlocks

/-- The breaker failure timer (R133, R136): the table of the manual, for every state, count, initiation and current; and a timer
started with countdown T, of which neither the initiation nor the current is then absent at two sets in a row, is in TIMING until it
enters EXPIRED at the T-th set after its start: a single absence does not stop it. -/
def Obligations.BreakerFailureTimerFollowsItsTable : Prop :=
  (∀ (sets : Nat) (init present : Bool) (x : BfTimer),
    let c := if present = true then 0 else min (x.currentAbsent + 1) 2
    let i := if init = true then 0 else min (x.initAbsent + 1) 2
    (x.state = .idle → init = true → present = true → x.act sets init present = ⟨.timing, sets, 0, 0⟩) ∧
    (x.state = .idle → (init = false ∨ present = false) → x.act sets init present = ⟨.idle, 0, 0, 0⟩) ∧
    (x.state = .timing → (c = 2 ∨ i = 2) → x.act sets init present = ⟨.idle, 0, 0, 0⟩) ∧
    (x.state = .timing → c ≠ 2 → i ≠ 2 → 1 < x.countdown → x.act sets init present = ⟨.timing, x.countdown - 1, c, i⟩) ∧
    (x.state = .timing → c ≠ 2 → i ≠ 2 → x.countdown = 1 → x.act sets init present = ⟨.expired, 0, c, i⟩) ∧
    (x.state = .expired → c = 2 → i = 2 → x.act sets init present = ⟨.idle, 0, 0, 0⟩) ∧
    (x.state = .expired → (c ≠ 2 ∨ i ≠ 2) → x.act sets init present = ⟨.expired, 0, c, i⟩)) ∧
  ∀ (sets : Nat) (acts : List (Bool × Bool)), 1 ≤ sets →
    (∀ i, i + 1 < acts.length → (acts[i]?.map Prod.fst = some true ∨ acts[i + 1]?.map Prod.fst = some true) ∧
      (acts[i]?.map Prod.snd = some true ∨ acts[i + 1]?.map Prod.snd = some true)) →
    let last := acts.foldl (fun x a => x.act sets a.1 a.2) ((⟨.idle, 0, 0, 0⟩ : BfTimer).act sets true true)
    (acts.length < sets → last.state = .timing ∧ last.countdown = sets - acts.length) ∧
      (acts.length = sets → last.state = .expired ∧ last.countdown = 0)

/-- BF_TIMER_EXPIRY (R135, R126): in RUN, a timer in TIMING with countdown 1 and no absence counted enters EXPIRED, the backtrip
latch of every section its bay stands on is set, the captured trip set of that section takes the section's scope, and its trip
line is asserted; its BACKTRIP record is pushed among those of the set (R160, R161) and a BACKTRIP notice is made (R138, R179). That
the row gives the very state of EVALUATE_SET is DEDUCED (log 3). -/
def Obligations.TimerExpiryBacktripsTheSections : Prop :=
  ∀ (s : State) (p : Published) (b : Slot), s.published = some p → s.SoundWindow → s.mode = .run → p.runAtClose = true →
    (s.bays.get b).kind ≠ .unused → s.bf.get b = ⟨.timing, 1, 0, 0⟩ →
    ∃ t tp, exec (.bfTimerExpiry b) s = .next t ∧ exec (.evaluateSet []) s = .next t ∧ t.topology = some tp ∧
      (t.bf.get b).state = .expired ∧ (t.bf.get b).countdown = 0 ∧
      (∃ zs bs, Pushes s t tp zs bs ∧ b ∈ bs) ∧ t.link.Carries t.link.slots.backtrip 0x61 (latchSnapshot p.stamp t.trip) ∧
      ∀ k, (tp.connected.get b).getLsbD k.val = true →
        t.trip.backtripLatch.get k = true ∧ t.lines.trip.get k = true ∧
          ∀ x : Slot, (tp.scopes.get k).getLsbD x.val = true → (t.trip.captured.get k).getLsbD x.val = true

/-- The supervision unit on a set evaluated whole. The CT supervision counts (R141): one more, up to 12,000, where the zone or the check
zone is suspect in the phase (R100, R101; the counter of the section that names the zone, DEDUCED, log 23), else 0; a change starts
them from 0. The condition entries (R139, R140, R142, R143): created active with the set as onset and latched as the code's latch flag
stands, with the captured scope of R144; kept; removed when not latched and the cause has ended; kept inactive when latched; active
again as the same entry. A change of an entry whose code's level is not NONE is a cause of the ALARM class, one for the set. -/
def Obligations.EvaluationTreatsConditionEntries : Prop :=
  ∀ (s : State) (p : Published), s.published = some p → s.SoundWindow → s.Tabled →
    ∃ t tp, exec (.evaluateSet []) s = .next t ∧ t.Tabled ∧ t.topology = some tp ∧
      (∀ z ∈ tp.zones, ∀ ph, ∀ k, z.Holds k →
        let before := if z.changed = true then 0 else (s.supervision.ctCounts.get k).get ph
        (t.supervision.ctCounts.get k).get ph =
          (if 12 * s.active.supIdmin ≤ windowedD s z.members ph ∧
              (t.evaluator.operate.get z.name).get ph < s.active.zoneOperateSets
           then min (before + 1) 12000 else 0)) ∧
      (∀ k, ¬ s.InUse k → t.supervision.ctCounts.get k = s.supervision.ctCounts.get k) ∧
      (∀ ph,
        let before := if tp.checkChanged = true then 0 else s.supervision.checkCt.get ph
        t.supervision.checkCt.get ph =
          (if 12 * s.active.supIdmin ≤ windowedD s tp.checkMembers ph ∧ t.evaluator.checkOperate.get ph < s.active.checkOperateSets
           then min (before + 1) 12000 else 0)) ∧
      (∀ key ∈ s.possibleKeys,
        let old := s.entryOf key
        let new := t.entryOf key
        let cause := Caused s t key.1 key.2
        (old = none → ¬ cause → new = none) ∧
        (old = none → cause → ∃ e, new = some e ∧ e.active = true ∧ e.onset = p.stamp ∧
          ((s.supervision.response key.1).latch = false → e.latched = none) ∧
          ((s.supervision.response key.1).latch = true → ∃ r, e.latched = some r ∧ Captures s tp key.1 key.2 r)) ∧
        (∀ e, old = some e → cause → new = some { e with active := true }) ∧
        (∀ e, old = some e → ¬ cause → e.latched = none → new = none) ∧
        (∀ e r, old = some e → ¬ cause → e.latched = some r → new = some { e with active := false })) ∧
      let raised : Prop :=
        ∃ key ∈ s.possibleKeys, t.entryOf key ≠ s.entryOf key ∧ (s.supervision.response key.1).level ≠ .none
      (raised → s.link.alarm.CausedTo t.link.alarm
        (t.link.Carries t.link.slots.alarm 0x62 (conditionBytes t.supervision.conditions))) ∧
      (¬ raised → t.link.alarm = s.link.alarm) ∧
      (¬ raised ∨ s.link.alarm.enabled = false ∨ s.link.alarm.timer ≠ none → s.link.Settled →
        t.link.slots.alarm = s.link.slots.alarm)

/-- The block flags of a set evaluated whole (R148, R149): a section is blocked exactly by its host block, by an entry at BLOCK_ALL,
or by an entry at BLOCK_ZONE that reaches it; the check zone by an entry at BLOCK_ALL, or by one at BLOCK_ZONE whose captured
scope holds it or that is an active STREAM_LOST of a feeder. -/
def Obligations.EvaluationFormsBlockFlags : Prop :=
  ∀ (s : State) (p : Published), s.published = some p → s.SoundWindow → s.Tabled → s.Ranged →
    ∃ t tp, exec (.evaluateSet []) s = .next t ∧ t.topology = some tp ∧
      (∀ k, t.supervision.blockFlags.get k = true ↔
        s.supervision.hostBlocks.get k = true ∨
          (∃ e ∈ t.supervision.conditions, (s.supervision.response e.code).level = .blockAll) ∨
          ∃ e ∈ t.supervision.conditions, (s.supervision.response e.code).level = .blockZone ∧ e.Reaches tp k) ∧
      (t.supervision.checkBlocked = true ↔
        (∃ e ∈ t.supervision.conditions, (s.supervision.response e.code).level = .blockAll) ∨
          ∃ e ∈ t.supervision.conditions, (s.supervision.response e.code).level = .blockZone ∧
            ((∃ r, e.latched = some r ∧ r.check = true) ∨
              (e.active = true ∧ e.code = .streamLost ∧ ∃ b side, e.scope = .bay b ∧ (s.bays.get b).kind = .feeder side)))

/-- A push of several records (R158, R161): the last eight taken stand, the newest at depth 0, and the overwrite count rises by the
number discarded, stopping at 255. -/
def Obligations.PushKeepsTheNewestEight : Prop :=
  ∀ (records : List TripRecord) (st : RecordStack), st.stack.length ≤ 8 → st.overwrites ≤ 255 →
    (records.foldl RecordStack.push st).stack = (records.reverse ++ st.stack).take 8 ∧
      (records.foldl RecordStack.push st).overwrites = min (st.overwrites + (records.length + st.stack.length - 8)) 255

/-- A parity mismatch (R37, R87, R115, R154). Found in the entry that a substitution copies, zeros with mark ZERO take its place and
the set is not published; found in the newest stored set of a feeder, the set is abandoned, and no detector, operate result,
condition entry or record of it is made. Found in any entry that the evaluator reads for the set, the change marks' effect on the
operate counters stands and no comparison acts; the detectors' action stands too, unless the entry is the newest one of a member of
the set (R115). Either way the device is HALTED with halt code STORE_PARITY and no trip frame is handed. The mismatch comes
from the operand of the row, which upsets the entry before anything else the command does (DESIGN CHOICE, log 6). -/
def Obligations.ParityMismatchHalts : Prop :=
  ∀ (s : State) (b : Slot), s.mode ≠ .halted →
    (s.Due → (s.bays.get b).kind ≠ .unused → (s.store.slots.get b).lost = false → (s.store.cells.get 0).get b = none →
      (s.store.slots.get b).gap ≤ 1 →
      ∃ t, exec (.setClose [⟨b, 23⟩]) s = .next t ∧ t.published = none ∧ t.mode = .halted ∧
        t.supervision.haltCode = some .storeParity ∧ t.supervision.storeParity = true ∧ t.timer.running = false ∧
        t.lines.healthy = false ∧ (t.store.slots.get b).ring.get 0 = ⟨Table.fill 3 0, .zero, false⟩ ∧
        (∀ x : Slot, x ≠ b → ∀ smp, (s.bays.get x).kind ≠ .unused → (s.store.slots.get x).lost = false →
          (s.store.cells.get 0).get x = some smp →
          ((t.store.slots.get x).ring.get 0).currents = smp.currents.map (scaleRaw (s.bays.get x))) ∧
        t.records = s.records ∧ t.replica = s.replica ∧ t.topology = s.topology ∧
        ∀ q, (t.ports.get q).fibre = (s.ports.get q).fibre ∧ (t.ports.get q).waiting = none) ∧
    (∀ (p : Published) (i : Fin 32), s.published = some p → (s.bays.get b).kind ≠ .unused → i.val < 12 → s.SoundWindow →
      ∃ t u tp, exec (.evaluateSet [⟨b, i⟩]) s = .next t ∧ exec (.evaluateSet []) s = .next u ∧
        t.mode = .halted ∧ t.supervision.haltCode = some .storeParity ∧ t.supervision.storeParity = true ∧
        t.published = none ∧ t.replica = u.replica ∧ t.topology = some tp ∧ u.topology = some tp ∧
        (let newest : Prop := i = 0 ∧ ((∃ z ∈ tp.zones, ∃ m ∈ z.members, m.slot = b) ∨ ∃ m ∈ tp.checkMembers, m.slot = b)
         (newest → t.detectors = s.detectors) ∧ (¬ newest → t.detectors = u.detectors)) ∧
        (∀ k, ((∃ z ∈ tp.zones, z.Holds k ∧ z.changed = true) → ∀ ph, (t.evaluator.operate.get k).get ph = 0) ∧
          ((¬ ∃ z ∈ tp.zones, z.Holds k ∧ z.changed = true) → t.evaluator.operate.get k = s.evaluator.operate.get k)) ∧
        (tp.checkChanged = true → ∀ ph, t.evaluator.checkOperate.get ph = 0) ∧
        (tp.checkChanged = false → t.evaluator.checkOperate = s.evaluator.checkOperate) ∧
        t.evaluator.results = s.evaluator.results ∧ t.supervision.conditions = s.supervision.conditions ∧
        t.supervision.ctCounts = s.supervision.ctCounts ∧ t.supervision.checkCt = s.supervision.checkCt ∧
        t.supervision.blockFlags = s.supervision.blockFlags ∧ t.supervision.checkBlocked = s.supervision.checkBlocked ∧
        t.records = s.records ∧ ∀ q, (t.ports.get q).fibre = (s.ports.get q).fibre ∧ (t.ports.get q).waiting = none) ∧
    ∀ (p : Published) (side : Side), s.published = some p → (s.bays.get b).kind = .feeder side →
      ∃ t, exec (.evaluateSet [⟨b, 0⟩]) s = .next t ∧ t.mode = .halted ∧ t.supervision.haltCode = some .storeParity ∧
        t.supervision.storeParity = true ∧ t.timer.running = false ∧ t.lines.healthy = false ∧
        t.published = none ∧ t.detectors = s.detectors ∧ t.evaluator.results = s.evaluator.results ∧
        t.supervision.conditions = s.supervision.conditions ∧ t.supervision.blockFlags = s.supervision.blockFlags ∧
        t.records = s.records ∧ (∀ q, (t.ports.get q).fibre = (s.ports.get q).fibre ∧ (t.ports.get q).waiting = none) ∧
        (∀ k, t.trip.tripLatch.get k = false ∧ t.trip.backtripLatch.get k = false ∧ t.lines.trip.get k = false) ∧
        ∀ x, t.bf.get x = ⟨.idle, 0, 0, 0⟩

/-- REFCLK_ABSENT (R16, R29, R153, R155, R173, R175 to R177). In SETUP or RUN the device enters HALTED: the timer stops, HEALTHY and
the trip lines are released, latches, captured trip sets and timers are cleared, waiting trip frames are discarded, and the HALT notice
with the halt code is made; records, banks and tables stand. Of a set in evaluation the stages that have acted stand, as its whole
evaluation would leave them, and the others do not act; how many have acted is the operand of the row (DESIGN CHOICE, log 9). In HALTED
the check is recorded beside the first. Where a read finds a parity mismatch at the same moment, both checks are recorded, and the one
taken first, by the row's operand, is the halt code: a read of the evaluator, or, where TIMER_FAULT is first, of a close just taken
(DESIGN CHOICE, log 34). Of a request in flight, BANK-APPLY, MODE and SETTLE are answered HALTED behind the replies that wait and the
change is not made; RESTART leaves the queue, and its DONE reply, if not yet begun, becomes HALTED: stated for a busy line, on which
nothing else moves. -/
def Obligations.AbsentClockHalts : Prop :=
  (∀ (s : State) (m : ClockReport),
    let alone : Prop := m.clockFirst = false ∨ ¬ s.Due ∨ s.SoundSources
    (s.mode ≠ .halted → ∃ t, exec (.refclkAbsent m) s = .next t ∧ t.mode = .halted ∧ t.timer.running = false ∧
      t.timer.count = s.timer.count ∧ t.timer.second = s.timer.second ∧ t.lines.healthy = false ∧ t.lines.sync = false ∧
      (∀ k, t.lines.trip.get k = false ∧ t.trip.tripLatch.get k = false ∧ t.trip.backtripLatch.get k = false ∧
        t.trip.captured.get k = 0) ∧
      t.trip.bitmap = 0 ∧ (∀ b, t.bf.get b = ⟨.idle, 0, 0, 0⟩) ∧ t.published = none ∧
      (∀ q, (t.ports.get q).fibre = (s.ports.get q).fibre ∧ (t.ports.get q).waiting = none ∧
        (t.ports.get q).link = (s.ports.get q).link) ∧
      t.supervision.timerFault = true ∧ t.records = s.records ∧ t.edit = s.edit ∧ t.bays = s.bays ∧ t.yard = s.yard ∧
      t.link.Carries t.link.slots.halt 0x64 [if t.supervision.haltCode = some .timerFault then 2 else 1] ∧
      (alone → t.store = s.store ∧ t.active = s.active ∧ t.streams = s.streams) ∧
      (alone → s.published = none ∨ m.acted = 0 → t.supervision.haltCode = some .timerFault ∧
        t.supervision.storeParity = s.supervision.storeParity ∧ t.replica = s.replica ∧ t.topology = s.topology ∧
        t.evaluator = s.evaluator ∧ t.detectors = s.detectors ∧ t.supervision.conditions = s.supervision.conditions) ∧
      (∀ p u, s.published = some p → exec (.evaluateSet []) s = .next u →
        (1 ≤ m.acted.val → t.replica = u.replica) ∧
        (2 ≤ m.acted.val → t.topology = u.topology ∧ t.link.topology = u.link.topology) ∧
        (m.acted.val < 2 → t.topology = s.topology ∧ t.link.topology = s.link.topology) ∧
        (3 ≤ m.acted.val → t.evaluator = u.evaluator ∧ t.detectors = u.detectors) ∧
        (m.acted.val < 3 → t.evaluator = s.evaluator ∧ t.detectors = s.detectors) ∧
        (m.acted.val = 4 → t.supervision.conditions = u.supervision.conditions ∧ t.supervision.ctCounts = u.supervision.ctCounts ∧
          t.supervision.checkCt = u.supervision.checkCt ∧ t.supervision.blockFlags = u.supervision.blockFlags ∧
          t.supervision.checkBlocked = u.supervision.checkBlocked ∧ t.link.alarm = u.link.alarm) ∧
        (m.acted.val < 4 → t.supervision.conditions = s.supervision.conditions ∧
          t.supervision.ctCounts = s.supervision.ctCounts ∧ t.supervision.checkCt = s.supervision.checkCt ∧
          t.supervision.blockFlags = s.supervision.blockFlags ∧ t.supervision.checkBlocked = s.supervision.checkBlocked ∧
          t.link.alarm = s.link.alarm) ∧
        (s.SoundWindow ∨ m.acted.val < 3 → t.supervision.haltCode = some .timerFault ∧
          t.supervision.storeParity = s.supervision.storeParity) ∧
        (¬ s.SoundWindow → 3 ≤ m.acted.val → t.supervision.storeParity = true ∧
          t.supervision.haltCode = some (if m.clockFirst = true then .timerFault else .storeParity))) ∧
      (∀ b, s.Due → m.clockFirst = true → (s.bays.get b).kind ≠ .unused → (s.store.slots.get b).lost = false →
        (s.store.cells.get 0).get b = none → (s.store.slots.get b).gap ≤ 1 → ((s.store.slots.get b).ring.get 23).mismatch = true →
        t.supervision.haltCode = some .timerFault ∧ t.supervision.storeParity = true ∧
        ∃ u, exec (.setClose []) s = .next u ∧ t.store = u.store ∧ t.streams = u.streams ∧ t.active = u.active) ∧
      (s.link.Settled → alone → s.published = none → s.link.flight = none → s.link.replies.any (fun r => r.ofRestart) = false →
        t.link = (if s.link.line = none then { s.link with line := some ⟨controlFrame 0x64 0 [2], false⟩ }
          else { s.link with slots := { s.link.slots with halt := some [2] } }))) ∧
    (s.mode = .halted → s.published = none → alone →
      exec (.refclkAbsent m) s = .next { s with supervision := { s.supervision with timerFault := true } })) ∧
  ∀ (s : State) (req : Request) (rest : List Request) (f : Flight), s.mode ≠ .halted → s.published = none →
    s.link.line ≠ none → s.link.flight = some f → s.link.requests = req :: rest →
    ∃ t, exec (.refclkAbsent ⟨0, false⟩) s = .next t ∧ t.link.requests = rest ∧ t.link.flight = none ∧ t.link.line = s.link.line ∧
      t.link.slots.halt = some [2] ∧ t.active = s.active ∧ t.edit = s.edit ∧
      (f ≠ .restart →
        t.link.replies = s.link.replies ++
          [⟨if req.kind.toNat < 128 then req.kind + 0x80 else 0xFF, req.tag, [10], false⟩]) ∧
      (f = .restart →
        t.link.replies = s.link.replies.map (fun r => if r.ofRestart = true then { r with payload := [10] } else r))

/-! ### The control link (chapter 10) -/

/-- The receive framer (R167, R168, R183). From HUNT the bytes of a frame, one after the other, leave the framer in HUNT with the
request at the tail of the queue, or, with four held, discarded and OVERRUN counted; a frame with another CRC is discarded and
CRC_ERRORS counted. A byte in error, the gap timer's expiry, or a LEN above 1,024 gives a frame up and counts FRAMING. In HUNT only
SYNC without error acts, and the gap timer does not run (log 2). -/
def Obligations.FramerReceivesFrames : Prop :=
  ∀ s : State,
    (s.link.framer = .hunt → ∀ (kind tag : Byte) (payload : List Byte), payload.length ≤ 1024 →
      feed (controlFrame kind tag payload) s =
        .next
          { s with
            link :=
              if s.link.requests.length < 4 then { s.link with requests := s.link.requests ++ [⟨kind, tag, payload⟩] }
              else { s.link with overrun := min (s.link.overrun + 1) 65535 } } ∧
      ∀ crc : BitVec 16, crc ≠ crc16 (u16 payload.length ++ [kind, tag] ++ payload) →
        feed (0xC3 :: (u16 payload.length ++ [kind, tag] ++ payload ++ u16 crc.toNat)) s =
          .next { s with link := { s.link with crcErrors := min (s.link.crcErrors + 1) 65535 } }) ∧
    (s.link.framer = .hunt → exec .gapTimeout s = .next s ∧
      exec (.controlByteReceived 0xC3 false) s = .next { s with link := { s.link with framer := .header [] } } ∧
      ∀ b, exec (.controlByteReceived b true) s = .next s ∧
        (b ≠ 0xC3 → exec (.controlByteReceived b false) s = .next s)) ∧
    (s.link.framer ≠ .hunt → ∀ b,
      exec .gapTimeout s =
          .next { s with link := { s.link with framer := .hunt, framing := min (s.link.framing + 1) 65535 } } ∧
        exec (.controlByteReceived b true) s =
          .next { s with link := { s.link with framer := .hunt, framing := min (s.link.framing + 1) 65535 } }) ∧
    ∀ hi lo : Byte, s.link.framer = .header [hi] → 1024 < 256 * hi.toNat + lo.toNat →
      exec (.controlByteReceived lo false) s =
        .next { s with link := { s.link with framer := .hunt, framing := min (s.link.framing + 1) 65535 } }

/-- FRAME_TRANSMITTED (R182): the transmitter takes the first that waits of the HALT, TRIP and BACKTRIP slots, the oldest reply, the
TOPOLOGY and ALARM slots, as its frame, and leaves the others. The HALT notice waits behind the reply of a RESTART (R177; log 15).
That a notice is taken as well where the frame finished was the reply of a RESTART, before the restart empties the slots, is the model's
choice (log 32). On an idle line it is no event (log 2). -/
def Obligations.TransmitterTakesByPriority : Prop :=
  ∀ s : State,
    (s.link.line = none → exec .frameTransmitted s = .next s) ∧
    (s.link.line ≠ none → (∀ r ∈ s.link.replies, r.ofRestart = false) →
      (∀ p, s.link.slots.halt = some p →
        exec .frameTransmitted s = .next { s with link := { s.link with
          slots := { s.link.slots with halt := none }, line := some ⟨controlFrame 0x64 0 p, false⟩ } }) ∧
      (s.link.slots.halt = none → (∀ p, s.link.slots.trip = some p →
        exec .frameTransmitted s = .next { s with link := { s.link with
          slots := { s.link.slots with trip := none }, line := some ⟨controlFrame 0x60 0 p, false⟩ } }) ∧
      (s.link.slots.trip = none → (∀ p, s.link.slots.backtrip = some p →
        exec .frameTransmitted s = .next { s with link := { s.link with
          slots := { s.link.slots with backtrip := none }, line := some ⟨controlFrame 0x61 0 p, false⟩ } }) ∧
      (s.link.slots.backtrip = none → (∀ r rest, s.link.replies = r :: rest →
        exec .frameTransmitted s = .next { s with link := { s.link with
          replies := rest, line := some ⟨controlFrame r.kind r.tag r.payload, false⟩ } }) ∧
      (s.link.replies = [] → (∀ p, s.link.slots.topology = some p →
        exec .frameTransmitted s = .next { s with link := { s.link with
          slots := { s.link.slots with topology := none }, line := some ⟨controlFrame 0x63 0 p, false⟩ } }) ∧
      (s.link.slots.topology = none → (∀ p, s.link.slots.alarm = some p →
        exec .frameTransmitted s = .next { s with link := { s.link with
          slots := { s.link.slots with alarm := none }, line := some ⟨controlFrame 0x62 0 p, false⟩ } }) ∧
      (s.link.slots.alarm = none →
        exec .frameTransmitted s = .next { s with link := { s.link with line := none } }))))))) ∧
    ∀ r rest, s.link.line ≠ none → s.link.slots.trip = none → s.link.slots.backtrip = none → s.link.replies = r :: rest →
      (∃ x ∈ s.link.replies, x.ofRestart = true) →
      exec .frameTransmitted s = .next { s with link := { s.link with
        replies := rest, line := some ⟨controlFrame r.kind r.tag r.payload, r.ofRestart⟩ } }

/-- When a request is served, and its common checks (R168, R169). A request whose turn it is waits at the head while another is in
flight, while the reply queue holds four, or while a set is in evaluation; out of its turn its row is no event (log 4). Served, it is
refused UNKNOWN_KIND, then BAD_LENGTH, then HALTED, and nothing but the control link changes. -/
def Obligations.RequestsMeetTheCommonChecks : Prop :=
  ∀ (c : Instr) (req : Request) (rest : List Request) (s : State), askedBy c = some req → c.wf = true →
    ((∀ q, ¬ s.Turn req q) → exec c s = .next s) ∧
    (s.Turn req rest → ¬ s.Free → exec c s = .next { s with link := { s.link with requests := req :: rest } }) ∧
    (s.Served req rest →
      (requestRow req.kind = none → exec c s = .next (s.replied req rest 1 [])) ∧
      ∀ row, requestRow req.kind = some row →
        (req.payload.length ≠ row.length → exec c s = .next (s.replied req rest 2 [])) ∧
        (req.payload.length = row.length → s.mode = .halted → row.inHalted = false →
          exec c s = .next (s.replied req rest 10 [])))

/-! ### Requests that only read -/

/-- IDENT, STREAM-LIST, BAY-GET, YARD-GET, BANK-READ, RESPONSE-GET (R3, R8, R14, R25, R146, R170, R184): the reply holds what the
device holds, and nothing else changes. -/
def Obligations.SettingsReadsReturnWhatIsHeld : Prop :=
  ∀ (tag : Byte) (s : State) (rest : List Request),
    (s.Served ⟨0x01, tag, []⟩ rest →
      exec (.ident tag []) s = .next (s.replied ⟨0x01, tag, []⟩ rest 0
        [0x4D, 0x26, 1, 26, BitVec.ofNat 8 s.rate.toNat,
          match s.mode with | .setup => 0 | .run => 1 | .halted => 2])) ∧
    (s.mode ≠ .halted →
      (s.Served ⟨0x12, tag, []⟩ rest →
        exec (.streamList tag []) s = .next (s.replied ⟨0x12, tag, []⟩ rest 0
          ((List.finRange 26).flatMap (fun i =>
            match s.streams.get i with
            | none => [0, 0, 0, 0, 0, 0, 0]
            | some e => u32 e.identifier.toNat ++ [BitVec.ofNat 8 e.slot.val,
                match e.admitted with | .x => 0 | .y => 1 | .either => 2, if e.enabled = true then 1 else 0])))) ∧
      (s.Served ⟨0x17, tag, []⟩ rest →
        exec (.yardGet tag []) s = .next (s.replied ⟨0x17, tag, []⟩ rest 0
          [if s.yard.sections = .two then 2 else 4, if s.yard.frequency = .hz50 then 50 else 60,
            BitVec.ofNat 8 s.yard.alignDelay])) ∧
      (∀ slot : Byte, s.Served ⟨0x15, tag, [slot]⟩ rest →
        (26 ≤ slot.toNat → exec (.bayGet tag [slot]) s = .next (s.replied ⟨0x15, tag, [slot]⟩ rest 3 [])) ∧
        ∀ b : Slot, slot.toNat = b.val →
          exec (.bayGet tag [slot]) s = .next (s.replied ⟨0x15, tag, [slot]⟩ rest 0
            (slot ::
              (match (s.bays.get b).kind with
                | .unused => [0, 0xFF, 0xFF, 0xFF]
                | .feeder .one => [1, 1, 0xFF, 0xFF]
                | .feeder .two => [1, 2, 0xFF, 0xFF]
                | .junction .coupler1 c => [2, 0xFF, 0, if c = true then 1 else 0]
                | .junction .coupler2 c => [2, 0xFF, 1, if c = true then 3 else 2]
                | .junction .sectionA c => [2, 0xFF, 2, if c = true then 2 else 0]
                | .junction .sectionB c => [2, 0xFF, 3, if c = true then 3 else 1])
              ++ [if (s.bays.get b).polarity = .plus then 0x01 else 0xFF] ++ u16 (s.bays.get b).ratio))) ∧
      (∀ bank item index : Byte, s.Served ⟨0x21, tag, [bank, item, index]⟩ rest →
        ((2 ≤ bank.toNat ∨ ∀ i : BankItem, i.bytes ≠ [item, index]) →
          exec (.bankRead tag [bank, item, index]) s = .next (s.replied ⟨0x21, tag, [bank, item, index]⟩ rest 3 [])) ∧
        ∀ i : BankItem, i.bytes = [item, index] → bank.toNat < 2 →
          exec (.bankRead tag [bank, item, index]) s = .next (s.replied ⟨0x21, tag, [bank, item, index]⟩ rest 0
            (u32 ((if bank = 0 then s.active else s.edit).item i)))) ∧
      ∀ code : Byte, s.Served ⟨0x25, tag, [code]⟩ rest →
        ((code = 0 ∨ 10 ≤ code.toNat) →
          exec (.responseGet tag [code]) s = .next (s.replied ⟨0x25, tag, [code]⟩ rest 3 [])) ∧
        ∀ i : Fin 9, code.toNat = i.val + 1 →
          exec (.responseGet tag [code]) s = .next (s.replied ⟨0x25, tag, [code]⟩ rest 0
            [match (s.supervision.responses.get i).level with | .none => 0 | .alarm => 1 | .blockZone => 2 | .blockAll => 3,
              if (s.supervision.responses.get i).latch = true then 1 else 0]))

/-- STATUS, TOPOLOGY, MEASURE, POSITIONS (R58, R64, R75, R103, R171, R184): the reply holds what the device holds, byte for byte, and
nothing else changes. Which slots MEASURE reports (log 19), that the counters of a zone are those of the section that names it (log 23)
and the check zone mark with the none flag (log 20) are DEDUCED. -/
def Obligations.StateReadsReturnWhatIsHeld : Prop :=
  ∀ (tag : Byte) (s : State) (rest : List Request),
    (∀ part : Byte, s.Served ⟨0x30, tag, [part]⟩ rest →
      (2 ≤ part.toNat → exec (.status tag [part]) s = .next (s.replied ⟨0x30, tag, [part]⟩ rest 3 [])) ∧
      (part = 1 → exec (.status tag [part]) s = .next (s.replied ⟨0x30, tag, [part]⟩ rest 0
        (BitVec.ofNat 8 s.supervision.conditions.length :: s.supervision.conditions.flatMap (fun e =>
          [BitVec.ofNat 8 e.code.number, BitVec.ofNat 8 e.scope.code,
            (if e.active = true then 1 else 0) +
              (match e.latched with
                | none => 0
                | some r => 2 + BitVec.ofNat 8 (4 * r.buses.toNat) + (if r.check = true then 64 else 0))]
          ++ u16 e.onset.second ++ u16 e.onset.count)))) ∧
      (part = 0 → ∃ data : List Byte, exec (.status tag [part]) s = .next (s.replied ⟨0x30, tag, [part]⟩ rest 0 data) ∧
        data.length = 155 ∧
        data.take 4 =
          [match s.mode with | .setup => 0 | .run => 1 | .halted => 2,
            match s.supervision.haltCode with | none => 0 | some .storeParity => 1 | some .timerFault => 2,
            (if s.supervision.storeParity = true then 1 else 0) + (if s.supervision.timerFault = true then 2 else 0),
            if s.timer.running = true then 0 else 1] ∧
        (data.drop 4).take 5 =
          (match s.store.lastClosed with | none => [1, 0, 0, 0, 0] | some x => 0 :: (u16 x.second ++ u16 x.count)) ∧
        (data.drop 9).take 1 = [(if s.ports.x.link = .up then 1 else 0) + (if s.ports.y.link = .up then 2 else 0)] ∧
        (∃ lost : Bitmap, (data.drop 10).take 4 = u32 lost.toNat ∧
          ∀ b : Slot, lost.getLsbD b.val = true ↔ (s.bays.get b).kind ≠ .unused ∧ (s.store.slots.get b).lost = true) ∧
        (∀ k : Bus, (data.drop (14 + 11 * k.val)).take 11 =
          [(if s.supervision.hostBlocks.get k = true then 1 else 0) + (if s.supervision.blockFlags.get k = true then 2 else 0)
            + (if s.trip.tripLatch.get k = true then 4 else 0) + (if s.trip.backtripLatch.get k = true then 8 else 0)]
          ++ u32 (s.trip.captured.get k).toNat ++ u16 ((s.supervision.ctCounts.get k).get 0)
          ++ u16 ((s.supervision.ctCounts.get k).get 1) ++ u16 ((s.supervision.ctCounts.get k).get 2)) ∧
        (data.drop 58).take 7 = [if s.supervision.checkBlocked = true then 1 else 0] ++ u16 (s.supervision.checkCt.get 0)
          ++ u16 (s.supervision.checkCt.get 1) ++ u16 (s.supervision.checkCt.get 2) ∧
        (data.drop 65).take 4 = u32 s.trip.bitmap.toNat ∧
        (∀ b : Slot, (data.drop (69 + 3 * b.val)).take 3 =
          [(match (s.bf.get b).state with | .idle => 0 | .timing => 1 | .expired => 2 : Byte)] ++ u16 (s.bf.get b).countdown) ∧
        data.drop 147 =
          [BitVec.ofNat 8 s.records.stack.length, BitVec.ofNat 8 s.records.overwrites,
            if s.link.alarm.enabled = true then 1 else 0] ++ u16 s.link.alarm.interval
          ++ [if s.link.topology.enabled = true then 1 else 0] ++ u16 s.link.topology.interval)) ∧
    (s.mode ≠ .halted →
      (s.Served ⟨0x31, tag, []⟩ rest →
        exec (.topology tag []) s = .next (s.replied ⟨0x31, tag, []⟩ rest 0
          (match s.topology with
            | none => [1, 0, 0, 0, 0, if s.yard.sections = .two then 2 else 4, 0, 0, 0] ++ List.replicate 16 0 ++ [0]
            | some tp =>
              0 :: (u16 tp.stamp.second ++ u16 tp.stamp.count)
              ++ [if tp.sections = .two then 2 else 4, BitVec.ofNat 8 tp.zones.length]
              ++ tp.zones.flatMap (fun z =>
                  [BitVec.ofNat 8 z.name.val, BitVec.ofNat 8 z.buses.toNat, if z.changed = true then 1 else 0,
                    BitVec.ofNat 8 z.members.length]
                  ++ z.members.map (fun m => BitVec.ofNat 8 m.slot.val + (if m.minus = true then 128 else 0)))
              ++ [if tp.checkChanged = true then 1 else 0, BitVec.ofNat 8 tp.checkMembers.length]
              ++ tp.checkMembers.map (fun m => BitVec.ofNat 8 m.slot.val + (if m.minus = true then 128 else 0))
              ++ (u32 (tp.scopes.get 0).toNat ++ u32 (tp.scopes.get 1).toNat ++ u32 (tp.scopes.get 2).toNat
                  ++ u32 (tp.scopes.get 3).toNat)
              ++ [BitVec.ofNat 8 ((List.finRange 26).filter (fun b => (tp.roles.get b).isSome)).length]
              ++ (List.finRange 26).flatMap (fun b =>
                  match tp.roles.get b with
                  | none => []
                  | some r => [BitVec.ofNat 8 b.val,
                      match r with | .member => 0 | .internal => 1 | .excluded => 2 | .outOfUse => 3])))) ∧
      (s.Served ⟨0x32, tag, []⟩ rest →
        let block (q : PhaseResult) (counter : Nat) : List Byte :=
          u32 q.diff ++ u32 q.restraint ++
            [(if q.held = true then 1 else 0) + (if q.highSlope = true then 2 else 0) + (if q.operates = true then 4 else 0)
              + (if q.suspect = true then 8 else 0),
              match q.detector with | .quiet => 0 | .watch => 1 | .external => 2 | .settle => 3, BitVec.ofNat 8 counter]
        exec (.measure tag []) s = .next (s.replied ⟨0x32, tag, []⟩ rest 0
          (match s.evaluator.results with
            | none => [1, 0, 0, 0, 0, 0, 0]
            | some r =>
              0 :: (u16 r.stamp.second ++ u16 r.stamp.count) ++ [BitVec.ofNat 8 r.zones.length]
              ++ r.zones.flatMap (fun z =>
                  [BitVec.ofNat 8 z.name.val, BitVec.ofNat 8 z.buses.toNat]
                  ++ block (z.phases.get 0) ((s.evaluator.operate.get z.name).get 0)
                  ++ block (z.phases.get 1) ((s.evaluator.operate.get z.name).get 1)
                  ++ block (z.phases.get 2) ((s.evaluator.operate.get z.name).get 2))
              ++ block (r.check.get 0) (s.evaluator.checkOperate.get 0) ++ block (r.check.get 1) (s.evaluator.checkOperate.get 1)
              ++ block (r.check.get 2) (s.evaluator.checkOperate.get 2)
              ++ [BitVec.ofNat 8 ((List.finRange 26).filter (fun b => (r.bays.get b).isSome)).length]
              ++ (List.finRange 26).flatMap (fun b =>
                  match r.bays.get b with
                  | none => []
                  | some y =>
                    [BitVec.ofNat 8 b.val] ++ u32 (BitVec.ofInt 32 (y.currents.get 0)).toNat
                    ++ u32 (BitVec.ofInt 32 (y.currents.get 1)).toNat ++ u32 (BitVec.ofInt 32 (y.currents.get 2)).toNat
                    ++ [match y.mark with | .present => 0 | .substituted => 1 | .zero => 2] ++ u32 y.current
                    ++ [if y.present = true then 1 else 0])))) ∧
      (s.Served ⟨0x33, tag, []⟩ rest →
        let position (x : Position) : Byte := match x with | .closed => 0 | .opened => 1 | .travel => 2 | .invalid => 3 | .noData => 4
        let forced (x : Forced) : Byte := match x with | .none => 0 | .closed => 1 | .opened => 2
        exec (.positions tag []) s = .next (s.replied ⟨0x33, tag, []⟩ rest 0
          ((match s.replica.stamp with | none => [1, 0, 0, 0, 0] | some x => 0 :: (u16 x.second ++ u16 x.count))
          ++ [BitVec.ofNat 8 ((List.finRange 26).filter (fun b => (s.bays.get b).kind ≠ .unused)).length]
          ++ (List.finRange 26).flatMap (fun b =>
              let q := s.replica.slots.get b
              let head := [BitVec.ofNat 8 b.val, position q.isoA, position q.isoB, position q.breaker,
                if q.received = true then 1 else 0]
              match (s.bays.get b).kind with
              | .unused => []
              | .feeder _ => head
                  ++ [forced q.forcedA + 4 * forced q.forcedB,
                    (if q.closedA = true then 1 else 0) + (if q.closedB = true then 2 else 0)]
                  ++ u16 q.travelA ++ u16 q.travelB ++ [BitVec.ofNat 8 q.invalidA, BitVec.ofNat 8 q.invalidB]
              | .junction _ _ => head ++ [0, if q.excluded = true then 4 else 0] ++ u16 q.openSettle ++ [0, 0]
                  ++ [BitVec.ofNat 8 q.invalidBreaker, 0])))))

/-- COUNTERS (R42, R184): 342 bytes with every counter as it is held; with the clear flag all of them become 0, without it they are
kept. That any other flag is refused OUT_OF_RANGE is DEDUCED from R183 (log 18). -/
def Obligations.CountersAreReturnedAndCleared : Prop :=
  ∀ (tag clear : Byte) (s : State) (rest : List Request), s.Served ⟨0x34, tag, [clear]⟩ rest →
    (2 ≤ clear.toNat → exec (.counters tag [clear]) s = .next (s.replied ⟨0x34, tag, [clear]⟩ rest 3 [])) ∧
    (clear.toNat < 2 → ∃ (t : State) (data : List Byte), exec (.counters tag [clear]) s = .next (t.replied ⟨0x34, tag, [clear]⟩ rest 0 data) ∧
      data.length = 342 ∧
      data.take 30 =
        (u16 s.ports.x.valid ++ u16 s.ports.x.badCrc ++ u16 s.ports.x.badFormat ++ u16 s.ports.x.unknownId
          ++ u16 s.ports.x.wrongPort ++ u16 s.ports.x.invalid)
        ++ (u16 s.ports.y.valid ++ u16 s.ports.y.badCrc ++ u16 s.ports.y.badFormat ++ u16 s.ports.y.unknownId
          ++ u16 s.ports.y.wrongPort ++ u16 s.ports.y.invalid)
        ++ (u16 s.link.crcErrors ++ u16 s.link.framing ++ u16 s.link.overrun) ∧
      (∀ i : Fin 26, (data.drop (30 + 12 * i.val)).take 12 =
        match s.streams.get i with
        | none => List.replicate 12 0
        | some e => u16 e.counters.taken ++ u16 e.counters.duplicate ++ u16 e.counters.late ++ u16 e.counters.early
            ++ u16 e.counters.substituted ++ u16 e.counters.overrange) ∧
      (clear = 0 → t = s) ∧
      (clear = 1 →
        t = { s with ports := t.ports, streams := t.streams, link := { s.link with crcErrors := 0, framing := 0, overrun := 0 } } ∧
        (∀ p, t.ports.get p =
          { s.ports.get p with valid := 0, badCrc := 0, badFormat := 0, unknownId := 0, wrongPort := 0, invalid := 0 }) ∧
        ∀ i, t.streams.get i = (s.streams.get i).map (fun e => { e with counters := ⟨0, 0, 0, 0, 0, 0⟩ })))

/-- RECORD-READ and RECORD-DISCARD (R162, R163, R184, R185), in any mode. A depth above 7 is OUT_OF_RANGE, one at or above the number
held NOT_FOUND; else the reply holds the number, the overwrite count and the record, 39, 63 or 15 bytes long, and nothing changes. A
discard on an empty stack is NOT_FOUND; else the newest record leaves, the others move one nearer to the top, the reply holds the
number held after, and the overwrite count stands. -/
def Obligations.RecordsAreReadAndDiscarded : Prop :=
  (∀ (tag depth : Byte) (s : State) (rest : List Request), s.Served ⟨0x38, tag, [depth]⟩ rest →
    (7 < depth.toNat → exec (.recordRead tag [depth]) s = .next (s.replied ⟨0x38, tag, [depth]⟩ rest 3 [])) ∧
    (depth.toNat ≤ 7 → s.records.stack.length ≤ depth.toNat →
      exec (.recordRead tag [depth]) s = .next (s.replied ⟨0x38, tag, [depth]⟩ rest 9 [])) ∧
    (depth.toNat ≤ 7 → ∀ r, s.records.stack[depth.toNat]? = some r → ∃ data : List Byte,
      exec (.recordRead tag [depth]) s =
        .next (s.replied ⟨0x38, tag, [depth]⟩ rest 0
          (BitVec.ofNat 8 s.records.stack.length :: BitVec.ofNat 8 s.records.overwrites :: data)) ∧
      (∀ b, r = .backtrip b → data =
        2 :: (u16 b.stamp.second ++ u16 b.stamp.count ++ [BitVec.ofNat 8 b.bay.val] ++ u32 b.current
          ++ [BitVec.ofNat 8 b.buses.toNat] ++ u32 b.bitmap.toNat)) ∧
      (∀ z, r = .zoneTrip z → data.take 8 =
        (1 : Byte) :: (u16 z.stamp.second ++ u16 z.stamp.count ++
          [BitVec.ofNat 8 z.buses.toNat, (match z.release with | .checked => 0 | .unchecked => 1 : Byte),
            (if z.released.get 0 = true then 1 else 0) + (if z.released.get 1 = true then 2 else 0)
              + (if z.released.get 2 = true then 4 else 0)]) ∧
        (∀ p : Phase, (data.drop (8 + 9 * p.val)).take 9 =
          u32 (z.phases.get p).diff ++ u32 (z.phases.get p).restraint ++
            [(match (z.phases.get p).detector with | .quiet => 0 | .watch => 1 | .external => 2 | .settle => 3 : Byte)]) ∧
        (∀ c, z.check = some c → data.length = 63 ∧ data.drop 59 = u32 z.bitmap.toNat ∧
          ∀ p : Phase, (data.drop (35 + 8 * p.val)).take 8 = u32 (c.get p).diff ++ u32 (c.get p).restraint) ∧
        (z.check = none → data.length = 39 ∧ data.drop 35 = u32 z.bitmap.toNat)))) ∧
  ∀ (tag : Byte) (s : State) (rest : List Request), s.Served ⟨0x39, tag, []⟩ rest →
    (s.records.stack = [] → exec (.recordDiscard tag []) s = .next (s.replied ⟨0x39, tag, []⟩ rest 9 [])) ∧
    ∀ r older, s.records.stack = r :: older →
      exec (.recordDiscard tag []) s =
        .next
          { s with
            records := { s.records with stack := older }
            link := s.link.answered ⟨0x39, tag, []⟩ rest 0 [BitVec.ofNat 8 older.length] }

/-! ### Requests that wait for an event -/

/-- MODE (R11, R173): another target than SETUP and RUN is OUT_OF_RANGE; the mode held is answered DONE at once; RUN in SETUP is
refused INCONSISTENT with the first check of R11 that fails, and waits in flight when none does; SETUP in RUN waits in flight. -/
def Obligations.ModeIsCheckedAndWaitsForTheClose : Prop :=
  ∀ (tag target : Byte) (s : State) (rest : List Request), s.mode ≠ .halted → s.Served ⟨0x02, tag, [target]⟩ rest →
    (2 ≤ target.toNat → exec (.mode tag [target]) s = .next (s.replied ⟨0x02, tag, [target]⟩ rest 3 [])) ∧
    (((target = 0 ∧ s.mode = .setup) ∨ (target = 1 ∧ s.mode = .run)) →
      exec (.mode tag [target]) s = .next (s.replied ⟨0x02, tag, [target]⟩ rest 0 [])) ∧
    (target = 1 → s.mode = .setup →
      (∀ check slot, s.FirstFailure check slot →
        exec (.mode tag [target]) s =
          .next (s.replied ⟨0x02, tag, [target]⟩ rest 6 [BitVec.ofNat 8 check, BitVec.ofNat 8 slot])) ∧
      ((∀ check slot, ¬ s.CheckFails check slot) →
        exec (.mode tag [target]) s =
          .next { s with link := s.link.inFlight ⟨0x02, tag, [target]⟩ rest (.mode true) })) ∧
    (target = 0 → s.mode = .run →
      exec (.mode tag [target]) s =
        .next { s with link := s.link.inFlight ⟨0x02, tag, [target]⟩ rest (.mode false) })

/-- RESTART and RESTART_MADE (R22, R42, R43, R59, R76, R92, R117, R130, R137, R156, R177): the DONE reply of a RESTART is placed and it
waits at the head of the queue; the restart is made once that reply has left and no set is in evaluation, and until then it is no
event (log 2, log 22). What the replica shows until its first set as received, zoning positions and exclusion is the model's choice
(log 11), and so is that a notice taken when the reply ended is on the line, which the restart leaves (log 32). -/
def Obligations.RestartIsMadeOnceItsReplyHasLeft : Prop :=
  (∀ (tag : Byte) (s : State) (rest : List Request), s.mode ≠ .halted → s.Served ⟨0x03, tag, []⟩ rest →
    exec (.restart tag []) s =
      .next
        { s with
          link :=
            { s.link.inFlight ⟨0x03, tag, []⟩ rest .restart with
              line := if s.link.line = none then some ⟨controlFrame 0x83 tag [0], true⟩ else s.link.line
              replies := if s.link.line = none then s.link.replies else s.link.replies ++ [⟨0x83, tag, [0], true⟩] } }) ∧
  ∀ s : State,
    let left := (∀ r ∈ s.link.replies, r.ofRestart = false) ∧ ∀ f, s.link.line = some f → f.ofRestart = false
    (¬ (s.link.flight = some .restart ∧ left ∧ s.published = none ∧ s.mode ≠ .halted) → exec .restartMade s = .next s) ∧
    (s.link.flight = some .restart → left → s.published = none → s.mode ≠ .halted →
      ∃ t, exec .restartMade s = .next t ∧ t.mode = .setup ∧ t.lines.healthy = true ∧ t.lines.sync = s.lines.sync ∧
        (∀ k, t.lines.trip.get k = false ∧ t.trip.tripLatch.get k = false ∧ t.trip.backtripLatch.get k = false ∧
          t.trip.captured.get k = 0) ∧
        t.trip.bitmap = 0 ∧ (∀ b, t.bf.get b = ⟨.idle, 0, 0, 0⟩) ∧
        t.store.c0 = s.store.c0 ∧ t.store.lastClosed = none ∧ (∀ i b, (t.store.cells.get i).get b = none) ∧
        (∀ b, t.store.slots.get b = BayStore.reset ∧ t.replica.slots.get b = SlotPositions.reset) ∧
        t.replica.stamp = none ∧ t.topology = none ∧ t.evaluator.results = none ∧
        (∀ p, t.evaluator.checkOperate.get p = 0 ∧ t.detectors.check.get p = ⟨.quiet, 0⟩ ∧ t.supervision.checkCt.get p = 0 ∧
          ∀ k, (t.evaluator.operate.get k).get p = 0 ∧ (t.detectors.zones.get k).get p = ⟨.quiet, 0⟩ ∧
            (t.supervision.ctCounts.get k).get p = 0) ∧
        t.supervision.conditions = [] ∧ t.supervision.responses = s.supervision.responses ∧
        t.supervision.checkBlocked = false ∧
        (∀ k, t.supervision.hostBlocks.get k = false ∧ t.supervision.blockFlags.get k = false) ∧
        (∀ p, t.ports.get p =
          { s.ports.get p with valid := 0, badCrc := 0, badFormat := 0, unknownId := 0, wrongPort := 0, invalid := 0 }) ∧
        (∀ i, t.streams.get i = (s.streams.get i).map (fun e => { e with counters := ⟨0, 0, 0, 0, 0, 0⟩ })) ∧
        t.link =
          { s.link with
            requests := []
            flight := none
            crcErrors := 0
            framing := 0
            overrun := 0
            slots := ⟨none, none, none, none, none⟩
            alarm := { s.link.alarm with timer := none, pending := false }
            topology := { s.link.topology with timer := none, pending := false } } ∧
        t.timer = s.timer ∧ t.yard = s.yard ∧ t.bays = s.bays ∧ t.active = s.active ∧ t.edit = s.edit ∧
        t.records = s.records ∧ t.rate = s.rate ∧ t.published = none ∧
        t.supervision.haltCode = s.supervision.haltCode)

/-- SETTLE (R176): in flight from its service; the next close notes it, and the end of that set's evaluation answers it DONE, not the
end of an evaluation whose set was closed before its service. -/
def Obligations.SettleWaitsForAWholeSet : Prop :=
  ∀ (s : State) (tag : Byte) (rest : List Request),
    (s.mode ≠ .halted → s.Served ⟨0x4F, tag, []⟩ rest →
      exec (.settle tag []) s = .next { s with link := s.link.inFlight ⟨0x4F, tag, []⟩ rest (.settle false) }) ∧
    (∀ closed, s.Due → s.SoundSources → s.link.flight = some (.settle closed) →
      ∃ t, exec (.setClose []) s = .next t ∧ t.link = { s.link with flight := some (.settle true) }) ∧
    ∀ (p : Published) (req : Request), s.published = some p → s.SoundWindow → s.link.requests = req :: rest →
      (s.link.flight = some (.settle false) →
        ∃ t, exec (.evaluateSet []) s = .next t ∧ t.link.flight = some (.settle false) ∧ t.link.requests = req :: rest) ∧
      (s.link.flight = some (.settle true) →
        let kind : Byte := if req.kind.toNat < 128 then req.kind + 0x80 else 0xFF
        ∃ t, exec (.evaluateSet []) s = .next t ∧ t.link.flight = none ∧ t.link.requests = rest ∧
          (t.link.replies.getLast? = some ⟨kind, req.tag, [0], false⟩ ∨
            t.link.line = some ⟨controlFrame kind req.tag [0], false⟩))

/-! ### Requests that write -/

/-- STREAM-SET and STREAM-DROP (R23, R24): WRONG_MODE in RUN, then OUT_OF_RANGE, then DUPLICATE against an entry at another index;
else the entry is written, keeping its counters where identifier and slot are those held, or emptied. That an enabled flag above 1 is
among the values refused OUT_OF_RANGE is DEDUCED from R183 (log 18). -/
def Obligations.StreamTableIsWritten : Prop :=
  ∀ (tag : Byte) (s : State) (rest : List Request), s.mode ≠ .halted →
    (∀ payload : List Byte, payload.length = 8 → s.Served ⟨0x10, tag, payload⟩ rest →
      (s.mode = .run → exec (.streamSet tag payload) s = .next (s.replied ⟨0x10, tag, payload⟩ rest 4 [])) ∧
      (s.mode = .setup →
        (∀ x i3 i2 i1 i0 slot admitted enabled : Byte, payload = [x, i3, i2, i1, i0, slot, admitted, enabled] →
          (26 ≤ x.toNat ∨ (i3 = 0 ∧ i2 = 0 ∧ i1 = 0 ∧ i0 = 0) ∨ 26 ≤ slot.toNat ∨ 3 ≤ admitted.toNat ∨ 2 ≤ enabled.toNat) →
          exec (.streamSet tag payload) s = .next (s.replied ⟨0x10, tag, payload⟩ rest 3 [])) ∧
        ∀ (i : Fin 26) (id : BitVec 32) (b : Slot) (admitted : Admit) (enabled : Bool), id ≠ 0 →
          payload = [BitVec.ofNat 8 i.val] ++ u32 id.toNat ++
            [BitVec.ofNat 8 b.val, match admitted with | .x => 0 | .y => 1 | .either => 2, if enabled = true then 1 else 0] →
          ((∃ j e, j ≠ i ∧ s.streams.get j = some e ∧ (e.identifier = id ∨ e.slot = b)) →
            exec (.streamSet tag payload) s = .next (s.replied ⟨0x10, tag, payload⟩ rest 5 [])) ∧
          ((∀ j e, j ≠ i → s.streams.get j = some e → e.identifier ≠ id ∧ e.slot ≠ b) →
            ∃ counters,
              exec (.streamSet tag payload) s =
                .next
                  { s with
                    streams := s.streams.set i (some ⟨id, b, admitted, enabled, counters⟩)
                    link := s.link.answered ⟨0x10, tag, payload⟩ rest 0 [] } ∧
              (∀ e, s.streams.get i = some e → e.identifier = id → e.slot = b → counters = e.counters) ∧
              ((∀ e, s.streams.get i = some e → e.identifier ≠ id ∨ e.slot ≠ b) → counters = ⟨0, 0, 0, 0, 0, 0⟩)))) ∧
    ∀ x : Byte, s.Served ⟨0x11, tag, [x]⟩ rest →
      (s.mode = .run → exec (.streamDrop tag [x]) s = .next (s.replied ⟨0x11, tag, [x]⟩ rest 4 [])) ∧
      (s.mode = .setup → 26 ≤ x.toNat → exec (.streamDrop tag [x]) s = .next (s.replied ⟨0x11, tag, [x]⟩ rest 3 [])) ∧
      (s.mode = .setup → ∀ i : Fin 26, x.toNat = i.val →
        exec (.streamDrop tag [x]) s =
          .next { s with streams := s.streams.set i none, link := s.link.answered ⟨0x11, tag, [x]⟩ rest 0 [] })

/-- BAY-SET (R6, R7, R59, R157): WRONG_MODE in RUN, OUT_OF_RANGE for bytes that spell no record; a record equal to the one held changes
nothing; another replaces it, returns the slot's ring, counts, positions, forced values and timer to their hard-reset values and
removes every condition entry of the slot, and of nothing else. What the replica
shows of it until the next set as received, zoning positions and exclusion is the model's choice (log 11). -/
def Obligations.BaySetReplacesTheRecord : Prop :=
  ∀ (tag : Byte) (payload : List Byte) (s : State) (rest : List Request), s.mode ≠ .halted → payload.length = 8 →
    s.Served ⟨0x14, tag, payload⟩ rest →
    (s.mode = .run → exec (.baySet tag payload) s = .next (s.replied ⟨0x14, tag, payload⟩ rest 4 [])) ∧
    (s.mode = .setup →
      ((∀ b r, 1024 ≤ r.ratio → r.ratio ≤ 65535 → payload ≠ recordFields b r) →
        exec (.baySet tag payload) s = .next (s.replied ⟨0x14, tag, payload⟩ rest 3 [])) ∧
      ∀ (b : Slot) (r : BayRecord), 1024 ≤ r.ratio → r.ratio ≤ 65535 → payload = recordFields b r →
        (s.bays.get b = r → exec (.baySet tag payload) s = .next (s.replied ⟨0x14, tag, payload⟩ rest 0 [])) ∧
        (s.bays.get b ≠ r →
          exec (.baySet tag payload) s =
            .next
              { s with
                bays := s.bays.set b r
                store := { s.store with slots := s.store.slots.set b BayStore.reset }
                replica := { s.replica with slots := s.replica.slots.set b SlotPositions.reset }
                bf := s.bf.set b ⟨.idle, 0, 0, 0⟩
                supervision :=
                  { s.supervision with conditions := s.supervision.conditions.filter (fun e => e.scope ≠ .bay b) }
                link := s.link.answered ⟨0x14, tag, payload⟩ rest 0 [] }))

/-- YARD-SET (R1, R2, R20, R30, R43, R59, R76, R92, R117, R156, R157, R180): WRONG_MODE in RUN, OUT_OF_RANGE outside R1; else the
three values are written, a change of FREQUENCY makes the frequency restart, a change of SECTIONS returns the state of sections 2 and
3 to its hard-reset values and removes their condition entries, and what neither reaches stands. The moment of a frequency restart is
the nominal instant of set 0 (R30): both moderation timers step at it and an expiry makes its notice (R180), before the reply is
placed (R2), while link states and silence counts stay (R20). That this notice shows the state after what the restart sets and before
the entries of sections 2 and 3 are removed is the model's choice (log 21), as are which of two such notices a free line takes
(log 33) and what the replica shows after a frequency restart as received, zoning positions and exclusion (log 11). -/
def Obligations.YardSetTakesEachConsequence : Prop :=
  ∀ (tag n f d : Byte) (s : State) (rest : List Request), s.mode ≠ .halted → s.Served ⟨0x16, tag, [n, f, d]⟩ rest →
    (s.mode = .run → exec (.yardSet tag [n, f, d]) s = .next (s.replied ⟨0x16, tag, [n, f, d]⟩ rest 4 [])) ∧
    (s.mode = .setup → ((n ≠ 2 ∧ n ≠ 4) ∨ (f ≠ 50 ∧ f ≠ 60) ∨ d.toNat = 0 ∨ 5 ≤ d.toNat) →
      exec (.yardSet tag [n, f, d]) s = .next (s.replied ⟨0x16, tag, [n, f, d]⟩ rest 3 [])) ∧
    ∀ y : Yard, s.mode = .setup → n = (if y.sections = .two then 2 else 4) → f = (if y.frequency = .hz50 then 50 else 60) →
      d.toNat = y.alignDelay → 1 ≤ y.alignDelay → y.alignDelay ≤ 4 →
      ∃ (t : State) (l : ControlLink), exec (.yardSet tag [n, f, d]) s = .next t ∧ t.yard = y ∧
        t.link = l.answered ⟨0x16, tag, [n, f, d]⟩ rest 0 [] ∧
        (y.frequency = s.yard.frequency → l = s.link) ∧
        (y.frequency ≠ s.yard.frequency →
          s.link.SteppedTo (conditionBytes s.supervision.conditions) (topologyHead y.sections none) l) ∧
        (y.frequency = s.yard.frequency → t.timer = s.timer ∧ t.lines = s.lines ∧ t.store = s.store ∧ t.replica = s.replica ∧
          t.topology = s.topology ∧ t.evaluator.results = s.evaluator.results ∧ t.trip = s.trip ∧
          t.supervision.checkCt = s.supervision.checkCt ∧ t.evaluator.checkOperate = s.evaluator.checkOperate ∧
          t.detectors.check = s.detectors.check ∧
          ∀ k : Bus, (k.val < 2 ∨ y.sections = s.yard.sections) →
            t.evaluator.operate.get k = s.evaluator.operate.get k ∧ t.detectors.zones.get k = s.detectors.zones.get k ∧
            t.supervision.ctCounts.get k = s.supervision.ctCounts.get k) ∧
        (y.frequency ≠ s.yard.frequency → t.timer.running = true ∧ t.timer.count = 0 ∧ t.timer.second = s.timer.second ∧
          t.timer.period = (if y.frequency = .hz50 then 20000 else 16667) ∧ t.lines.sync = true ∧
          t.store.c0 = 0 ∧ t.store.lastClosed = none ∧ (∀ i b, (t.store.cells.get i).get b = none) ∧
          (∀ b, t.store.slots.get b = BayStore.reset ∧
            t.replica.slots.get b =
              { SlotPositions.reset with
                forcedA := (s.replica.slots.get b).forcedA, forcedB := (s.replica.slots.get b).forcedB }) ∧
          t.replica.stamp = none ∧ t.topology = none ∧ t.evaluator.results = none ∧ t.trip = { s.trip with bitmap := 0 } ∧
          ∀ p, t.evaluator.checkOperate.get p = 0 ∧ t.detectors.check.get p = ⟨.quiet, 0⟩ ∧ t.supervision.checkCt.get p = 0 ∧
            ∀ k, (t.evaluator.operate.get k).get p = 0 ∧ (t.detectors.zones.get k).get p = ⟨.quiet, 0⟩ ∧
              (t.supervision.ctCounts.get k).get p = 0) ∧
        (y.sections ≠ s.yard.sections → ∀ k : Bus, 2 ≤ k.val → ∀ p,
          (t.evaluator.operate.get k).get p = 0 ∧ (t.detectors.zones.get k).get p = ⟨.quiet, 0⟩ ∧
          (t.supervision.ctCounts.get k).get p = 0) ∧
        t.supervision.conditions =
          s.supervision.conditions.filter (fun e =>
            y.sections = s.yard.sections ∨ (e.scope ≠ .bus 2 ∧ e.scope ≠ .bus 3)) ∧
        t.mode = s.mode ∧ t.bays = s.bays ∧ t.active = s.active ∧ t.edit = s.edit ∧ t.ports = s.ports ∧
        t.streams = s.streams ∧ t.records = s.records ∧ t.bf = s.bf ∧ t.lines.trip = s.lines.trip ∧
        t.lines.healthy = s.lines.healthy ∧ t.supervision.hostBlocks = s.supervision.hostBlocks ∧
        t.supervision.blockFlags = s.supervision.blockFlags ∧ t.supervision.responses = s.supervision.responses

/-- BANK-WRITE and BANK-APPLY (R13, R15 to R17): one value within its item's range is written into EDIT and no other item changes;
the cross-relations of EDIT are checked in order; in RUN the APPLY waits in flight, in SETUP EDIT is copied whole into ACTIVE and
the bounded counts are capped. -/
def Obligations.BanksAreWrittenAndApplied : Prop :=
  ∀ (tag : Byte) (s : State) (rest : List Request), s.mode ≠ .halted →
    (∀ item index v3 v2 v1 v0 : Byte, s.Served ⟨0x20, tag, [item, index, v3, v2, v1, v0]⟩ rest →
      let req : Request := ⟨0x20, tag, [item, index, v3, v2, v1, v0]⟩
      let v := ((v3.toNat * 256 + v2.toNat) * 256 + v1.toNat) * 256 + v0.toNat
      ((∀ i : BankItem, i.bytes = [item, index] → v < i.range.1 ∨ i.range.2 < v) →
        exec (.bankWrite tag [item, index, v3, v2, v1, v0]) s = .next (s.replied req rest 3 [])) ∧
      ∀ i : BankItem, i.bytes = [item, index] → i.range.1 ≤ v → v ≤ i.range.2 →
        ∃ bank, exec (.bankWrite tag [item, index, v3, v2, v1, v0]) s =
            .next { s with edit := bank, link := s.link.answered req rest 0 [] } ∧
          ∀ j : BankItem, bank.item j = if j = i then v else s.edit.item j) ∧
    (s.Served ⟨0x22, tag, []⟩ rest →
      (s.edit.zoneSlopeHigh < s.edit.zoneSlope →
        exec (.bankApply tag []) s = .next (s.replied ⟨0x22, tag, []⟩ rest 6 [1, 255])) ∧
      (s.edit.zoneSlope ≤ s.edit.zoneSlopeHigh → s.edit.checkSlopeHigh < s.edit.checkSlope →
        exec (.bankApply tag []) s = .next (s.replied ⟨0x22, tag, []⟩ rest 6 [2, 255])) ∧
      (s.edit.zoneSlope ≤ s.edit.zoneSlopeHigh → s.edit.checkSlope ≤ s.edit.checkSlopeHigh →
        (s.mode = .run →
          exec (.bankApply tag []) s = .next { s with link := s.link.inFlight ⟨0x22, tag, []⟩ rest .bankApply }) ∧
        (s.mode = .setup → ∃ t, exec (.bankApply tag []) s = .next t ∧
          t = { s with
                active := s.edit, evaluator := t.evaluator, detectors := t.detectors
                link := s.link.answered ⟨0x22, tag, []⟩ rest 0 [] } ∧
          t.evaluator.results = s.evaluator.results ∧
          ∀ p, t.evaluator.checkOperate.get p = min (s.evaluator.checkOperate.get p) s.edit.checkOperateSets ∧
            t.detectors.check.get p =
              ⟨(s.detectors.check.get p).state, min (s.detectors.check.get p).hold s.edit.extHold⟩ ∧
            ∀ k, (t.evaluator.operate.get k).get p = min ((s.evaluator.operate.get k).get p) s.edit.zoneOperateSets ∧
              (t.detectors.zones.get k).get p =
                ⟨((s.detectors.zones.get k).get p).state, min ((s.detectors.zones.get k).get p).hold s.edit.extHold⟩)))

/-- RESPONSE-SET and NOTICE-SET (R145, R146, R181): each value outside its range, and a level that R145 does not allow the code, is
refused OUT_OF_RANGE; else the entry, or the class's flag and interval, is written. A class that is disabled loses its waiting
notice, its mark and its running timer. -/
def Obligations.ResponsesAndNoticeClassesAreWritten : Prop :=
  ∀ (tag : Byte) (s : State) (rest : List Request), s.mode ≠ .halted →
    (∀ code level latch : Byte, s.Served ⟨0x24, tag, [code, level, latch]⟩ rest →
      ((code = 0 ∨ 10 ≤ code.toNat ∨ 4 ≤ level.toNat ∨ 2 ≤ latch.toNat ∨ (code = 1 ∧ level.toNat < 2) ∨
          ((code = 4 ∨ code = 9) ∧ level = 2) ∨ (code = 8 ∧ 2 ≤ level.toNat)) →
        exec (.responseSet tag [code, level, latch]) s = .next (s.replied ⟨0x24, tag, [code, level, latch]⟩ rest 3 [])) ∧
      ∀ (i : Fin 9) (l : Level) (f : Bool), code.toNat = i.val + 1 →
        level = (match l with | .none => 0 | .alarm => 1 | .blockZone => 2 | .blockAll => 3) →
        latch = (if f = true then 1 else 0) → (i = 0 → l = .blockZone ∨ l = .blockAll) →
        (i = 3 ∨ i = 8 → l ≠ .blockZone) → (i = 7 → l = .none ∨ l = .alarm) →
        exec (.responseSet tag [code, level, latch]) s =
          .next
            { s with
              supervision := { s.supervision with responses := s.supervision.responses.set i ⟨l, f⟩ }
              link := s.link.answered ⟨0x24, tag, [code, level, latch]⟩ rest 0 [] }) ∧
    ∀ cls flag n1 n0 : Byte, s.Served ⟨0x48, tag, [cls, flag, n1, n0]⟩ rest →
      let n := n1.toNat * 256 + n0.toNat
      let written (c : NoticeClass) : NoticeClass :=
        if flag = 1 then { c with enabled := true, interval := n } else ⟨false, n, none, false⟩
      (((cls ≠ 0x62 ∧ cls ≠ 0x63) ∨ 2 ≤ flag.toNat ∨ 2400 < n) →
        exec (.noticeSet tag [cls, flag, n1, n0]) s = .next (s.replied ⟨0x48, tag, [cls, flag, n1, n0]⟩ rest 3 [])) ∧
      (flag.toNat < 2 → n ≤ 2400 →
        (cls = 0x62 →
          exec (.noticeSet tag [cls, flag, n1, n0]) s =
            .next
              { s with
                link :=
                  { s.link with
                    alarm := written s.link.alarm
                    slots := { s.link.slots with alarm := if flag = 1 then s.link.slots.alarm else none } }.answered
                      ⟨0x48, tag, [cls, flag, n1, n0]⟩ rest 0 [] }) ∧
        (cls = 0x63 →
          exec (.noticeSet tag [cls, flag, n1, n0]) s =
            .next
              { s with
                link :=
                  { s.link with
                    topology := written s.link.topology
                    slots := { s.link.slots with topology := if flag = 1 then s.link.slots.topology else none } }.answered
                      ⟨0x48, tag, [cls, flag, n1, n0]⟩ rest 0 [] }))

/-- ZONE-BLOCK and FORCE (R49, R150): each value outside its range, and a slot that is no FEEDER, is refused OUT_OF_RANGE; else the
host blocks of the sections named, or the forced value of the isolator named, are written, and nothing else. -/
def Obligations.HostBlocksAndForcedValuesAreWritten : Prop :=
  ∀ (tag : Byte) (s : State) (rest : List Request), s.mode ≠ .halted →
    (∀ sel value : Byte, s.Served ⟨0x42, tag, [sel, value]⟩ rest →
      (((4 ≤ sel.toNat ∧ sel ≠ 0xFF) ∨ 2 ≤ value.toNat) →
        exec (.zoneBlock tag [sel, value]) s = .next (s.replied ⟨0x42, tag, [sel, value]⟩ rest 3 [])) ∧
      ((sel.toNat < 4 ∨ sel = 0xFF) → value.toNat < 2 → ∃ blocks,
        exec (.zoneBlock tag [sel, value]) s =
          .next
            { s with
              supervision := { s.supervision with hostBlocks := blocks }
              link := s.link.answered ⟨0x42, tag, [sel, value]⟩ rest 0 [] } ∧
        ∀ k : Bus, blocks.get k = if sel = 0xFF ∨ sel.toNat = k.val then decide (value = 1) else s.supervision.hostBlocks.get k)) ∧
    ∀ slot isolator value : Byte, s.Served ⟨0x44, tag, [slot, isolator, value]⟩ rest →
      ((26 ≤ slot.toNat ∨ 2 ≤ isolator.toNat ∨ 3 ≤ value.toNat) →
        exec (.force tag [slot, isolator, value]) s = .next (s.replied ⟨0x44, tag, [slot, isolator, value]⟩ rest 3 [])) ∧
      ∀ b : Slot, slot.toNat = b.val →
        ((∀ side, (s.bays.get b).kind ≠ .feeder side) →
          exec (.force tag [slot, isolator, value]) s = .next (s.replied ⟨0x44, tag, [slot, isolator, value]⟩ rest 3 [])) ∧
        ∀ side (v : Forced), (s.bays.get b).kind = .feeder side → isolator.toNat < 2 →
          value = (match v with | .none => 0 | .closed => 1 | .opened => 2) →
          exec (.force tag [slot, isolator, value]) s =
            .next
              { s with
                replica :=
                  { s.replica with
                    slots :=
                      s.replica.slots.set b
                        (if isolator = 0 then { s.replica.slots.get b with forcedA := v }
                         else { s.replica.slots.get b with forcedB := v }) }
                link := s.link.answered ⟨0x44, tag, [slot, isolator, value]⟩ rest 0 [] }

/-- TRIP-CLEAR (R127, R128): refused OUT_OF_RANGE, then STILL_OPERATING while a section named lies in a zone in force one of whose
operate counters (those of its naming section, log 23) stands at ZONE_OPERATE_SETS; else the latches and captured trip sets of the
sections named are cleared and their trip lines released, and every other section, the timers and the bitmap stand. -/
def Obligations.TripClearClearsTheSectionsNamed : Prop :=
  ∀ (tag sel : Byte) (s : State) (rest : List Request), s.mode ≠ .halted → s.Driven → s.Served ⟨0x40, tag, [sel]⟩ rest →
    let named (k : Bus) : Prop := sel = 0xFF ∨ sel.toNat = k.val
    let operating (k : Bus) : Prop := ∃ tp z p, s.topology = some tp ∧ tp.zoneOf k = some z ∧
      (s.evaluator.operate.get z.name).get p = s.active.zoneOperateSets
    let refused : Prop := ∃ k, named k ∧ operating k ∧ (sel = 0xFF → s.InUse k)
    (4 ≤ sel.toNat → sel ≠ 0xFF → exec (.tripClear tag [sel]) s = .next (s.replied ⟨0x40, tag, [sel]⟩ rest 3 [])) ∧
    (refused → exec (.tripClear tag [sel]) s = .next (s.replied ⟨0x40, tag, [sel]⟩ rest 7 [])) ∧
    ((sel.toNat < 4 ∨ sel = 0xFF) → ¬ refused → ∃ t, exec (.tripClear tag [sel]) s = .next t ∧
      (∀ k, named k → t.trip.tripLatch.get k = false ∧ t.trip.backtripLatch.get k = false ∧ t.trip.captured.get k = 0 ∧
        t.lines.trip.get k = false) ∧
      (∀ k, ¬ named k → t.trip.tripLatch.get k = s.trip.tripLatch.get k ∧
        t.trip.backtripLatch.get k = s.trip.backtripLatch.get k ∧ t.trip.captured.get k = s.trip.captured.get k ∧
        t.lines.trip.get k = s.lines.trip.get k) ∧
      t.trip.bitmap = s.trip.bitmap ∧
      t = { s with
            trip := t.trip, lines := { s.lines with trip := t.lines.trip }
            link := s.link.answered ⟨0x40, tag, [sel]⟩ rest 0 [] })

/-- ALARM-CLEAR (R139, R140, R151, R180): a code and a scope are checked OUT_OF_RANGE, NOT_FOUND, STILL_ACTIVE; else that entry, or
with ALL every entry that is not active, is removed, the reply is DONE, and, where the level of a removed entry's code is not NONE,
one ALARM cause is raised (log 30) before the reply is placed (log 16). NOT_FOUND, and not OUT_OF_RANGE, for a section out of use is
DEDUCED (log 18), and for a bay slot to whose bay the code does not apply the model's choice (log 31). -/
def Obligations.AlarmClearRemovesEndedConditions : Prop :=
  ∀ (tag code scope : Byte) (s : State) (rest : List Request), s.mode ≠ .halted → s.Tabled →
    s.Served ⟨0x41, tag, [code, scope]⟩ rest →
    let req : Request := ⟨0x41, tag, [code, scope]⟩
    let removal (removed : Condition → Bool) : Prop :=
      let cs := s.supervision.conditions.filter (fun e => removed e = false)
      let caused : Prop := ∃ e ∈ s.supervision.conditions, removed e = true ∧ (s.supervision.response e.code).level ≠ .none
      let t : State := { s with supervision := { s.supervision with conditions := cs } }
      ((¬ caused ∨ s.link.alarm.enabled = false) → exec (.alarmClear tag [code, scope]) s = .next (t.replied req rest 0 [])) ∧
      (caused → s.link.alarm.enabled = true → s.link.alarm.timer ≠ none →
        exec (.alarmClear tag [code, scope]) s =
          .next { t with link := { s.link with alarm := { s.link.alarm with pending := true } }.answered req rest 0 [] }) ∧
      (caused → s.link.alarm.enabled = true → s.link.alarm.timer = none →
        let started : NoticeClass :=
          { s.link.alarm with timer := if s.link.alarm.interval = 0 then none else some s.link.alarm.interval }
        exec (.alarmClear tag [code, scope]) s =
          .next
            { t with
              link :=
                (if s.link.line = none then
                  { s.link with alarm := started, line := some ⟨controlFrame 0x62 0 (conditionBytes cs), false⟩ }
                 else
                  { s.link with alarm := started, slots := { s.link.slots with alarm := some (conditionBytes cs) } }).answered
                  req rest 0 [] })
    (code = 0xFF → removal (fun e => !e.active)) ∧
    (code ≠ 0xFF →
      ((∀ (c : Code) (sc : Scope), [code, scope] ≠ [BitVec.ofNat 8 c.number, BitVec.ofNat 8 sc.code] ∨ sc ∉ c.scopes) →
        exec (.alarmClear tag [code, scope]) s = .next (s.replied req rest 3 [])) ∧
      ∀ (c : Code) (sc : Scope), [code, scope] = [BitVec.ofNat 8 c.number, BitVec.ofNat 8 sc.code] → sc ∈ c.scopes →
        ((∀ e ∈ s.supervision.conditions, ¬ (e.code = c ∧ e.scope = sc)) →
          exec (.alarmClear tag [code, scope]) s = .next (s.replied req rest 9 [])) ∧
        ∀ e ∈ s.supervision.conditions, e.code = c → e.scope = sc →
          (e.active = true → exec (.alarmClear tag [code, scope]) s = .next (s.replied req rest 8 [])) ∧
          (e.active = false → removal (fun x => decide (x.code = c ∧ x.scope = sc))))

/-! ### Invariants -/

/-- The state after a hard reset meets every invariant. -/
def Obligations.ResetMeetsTheInvariants : Prop :=
  State.reset.Driven ∧ State.reset.Ranged ∧ State.reset.Queued ∧ State.reset.Paired ∧ State.reset.Stored ∧ State.reset.Tabled

/-- Every step keeps the lines, latches, timers and the sample timer as the mode has them (R122, R126, R137, R153, R172). -/
def Obligations.StepKeepsWhatTheModeDrives : Prop :=
  ∀ s t : State, s.Driven → step s = .next t → t.Driven

/-- Every step keeps the queues, the framer, the notice classes and the record stack within their bounds, and nothing waits for a
free line (R158, R167, R168, R180 to R182). -/
def Obligations.StepKeepsTheQueues : Prop :=
  ∀ s t : State, s.Queued → step s = .next t → t.Queued

/-- Every step keeps the settings in their ranges with the counts that they bound (R12, R15, R17, R90, R105, R131, R145), the stream
table free of repeats with its counters (R20, R22, R42), the timer and the stores in their ranges (R27, R31, R35 to R41, R81), and
the condition table in order without repeats (R139). -/
def Obligations.StepKeepsSettingsAndStores : Prop :=
  ∀ s t : State, step s = .next t →
    (s.Ranged → t.Ranged) ∧ (s.Paired → t.Paired) ∧ (s.Stored → t.Stored) ∧ (s.Tabled → t.Tabled)
end

