-- ==== Sys2Proof/Laws/Operands.lean ====
section
/-! SUPPORT. What the readers of request payloads answer: exactly the values listed for a field (R183). -/

namespace Sys2Proof.Machine

open Sys2Proof

/-- A byte is the encoding of its value. -/
theorem byte_of_toNat {b : Byte} {n : Nat} (h : b.toNat = n) : b = BitVec.ofNat 8 n := by
  rw [← h]; simp

theorem readFlag_eq_none {b : Byte} : readFlag b = none ↔ 2 ≤ b.toNat := by
  unfold readFlag; split_ifs <;> simp <;> omega

theorem readFlag_eq_some {b : Byte} {f : Bool} : readFlag b = some f ↔ b.toNat = f.toNat := by
  unfold readFlag; cases f <;> split_ifs <;> simp_all

theorem readSlot_eq_none {b : Byte} : readSlot b = none ↔ 26 ≤ b.toNat := by
  unfold readSlot; split_ifs <;> simp <;> omega

theorem readSlot_eq_some {b : Byte} {x : Slot} : readSlot b = some x ↔ b.toNat = x.val := by
  unfold readSlot; split_ifs with h
  · simp [Fin.ext_iff]
  · simp; omega

theorem readBus_eq_none {b : Byte} : readBus b = none ↔ 4 ≤ b.toNat := by
  unfold readBus; split_ifs <;> simp <;> omega

theorem readBus_eq_some {b : Byte} {x : Bus} : readBus b = some x ↔ b.toNat = x.val := by
  unfold readBus; split_ifs with h
  · simp [Fin.ext_iff]
  · simp; omega

theorem readAdmit_eq_none {b : Byte} : readAdmit b = none ↔ 3 ≤ b.toNat := by
  unfold readAdmit; split_ifs <;> simp <;> omega

theorem readAdmit_eq_some {b : Byte} {a : Admit} : readAdmit b = some a ↔ b.toNat = a.code := by
  unfold readAdmit; cases a <;> split_ifs <;> simp_all [Admit.code]

theorem readForced_eq_none {b : Byte} : readForced b = none ↔ 3 ≤ b.toNat := by
  unfold readForced; split_ifs <;> simp <;> omega

theorem readForced_eq_some {b : Byte} {v : Forced} : readForced b = some v ↔ b.toNat = v.code := by
  unfold readForced; cases v <;> split_ifs <;> simp_all [Forced.code]

theorem readLevel_eq_none {b : Byte} : readLevel b = none ↔ 4 ≤ b.toNat := by
  unfold readLevel; split_ifs <;> simp <;> omega

theorem readLevel_eq_some {b : Byte} {l : Level} : readLevel b = some l ↔ b.toNat = l.code := by
  unfold readLevel; cases l <;> split_ifs <;> simp_all [Level.code]

theorem readCode_eq_none {b : Byte} : readCode b = none ↔ b.toNat = 0 ∨ 10 ≤ b.toNat := by
  revert b; decide

theorem readCode_eq_some {b : Byte} {c : Code} : readCode b = some c ↔ b.toNat = c.number := by
  cases c <;> (revert b; decide)

theorem readSections_eq_some {b : Byte} {n : SectionCount} : readSections b = some n ↔ b.toNat = n.number := by
  unfold readSections; cases n <;> split_ifs <;> simp_all [SectionCount.number]

theorem readFrequency_eq_some {b : Byte} {f : Frequency} : readFrequency b = some f ↔ b.toNat = f.number := by
  unfold readFrequency; cases f <;> split_ifs <;> simp_all [Frequency.number]

theorem readPolarity_eq_some {b : Byte} {p : Polarity} : readPolarity b = some p ↔ b.toNat = p.code := by
  unfold readPolarity; cases p <;> split_ifs <;> simp_all [Polarity.code]

theorem readSide_eq_some {b : Byte} {k : Side} : readSide b = some k ↔ b.toNat = k.code := by
  unfold readSide; cases k <;> split_ifs <;> simp_all [Side.code]

theorem readJunction_eq_some {b : Byte} {j : Junction} : readJunction b = some j ↔ b.toNat = j.code := by
  unfold readJunction; cases j <;> split_ifs <;> simp_all [Junction.code]

theorem readSelector_eq_none {b : Byte} : readSelector b = none ↔ 4 ≤ b.toNat ∧ b ≠ 0xFF := by
  unfold readSelector
  split_ifs with h
  · have := byte_of_toNat h
    subst this
    simp
  · rw [Option.map_eq_none_iff, readBus_eq_none]
    exact ⟨fun h1 => ⟨h1, fun h2 => h (by rw [h2]; rfl)⟩, fun h1 => h1.1⟩

/-- A selector that is read names the sections its byte says. -/
theorem readSelector_some {b : Byte} (h : b.toNat < 4 ∨ b = 0xFF) :
    ∃ x, readSelector b = some x ∧ (x = .all ↔ b = 0xFF) ∧
      ∀ k : Bus, x.names k = true ↔ (b = 0xFF ∨ b.toNat = k.val) := by
  by_cases h1 : b = 0xFF
  · subst h1
    exact ⟨.all, rfl, by simp, fun k => by simp [Selector.names]⟩
  · have h2 : b.toNat < 4 := h.resolve_right h1
    refine ⟨.one ⟨b.toNat, h2⟩, ?_, by simpa using h1, fun k => ?_⟩
    · unfold readSelector
      rw [if_neg (fun hh => h1 (byte_of_toNat hh)), (readBus_eq_some (x := ⟨b.toNat, h2⟩)).mpr rfl]
      rfl
    · unfold Selector.names
      rw [decide_eq_true_iff, Fin.ext_iff]
      exact ⟨.inr, fun h => h.resolve_left h1⟩

/-- An item that has no index is read with index 0 alone. -/
theorem plain_eq_some {index : Byte} {i j : BankItem} :
    (if index.toNat = 0 then some i else none) = some j ↔ i = j ∧ index = 0 := by
  constructor
  · intro h; split_ifs at h with h0; exact ⟨Option.some.inj h, byte_of_toNat h0⟩
  · rintro ⟨rfl, rfl⟩; rfl

/-- The index of RELEASE_MODE is a section. -/
theorem release_eq_some {index : Byte} {i : BankItem} :
    (readBus index).map BankItem.releaseMode = some i ↔ ∃ b : Bus, i = .releaseMode b ∧ index = BitVec.ofNat 8 b.val := by
  rw [Option.map_eq_some_iff]
  constructor
  · rintro ⟨c, hc, rfl⟩; exact ⟨c, rfl, byte_of_toNat (readBus_eq_some.mp hc)⟩
  · rintro ⟨b, rfl, rfl⟩; exact ⟨b, readBus_eq_some.mpr (by simp; omega), rfl⟩

/-- The index of BF_CURRENT and BF_SETS is a bay slot. -/
theorem perSlot_eq_some {index : Byte} {f : Slot → BankItem} {i : BankItem} :
    (readSlot index).map f = some i ↔ ∃ b : Slot, i = f b ∧ index = BitVec.ofNat 8 b.val := by
  rw [Option.map_eq_some_iff]
  constructor
  · rintro ⟨c, hc, rfl⟩; exact ⟨c, rfl, byte_of_toNat (readSlot_eq_some.mp hc)⟩
  · rintro ⟨b, rfl, rfl⟩; exact ⟨b, readSlot_eq_some.mpr (by simp; omega), rfl⟩

/-- No item has a number of 0 or above 18. -/
theorem readItem_eq_none {item index : Byte} (h : item.toNat = 0 ∨ 19 ≤ item.toNat) : readItem item index = none := by
  dsimp only [readItem]
  iterate 18 rw [if_neg (by omega)]

/-- An item number and an index name exactly the item whose bytes they are. -/
theorem readItem_eq_some {item index : Byte} {i : BankItem} : readItem item index = some i ↔ i.bytes = [item, index] := by
  by_cases hlow : item.toNat = 0 ∨ 19 ≤ item.toNat
  · rw [readItem_eq_none hlow]
    constructor
    · intro h; cases h
    · intro h
      have : item.toNat = (i.bytes.headD 0).toNat := by rw [h]; rfl
      cases i <;> simp [BankItem.bytes] at this <;> omega
  · obtain ⟨n, hn, h1, rfl⟩ : ∃ n, n < 19 ∧ 0 < n ∧ item = BitVec.ofNat 8 n :=
      ⟨item.toNat, by omega, by omega, byte_of_toNat rfl⟩
    clear hlow
    interval_cases n
    all_goals first
      | (refine Iff.trans (b := _ = i ∧ index = 0) plain_eq_some ?_
         constructor
         · rintro ⟨rfl, rfl⟩; rfl
         · intro h
           cases i <;> simp_all [BankItem.bytes, u8])
      | (refine Iff.trans (b := ∃ b : Bus, i = .releaseMode b ∧ index = BitVec.ofNat 8 b.val) release_eq_some ?_
         constructor
         · rintro ⟨b, rfl, rfl⟩; rfl
         · intro h
           cases i <;> simp_all [BankItem.bytes, u8])
      | (refine Iff.trans (b := ∃ b : Slot, i = _ ∧ index = BitVec.ofNat 8 b.val) perSlot_eq_some ?_
         constructor
         · rintro ⟨b, rfl, rfl⟩; rfl
         · intro h
           cases i <;> simp_all [BankItem.bytes, u8])

/-! ### Fields of several bytes -/

theorem natOfBytes_two (a b : Byte) : natOfBytes [a, b] = a.toNat * 256 + b.toNat := by
  simp [natOfBytes]

theorem natOfBytes_four (a b c d : Byte) :
    natOfBytes [a, b, c, d] = ((a.toNat * 256 + b.toNat) * 256 + c.toNat) * 256 + d.toNat := by
  simp [natOfBytes]

theorem u16_length (n : Nat) : (u16 n).length = 2 := rfl

theorem u32_length (n : Nat) : (u32 n).length = 4 := rfl

/-- Two bytes are the field of their value. -/
theorem u16_natOfBytes (a b : Byte) : u16 (natOfBytes [a, b]) = [a, b] := by
  have ha := a.isLt
  have hb := b.isLt
  rw [natOfBytes_two]
  simp only [u16, List.cons.injEq, and_true]
  constructor <;> apply BitVec.eq_of_toNat_eq <;> simp <;> omega

theorem natOfBytes_u16 {n : Nat} (h : n < 65536) : natOfBytes (u16 n) = n := by
  simp only [u16, natOfBytes_two, BitVec.toNat_ofNat]
  omega

/-- Four bytes are the field of their value. -/
theorem u32_natOfBytes (a b c d : Byte) : u32 (natOfBytes [a, b, c, d]) = [a, b, c, d] := by
  have ha := a.isLt
  have hb := b.isLt
  have hc := c.isLt
  have hd := d.isLt
  rw [natOfBytes_four]
  simp only [u32, List.cons.injEq, and_true]
  refine ⟨?_, ?_, ?_, ?_⟩ <;> apply BitVec.eq_of_toNat_eq <;> simp <;> omega

theorem natOfBytes_u32 {n : Nat} (h : n < 4294967296) : natOfBytes (u32 n) = n := by
  simp only [u32, natOfBytes_four, BitVec.toNat_ofNat]
  omega

/-! ### Records of the bay table and entries of the stream table -/

/-- The kind fields that are read are those of the kind (R5, R6, R184). -/
theorem readKind_eq_some {kind side junction ct : Byte} {k : BayKind} :
    readKind kind side junction ct = some k ↔
      [kind, side, junction, ct] =
        match k with
        | .unused => u8 0 ++ u8 absentByte ++ u8 absentByte ++ u8 absentByte
        | .feeder x => u8 1 ++ u8 x.code ++ u8 absentByte ++ u8 absentByte
        | .junction j c => u8 2 ++ u8 absentByte ++ u8 j.code ++ u8 (j.ct c).val := by
  have hb : ∀ (b : Byte) (n : Nat), n < 256 → (b.toNat = n ↔ b = BitVec.ofNat 8 n) := fun b n hn =>
    ⟨byte_of_toNat, fun h => by rw [h]; simp; omega⟩
  constructor
  · intro h
    unfold readKind at h
    split_ifs at h with h1 h2 h3 h4 h5 h6
    · cases h
      obtain ⟨ha, hj, hc⟩ := h2
      simp [u8, byte_of_toNat h1, byte_of_toNat ha, byte_of_toNat hj, byte_of_toNat hc]
    · rw [Option.map_eq_some_iff] at h
      obtain ⟨x, hx, rfl⟩ := h
      simp [u8, byte_of_toNat h3, byte_of_toNat h4.1, byte_of_toNat h4.2, byte_of_toNat (readSide_eq_some.mp hx)]
    · cases hj : readJunction junction with
      | none => rw [hj] at h; cases h
      | some j =>
        rw [hj] at h
        simp only at h
        split_ifs at h with h7 h8 <;> cases h
        · simp [u8, byte_of_toNat h5, byte_of_toNat h6, byte_of_toNat (readJunction_eq_some.mp hj), byte_of_toNat h7, Junction.ct]
        · simp [u8, byte_of_toNat h5, byte_of_toNat h6, byte_of_toNat (readJunction_eq_some.mp hj), byte_of_toNat h8, Junction.ct]
  · intro h
    rcases k with _ | x | ⟨j, c⟩
    · simp only [u8, absentByte, List.cons_append, List.nil_append, List.cons.injEq, and_true] at h
      obtain ⟨rfl, rfl, rfl, rfl⟩ := h
      rfl
    · simp only [u8, absentByte, List.cons_append, List.nil_append, List.cons.injEq, and_true] at h
      obtain ⟨rfl, rfl, rfl, rfl⟩ := h
      cases x <;> rfl
    · simp only [u8, absentByte, List.cons_append, List.nil_append, List.cons.injEq, and_true] at h
      obtain ⟨rfl, rfl, rfl, rfl⟩ := h
      cases j <;> cases c <;> rfl

/-- The fields of BAY-SET that are read are those of the record (R5, R6, R184). -/
theorem readRecord_eq_some {kind side junction ct polarity r1 r0 : Byte} {r : BayRecord} (b : Slot) :
    readRecord kind side junction ct polarity r1 r0 = some r ↔
      recordFields b r = [BitVec.ofNat 8 b.val, kind, side, junction, ct, polarity, r1, r0] ∧ 1024 ≤ r.ratio ∧ r.ratio ≤ 65535 := by
  obtain ⟨k, p, n⟩ := r
  have hk := @readKind_eq_some kind side junction ct
  have hp := @readPolarity_eq_some polarity
  unfold readRecord
  constructor
  · intro h
    cases hk' : readKind kind side junction ct with
    | none => rw [hk'] at h; cases h
    | some k' =>
      cases hp' : readPolarity polarity with
      | none => rw [hk', hp'] at h; cases h
      | some p' =>
        rw [hk', hp'] at h
        simp only at h
        split_ifs at h with hn
        injection h with h
        injection h with e1 e2 e3
        subst e1 e2
        have e4 := hk.mp hk'
        have e5 := byte_of_toNat (hp.mp hp')
        have e6 := u16_natOfBytes r1 r0
        have hlt : natOfBytes [r1, r0] ≤ 65535 := by
          have := r1.isLt
          have := r0.isLt
          rw [natOfBytes_two]
          omega
        rw [e3] at e6 hn hlt
        refine ⟨?_, hn, hlt⟩
        rcases k' with _ | x | ⟨j, c⟩ <;>
          (simp only [recordFields, u8, List.cons_append, List.nil_append, List.cons.injEq, and_true] at e4 ⊢
           rw [e6, e5]
           simp [e4])
  · rintro ⟨h, h1, h2⟩
    simp only at h1 h2
    have hlen : ∃ a c, u16 n = [a, c] := ⟨_, _, rfl⟩
    obtain ⟨a, c, hac⟩ := hlen
    have hfields : readKind kind side junction ct = some k ∧ polarity = BitVec.ofNat 8 p.code ∧ a = r1 ∧ c = r0 := by
      rw [hk]
      rcases k with _ | x | ⟨j, c⟩ <;>
        (simp only [recordFields, u8, List.cons_append, List.nil_append, List.cons.injEq, hac, and_true, true_and] at h ⊢
         obtain ⟨e1, e2, e3, e4, e5, e6, e7⟩ := h
         subst e1 e2 e3 e4 e5 e6 e7
         simp)
    obtain ⟨hk', hp', rfl, rfl⟩ := hfields
    have hp'' : readPolarity polarity = some p := by rw [hp, hp']; cases p <;> rfl
    have hn : natOfBytes [a, c] = n := by rw [← hac]; exact natOfBytes_u16 (by omega)
    rw [hk', hp'', hn]
    simp [h1]

end Sys2Proof.Machine
end

