-- ==== Sys2Proof/Laws/Ops.lean ====
section
/-! SUPPORT. What the shared operations of the control link can do: a reply goes out, a request is answered, a request is served or
waits. -/

namespace Sys2Proof.Machine

open Sys2Proof

/-! ### Transmitter and replies -/

/-- A busy line is left alone. -/
theorem ControlLink.kick_busy {l : ControlLink} (h : l.line ≠ none) : l.kick = l := by
  unfold ControlLink.kick
  cases hl : l.line with
  | none => exact absurd hl h
  | some f => rfl

/-- A reply that is not of a RESTART, placed on a settled link, takes the free line or waits behind the others. -/
theorem ControlLink.placeReply_settled {l : ControlLink} (h : l.Settled) (r : Reply) (hr : r.ofRestart = false) :
    l.placeReply r = l.withReply r.kind r.tag r.payload := by
  obtain ⟨rk, rt, rp, rr⟩ := r
  obtain ⟨fr, rq, fl, rs, ln, e1, e2, e3, sl, al, tp⟩ := l
  subst hr
  cases ln with
  | some f => rfl
  | none =>
    obtain ⟨hrs, hsl⟩ := h rfl
    simp only at hrs hsl
    subst hrs hsl
    rfl

/-- The head request of a settled link is answered. -/
theorem ControlLink.answerHead_settled {l : ControlLink} {req : Request} {rest : List Request} (h : l.Settled)
    (hq : l.requests = req :: rest) (st : Status) (data : List Byte) :
    l.answerHead st data = l.answered req rest st.code data := by
  unfold ControlLink.answerHead
  rw [hq]
  exact ControlLink.placeReply_settled (l := { l with requests := rest, flight := none }) h (req.reply st data) rfl

/-! ### Moderation at a nominal set instant -/

/-- A class makes a notice at a nominal instant exactly when it is due. -/
theorem NoticeClass.instant_made (c : NoticeClass) : c.instant.2 = true ↔ c.Due := by
  obtain ⟨e, i, t, p⟩ := c
  rcases t with - | k
  · simp [NoticeClass.instant, NoticeClass.Due]
  · by_cases hk : k ≤ 1 <;> cases p <;> simp [NoticeClass.instant, NoticeClass.Due, hk]

/-- A class steps at a nominal instant as R180 says. -/
theorem NoticeClass.instant_stepped (c : NoticeClass) : c.SteppedTo c.instant.1 := by
  obtain ⟨e, i, t, p⟩ := c
  rcases t with - | k
  · exact ⟨fun _ => rfl, nofun⟩
  · refine ⟨nofun, fun j h => ?_⟩
    cases h
    by_cases hk : k ≤ 1 <;> cases p <;> by_cases hi : i = 0 <;>
      simp [NoticeClass.instant, hk, hi]

/-- All that a nominal instant does to a settled link. -/
theorem ControlLink.moderate_settled {l : ControlLink} (h : l.Settled) (alarm topology : List Byte) :
    l.SteppedTo alarm topology (l.moderate alarm topology) := by
  have ha := l.alarm.instant_made
  have hta := l.alarm.instant_stepped
  have hb := l.topology.instant_made
  have htb := l.topology.instant_stepped
  obtain ⟨fr, rq, fl, rs, ln, e1, e2, e3, sl, al, tp⟩ := l
  simp only at ha hta hb htb
  unfold ControlLink.moderate
  generalize al.instant = A at *
  generalize tp.instant = B at *
  obtain ⟨a, a'⟩ := A
  obtain ⟨b, b'⟩ := B
  cases ln with
  | some f => constructor <;> cases a' <;> cases b' <;> simp_all [ControlLink.kick]
  | none =>
    obtain ⟨hrs, hsl⟩ := h rfl
    simp only at hrs hsl
    subst hrs hsl
    constructor <;> cases a' <;> cases b' <;>
      simp_all [ControlLink.kick, ControlLink.takeNext, ControlLink.haltReady, NoticeSlots.empty, noticeFrame]

/-- A settled link stays settled at a nominal instant. -/
theorem ControlLink.moderate_stays_settled {l : ControlLink} (h : l.Settled) (alarm topology : List Byte) :
    (l.moderate alarm topology).Settled := by
  intro hm
  have hs := ControlLink.moderate_settled h alarm topology
  cases hl : l.line with
  | some f => simp [hs.line (Or.inl (by simp [hl])), hl] at hm
  | none =>
    have hb : ¬ l.topology.Due := fun hd => by simp [(hs.topologyTaken hd hl).2] at hm
    have ha : ¬ l.alarm.Due := fun hd => by simp [(hs.alarmTaken hd hl hb).2] at hm
    obtain ⟨hr, hsl⟩ := h hl
    rw [hs.others, hs.alarmSlot ha, hs.topologySlot hb]
    exact ⟨hr, hsl⟩

/-! ### Service -/

/-- The state in which a request whose turn it is stands at the head. -/
theorem State.atHead_turn {s : State} {req : Request} {rest : List Request} (h : s.Turn req rest) :
    s.atHead req = some (s.fronted req rest) := by
  unfold State.atHead
  rcases h with hq | ⟨hq, rfl, hf⟩
  · rw [hq]
    simp only [if_true, State.fronted]
    rw [← hq]
  · rw [hq, hf]
    simp [ControlLink.offer, hq, Config.queueMax, State.fronted]

@[simp] theorem State.fronted_pending (req : Request) (rest : List Request) (s : State) :
    (s.fronted req rest).pending = s.pending := rfl
@[simp] theorem State.fronted_mode (req : Request) (rest : List Request) (s : State) :
    (s.fronted req rest).mode = s.mode := rfl
@[simp] theorem State.fronted_lines (req : Request) (rest : List Request) (s : State) :
    (s.fronted req rest).lines = s.lines := rfl
@[simp] theorem State.fronted_rate (req : Request) (rest : List Request) (s : State) :
    (s.fronted req rest).rate = s.rate := rfl
@[simp] theorem State.fronted_timer (req : Request) (rest : List Request) (s : State) :
    (s.fronted req rest).timer = s.timer := rfl
@[simp] theorem State.fronted_yard (req : Request) (rest : List Request) (s : State) :
    (s.fronted req rest).yard = s.yard := rfl
@[simp] theorem State.fronted_bays (req : Request) (rest : List Request) (s : State) :
    (s.fronted req rest).bays = s.bays := rfl
@[simp] theorem State.fronted_active (req : Request) (rest : List Request) (s : State) :
    (s.fronted req rest).active = s.active := rfl
@[simp] theorem State.fronted_edit (req : Request) (rest : List Request) (s : State) :
    (s.fronted req rest).edit = s.edit := rfl
@[simp] theorem State.fronted_ports (req : Request) (rest : List Request) (s : State) :
    (s.fronted req rest).ports = s.ports := rfl
@[simp] theorem State.fronted_streams (req : Request) (rest : List Request) (s : State) :
    (s.fronted req rest).streams = s.streams := rfl
@[simp] theorem State.fronted_store (req : Request) (rest : List Request) (s : State) :
    (s.fronted req rest).store = s.store := rfl
@[simp] theorem State.fronted_published (req : Request) (rest : List Request) (s : State) :
    (s.fronted req rest).published = s.published := rfl
@[simp] theorem State.fronted_replica (req : Request) (rest : List Request) (s : State) :
    (s.fronted req rest).replica = s.replica := rfl
@[simp] theorem State.fronted_topology (req : Request) (rest : List Request) (s : State) :
    (s.fronted req rest).topology = s.topology := rfl
@[simp] theorem State.fronted_evaluator (req : Request) (rest : List Request) (s : State) :
    (s.fronted req rest).evaluator = s.evaluator := rfl
@[simp] theorem State.fronted_detectors (req : Request) (rest : List Request) (s : State) :
    (s.fronted req rest).detectors = s.detectors := rfl
@[simp] theorem State.fronted_supervision (req : Request) (rest : List Request) (s : State) :
    (s.fronted req rest).supervision = s.supervision := rfl
@[simp] theorem State.fronted_trip (req : Request) (rest : List Request) (s : State) :
    (s.fronted req rest).trip = s.trip := rfl
@[simp] theorem State.fronted_bf (req : Request) (rest : List Request) (s : State) :
    (s.fronted req rest).bf = s.bf := rfl
@[simp] theorem State.fronted_records (req : Request) (rest : List Request) (s : State) :
    (s.fronted req rest).records = s.records := rfl
@[simp] theorem State.fronted_link (req : Request) (rest : List Request) (s : State) :
    (s.fronted req rest).link = { s.link with requests := req :: rest } := rfl

/-- Out of its turn a request's row changes nothing. -/
theorem serve_out_of_turn {s : State} {req : Request} (h : ∀ q, ¬ s.Turn req q) (own : List Byte → State → Service) :
    serve req own s = s := by
  unfold serve State.atHead
  cases hq : s.link.requests with
  | nil =>
    cases hf : s.link.framer with
    | hunt => exact absurd (Or.inr ⟨hq, rfl, hf⟩) (h [])
    | header got => rfl
    | body got => rfl
  | cons r q =>
    by_cases hr : r = req
    · exact absurd (Or.inl (by rw [hq, hr])) (h q)
    · simp [hr]

theorem State.canServe_iff {s : State} : s.canServe = true ↔ s.Free := by
  unfold State.canServe State.Free
  rw [Bool.and_eq_true, Bool.and_eq_true, decide_eq_true_iff, Option.isNone_iff_eq_none, Option.isNone_iff_eq_none, and_assoc]
  rfl

/-- A request whose turn it is stands at the head; it is served when it can be, else it waits there. -/
theorem serve_turn {s : State} {req : Request} {rest : List Request} (h : s.Turn req rest)
    (own : List Byte → State → Service) :
    serve req own s =
      if (s.fronted req rest).canServe then
        finishService req (s.fronted req rest) (commonChecks req own (s.fronted req rest))
      else s.fronted req rest := by
  unfold serve
  rw [State.atHead_turn h]

/-- A request that cannot be served waits at the head. -/
theorem serve_waits {s : State} {req : Request} {rest : List Request} (h : s.Turn req rest) (hf : ¬ s.Free)
    (own : List Byte → State → Service) :
    serve req own s = s.fronted req rest := by
  rw [serve_turn h]
  have : (s.fronted req rest).canServe = false := by
    cases hc : (s.fronted req rest).canServe with
    | false => rfl
    | true => exact absurd (State.canServe_iff.mp hc) hf
  simp [this]

/-- A request that is served meets the common checks and its own rule, standing at the head. -/
theorem serve_served {s : State} {req : Request} {rest : List Request} (h : s.Served req rest)
    (own : List Byte → State → Service) :
    serve req own s =
      finishService req (s.fronted req rest)
        (commonChecks req own (s.fronted req rest)) := by
  rw [serve_turn h.2.1]
  have : (s.fronted req rest).canServe = true := State.canServe_iff.mpr h.2.2
  simp only [this, if_true]

/-- A refusal changes the control link alone. -/
theorem serve_refuse {s : State} {req : Request} {rest : List Request} {own : List Byte → State → Service} {st : Status}
    {detail : List Byte} (h : s.Served req rest)
    (hc : commonChecks req own (s.fronted req rest) = .refuse st detail) :
    serve req own s = s.replied req rest st.code detail := by
  rw [serve_served h, hc]
  simp only [finishService, State.replied]
  rw [ControlLink.answerHead_settled (l := (s.fronted req rest).link) h.1 rfl]
  rfl

/-- A request done leaves the state of its own rule, with its reply placed. -/
theorem serve_done {s t : State} {req : Request} {rest : List Request} {own : List Byte → State → Service}
    {data : List Byte} (h : s.Served req rest)
    (hc : commonChecks req own (s.fronted req rest) = .done t data)
    (ht : t.link.Settled) (hq : t.link.requests = req :: rest) :
    serve req own s = { t with link := t.link.answered req rest 0 data } := by
  rw [serve_served h, hc]
  simp only [finishService]
  rw [ControlLink.answerHead_settled ht hq]
  rfl

/-- A request that waits for an event stays at the head in flight. -/
theorem serve_hold {s : State} {req : Request} {rest : List Request} {own : List Byte → State → Service} {f : Flight}
    (h : s.Served req rest)
    (hc : commonChecks req own (s.fronted req rest) = .hold f) :
    serve req own s = { s with link := s.link.inFlight req rest f } := by
  rw [serve_served h, hc]
  rfl

/-- The common checks passed, a request's own rule decides. -/
theorem commonChecks_pass {s : State} {req : Request} (row : RequestRow) (own : List Byte → State → Service)
    (hrow : requestRow req.kind = some row) (hlen : req.payload.length = row.length)
    (hmode : s.mode ≠ .halted ∨ row.inHalted = true) : commonChecks req own s = own req.payload s := by
  unfold commonChecks
  rw [hrow]
  rcases hmode with h | h <;> simp [hlen, h]

/-- A request that is served, with its KIND, its length and the mode as its row has them, is decided by its own rule. -/
theorem serve_own {s : State} {req : Request} {rest : List Request} (row : RequestRow) (own : List Byte → State → Service)
    (h : s.Served req rest) (hrow : requestRow req.kind = some row) (hlen : req.payload.length = row.length)
    (hmode : s.mode ≠ .halted ∨ row.inHalted = true) :
    serve req own s = finishService req (s.fronted req rest) (own req.payload (s.fronted req rest)) := by
  rw [serve_served h, commonChecks_pass (s := s.fronted req rest) row own hrow hlen hmode]

/-- A request that its own rule refuses changes the control link alone. -/
theorem serve_own_refuse {s : State} {req : Request} {rest : List Request} (row : RequestRow)
    {own : List Byte → State → Service} {st : Status} {detail : List Byte} (h : s.Served req rest)
    (hrow : requestRow req.kind = some row) (hlen : req.payload.length = row.length)
    (hmode : s.mode ≠ .halted ∨ row.inHalted = true) (ho : own req.payload (s.fronted req rest) = .refuse st detail) :
    serve req own s = s.replied req rest st.code detail :=
  serve_refuse h ((commonChecks_pass (s := s.fronted req rest) row own hrow hlen hmode).trans ho)

/-- A request that only reads changes the control link alone. -/
theorem serve_own_read {s : State} {req : Request} {rest : List Request} (row : RequestRow)
    {own : List Byte → State → Service} {data : List Byte} (h : s.Served req rest)
    (hrow : requestRow req.kind = some row) (hlen : req.payload.length = row.length)
    (hmode : s.mode ≠ .halted ∨ row.inHalted = true)
    (ho : own req.payload (s.fronted req rest) = .done (s.fronted req rest) data) :
    serve req own s = s.replied req rest 0 data :=
  serve_done (t := s.fronted req rest) h ((commonChecks_pass (s := s.fronted req rest) row own hrow hlen hmode).trans ho) h.1 rfl

/-- A request that writes leaves what its own rule wrote, with its reply placed. -/
theorem serve_own_write {s t : State} {req : Request} {rest : List Request} (row : RequestRow)
    {own : List Byte → State → Service} {data : List Byte} (h : s.Served req rest)
    (hrow : requestRow req.kind = some row) (hlen : req.payload.length = row.length)
    (hmode : s.mode ≠ .halted ∨ row.inHalted = true)
    (ho : own req.payload (s.fronted req rest) = .done t data) (ht : t.link = (s.fronted req rest).link) :
    serve req own s = { t with link := s.link.answered req rest 0 data } := by
  rw [serve_done h ((commonChecks_pass (s := s.fronted req rest) row own hrow hlen hmode).trans ho) (ht ▸ h.1) (ht ▸ rfl), ht]
  rfl

/-- A request that waits for an event stays at the head in flight. -/
theorem serve_own_hold {s : State} {req : Request} {rest : List Request} (row : RequestRow)
    {own : List Byte → State → Service} {f : Flight} (h : s.Served req rest)
    (hrow : requestRow req.kind = some row) (hlen : req.payload.length = row.length)
    (hmode : s.mode ≠ .halted ∨ row.inHalted = true) (ho : own req.payload (s.fronted req rest) = .hold f) :
    serve req own s = { s with link := s.link.inFlight req rest f } :=
  serve_hold h ((commonChecks_pass (s := s.fronted req rest) row own hrow hlen hmode).trans ho)

end Sys2Proof.Machine
end

