-- ==== Sys2Proof/Laws/PerInstr.lean ====
section
/-! SUPPORT. One law for each command, about the command as syntax: the frame by which a request reaches the control link says
how long its payload is (R183). -/

namespace Sys2Proof.Laws

open Sys2Proof Sys2Proof.Machine

/-- The two bytes of LEN read back as the length that they were made from. -/
theorem natOfBytes_u16 {n : Nat} (h : n < 65536) : natOfBytes (u16 n) = n := by
  simp only [natOfBytes, u16, List.foldl_cons, List.foldl_nil, BitVec.toNat_ofNat]
  omega

/-- A request as a frame (R183): one byte of SYNC, LEN, KIND, TAG, the payload and two bytes of CRC; LEN reads as the payload's
length, and that is at most 1,024. -/
def FrameSpellsRequest.Statement (i : Instr) : Prop :=
  ∀ req, askedBy i = some req → i.wf = true →
    (controlFrame req.kind req.tag req.payload).length = req.payload.length + 7 ∧
      natOfBytes (((controlFrame req.kind req.tag req.payload).drop 1).take 2) = req.payload.length ∧
      req.payload.length ≤ 1024

/-- The frame of any request whose payload fits. -/
theorem frame_spells {req : Request} (h : payloadFits req.payload = true) :
    (controlFrame req.kind req.tag req.payload).length = req.payload.length + 7 ∧
      natOfBytes (((controlFrame req.kind req.tag req.payload).drop 1).take 2) = req.payload.length ∧
      req.payload.length ≤ 1024 := by
  have hl : req.payload.length ≤ 1024 := of_decide_eq_true h
  refine ⟨?_, natOfBytes_u16 (by omega), hl⟩
  simp [controlFrame, u16]

theorem FrameSpellsRequest.hardReset (rate1 rate0 : Bool) :
    FrameSpellsRequest.Statement (.hardReset rate1 rate0) := fun _ h _ => nomatch h

theorem FrameSpellsRequest.refclkAbsent (moment : ClockReport) :
    FrameSpellsRequest.Statement (.refclkAbsent moment) := fun _ h _ => nomatch h

theorem FrameSpellsRequest.setInstant :
    FrameSpellsRequest.Statement .setInstant := fun _ h _ => nomatch h

theorem FrameSpellsRequest.sampleCountWrap :
    FrameSpellsRequest.Statement .sampleCountWrap := fun _ h _ => nomatch h

theorem FrameSpellsRequest.linkDown (port : Port) :
    FrameSpellsRequest.Statement (.linkDown port) := fun _ h _ => nomatch h

theorem FrameSpellsRequest.portFrameReceived (port : Port) (frame : List Byte) :
    FrameSpellsRequest.Statement (.portFrameReceived port frame) := fun _ h _ => nomatch h

theorem FrameSpellsRequest.tripFrameSent (port : Port) :
    FrameSpellsRequest.Statement (.tripFrameSent port) := fun _ h _ => nomatch h

theorem FrameSpellsRequest.setClose (upsets : List Upset) :
    FrameSpellsRequest.Statement (.setClose upsets) := fun _ h _ => nomatch h

theorem FrameSpellsRequest.evaluateSet (upsets : List Upset) :
    FrameSpellsRequest.Statement (.evaluateSet upsets) := fun _ h _ => nomatch h

theorem FrameSpellsRequest.externalHoldExpiry (detector : DetectorName) :
    FrameSpellsRequest.Statement (.externalHoldExpiry detector) := fun _ h _ => nomatch h

theorem FrameSpellsRequest.bfTimerExpiry (slot : Slot) :
    FrameSpellsRequest.Statement (.bfTimerExpiry slot) := fun _ h _ => nomatch h

theorem FrameSpellsRequest.moderationTimerExpiry (cls : Moderated) :
    FrameSpellsRequest.Statement (.moderationTimerExpiry cls) := fun _ h _ => nomatch h

theorem FrameSpellsRequest.controlByteReceived (byte : Byte) (inError : Bool) :
    FrameSpellsRequest.Statement (.controlByteReceived byte inError) := fun _ h _ => nomatch h

theorem FrameSpellsRequest.gapTimeout :
    FrameSpellsRequest.Statement .gapTimeout := fun _ h _ => nomatch h

theorem FrameSpellsRequest.frameTransmitted :
    FrameSpellsRequest.Statement .frameTransmitted := fun _ h _ => nomatch h

theorem FrameSpellsRequest.unknownKindRequest (kind tag : Byte) (payload : List Byte) :
    FrameSpellsRequest.Statement (.unknownKindRequest kind tag payload) :=
  fun _ h w => Option.some.inj h ▸ frame_spells (Bool.and_eq_true_iff.mp w).2

theorem FrameSpellsRequest.ident (tag : Byte) (payload : List Byte) :
    FrameSpellsRequest.Statement (.ident tag payload) :=
  fun _ h w => Option.some.inj h ▸ frame_spells w

theorem FrameSpellsRequest.mode (tag : Byte) (payload : List Byte) :
    FrameSpellsRequest.Statement (.mode tag payload) :=
  fun _ h w => Option.some.inj h ▸ frame_spells w

theorem FrameSpellsRequest.restart (tag : Byte) (payload : List Byte) :
    FrameSpellsRequest.Statement (.restart tag payload) :=
  fun _ h w => Option.some.inj h ▸ frame_spells w

theorem FrameSpellsRequest.restartMade :
    FrameSpellsRequest.Statement .restartMade := fun _ h _ => nomatch h

theorem FrameSpellsRequest.streamSet (tag : Byte) (payload : List Byte) :
    FrameSpellsRequest.Statement (.streamSet tag payload) :=
  fun _ h w => Option.some.inj h ▸ frame_spells w

theorem FrameSpellsRequest.streamDrop (tag : Byte) (payload : List Byte) :
    FrameSpellsRequest.Statement (.streamDrop tag payload) :=
  fun _ h w => Option.some.inj h ▸ frame_spells w

theorem FrameSpellsRequest.streamList (tag : Byte) (payload : List Byte) :
    FrameSpellsRequest.Statement (.streamList tag payload) :=
  fun _ h w => Option.some.inj h ▸ frame_spells w

theorem FrameSpellsRequest.baySet (tag : Byte) (payload : List Byte) :
    FrameSpellsRequest.Statement (.baySet tag payload) :=
  fun _ h w => Option.some.inj h ▸ frame_spells w

theorem FrameSpellsRequest.bayGet (tag : Byte) (payload : List Byte) :
    FrameSpellsRequest.Statement (.bayGet tag payload) :=
  fun _ h w => Option.some.inj h ▸ frame_spells w

theorem FrameSpellsRequest.yardSet (tag : Byte) (payload : List Byte) :
    FrameSpellsRequest.Statement (.yardSet tag payload) :=
  fun _ h w => Option.some.inj h ▸ frame_spells w

theorem FrameSpellsRequest.yardGet (tag : Byte) (payload : List Byte) :
    FrameSpellsRequest.Statement (.yardGet tag payload) :=
  fun _ h w => Option.some.inj h ▸ frame_spells w

theorem FrameSpellsRequest.bankWrite (tag : Byte) (payload : List Byte) :
    FrameSpellsRequest.Statement (.bankWrite tag payload) :=
  fun _ h w => Option.some.inj h ▸ frame_spells w

theorem FrameSpellsRequest.bankRead (tag : Byte) (payload : List Byte) :
    FrameSpellsRequest.Statement (.bankRead tag payload) :=
  fun _ h w => Option.some.inj h ▸ frame_spells w

theorem FrameSpellsRequest.bankApply (tag : Byte) (payload : List Byte) :
    FrameSpellsRequest.Statement (.bankApply tag payload) :=
  fun _ h w => Option.some.inj h ▸ frame_spells w

theorem FrameSpellsRequest.responseSet (tag : Byte) (payload : List Byte) :
    FrameSpellsRequest.Statement (.responseSet tag payload) :=
  fun _ h w => Option.some.inj h ▸ frame_spells w

theorem FrameSpellsRequest.responseGet (tag : Byte) (payload : List Byte) :
    FrameSpellsRequest.Statement (.responseGet tag payload) :=
  fun _ h w => Option.some.inj h ▸ frame_spells w

theorem FrameSpellsRequest.status (tag : Byte) (payload : List Byte) :
    FrameSpellsRequest.Statement (.status tag payload) :=
  fun _ h w => Option.some.inj h ▸ frame_spells w

theorem FrameSpellsRequest.topology (tag : Byte) (payload : List Byte) :
    FrameSpellsRequest.Statement (.topology tag payload) :=
  fun _ h w => Option.some.inj h ▸ frame_spells w

theorem FrameSpellsRequest.measure (tag : Byte) (payload : List Byte) :
    FrameSpellsRequest.Statement (.measure tag payload) :=
  fun _ h w => Option.some.inj h ▸ frame_spells w

theorem FrameSpellsRequest.positions (tag : Byte) (payload : List Byte) :
    FrameSpellsRequest.Statement (.positions tag payload) :=
  fun _ h w => Option.some.inj h ▸ frame_spells w

theorem FrameSpellsRequest.counters (tag : Byte) (payload : List Byte) :
    FrameSpellsRequest.Statement (.counters tag payload) :=
  fun _ h w => Option.some.inj h ▸ frame_spells w

theorem FrameSpellsRequest.recordRead (tag : Byte) (payload : List Byte) :
    FrameSpellsRequest.Statement (.recordRead tag payload) :=
  fun _ h w => Option.some.inj h ▸ frame_spells w

theorem FrameSpellsRequest.recordDiscard (tag : Byte) (payload : List Byte) :
    FrameSpellsRequest.Statement (.recordDiscard tag payload) :=
  fun _ h w => Option.some.inj h ▸ frame_spells w

theorem FrameSpellsRequest.tripClear (tag : Byte) (payload : List Byte) :
    FrameSpellsRequest.Statement (.tripClear tag payload) :=
  fun _ h w => Option.some.inj h ▸ frame_spells w

theorem FrameSpellsRequest.alarmClear (tag : Byte) (payload : List Byte) :
    FrameSpellsRequest.Statement (.alarmClear tag payload) :=
  fun _ h w => Option.some.inj h ▸ frame_spells w

theorem FrameSpellsRequest.zoneBlock (tag : Byte) (payload : List Byte) :
    FrameSpellsRequest.Statement (.zoneBlock tag payload) :=
  fun _ h w => Option.some.inj h ▸ frame_spells w

theorem FrameSpellsRequest.force (tag : Byte) (payload : List Byte) :
    FrameSpellsRequest.Statement (.force tag payload) :=
  fun _ h w => Option.some.inj h ▸ frame_spells w

theorem FrameSpellsRequest.noticeSet (tag : Byte) (payload : List Byte) :
    FrameSpellsRequest.Statement (.noticeSet tag payload) :=
  fun _ h w => Option.some.inj h ▸ frame_spells w

theorem FrameSpellsRequest.settle (tag : Byte) (payload : List Byte) :
    FrameSpellsRequest.Statement (.settle tag payload) :=
  fun _ h w => Option.some.inj h ▸ frame_spells w

end Sys2Proof.Laws
end

