-- ==== Sys2Proof/Laws/State.lean ====
section
/-! SUPPORT. For each named update of the state, one lemma for each field that it leaves alone. -/

namespace Sys2Proof.Machine

open Sys2Proof

/-! ### The lines follow the mode and the latches -/

@[simp] theorem driveLines_pending (s : State) : (driveLines s).pending = s.pending := rfl
@[simp] theorem driveLines_mode (s : State) : (driveLines s).mode = s.mode := rfl
@[simp] theorem driveLines_rate (s : State) : (driveLines s).rate = s.rate := rfl
@[simp] theorem driveLines_timer (s : State) : (driveLines s).timer = s.timer := rfl
@[simp] theorem driveLines_yard (s : State) : (driveLines s).yard = s.yard := rfl
@[simp] theorem driveLines_bays (s : State) : (driveLines s).bays = s.bays := rfl
@[simp] theorem driveLines_active (s : State) : (driveLines s).active = s.active := rfl
@[simp] theorem driveLines_edit (s : State) : (driveLines s).edit = s.edit := rfl
@[simp] theorem driveLines_ports (s : State) : (driveLines s).ports = s.ports := rfl
@[simp] theorem driveLines_streams (s : State) : (driveLines s).streams = s.streams := rfl
@[simp] theorem driveLines_store (s : State) : (driveLines s).store = s.store := rfl
@[simp] theorem driveLines_published (s : State) : (driveLines s).published = s.published := rfl
@[simp] theorem driveLines_replica (s : State) : (driveLines s).replica = s.replica := rfl
@[simp] theorem driveLines_topology (s : State) : (driveLines s).topology = s.topology := rfl
@[simp] theorem driveLines_evaluator (s : State) : (driveLines s).evaluator = s.evaluator := rfl
@[simp] theorem driveLines_detectors (s : State) : (driveLines s).detectors = s.detectors := rfl
@[simp] theorem driveLines_supervision (s : State) : (driveLines s).supervision = s.supervision := rfl
@[simp] theorem driveLines_trip (s : State) : (driveLines s).trip = s.trip := rfl
@[simp] theorem driveLines_bf (s : State) : (driveLines s).bf = s.bf := rfl
@[simp] theorem driveLines_records (s : State) : (driveLines s).records = s.records := rfl
@[simp] theorem driveLines_link (s : State) : (driveLines s).link = s.link := rfl

/-! ### An ALARM cause -/

@[simp] theorem causeAlarm_pending (s : State) : (causeAlarm s).pending = s.pending := rfl
@[simp] theorem causeAlarm_mode (s : State) : (causeAlarm s).mode = s.mode := rfl
@[simp] theorem causeAlarm_lines (s : State) : (causeAlarm s).lines = s.lines := rfl
@[simp] theorem causeAlarm_rate (s : State) : (causeAlarm s).rate = s.rate := rfl
@[simp] theorem causeAlarm_timer (s : State) : (causeAlarm s).timer = s.timer := rfl
@[simp] theorem causeAlarm_yard (s : State) : (causeAlarm s).yard = s.yard := rfl
@[simp] theorem causeAlarm_bays (s : State) : (causeAlarm s).bays = s.bays := rfl
@[simp] theorem causeAlarm_active (s : State) : (causeAlarm s).active = s.active := rfl
@[simp] theorem causeAlarm_edit (s : State) : (causeAlarm s).edit = s.edit := rfl
@[simp] theorem causeAlarm_ports (s : State) : (causeAlarm s).ports = s.ports := rfl
@[simp] theorem causeAlarm_streams (s : State) : (causeAlarm s).streams = s.streams := rfl
@[simp] theorem causeAlarm_store (s : State) : (causeAlarm s).store = s.store := rfl
@[simp] theorem causeAlarm_published (s : State) : (causeAlarm s).published = s.published := rfl
@[simp] theorem causeAlarm_replica (s : State) : (causeAlarm s).replica = s.replica := rfl
@[simp] theorem causeAlarm_topology (s : State) : (causeAlarm s).topology = s.topology := rfl
@[simp] theorem causeAlarm_evaluator (s : State) : (causeAlarm s).evaluator = s.evaluator := rfl
@[simp] theorem causeAlarm_detectors (s : State) : (causeAlarm s).detectors = s.detectors := rfl
@[simp] theorem causeAlarm_supervision (s : State) : (causeAlarm s).supervision = s.supervision := rfl
@[simp] theorem causeAlarm_trip (s : State) : (causeAlarm s).trip = s.trip := rfl
@[simp] theorem causeAlarm_bf (s : State) : (causeAlarm s).bf = s.bf := rfl
@[simp] theorem causeAlarm_records (s : State) : (causeAlarm s).records = s.records := rfl

/-! ### A TOPOLOGY cause -/

@[simp] theorem causeTopology_pending (s : State) : (causeTopology s).pending = s.pending := rfl
@[simp] theorem causeTopology_mode (s : State) : (causeTopology s).mode = s.mode := rfl
@[simp] theorem causeTopology_lines (s : State) : (causeTopology s).lines = s.lines := rfl
@[simp] theorem causeTopology_rate (s : State) : (causeTopology s).rate = s.rate := rfl
@[simp] theorem causeTopology_timer (s : State) : (causeTopology s).timer = s.timer := rfl
@[simp] theorem causeTopology_yard (s : State) : (causeTopology s).yard = s.yard := rfl
@[simp] theorem causeTopology_bays (s : State) : (causeTopology s).bays = s.bays := rfl
@[simp] theorem causeTopology_active (s : State) : (causeTopology s).active = s.active := rfl
@[simp] theorem causeTopology_edit (s : State) : (causeTopology s).edit = s.edit := rfl
@[simp] theorem causeTopology_ports (s : State) : (causeTopology s).ports = s.ports := rfl
@[simp] theorem causeTopology_streams (s : State) : (causeTopology s).streams = s.streams := rfl
@[simp] theorem causeTopology_store (s : State) : (causeTopology s).store = s.store := rfl
@[simp] theorem causeTopology_published (s : State) : (causeTopology s).published = s.published := rfl
@[simp] theorem causeTopology_replica (s : State) : (causeTopology s).replica = s.replica := rfl
@[simp] theorem causeTopology_topology (s : State) : (causeTopology s).topology = s.topology := rfl
@[simp] theorem causeTopology_evaluator (s : State) : (causeTopology s).evaluator = s.evaluator := rfl
@[simp] theorem causeTopology_detectors (s : State) : (causeTopology s).detectors = s.detectors := rfl
@[simp] theorem causeTopology_supervision (s : State) : (causeTopology s).supervision = s.supervision := rfl
@[simp] theorem causeTopology_trip (s : State) : (causeTopology s).trip = s.trip := rfl
@[simp] theorem causeTopology_bf (s : State) : (causeTopology s).bf = s.bf := rfl
@[simp] theorem causeTopology_records (s : State) : (causeTopology s).records = s.records := rfl

/-! ### The TRIP and BACKTRIP causes of a set -/

@[simp] theorem causeTrips_pending (st : Stamp) (a b : Bool) (s : State) : (causeTrips st a b s).pending = s.pending := rfl
@[simp] theorem causeTrips_mode (st : Stamp) (a b : Bool) (s : State) : (causeTrips st a b s).mode = s.mode := rfl
@[simp] theorem causeTrips_lines (st : Stamp) (a b : Bool) (s : State) : (causeTrips st a b s).lines = s.lines := rfl
@[simp] theorem causeTrips_rate (st : Stamp) (a b : Bool) (s : State) : (causeTrips st a b s).rate = s.rate := rfl
@[simp] theorem causeTrips_timer (st : Stamp) (a b : Bool) (s : State) : (causeTrips st a b s).timer = s.timer := rfl
@[simp] theorem causeTrips_yard (st : Stamp) (a b : Bool) (s : State) : (causeTrips st a b s).yard = s.yard := rfl
@[simp] theorem causeTrips_bays (st : Stamp) (a b : Bool) (s : State) : (causeTrips st a b s).bays = s.bays := rfl
@[simp] theorem causeTrips_active (st : Stamp) (a b : Bool) (s : State) : (causeTrips st a b s).active = s.active := rfl
@[simp] theorem causeTrips_edit (st : Stamp) (a b : Bool) (s : State) : (causeTrips st a b s).edit = s.edit := rfl
@[simp] theorem causeTrips_ports (st : Stamp) (a b : Bool) (s : State) : (causeTrips st a b s).ports = s.ports := rfl
@[simp] theorem causeTrips_streams (st : Stamp) (a b : Bool) (s : State) : (causeTrips st a b s).streams = s.streams := rfl
@[simp] theorem causeTrips_store (st : Stamp) (a b : Bool) (s : State) : (causeTrips st a b s).store = s.store := rfl
@[simp] theorem causeTrips_published (st : Stamp) (a b : Bool) (s : State) : (causeTrips st a b s).published = s.published := rfl
@[simp] theorem causeTrips_replica (st : Stamp) (a b : Bool) (s : State) : (causeTrips st a b s).replica = s.replica := rfl
@[simp] theorem causeTrips_topology (st : Stamp) (a b : Bool) (s : State) : (causeTrips st a b s).topology = s.topology := rfl
@[simp] theorem causeTrips_evaluator (st : Stamp) (a b : Bool) (s : State) : (causeTrips st a b s).evaluator = s.evaluator := rfl
@[simp] theorem causeTrips_detectors (st : Stamp) (a b : Bool) (s : State) : (causeTrips st a b s).detectors = s.detectors := rfl
@[simp] theorem causeTrips_supervision (st : Stamp) (a b : Bool) (s : State) : (causeTrips st a b s).supervision = s.supervision := rfl
@[simp] theorem causeTrips_trip (st : Stamp) (a b : Bool) (s : State) : (causeTrips st a b s).trip = s.trip := rfl
@[simp] theorem causeTrips_bf (st : Stamp) (a b : Bool) (s : State) : (causeTrips st a b s).bf = s.bf := rfl
@[simp] theorem causeTrips_records (st : Stamp) (a b : Bool) (s : State) : (causeTrips st a b s).records = s.records := rfl

/-! ### An integrity check is reported -/

@[simp] theorem reportCheck_pending (c : IntegrityCheck) (s : State) : (reportCheck c s).pending = s.pending := by
  unfold reportCheck; dsimp only; repeat' split
  all_goals rfl
@[simp] theorem reportCheck_rate (c : IntegrityCheck) (s : State) : (reportCheck c s).rate = s.rate := by
  unfold reportCheck; dsimp only; repeat' split
  all_goals rfl
@[simp] theorem reportCheck_yard (c : IntegrityCheck) (s : State) : (reportCheck c s).yard = s.yard := by
  unfold reportCheck; dsimp only; repeat' split
  all_goals rfl
@[simp] theorem reportCheck_bays (c : IntegrityCheck) (s : State) : (reportCheck c s).bays = s.bays := by
  unfold reportCheck; dsimp only; repeat' split
  all_goals rfl
@[simp] theorem reportCheck_active (c : IntegrityCheck) (s : State) : (reportCheck c s).active = s.active := by
  unfold reportCheck; dsimp only; repeat' split
  all_goals rfl
@[simp] theorem reportCheck_edit (c : IntegrityCheck) (s : State) : (reportCheck c s).edit = s.edit := by
  unfold reportCheck; dsimp only; repeat' split
  all_goals rfl
@[simp] theorem reportCheck_streams (c : IntegrityCheck) (s : State) : (reportCheck c s).streams = s.streams := by
  unfold reportCheck; dsimp only; repeat' split
  all_goals rfl
@[simp] theorem reportCheck_store (c : IntegrityCheck) (s : State) : (reportCheck c s).store = s.store := by
  unfold reportCheck; dsimp only; repeat' split
  all_goals rfl
@[simp] theorem reportCheck_replica (c : IntegrityCheck) (s : State) : (reportCheck c s).replica = s.replica := by
  unfold reportCheck; dsimp only; repeat' split
  all_goals rfl
@[simp] theorem reportCheck_topology (c : IntegrityCheck) (s : State) : (reportCheck c s).topology = s.topology := by
  unfold reportCheck; dsimp only; repeat' split
  all_goals rfl
@[simp] theorem reportCheck_evaluator (c : IntegrityCheck) (s : State) : (reportCheck c s).evaluator = s.evaluator := by
  unfold reportCheck; dsimp only; repeat' split
  all_goals rfl
@[simp] theorem reportCheck_detectors (c : IntegrityCheck) (s : State) : (reportCheck c s).detectors = s.detectors := by
  unfold reportCheck; dsimp only; repeat' split
  all_goals rfl
@[simp] theorem reportCheck_records (c : IntegrityCheck) (s : State) : (reportCheck c s).records = s.records := by
  unfold reportCheck; dsimp only; repeat' split
  all_goals rfl

/-! ### A frequency restart -/

@[simp] theorem frequencyRestart_pending (s : State) : (frequencyRestart s).pending = s.pending := rfl
@[simp] theorem frequencyRestart_mode (s : State) : (frequencyRestart s).mode = s.mode := rfl
@[simp] theorem frequencyRestart_rate (s : State) : (frequencyRestart s).rate = s.rate := rfl
@[simp] theorem frequencyRestart_yard (s : State) : (frequencyRestart s).yard = s.yard := rfl
@[simp] theorem frequencyRestart_bays (s : State) : (frequencyRestart s).bays = s.bays := rfl
@[simp] theorem frequencyRestart_active (s : State) : (frequencyRestart s).active = s.active := rfl
@[simp] theorem frequencyRestart_edit (s : State) : (frequencyRestart s).edit = s.edit := rfl
@[simp] theorem frequencyRestart_ports (s : State) : (frequencyRestart s).ports = s.ports := rfl
@[simp] theorem frequencyRestart_streams (s : State) : (frequencyRestart s).streams = s.streams := rfl
@[simp] theorem frequencyRestart_published (s : State) : (frequencyRestart s).published = s.published := rfl
@[simp] theorem frequencyRestart_bf (s : State) : (frequencyRestart s).bf = s.bf := rfl
@[simp] theorem frequencyRestart_records (s : State) : (frequencyRestart s).records = s.records := rfl
@[simp] theorem frequencyRestart_lines (s : State) : (frequencyRestart s).lines = { s.lines with sync := true } := rfl
@[simp] theorem frequencyRestart_timer (s : State) :
    (frequencyRestart s).timer = { s.timer with running := true, count := 0, period := s.yard.frequency.period 0 } := rfl
@[simp] theorem frequencyRestart_store (s : State) : (frequencyRestart s).store = Store.reset := rfl
@[simp] theorem frequencyRestart_replica (s : State) :
    (frequencyRestart s).replica = { slots := s.replica.slots.map SlotPositions.keepForced, stamp := none } := rfl
@[simp] theorem frequencyRestart_topology (s : State) : (frequencyRestart s).topology = none := rfl
@[simp] theorem frequencyRestart_evaluator (s : State) : (frequencyRestart s).evaluator = Evaluator.reset := rfl
@[simp] theorem frequencyRestart_detectors (s : State) : (frequencyRestart s).detectors = Detectors.reset := rfl
@[simp] theorem frequencyRestart_supervision (s : State) :
    (frequencyRestart s).supervision =
      { s.supervision with ctCounts := Table.fill 4 (Table.fill 3 0), checkCt := Table.fill 3 0 } := rfl
@[simp] theorem frequencyRestart_trip (s : State) : (frequencyRestart s).trip = { s.trip with bitmap := 0 } := rfl
@[simp] theorem frequencyRestart_link (s : State) :
    (frequencyRestart s).link =
      s.link.moderate (conditionBytes s.supervision.conditions) (topologyHead s.yard.sections none) := rfl

/-! ### The restart of R177 -/

@[simp] theorem makeRestart_pending (s : State) : (makeRestart s).pending = s.pending := rfl
@[simp] theorem makeRestart_rate (s : State) : (makeRestart s).rate = s.rate := rfl
@[simp] theorem makeRestart_timer (s : State) : (makeRestart s).timer = s.timer := rfl
@[simp] theorem makeRestart_yard (s : State) : (makeRestart s).yard = s.yard := rfl
@[simp] theorem makeRestart_bays (s : State) : (makeRestart s).bays = s.bays := rfl
@[simp] theorem makeRestart_active (s : State) : (makeRestart s).active = s.active := rfl
@[simp] theorem makeRestart_edit (s : State) : (makeRestart s).edit = s.edit := rfl
@[simp] theorem makeRestart_published (s : State) : (makeRestart s).published = s.published := rfl
@[simp] theorem makeRestart_records (s : State) : (makeRestart s).records = s.records := rfl

/-! ### A reply -/

@[simp] theorem State.replied_pending (req : Request) (rest : List Request) (n : Nat) (data : List Byte) (s : State) : (s.replied req rest n data).pending = s.pending := rfl
@[simp] theorem State.replied_mode (req : Request) (rest : List Request) (n : Nat) (data : List Byte) (s : State) : (s.replied req rest n data).mode = s.mode := rfl
@[simp] theorem State.replied_lines (req : Request) (rest : List Request) (n : Nat) (data : List Byte) (s : State) : (s.replied req rest n data).lines = s.lines := rfl
@[simp] theorem State.replied_rate (req : Request) (rest : List Request) (n : Nat) (data : List Byte) (s : State) : (s.replied req rest n data).rate = s.rate := rfl
@[simp] theorem State.replied_timer (req : Request) (rest : List Request) (n : Nat) (data : List Byte) (s : State) : (s.replied req rest n data).timer = s.timer := rfl
@[simp] theorem State.replied_yard (req : Request) (rest : List Request) (n : Nat) (data : List Byte) (s : State) : (s.replied req rest n data).yard = s.yard := rfl
@[simp] theorem State.replied_bays (req : Request) (rest : List Request) (n : Nat) (data : List Byte) (s : State) : (s.replied req rest n data).bays = s.bays := rfl
@[simp] theorem State.replied_active (req : Request) (rest : List Request) (n : Nat) (data : List Byte) (s : State) : (s.replied req rest n data).active = s.active := rfl
@[simp] theorem State.replied_edit (req : Request) (rest : List Request) (n : Nat) (data : List Byte) (s : State) : (s.replied req rest n data).edit = s.edit := rfl
@[simp] theorem State.replied_ports (req : Request) (rest : List Request) (n : Nat) (data : List Byte) (s : State) : (s.replied req rest n data).ports = s.ports := rfl
@[simp] theorem State.replied_streams (req : Request) (rest : List Request) (n : Nat) (data : List Byte) (s : State) : (s.replied req rest n data).streams = s.streams := rfl
@[simp] theorem State.replied_store (req : Request) (rest : List Request) (n : Nat) (data : List Byte) (s : State) : (s.replied req rest n data).store = s.store := rfl
@[simp] theorem State.replied_published (req : Request) (rest : List Request) (n : Nat) (data : List Byte) (s : State) : (s.replied req rest n data).published = s.published := rfl
@[simp] theorem State.replied_replica (req : Request) (rest : List Request) (n : Nat) (data : List Byte) (s : State) : (s.replied req rest n data).replica = s.replica := rfl
@[simp] theorem State.replied_topology (req : Request) (rest : List Request) (n : Nat) (data : List Byte) (s : State) : (s.replied req rest n data).topology = s.topology := rfl
@[simp] theorem State.replied_evaluator (req : Request) (rest : List Request) (n : Nat) (data : List Byte) (s : State) : (s.replied req rest n data).evaluator = s.evaluator := rfl
@[simp] theorem State.replied_detectors (req : Request) (rest : List Request) (n : Nat) (data : List Byte) (s : State) : (s.replied req rest n data).detectors = s.detectors := rfl
@[simp] theorem State.replied_supervision (req : Request) (rest : List Request) (n : Nat) (data : List Byte) (s : State) : (s.replied req rest n data).supervision = s.supervision := rfl
@[simp] theorem State.replied_trip (req : Request) (rest : List Request) (n : Nat) (data : List Byte) (s : State) : (s.replied req rest n data).trip = s.trip := rfl
@[simp] theorem State.replied_bf (req : Request) (rest : List Request) (n : Nat) (data : List Byte) (s : State) : (s.replied req rest n data).bf = s.bf := rfl
@[simp] theorem State.replied_records (req : Request) (rest : List Request) (n : Nat) (data : List Byte) (s : State) : (s.replied req rest n data).records = s.records := rfl

/-! ### EDIT is copied into ACTIVE -/

@[simp] theorem copyBank_pending (s : State) : (copyBank s).pending = s.pending := rfl
@[simp] theorem copyBank_mode (s : State) : (copyBank s).mode = s.mode := rfl
@[simp] theorem copyBank_lines (s : State) : (copyBank s).lines = s.lines := rfl
@[simp] theorem copyBank_rate (s : State) : (copyBank s).rate = s.rate := rfl
@[simp] theorem copyBank_timer (s : State) : (copyBank s).timer = s.timer := rfl
@[simp] theorem copyBank_yard (s : State) : (copyBank s).yard = s.yard := rfl
@[simp] theorem copyBank_bays (s : State) : (copyBank s).bays = s.bays := rfl
@[simp] theorem copyBank_edit (s : State) : (copyBank s).edit = s.edit := rfl
@[simp] theorem copyBank_ports (s : State) : (copyBank s).ports = s.ports := rfl
@[simp] theorem copyBank_streams (s : State) : (copyBank s).streams = s.streams := rfl
@[simp] theorem copyBank_store (s : State) : (copyBank s).store = s.store := rfl
@[simp] theorem copyBank_published (s : State) : (copyBank s).published = s.published := rfl
@[simp] theorem copyBank_replica (s : State) : (copyBank s).replica = s.replica := rfl
@[simp] theorem copyBank_topology (s : State) : (copyBank s).topology = s.topology := rfl
@[simp] theorem copyBank_supervision (s : State) : (copyBank s).supervision = s.supervision := rfl
@[simp] theorem copyBank_trip (s : State) : (copyBank s).trip = s.trip := rfl
@[simp] theorem copyBank_bf (s : State) : (copyBank s).bf = s.bf := rfl
@[simp] theorem copyBank_records (s : State) : (copyBank s).records = s.records := rfl
@[simp] theorem copyBank_link (s : State) : (copyBank s).link = s.link := rfl

/-! ### A bay record is replaced -/

@[simp] theorem replaceRecord_pending (b : Slot) (r : BayRecord) (s : State) : (replaceRecord b r s).pending = s.pending := rfl
@[simp] theorem replaceRecord_mode (b : Slot) (r : BayRecord) (s : State) : (replaceRecord b r s).mode = s.mode := rfl
@[simp] theorem replaceRecord_lines (b : Slot) (r : BayRecord) (s : State) : (replaceRecord b r s).lines = s.lines := rfl
@[simp] theorem replaceRecord_rate (b : Slot) (r : BayRecord) (s : State) : (replaceRecord b r s).rate = s.rate := rfl
@[simp] theorem replaceRecord_timer (b : Slot) (r : BayRecord) (s : State) : (replaceRecord b r s).timer = s.timer := rfl
@[simp] theorem replaceRecord_yard (b : Slot) (r : BayRecord) (s : State) : (replaceRecord b r s).yard = s.yard := rfl
@[simp] theorem replaceRecord_active (b : Slot) (r : BayRecord) (s : State) : (replaceRecord b r s).active = s.active := rfl
@[simp] theorem replaceRecord_edit (b : Slot) (r : BayRecord) (s : State) : (replaceRecord b r s).edit = s.edit := rfl
@[simp] theorem replaceRecord_ports (b : Slot) (r : BayRecord) (s : State) : (replaceRecord b r s).ports = s.ports := rfl
@[simp] theorem replaceRecord_streams (b : Slot) (r : BayRecord) (s : State) : (replaceRecord b r s).streams = s.streams := rfl
@[simp] theorem replaceRecord_published (b : Slot) (r : BayRecord) (s : State) : (replaceRecord b r s).published = s.published := rfl
@[simp] theorem replaceRecord_topology (b : Slot) (r : BayRecord) (s : State) : (replaceRecord b r s).topology = s.topology := rfl
@[simp] theorem replaceRecord_evaluator (b : Slot) (r : BayRecord) (s : State) : (replaceRecord b r s).evaluator = s.evaluator := rfl
@[simp] theorem replaceRecord_detectors (b : Slot) (r : BayRecord) (s : State) : (replaceRecord b r s).detectors = s.detectors := rfl
@[simp] theorem replaceRecord_trip (b : Slot) (r : BayRecord) (s : State) : (replaceRecord b r s).trip = s.trip := rfl
@[simp] theorem replaceRecord_records (b : Slot) (r : BayRecord) (s : State) : (replaceRecord b r s).records = s.records := rfl
@[simp] theorem replaceRecord_link (b : Slot) (r : BayRecord) (s : State) : (replaceRecord b r s).link = s.link := rfl

/-! ### The state of sections 2 and 3 is reset -/

@[simp] theorem resetOuter_pending (s : State) : (resetOuter s).pending = s.pending := rfl
@[simp] theorem resetOuter_mode (s : State) : (resetOuter s).mode = s.mode := rfl
@[simp] theorem resetOuter_lines (s : State) : (resetOuter s).lines = s.lines := rfl
@[simp] theorem resetOuter_rate (s : State) : (resetOuter s).rate = s.rate := rfl
@[simp] theorem resetOuter_timer (s : State) : (resetOuter s).timer = s.timer := rfl
@[simp] theorem resetOuter_yard (s : State) : (resetOuter s).yard = s.yard := rfl
@[simp] theorem resetOuter_bays (s : State) : (resetOuter s).bays = s.bays := rfl
@[simp] theorem resetOuter_active (s : State) : (resetOuter s).active = s.active := rfl
@[simp] theorem resetOuter_edit (s : State) : (resetOuter s).edit = s.edit := rfl
@[simp] theorem resetOuter_ports (s : State) : (resetOuter s).ports = s.ports := rfl
@[simp] theorem resetOuter_streams (s : State) : (resetOuter s).streams = s.streams := rfl
@[simp] theorem resetOuter_store (s : State) : (resetOuter s).store = s.store := rfl
@[simp] theorem resetOuter_published (s : State) : (resetOuter s).published = s.published := rfl
@[simp] theorem resetOuter_replica (s : State) : (resetOuter s).replica = s.replica := rfl
@[simp] theorem resetOuter_topology (s : State) : (resetOuter s).topology = s.topology := rfl
@[simp] theorem resetOuter_trip (s : State) : (resetOuter s).trip = s.trip := rfl
@[simp] theorem resetOuter_bf (s : State) : (resetOuter s).bf = s.bf := rfl
@[simp] theorem resetOuter_records (s : State) : (resetOuter s).records = s.records := rfl
@[simp] theorem resetOuter_link (s : State) : (resetOuter s).link = s.link := rfl

/-! ### Every counter of R42 is cleared -/

@[simp] theorem clearCounters_pending (s : State) : (clearCounters s).pending = s.pending := rfl
@[simp] theorem clearCounters_mode (s : State) : (clearCounters s).mode = s.mode := rfl
@[simp] theorem clearCounters_lines (s : State) : (clearCounters s).lines = s.lines := rfl
@[simp] theorem clearCounters_rate (s : State) : (clearCounters s).rate = s.rate := rfl
@[simp] theorem clearCounters_timer (s : State) : (clearCounters s).timer = s.timer := rfl
@[simp] theorem clearCounters_yard (s : State) : (clearCounters s).yard = s.yard := rfl
@[simp] theorem clearCounters_bays (s : State) : (clearCounters s).bays = s.bays := rfl
@[simp] theorem clearCounters_active (s : State) : (clearCounters s).active = s.active := rfl
@[simp] theorem clearCounters_edit (s : State) : (clearCounters s).edit = s.edit := rfl
@[simp] theorem clearCounters_store (s : State) : (clearCounters s).store = s.store := rfl
@[simp] theorem clearCounters_published (s : State) : (clearCounters s).published = s.published := rfl
@[simp] theorem clearCounters_replica (s : State) : (clearCounters s).replica = s.replica := rfl
@[simp] theorem clearCounters_topology (s : State) : (clearCounters s).topology = s.topology := rfl
@[simp] theorem clearCounters_evaluator (s : State) : (clearCounters s).evaluator = s.evaluator := rfl
@[simp] theorem clearCounters_detectors (s : State) : (clearCounters s).detectors = s.detectors := rfl
@[simp] theorem clearCounters_supervision (s : State) : (clearCounters s).supervision = s.supervision := rfl
@[simp] theorem clearCounters_trip (s : State) : (clearCounters s).trip = s.trip := rfl
@[simp] theorem clearCounters_bf (s : State) : (clearCounters s).bf = s.bf := rfl
@[simp] theorem clearCounters_records (s : State) : (clearCounters s).records = s.records := rfl

/-! ### Condition entries are removed -/

@[simp] theorem removeEntries_pending (f : Condition → Bool) (s : State) : (removeEntries f s).pending = s.pending := by
  unfold removeEntries; dsimp only; repeat' split
  all_goals rfl
@[simp] theorem removeEntries_mode (f : Condition → Bool) (s : State) : (removeEntries f s).mode = s.mode := by
  unfold removeEntries; dsimp only; repeat' split
  all_goals rfl
@[simp] theorem removeEntries_lines (f : Condition → Bool) (s : State) : (removeEntries f s).lines = s.lines := by
  unfold removeEntries; dsimp only; repeat' split
  all_goals rfl
@[simp] theorem removeEntries_rate (f : Condition → Bool) (s : State) : (removeEntries f s).rate = s.rate := by
  unfold removeEntries; dsimp only; repeat' split
  all_goals rfl
@[simp] theorem removeEntries_timer (f : Condition → Bool) (s : State) : (removeEntries f s).timer = s.timer := by
  unfold removeEntries; dsimp only; repeat' split
  all_goals rfl
@[simp] theorem removeEntries_yard (f : Condition → Bool) (s : State) : (removeEntries f s).yard = s.yard := by
  unfold removeEntries; dsimp only; repeat' split
  all_goals rfl
@[simp] theorem removeEntries_bays (f : Condition → Bool) (s : State) : (removeEntries f s).bays = s.bays := by
  unfold removeEntries; dsimp only; repeat' split
  all_goals rfl
@[simp] theorem removeEntries_active (f : Condition → Bool) (s : State) : (removeEntries f s).active = s.active := by
  unfold removeEntries; dsimp only; repeat' split
  all_goals rfl
@[simp] theorem removeEntries_edit (f : Condition → Bool) (s : State) : (removeEntries f s).edit = s.edit := by
  unfold removeEntries; dsimp only; repeat' split
  all_goals rfl
@[simp] theorem removeEntries_ports (f : Condition → Bool) (s : State) : (removeEntries f s).ports = s.ports := by
  unfold removeEntries; dsimp only; repeat' split
  all_goals rfl
@[simp] theorem removeEntries_streams (f : Condition → Bool) (s : State) : (removeEntries f s).streams = s.streams := by
  unfold removeEntries; dsimp only; repeat' split
  all_goals rfl
@[simp] theorem removeEntries_store (f : Condition → Bool) (s : State) : (removeEntries f s).store = s.store := by
  unfold removeEntries; dsimp only; repeat' split
  all_goals rfl
@[simp] theorem removeEntries_published (f : Condition → Bool) (s : State) : (removeEntries f s).published = s.published := by
  unfold removeEntries; dsimp only; repeat' split
  all_goals rfl
@[simp] theorem removeEntries_replica (f : Condition → Bool) (s : State) : (removeEntries f s).replica = s.replica := by
  unfold removeEntries; dsimp only; repeat' split
  all_goals rfl
@[simp] theorem removeEntries_topology (f : Condition → Bool) (s : State) : (removeEntries f s).topology = s.topology := by
  unfold removeEntries; dsimp only; repeat' split
  all_goals rfl
@[simp] theorem removeEntries_evaluator (f : Condition → Bool) (s : State) : (removeEntries f s).evaluator = s.evaluator := by
  unfold removeEntries; dsimp only; repeat' split
  all_goals rfl
@[simp] theorem removeEntries_detectors (f : Condition → Bool) (s : State) : (removeEntries f s).detectors = s.detectors := by
  unfold removeEntries; dsimp only; repeat' split
  all_goals rfl
@[simp] theorem removeEntries_trip (f : Condition → Bool) (s : State) : (removeEntries f s).trip = s.trip := by
  unfold removeEntries; dsimp only; repeat' split
  all_goals rfl
@[simp] theorem removeEntries_bf (f : Condition → Bool) (s : State) : (removeEntries f s).bf = s.bf := by
  unfold removeEntries; dsimp only; repeat' split
  all_goals rfl
@[simp] theorem removeEntries_records (f : Condition → Bool) (s : State) : (removeEntries f s).records = s.records := by
  unfold removeEntries; dsimp only; repeat' split
  all_goals rfl

/-! ### The moderation timers at a nominal set instant -/

@[simp] theorem moderate_pending (s : State) : (moderate s).pending = s.pending := rfl
@[simp] theorem moderate_mode (s : State) : (moderate s).mode = s.mode := rfl
@[simp] theorem moderate_lines (s : State) : (moderate s).lines = s.lines := rfl
@[simp] theorem moderate_rate (s : State) : (moderate s).rate = s.rate := rfl
@[simp] theorem moderate_timer (s : State) : (moderate s).timer = s.timer := rfl
@[simp] theorem moderate_yard (s : State) : (moderate s).yard = s.yard := rfl
@[simp] theorem moderate_bays (s : State) : (moderate s).bays = s.bays := rfl
@[simp] theorem moderate_active (s : State) : (moderate s).active = s.active := rfl
@[simp] theorem moderate_edit (s : State) : (moderate s).edit = s.edit := rfl
@[simp] theorem moderate_ports (s : State) : (moderate s).ports = s.ports := rfl
@[simp] theorem moderate_streams (s : State) : (moderate s).streams = s.streams := rfl
@[simp] theorem moderate_store (s : State) : (moderate s).store = s.store := rfl
@[simp] theorem moderate_published (s : State) : (moderate s).published = s.published := rfl
@[simp] theorem moderate_replica (s : State) : (moderate s).replica = s.replica := rfl
@[simp] theorem moderate_topology (s : State) : (moderate s).topology = s.topology := rfl
@[simp] theorem moderate_evaluator (s : State) : (moderate s).evaluator = s.evaluator := rfl
@[simp] theorem moderate_detectors (s : State) : (moderate s).detectors = s.detectors := rfl
@[simp] theorem moderate_supervision (s : State) : (moderate s).supervision = s.supervision := rfl
@[simp] theorem moderate_trip (s : State) : (moderate s).trip = s.trip := rfl
@[simp] theorem moderate_bf (s : State) : (moderate s).bf = s.bf := rfl
@[simp] theorem moderate_records (s : State) : (moderate s).records = s.records := rfl
@[simp] theorem moderate_link (s : State) :
    (moderate s).link = s.link.moderate (alarmNotice s) (topologyNotice s) := rfl

/-! ### A nominal set instant -/

@[simp] theorem nominalInstant_pending (s : State) : (nominalInstant s).pending = s.pending := by
  unfold nominalInstant; dsimp only; repeat' split
  all_goals rfl
@[simp] theorem nominalInstant_mode (s : State) : (nominalInstant s).mode = s.mode := by
  unfold nominalInstant; dsimp only; repeat' split
  all_goals rfl
@[simp] theorem nominalInstant_rate (s : State) : (nominalInstant s).rate = s.rate := by
  unfold nominalInstant; dsimp only; repeat' split
  all_goals rfl
@[simp] theorem nominalInstant_yard (s : State) : (nominalInstant s).yard = s.yard := by
  unfold nominalInstant; dsimp only; repeat' split
  all_goals rfl
@[simp] theorem nominalInstant_bays (s : State) : (nominalInstant s).bays = s.bays := by
  unfold nominalInstant; dsimp only; repeat' split
  all_goals rfl
@[simp] theorem nominalInstant_active (s : State) : (nominalInstant s).active = s.active := by
  unfold nominalInstant; dsimp only; repeat' split
  all_goals rfl
@[simp] theorem nominalInstant_edit (s : State) : (nominalInstant s).edit = s.edit := by
  unfold nominalInstant; dsimp only; repeat' split
  all_goals rfl
@[simp] theorem nominalInstant_streams (s : State) : (nominalInstant s).streams = s.streams := by
  unfold nominalInstant; dsimp only; repeat' split
  all_goals rfl
@[simp] theorem nominalInstant_store (s : State) : (nominalInstant s).store = s.store := by
  unfold nominalInstant; dsimp only; repeat' split
  all_goals rfl
@[simp] theorem nominalInstant_published (s : State) : (nominalInstant s).published = s.published := by
  unfold nominalInstant; dsimp only; repeat' split
  all_goals rfl
@[simp] theorem nominalInstant_replica (s : State) : (nominalInstant s).replica = s.replica := by
  unfold nominalInstant; dsimp only; repeat' split
  all_goals rfl
@[simp] theorem nominalInstant_topology (s : State) : (nominalInstant s).topology = s.topology := by
  unfold nominalInstant; dsimp only; repeat' split
  all_goals rfl
@[simp] theorem nominalInstant_evaluator (s : State) : (nominalInstant s).evaluator = s.evaluator := by
  unfold nominalInstant; dsimp only; repeat' split
  all_goals rfl
@[simp] theorem nominalInstant_detectors (s : State) : (nominalInstant s).detectors = s.detectors := by
  unfold nominalInstant; dsimp only; repeat' split
  all_goals rfl
@[simp] theorem nominalInstant_supervision (s : State) : (nominalInstant s).supervision = s.supervision := by
  unfold nominalInstant; dsimp only; repeat' split
  all_goals rfl
@[simp] theorem nominalInstant_trip (s : State) : (nominalInstant s).trip = s.trip := by
  unfold nominalInstant; dsimp only; repeat' split
  all_goals rfl
@[simp] theorem nominalInstant_bf (s : State) : (nominalInstant s).bf = s.bf := by
  unfold nominalInstant; dsimp only; repeat' split
  all_goals rfl
@[simp] theorem nominalInstant_records (s : State) : (nominalInstant s).records = s.records := by
  unfold nominalInstant; dsimp only; repeat' split
  all_goals rfl

/-! ### A sample is placed or discarded -/

@[simp] theorem placeSample_pending (i : Fin 26) (e : StreamEntry) (f : BayFrame) (s : State) : (placeSample i e f s).pending = s.pending := rfl
@[simp] theorem placeSample_mode (i : Fin 26) (e : StreamEntry) (f : BayFrame) (s : State) : (placeSample i e f s).mode = s.mode := rfl
@[simp] theorem placeSample_lines (i : Fin 26) (e : StreamEntry) (f : BayFrame) (s : State) : (placeSample i e f s).lines = s.lines := rfl
@[simp] theorem placeSample_rate (i : Fin 26) (e : StreamEntry) (f : BayFrame) (s : State) : (placeSample i e f s).rate = s.rate := rfl
@[simp] theorem placeSample_timer (i : Fin 26) (e : StreamEntry) (f : BayFrame) (s : State) : (placeSample i e f s).timer = s.timer := rfl
@[simp] theorem placeSample_yard (i : Fin 26) (e : StreamEntry) (f : BayFrame) (s : State) : (placeSample i e f s).yard = s.yard := rfl
@[simp] theorem placeSample_bays (i : Fin 26) (e : StreamEntry) (f : BayFrame) (s : State) : (placeSample i e f s).bays = s.bays := rfl
@[simp] theorem placeSample_active (i : Fin 26) (e : StreamEntry) (f : BayFrame) (s : State) : (placeSample i e f s).active = s.active := rfl
@[simp] theorem placeSample_edit (i : Fin 26) (e : StreamEntry) (f : BayFrame) (s : State) : (placeSample i e f s).edit = s.edit := rfl
@[simp] theorem placeSample_ports (i : Fin 26) (e : StreamEntry) (f : BayFrame) (s : State) : (placeSample i e f s).ports = s.ports := rfl
@[simp] theorem placeSample_published (i : Fin 26) (e : StreamEntry) (f : BayFrame) (s : State) : (placeSample i e f s).published = s.published := rfl
@[simp] theorem placeSample_replica (i : Fin 26) (e : StreamEntry) (f : BayFrame) (s : State) : (placeSample i e f s).replica = s.replica := rfl
@[simp] theorem placeSample_topology (i : Fin 26) (e : StreamEntry) (f : BayFrame) (s : State) : (placeSample i e f s).topology = s.topology := rfl
@[simp] theorem placeSample_evaluator (i : Fin 26) (e : StreamEntry) (f : BayFrame) (s : State) : (placeSample i e f s).evaluator = s.evaluator := rfl
@[simp] theorem placeSample_detectors (i : Fin 26) (e : StreamEntry) (f : BayFrame) (s : State) : (placeSample i e f s).detectors = s.detectors := rfl
@[simp] theorem placeSample_supervision (i : Fin 26) (e : StreamEntry) (f : BayFrame) (s : State) : (placeSample i e f s).supervision = s.supervision := rfl
@[simp] theorem placeSample_trip (i : Fin 26) (e : StreamEntry) (f : BayFrame) (s : State) : (placeSample i e f s).trip = s.trip := rfl
@[simp] theorem placeSample_bf (i : Fin 26) (e : StreamEntry) (f : BayFrame) (s : State) : (placeSample i e f s).bf = s.bf := rfl
@[simp] theorem placeSample_records (i : Fin 26) (e : StreamEntry) (f : BayFrame) (s : State) : (placeSample i e f s).records = s.records := rfl
@[simp] theorem placeSample_link (i : Fin 26) (e : StreamEntry) (f : BayFrame) (s : State) : (placeSample i e f s).link = s.link := rfl

/-! ### A VALID frame meets the stream table -/

@[simp] theorem streamFrame_pending (p : Port) (f : BayFrame) (s : State) : (streamFrame p f s).pending = s.pending := by
  unfold streamFrame; repeat' split
  all_goals rfl
@[simp] theorem streamFrame_mode (p : Port) (f : BayFrame) (s : State) : (streamFrame p f s).mode = s.mode := by
  unfold streamFrame; repeat' split
  all_goals rfl
@[simp] theorem streamFrame_lines (p : Port) (f : BayFrame) (s : State) : (streamFrame p f s).lines = s.lines := by
  unfold streamFrame; repeat' split
  all_goals rfl
@[simp] theorem streamFrame_rate (p : Port) (f : BayFrame) (s : State) : (streamFrame p f s).rate = s.rate := by
  unfold streamFrame; repeat' split
  all_goals rfl
@[simp] theorem streamFrame_timer (p : Port) (f : BayFrame) (s : State) : (streamFrame p f s).timer = s.timer := by
  unfold streamFrame; repeat' split
  all_goals rfl
@[simp] theorem streamFrame_yard (p : Port) (f : BayFrame) (s : State) : (streamFrame p f s).yard = s.yard := by
  unfold streamFrame; repeat' split
  all_goals rfl
@[simp] theorem streamFrame_bays (p : Port) (f : BayFrame) (s : State) : (streamFrame p f s).bays = s.bays := by
  unfold streamFrame; repeat' split
  all_goals rfl
@[simp] theorem streamFrame_active (p : Port) (f : BayFrame) (s : State) : (streamFrame p f s).active = s.active := by
  unfold streamFrame; repeat' split
  all_goals rfl
@[simp] theorem streamFrame_edit (p : Port) (f : BayFrame) (s : State) : (streamFrame p f s).edit = s.edit := by
  unfold streamFrame; repeat' split
  all_goals rfl
@[simp] theorem streamFrame_published (p : Port) (f : BayFrame) (s : State) : (streamFrame p f s).published = s.published := by
  unfold streamFrame; repeat' split
  all_goals rfl
@[simp] theorem streamFrame_replica (p : Port) (f : BayFrame) (s : State) : (streamFrame p f s).replica = s.replica := by
  unfold streamFrame; repeat' split
  all_goals rfl
@[simp] theorem streamFrame_topology (p : Port) (f : BayFrame) (s : State) : (streamFrame p f s).topology = s.topology := by
  unfold streamFrame; repeat' split
  all_goals rfl
@[simp] theorem streamFrame_evaluator (p : Port) (f : BayFrame) (s : State) : (streamFrame p f s).evaluator = s.evaluator := by
  unfold streamFrame; repeat' split
  all_goals rfl
@[simp] theorem streamFrame_detectors (p : Port) (f : BayFrame) (s : State) : (streamFrame p f s).detectors = s.detectors := by
  unfold streamFrame; repeat' split
  all_goals rfl
@[simp] theorem streamFrame_supervision (p : Port) (f : BayFrame) (s : State) : (streamFrame p f s).supervision = s.supervision := by
  unfold streamFrame; repeat' split
  all_goals rfl
@[simp] theorem streamFrame_trip (p : Port) (f : BayFrame) (s : State) : (streamFrame p f s).trip = s.trip := by
  unfold streamFrame; repeat' split
  all_goals rfl
@[simp] theorem streamFrame_bf (p : Port) (f : BayFrame) (s : State) : (streamFrame p f s).bf = s.bf := by
  unfold streamFrame; repeat' split
  all_goals rfl
@[simp] theorem streamFrame_records (p : Port) (f : BayFrame) (s : State) : (streamFrame p f s).records = s.records := by
  unfold streamFrame; repeat' split
  all_goals rfl
@[simp] theorem streamFrame_link (p : Port) (f : BayFrame) (s : State) : (streamFrame p f s).link = s.link := by
  unfold streamFrame; repeat' split
  all_goals rfl

/-! ### Ring entries are upset -/

@[simp] theorem applyUpsets_pending (u : List Upset) (s : State) : (applyUpsets u s).pending = s.pending := rfl
@[simp] theorem applyUpsets_mode (u : List Upset) (s : State) : (applyUpsets u s).mode = s.mode := rfl
@[simp] theorem applyUpsets_lines (u : List Upset) (s : State) : (applyUpsets u s).lines = s.lines := rfl
@[simp] theorem applyUpsets_rate (u : List Upset) (s : State) : (applyUpsets u s).rate = s.rate := rfl
@[simp] theorem applyUpsets_timer (u : List Upset) (s : State) : (applyUpsets u s).timer = s.timer := rfl
@[simp] theorem applyUpsets_yard (u : List Upset) (s : State) : (applyUpsets u s).yard = s.yard := rfl
@[simp] theorem applyUpsets_bays (u : List Upset) (s : State) : (applyUpsets u s).bays = s.bays := rfl
@[simp] theorem applyUpsets_active (u : List Upset) (s : State) : (applyUpsets u s).active = s.active := rfl
@[simp] theorem applyUpsets_edit (u : List Upset) (s : State) : (applyUpsets u s).edit = s.edit := rfl
@[simp] theorem applyUpsets_ports (u : List Upset) (s : State) : (applyUpsets u s).ports = s.ports := rfl
@[simp] theorem applyUpsets_streams (u : List Upset) (s : State) : (applyUpsets u s).streams = s.streams := rfl
@[simp] theorem applyUpsets_published (u : List Upset) (s : State) : (applyUpsets u s).published = s.published := rfl
@[simp] theorem applyUpsets_replica (u : List Upset) (s : State) : (applyUpsets u s).replica = s.replica := rfl
@[simp] theorem applyUpsets_topology (u : List Upset) (s : State) : (applyUpsets u s).topology = s.topology := rfl
@[simp] theorem applyUpsets_evaluator (u : List Upset) (s : State) : (applyUpsets u s).evaluator = s.evaluator := rfl
@[simp] theorem applyUpsets_detectors (u : List Upset) (s : State) : (applyUpsets u s).detectors = s.detectors := rfl
@[simp] theorem applyUpsets_supervision (u : List Upset) (s : State) : (applyUpsets u s).supervision = s.supervision := rfl
@[simp] theorem applyUpsets_trip (u : List Upset) (s : State) : (applyUpsets u s).trip = s.trip := rfl
@[simp] theorem applyUpsets_bf (u : List Upset) (s : State) : (applyUpsets u s).bf = s.bf := rfl
@[simp] theorem applyUpsets_records (u : List Upset) (s : State) : (applyUpsets u s).records = s.records := rfl
@[simp] theorem applyUpsets_link (u : List Upset) (s : State) : (applyUpsets u s).link = s.link := rfl

/-! ### Entry to RUN -/

@[simp] theorem enterRun_pending (s : State) : (enterRun s).pending = s.pending := rfl
@[simp] theorem enterRun_rate (s : State) : (enterRun s).rate = s.rate := rfl
@[simp] theorem enterRun_timer (s : State) : (enterRun s).timer = s.timer := rfl
@[simp] theorem enterRun_yard (s : State) : (enterRun s).yard = s.yard := rfl
@[simp] theorem enterRun_bays (s : State) : (enterRun s).bays = s.bays := rfl
@[simp] theorem enterRun_active (s : State) : (enterRun s).active = s.active := rfl
@[simp] theorem enterRun_edit (s : State) : (enterRun s).edit = s.edit := rfl
@[simp] theorem enterRun_ports (s : State) : (enterRun s).ports = s.ports := rfl
@[simp] theorem enterRun_streams (s : State) : (enterRun s).streams = s.streams := rfl
@[simp] theorem enterRun_store (s : State) : (enterRun s).store = s.store := rfl
@[simp] theorem enterRun_published (s : State) : (enterRun s).published = s.published := rfl
@[simp] theorem enterRun_replica (s : State) : (enterRun s).replica = s.replica := rfl
@[simp] theorem enterRun_topology (s : State) : (enterRun s).topology = s.topology := rfl
@[simp] theorem enterRun_supervision (s : State) : (enterRun s).supervision = s.supervision := rfl
@[simp] theorem enterRun_records (s : State) : (enterRun s).records = s.records := rfl
@[simp] theorem enterRun_link (s : State) : (enterRun s).link = s.link := rfl

/-! ### Return to SETUP -/

@[simp] theorem returnToSetup_pending (s : State) : (returnToSetup s).pending = s.pending := rfl
@[simp] theorem returnToSetup_rate (s : State) : (returnToSetup s).rate = s.rate := rfl
@[simp] theorem returnToSetup_timer (s : State) : (returnToSetup s).timer = s.timer := rfl
@[simp] theorem returnToSetup_yard (s : State) : (returnToSetup s).yard = s.yard := rfl
@[simp] theorem returnToSetup_bays (s : State) : (returnToSetup s).bays = s.bays := rfl
@[simp] theorem returnToSetup_active (s : State) : (returnToSetup s).active = s.active := rfl
@[simp] theorem returnToSetup_edit (s : State) : (returnToSetup s).edit = s.edit := rfl
@[simp] theorem returnToSetup_ports (s : State) : (returnToSetup s).ports = s.ports := rfl
@[simp] theorem returnToSetup_streams (s : State) : (returnToSetup s).streams = s.streams := rfl
@[simp] theorem returnToSetup_store (s : State) : (returnToSetup s).store = s.store := rfl
@[simp] theorem returnToSetup_published (s : State) : (returnToSetup s).published = s.published := rfl
@[simp] theorem returnToSetup_replica (s : State) : (returnToSetup s).replica = s.replica := rfl
@[simp] theorem returnToSetup_topology (s : State) : (returnToSetup s).topology = s.topology := rfl
@[simp] theorem returnToSetup_evaluator (s : State) : (returnToSetup s).evaluator = s.evaluator := rfl
@[simp] theorem returnToSetup_detectors (s : State) : (returnToSetup s).detectors = s.detectors := rfl
@[simp] theorem returnToSetup_supervision (s : State) : (returnToSetup s).supervision = s.supervision := rfl
@[simp] theorem returnToSetup_records (s : State) : (returnToSetup s).records = s.records := rfl
@[simp] theorem returnToSetup_link (s : State) : (returnToSetup s).link = s.link := rfl

/-! ### The close and the request in flight -/

@[simp] theorem closeFlight_pending (s : State) : (closeFlight s).pending = s.pending := by
  unfold closeFlight; dsimp only; repeat' split
  all_goals rfl
@[simp] theorem closeFlight_rate (s : State) : (closeFlight s).rate = s.rate := by
  unfold closeFlight; dsimp only; repeat' split
  all_goals rfl
@[simp] theorem closeFlight_timer (s : State) : (closeFlight s).timer = s.timer := by
  unfold closeFlight; dsimp only; repeat' split
  all_goals rfl
@[simp] theorem closeFlight_yard (s : State) : (closeFlight s).yard = s.yard := by
  unfold closeFlight; dsimp only; repeat' split
  all_goals rfl
@[simp] theorem closeFlight_bays (s : State) : (closeFlight s).bays = s.bays := by
  unfold closeFlight; dsimp only; repeat' split
  all_goals rfl
@[simp] theorem closeFlight_edit (s : State) : (closeFlight s).edit = s.edit := by
  unfold closeFlight; dsimp only; repeat' split
  all_goals rfl
@[simp] theorem closeFlight_ports (s : State) : (closeFlight s).ports = s.ports := by
  unfold closeFlight; dsimp only; repeat' split
  all_goals rfl
@[simp] theorem closeFlight_streams (s : State) : (closeFlight s).streams = s.streams := by
  unfold closeFlight; dsimp only; repeat' split
  all_goals rfl
@[simp] theorem closeFlight_store (s : State) : (closeFlight s).store = s.store := by
  unfold closeFlight; dsimp only; repeat' split
  all_goals rfl
@[simp] theorem closeFlight_published (s : State) : (closeFlight s).published = s.published := by
  unfold closeFlight; dsimp only; repeat' split
  all_goals rfl
@[simp] theorem closeFlight_replica (s : State) : (closeFlight s).replica = s.replica := by
  unfold closeFlight; dsimp only; repeat' split
  all_goals rfl
@[simp] theorem closeFlight_topology (s : State) : (closeFlight s).topology = s.topology := by
  unfold closeFlight; dsimp only; repeat' split
  all_goals rfl
@[simp] theorem closeFlight_supervision (s : State) : (closeFlight s).supervision = s.supervision := by
  unfold closeFlight; dsimp only; repeat' split
  all_goals rfl
@[simp] theorem closeFlight_records (s : State) : (closeFlight s).records = s.records := by
  unfold closeFlight; dsimp only; repeat' split
  all_goals rfl

/-! ### A close is written -/

@[simp] theorem writeClose_pending (s : State) : (writeClose s).pending = s.pending := rfl
@[simp] theorem writeClose_mode (s : State) : (writeClose s).mode = s.mode := rfl
@[simp] theorem writeClose_lines (s : State) : (writeClose s).lines = s.lines := rfl
@[simp] theorem writeClose_rate (s : State) : (writeClose s).rate = s.rate := rfl
@[simp] theorem writeClose_timer (s : State) : (writeClose s).timer = s.timer := rfl
@[simp] theorem writeClose_yard (s : State) : (writeClose s).yard = s.yard := rfl
@[simp] theorem writeClose_bays (s : State) : (writeClose s).bays = s.bays := rfl
@[simp] theorem writeClose_active (s : State) : (writeClose s).active = s.active := rfl
@[simp] theorem writeClose_edit (s : State) : (writeClose s).edit = s.edit := rfl
@[simp] theorem writeClose_ports (s : State) : (writeClose s).ports = s.ports := rfl
@[simp] theorem writeClose_published (s : State) : (writeClose s).published = s.published := rfl
@[simp] theorem writeClose_replica (s : State) : (writeClose s).replica = s.replica := rfl
@[simp] theorem writeClose_topology (s : State) : (writeClose s).topology = s.topology := rfl
@[simp] theorem writeClose_evaluator (s : State) : (writeClose s).evaluator = s.evaluator := rfl
@[simp] theorem writeClose_detectors (s : State) : (writeClose s).detectors = s.detectors := rfl
@[simp] theorem writeClose_supervision (s : State) : (writeClose s).supervision = s.supervision := rfl
@[simp] theorem writeClose_trip (s : State) : (writeClose s).trip = s.trip := rfl
@[simp] theorem writeClose_bf (s : State) : (writeClose s).bf = s.bf := rfl
@[simp] theorem writeClose_records (s : State) : (writeClose s).records = s.records := rfl
@[simp] theorem writeClose_link (s : State) : (writeClose s).link = s.link := rfl

/-! ### Stage 1 of an evaluation -/

@[simp] theorem deriveReplica_pending (p : Published) (s : State) : (deriveReplica p s).pending = s.pending := rfl
@[simp] theorem deriveReplica_mode (p : Published) (s : State) : (deriveReplica p s).mode = s.mode := rfl
@[simp] theorem deriveReplica_lines (p : Published) (s : State) : (deriveReplica p s).lines = s.lines := rfl
@[simp] theorem deriveReplica_rate (p : Published) (s : State) : (deriveReplica p s).rate = s.rate := rfl
@[simp] theorem deriveReplica_timer (p : Published) (s : State) : (deriveReplica p s).timer = s.timer := rfl
@[simp] theorem deriveReplica_yard (p : Published) (s : State) : (deriveReplica p s).yard = s.yard := rfl
@[simp] theorem deriveReplica_bays (p : Published) (s : State) : (deriveReplica p s).bays = s.bays := rfl
@[simp] theorem deriveReplica_active (p : Published) (s : State) : (deriveReplica p s).active = s.active := rfl
@[simp] theorem deriveReplica_edit (p : Published) (s : State) : (deriveReplica p s).edit = s.edit := rfl
@[simp] theorem deriveReplica_ports (p : Published) (s : State) : (deriveReplica p s).ports = s.ports := rfl
@[simp] theorem deriveReplica_streams (p : Published) (s : State) : (deriveReplica p s).streams = s.streams := rfl
@[simp] theorem deriveReplica_store (p : Published) (s : State) : (deriveReplica p s).store = s.store := rfl
@[simp] theorem deriveReplica_published (p : Published) (s : State) : (deriveReplica p s).published = s.published := rfl
@[simp] theorem deriveReplica_topology (p : Published) (s : State) : (deriveReplica p s).topology = s.topology := rfl
@[simp] theorem deriveReplica_evaluator (p : Published) (s : State) : (deriveReplica p s).evaluator = s.evaluator := rfl
@[simp] theorem deriveReplica_detectors (p : Published) (s : State) : (deriveReplica p s).detectors = s.detectors := rfl
@[simp] theorem deriveReplica_supervision (p : Published) (s : State) : (deriveReplica p s).supervision = s.supervision := rfl
@[simp] theorem deriveReplica_trip (p : Published) (s : State) : (deriveReplica p s).trip = s.trip := rfl
@[simp] theorem deriveReplica_bf (p : Published) (s : State) : (deriveReplica p s).bf = s.bf := rfl
@[simp] theorem deriveReplica_records (p : Published) (s : State) : (deriveReplica p s).records = s.records := rfl
@[simp] theorem deriveReplica_link (p : Published) (s : State) : (deriveReplica p s).link = s.link := rfl

/-! ### Stage 2 of an evaluation -/

@[simp] theorem assembleZones_pending (st : Stamp) (s : State) : (assembleZones st s).pending = s.pending := by
  unfold assembleZones; dsimp only; repeat' split
  all_goals rfl
@[simp] theorem assembleZones_mode (st : Stamp) (s : State) : (assembleZones st s).mode = s.mode := by
  unfold assembleZones; dsimp only; repeat' split
  all_goals rfl
@[simp] theorem assembleZones_lines (st : Stamp) (s : State) : (assembleZones st s).lines = s.lines := by
  unfold assembleZones; dsimp only; repeat' split
  all_goals rfl
@[simp] theorem assembleZones_rate (st : Stamp) (s : State) : (assembleZones st s).rate = s.rate := by
  unfold assembleZones; dsimp only; repeat' split
  all_goals rfl
@[simp] theorem assembleZones_timer (st : Stamp) (s : State) : (assembleZones st s).timer = s.timer := by
  unfold assembleZones; dsimp only; repeat' split
  all_goals rfl
@[simp] theorem assembleZones_yard (st : Stamp) (s : State) : (assembleZones st s).yard = s.yard := by
  unfold assembleZones; dsimp only; repeat' split
  all_goals rfl
@[simp] theorem assembleZones_bays (st : Stamp) (s : State) : (assembleZones st s).bays = s.bays := by
  unfold assembleZones; dsimp only; repeat' split
  all_goals rfl
@[simp] theorem assembleZones_active (st : Stamp) (s : State) : (assembleZones st s).active = s.active := by
  unfold assembleZones; dsimp only; repeat' split
  all_goals rfl
@[simp] theorem assembleZones_edit (st : Stamp) (s : State) : (assembleZones st s).edit = s.edit := by
  unfold assembleZones; dsimp only; repeat' split
  all_goals rfl
@[simp] theorem assembleZones_ports (st : Stamp) (s : State) : (assembleZones st s).ports = s.ports := by
  unfold assembleZones; dsimp only; repeat' split
  all_goals rfl
@[simp] theorem assembleZones_streams (st : Stamp) (s : State) : (assembleZones st s).streams = s.streams := by
  unfold assembleZones; dsimp only; repeat' split
  all_goals rfl
@[simp] theorem assembleZones_store (st : Stamp) (s : State) : (assembleZones st s).store = s.store := by
  unfold assembleZones; dsimp only; repeat' split
  all_goals rfl
@[simp] theorem assembleZones_published (st : Stamp) (s : State) : (assembleZones st s).published = s.published := by
  unfold assembleZones; dsimp only; repeat' split
  all_goals rfl
@[simp] theorem assembleZones_replica (st : Stamp) (s : State) : (assembleZones st s).replica = s.replica := by
  unfold assembleZones; dsimp only; repeat' split
  all_goals rfl
@[simp] theorem assembleZones_evaluator (st : Stamp) (s : State) : (assembleZones st s).evaluator = s.evaluator := by
  unfold assembleZones; dsimp only; repeat' split
  all_goals rfl
@[simp] theorem assembleZones_detectors (st : Stamp) (s : State) : (assembleZones st s).detectors = s.detectors := by
  unfold assembleZones; dsimp only; repeat' split
  all_goals rfl
@[simp] theorem assembleZones_supervision (st : Stamp) (s : State) : (assembleZones st s).supervision = s.supervision := by
  unfold assembleZones; dsimp only; repeat' split
  all_goals rfl
@[simp] theorem assembleZones_trip (st : Stamp) (s : State) : (assembleZones st s).trip = s.trip := by
  unfold assembleZones; dsimp only; repeat' split
  all_goals rfl
@[simp] theorem assembleZones_bf (st : Stamp) (s : State) : (assembleZones st s).bf = s.bf := by
  unfold assembleZones; dsimp only; repeat' split
  all_goals rfl
@[simp] theorem assembleZones_records (st : Stamp) (s : State) : (assembleZones st s).records = s.records := by
  unfold assembleZones; dsimp only; repeat' split
  all_goals rfl

/-! ### Stage 4 of an evaluation -/

@[simp] theorem superviseSet_pending (t : Topology) (r : Results) (s : State) : (superviseSet t r s).pending = s.pending := by
  unfold superviseSet; dsimp only; repeat' split
  all_goals rfl
@[simp] theorem superviseSet_mode (t : Topology) (r : Results) (s : State) : (superviseSet t r s).mode = s.mode := by
  unfold superviseSet; dsimp only; repeat' split
  all_goals rfl
@[simp] theorem superviseSet_lines (t : Topology) (r : Results) (s : State) : (superviseSet t r s).lines = s.lines := by
  unfold superviseSet; dsimp only; repeat' split
  all_goals rfl
@[simp] theorem superviseSet_rate (t : Topology) (r : Results) (s : State) : (superviseSet t r s).rate = s.rate := by
  unfold superviseSet; dsimp only; repeat' split
  all_goals rfl
@[simp] theorem superviseSet_timer (t : Topology) (r : Results) (s : State) : (superviseSet t r s).timer = s.timer := by
  unfold superviseSet; dsimp only; repeat' split
  all_goals rfl
@[simp] theorem superviseSet_yard (t : Topology) (r : Results) (s : State) : (superviseSet t r s).yard = s.yard := by
  unfold superviseSet; dsimp only; repeat' split
  all_goals rfl
@[simp] theorem superviseSet_bays (t : Topology) (r : Results) (s : State) : (superviseSet t r s).bays = s.bays := by
  unfold superviseSet; dsimp only; repeat' split
  all_goals rfl
@[simp] theorem superviseSet_active (t : Topology) (r : Results) (s : State) : (superviseSet t r s).active = s.active := by
  unfold superviseSet; dsimp only; repeat' split
  all_goals rfl
@[simp] theorem superviseSet_edit (t : Topology) (r : Results) (s : State) : (superviseSet t r s).edit = s.edit := by
  unfold superviseSet; dsimp only; repeat' split
  all_goals rfl
@[simp] theorem superviseSet_ports (t : Topology) (r : Results) (s : State) : (superviseSet t r s).ports = s.ports := by
  unfold superviseSet; dsimp only; repeat' split
  all_goals rfl
@[simp] theorem superviseSet_streams (t : Topology) (r : Results) (s : State) : (superviseSet t r s).streams = s.streams := by
  unfold superviseSet; dsimp only; repeat' split
  all_goals rfl
@[simp] theorem superviseSet_store (t : Topology) (r : Results) (s : State) : (superviseSet t r s).store = s.store := by
  unfold superviseSet; dsimp only; repeat' split
  all_goals rfl
@[simp] theorem superviseSet_published (t : Topology) (r : Results) (s : State) : (superviseSet t r s).published = s.published := by
  unfold superviseSet; dsimp only; repeat' split
  all_goals rfl
@[simp] theorem superviseSet_replica (t : Topology) (r : Results) (s : State) : (superviseSet t r s).replica = s.replica := by
  unfold superviseSet; dsimp only; repeat' split
  all_goals rfl
@[simp] theorem superviseSet_topology (t : Topology) (r : Results) (s : State) : (superviseSet t r s).topology = s.topology := by
  unfold superviseSet; dsimp only; repeat' split
  all_goals rfl
@[simp] theorem superviseSet_evaluator (t : Topology) (r : Results) (s : State) : (superviseSet t r s).evaluator = s.evaluator := by
  unfold superviseSet; dsimp only; repeat' split
  all_goals rfl
@[simp] theorem superviseSet_detectors (t : Topology) (r : Results) (s : State) : (superviseSet t r s).detectors = s.detectors := by
  unfold superviseSet; dsimp only; repeat' split
  all_goals rfl
@[simp] theorem superviseSet_trip (t : Topology) (r : Results) (s : State) : (superviseSet t r s).trip = s.trip := by
  unfold superviseSet; dsimp only; repeat' split
  all_goals rfl
@[simp] theorem superviseSet_bf (t : Topology) (r : Results) (s : State) : (superviseSet t r s).bf = s.bf := by
  unfold superviseSet; dsimp only; repeat' split
  all_goals rfl
@[simp] theorem superviseSet_records (t : Topology) (r : Results) (s : State) : (superviseSet t r s).records = s.records := by
  unfold superviseSet; dsimp only; repeat' split
  all_goals rfl

/-! ### Trip logic in RUN -/

@[simp] theorem tripSet_pending (p : Published) (t : Topology) (r : Results) (s : State) : (tripSet p t r s).pending = s.pending := rfl
@[simp] theorem tripSet_mode (p : Published) (t : Topology) (r : Results) (s : State) : (tripSet p t r s).mode = s.mode := rfl
@[simp] theorem tripSet_rate (p : Published) (t : Topology) (r : Results) (s : State) : (tripSet p t r s).rate = s.rate := rfl
@[simp] theorem tripSet_timer (p : Published) (t : Topology) (r : Results) (s : State) : (tripSet p t r s).timer = s.timer := rfl
@[simp] theorem tripSet_yard (p : Published) (t : Topology) (r : Results) (s : State) : (tripSet p t r s).yard = s.yard := rfl
@[simp] theorem tripSet_bays (p : Published) (t : Topology) (r : Results) (s : State) : (tripSet p t r s).bays = s.bays := rfl
@[simp] theorem tripSet_active (p : Published) (t : Topology) (r : Results) (s : State) : (tripSet p t r s).active = s.active := rfl
@[simp] theorem tripSet_edit (p : Published) (t : Topology) (r : Results) (s : State) : (tripSet p t r s).edit = s.edit := rfl
@[simp] theorem tripSet_ports (p : Published) (t : Topology) (r : Results) (s : State) : (tripSet p t r s).ports = s.ports := rfl
@[simp] theorem tripSet_streams (p : Published) (t : Topology) (r : Results) (s : State) : (tripSet p t r s).streams = s.streams := rfl
@[simp] theorem tripSet_store (p : Published) (t : Topology) (r : Results) (s : State) : (tripSet p t r s).store = s.store := rfl
@[simp] theorem tripSet_published (p : Published) (t : Topology) (r : Results) (s : State) : (tripSet p t r s).published = s.published := rfl
@[simp] theorem tripSet_replica (p : Published) (t : Topology) (r : Results) (s : State) : (tripSet p t r s).replica = s.replica := rfl
@[simp] theorem tripSet_topology (p : Published) (t : Topology) (r : Results) (s : State) : (tripSet p t r s).topology = s.topology := rfl
@[simp] theorem tripSet_evaluator (p : Published) (t : Topology) (r : Results) (s : State) : (tripSet p t r s).evaluator = s.evaluator := rfl
@[simp] theorem tripSet_detectors (p : Published) (t : Topology) (r : Results) (s : State) : (tripSet p t r s).detectors = s.detectors := rfl
@[simp] theorem tripSet_supervision (p : Published) (t : Topology) (r : Results) (s : State) : (tripSet p t r s).supervision = s.supervision := rfl

/-! ### Stage 5 of an evaluation -/

@[simp] theorem tripStage_pending (p : Published) (t : Topology) (r : Results) (s : State) : (tripStage p t r s).pending = s.pending := by
  unfold tripStage; dsimp only; repeat' split
  all_goals rfl
@[simp] theorem tripStage_mode (p : Published) (t : Topology) (r : Results) (s : State) : (tripStage p t r s).mode = s.mode := by
  unfold tripStage; dsimp only; repeat' split
  all_goals rfl
@[simp] theorem tripStage_rate (p : Published) (t : Topology) (r : Results) (s : State) : (tripStage p t r s).rate = s.rate := by
  unfold tripStage; dsimp only; repeat' split
  all_goals rfl
@[simp] theorem tripStage_timer (p : Published) (t : Topology) (r : Results) (s : State) : (tripStage p t r s).timer = s.timer := by
  unfold tripStage; dsimp only; repeat' split
  all_goals rfl
@[simp] theorem tripStage_yard (p : Published) (t : Topology) (r : Results) (s : State) : (tripStage p t r s).yard = s.yard := by
  unfold tripStage; dsimp only; repeat' split
  all_goals rfl
@[simp] theorem tripStage_bays (p : Published) (t : Topology) (r : Results) (s : State) : (tripStage p t r s).bays = s.bays := by
  unfold tripStage; dsimp only; repeat' split
  all_goals rfl
@[simp] theorem tripStage_active (p : Published) (t : Topology) (r : Results) (s : State) : (tripStage p t r s).active = s.active := by
  unfold tripStage; dsimp only; repeat' split
  all_goals rfl
@[simp] theorem tripStage_edit (p : Published) (t : Topology) (r : Results) (s : State) : (tripStage p t r s).edit = s.edit := by
  unfold tripStage; dsimp only; repeat' split
  all_goals rfl
@[simp] theorem tripStage_ports (p : Published) (t : Topology) (r : Results) (s : State) : (tripStage p t r s).ports = s.ports := by
  unfold tripStage; dsimp only; repeat' split
  all_goals rfl
@[simp] theorem tripStage_streams (p : Published) (t : Topology) (r : Results) (s : State) : (tripStage p t r s).streams = s.streams := by
  unfold tripStage; dsimp only; repeat' split
  all_goals rfl
@[simp] theorem tripStage_store (p : Published) (t : Topology) (r : Results) (s : State) : (tripStage p t r s).store = s.store := by
  unfold tripStage; dsimp only; repeat' split
  all_goals rfl
@[simp] theorem tripStage_published (p : Published) (t : Topology) (r : Results) (s : State) : (tripStage p t r s).published = s.published := by
  unfold tripStage; dsimp only; repeat' split
  all_goals rfl
@[simp] theorem tripStage_replica (p : Published) (t : Topology) (r : Results) (s : State) : (tripStage p t r s).replica = s.replica := by
  unfold tripStage; dsimp only; repeat' split
  all_goals rfl
@[simp] theorem tripStage_topology (p : Published) (t : Topology) (r : Results) (s : State) : (tripStage p t r s).topology = s.topology := by
  unfold tripStage; dsimp only; repeat' split
  all_goals rfl
@[simp] theorem tripStage_evaluator (p : Published) (t : Topology) (r : Results) (s : State) : (tripStage p t r s).evaluator = s.evaluator := by
  unfold tripStage; dsimp only; repeat' split
  all_goals rfl
@[simp] theorem tripStage_detectors (p : Published) (t : Topology) (r : Results) (s : State) : (tripStage p t r s).detectors = s.detectors := by
  unfold tripStage; dsimp only; repeat' split
  all_goals rfl
@[simp] theorem tripStage_supervision (p : Published) (t : Topology) (r : Results) (s : State) : (tripStage p t r s).supervision = s.supervision := by
  unfold tripStage; dsimp only; repeat' split
  all_goals rfl

/-! ### The trip frame is handed to both ports -/

@[simp] theorem handTripFrame_pending (st : Stamp) (s : State) : (handTripFrame st s).pending = s.pending := rfl
@[simp] theorem handTripFrame_mode (st : Stamp) (s : State) : (handTripFrame st s).mode = s.mode := rfl
@[simp] theorem handTripFrame_lines (st : Stamp) (s : State) : (handTripFrame st s).lines = s.lines := rfl
@[simp] theorem handTripFrame_rate (st : Stamp) (s : State) : (handTripFrame st s).rate = s.rate := rfl
@[simp] theorem handTripFrame_timer (st : Stamp) (s : State) : (handTripFrame st s).timer = s.timer := rfl
@[simp] theorem handTripFrame_yard (st : Stamp) (s : State) : (handTripFrame st s).yard = s.yard := rfl
@[simp] theorem handTripFrame_bays (st : Stamp) (s : State) : (handTripFrame st s).bays = s.bays := rfl
@[simp] theorem handTripFrame_active (st : Stamp) (s : State) : (handTripFrame st s).active = s.active := rfl
@[simp] theorem handTripFrame_edit (st : Stamp) (s : State) : (handTripFrame st s).edit = s.edit := rfl
@[simp] theorem handTripFrame_streams (st : Stamp) (s : State) : (handTripFrame st s).streams = s.streams := rfl
@[simp] theorem handTripFrame_store (st : Stamp) (s : State) : (handTripFrame st s).store = s.store := rfl
@[simp] theorem handTripFrame_published (st : Stamp) (s : State) : (handTripFrame st s).published = s.published := rfl
@[simp] theorem handTripFrame_replica (st : Stamp) (s : State) : (handTripFrame st s).replica = s.replica := rfl
@[simp] theorem handTripFrame_topology (st : Stamp) (s : State) : (handTripFrame st s).topology = s.topology := rfl
@[simp] theorem handTripFrame_evaluator (st : Stamp) (s : State) : (handTripFrame st s).evaluator = s.evaluator := rfl
@[simp] theorem handTripFrame_detectors (st : Stamp) (s : State) : (handTripFrame st s).detectors = s.detectors := rfl
@[simp] theorem handTripFrame_supervision (st : Stamp) (s : State) : (handTripFrame st s).supervision = s.supervision := rfl
@[simp] theorem handTripFrame_trip (st : Stamp) (s : State) : (handTripFrame st s).trip = s.trip := rfl
@[simp] theorem handTripFrame_bf (st : Stamp) (s : State) : (handTripFrame st s).bf = s.bf := rfl
@[simp] theorem handTripFrame_records (st : Stamp) (s : State) : (handTripFrame st s).records = s.records := rfl
@[simp] theorem handTripFrame_link (st : Stamp) (s : State) : (handTripFrame st s).link = s.link := rfl

/-! ### A SETTLE whose set is evaluated is answered -/

@[simp] theorem answerSettle_pending (s : State) : (answerSettle s).pending = s.pending := by
  unfold answerSettle; repeat' split
  all_goals rfl
@[simp] theorem answerSettle_mode (s : State) : (answerSettle s).mode = s.mode := by
  unfold answerSettle; repeat' split
  all_goals rfl
@[simp] theorem answerSettle_lines (s : State) : (answerSettle s).lines = s.lines := by
  unfold answerSettle; repeat' split
  all_goals rfl
@[simp] theorem answerSettle_rate (s : State) : (answerSettle s).rate = s.rate := by
  unfold answerSettle; repeat' split
  all_goals rfl
@[simp] theorem answerSettle_timer (s : State) : (answerSettle s).timer = s.timer := by
  unfold answerSettle; repeat' split
  all_goals rfl
@[simp] theorem answerSettle_yard (s : State) : (answerSettle s).yard = s.yard := by
  unfold answerSettle; repeat' split
  all_goals rfl
@[simp] theorem answerSettle_bays (s : State) : (answerSettle s).bays = s.bays := by
  unfold answerSettle; repeat' split
  all_goals rfl
@[simp] theorem answerSettle_active (s : State) : (answerSettle s).active = s.active := by
  unfold answerSettle; repeat' split
  all_goals rfl
@[simp] theorem answerSettle_edit (s : State) : (answerSettle s).edit = s.edit := by
  unfold answerSettle; repeat' split
  all_goals rfl
@[simp] theorem answerSettle_ports (s : State) : (answerSettle s).ports = s.ports := by
  unfold answerSettle; repeat' split
  all_goals rfl
@[simp] theorem answerSettle_streams (s : State) : (answerSettle s).streams = s.streams := by
  unfold answerSettle; repeat' split
  all_goals rfl
@[simp] theorem answerSettle_store (s : State) : (answerSettle s).store = s.store := by
  unfold answerSettle; repeat' split
  all_goals rfl
@[simp] theorem answerSettle_published (s : State) : (answerSettle s).published = s.published := by
  unfold answerSettle; repeat' split
  all_goals rfl
@[simp] theorem answerSettle_replica (s : State) : (answerSettle s).replica = s.replica := by
  unfold answerSettle; repeat' split
  all_goals rfl
@[simp] theorem answerSettle_topology (s : State) : (answerSettle s).topology = s.topology := by
  unfold answerSettle; repeat' split
  all_goals rfl
@[simp] theorem answerSettle_evaluator (s : State) : (answerSettle s).evaluator = s.evaluator := by
  unfold answerSettle; repeat' split
  all_goals rfl
@[simp] theorem answerSettle_detectors (s : State) : (answerSettle s).detectors = s.detectors := by
  unfold answerSettle; repeat' split
  all_goals rfl
@[simp] theorem answerSettle_supervision (s : State) : (answerSettle s).supervision = s.supervision := by
  unfold answerSettle; repeat' split
  all_goals rfl
@[simp] theorem answerSettle_trip (s : State) : (answerSettle s).trip = s.trip := by
  unfold answerSettle; repeat' split
  all_goals rfl
@[simp] theorem answerSettle_bf (s : State) : (answerSettle s).bf = s.bf := by
  unfold answerSettle; repeat' split
  all_goals rfl
@[simp] theorem answerSettle_records (s : State) : (answerSettle s).records = s.records := by
  unfold answerSettle; repeat' split
  all_goals rfl

end Sys2Proof.Machine
end

