-- ==== Sys2Proof/Laws/Table.lean ====
section
/-! SUPPORT. The small lemmas of tables: what get reads after each way of making a table. -/

namespace Sys2Proof

variable {n : Nat} {α β : Type}

/-- The thing at an index, through the list that holds it. -/
theorem Table.get_eq (t : Table n α) (i : Fin n) : t.get i = t.cells[i.val]'(t.size.symm ▸ i.isLt) := rfl

/-- Two tables that read the same everywhere are the same. -/
theorem Table.ext_get {t u : Table n α} (h : ∀ i, t.get i = u.get i) : t = u := by
  obtain ⟨tc, ht⟩ := t
  obtain ⟨uc, hu⟩ := u
  have : tc = uc := by
    apply List.ext_getElem (by rw [ht, hu])
    intro i h1 h2
    have := h ⟨i, by omega⟩
    simpa [Table.get_eq] using this
  subst this; rfl

@[simp] theorem Table.get_build (f : Fin n → α) (i : Fin n) : (Table.build f).get i = f i := by
  simp [Table.get_eq, Table.build]

@[simp] theorem Table.get_fill (a : α) (i : Fin n) : (Table.fill n a).get i = a := by
  simp [Table.get_eq, Table.fill]

@[simp] theorem Table.get_map (f : α → β) (t : Table n α) (i : Fin n) : (t.map f).get i = f (t.get i) := by
  simp [Table.get_eq, Table.map]

theorem Table.get_set (t : Table n α) (i j : Fin n) (a : α) : (t.set i a).get j = if j = i then a else t.get j := by
  simp only [Table.get_eq, Table.set, List.getElem_set, Fin.ext_iff, eq_comm]

@[simp] theorem Table.get_set_self (t : Table n α) (i : Fin n) (a : α) : (t.set i a).get i = a := by
  simp [Table.get_set]

theorem Table.get_set_ne (t : Table n α) {i j : Fin n} (a : α) (h : j ≠ i) : (t.set i a).get j = t.get j := by
  simp [Table.get_set, h]

theorem Table.get_modify (t : Table n α) (i j : Fin n) (f : α → α) :
    (t.modify i f).get j = if j = i then f (t.get i) else t.get j := by
  simp [Table.modify, Table.get_set]

theorem Table.get_push_zero (t : Table (n + 1) α) (a : α) : (t.push a).get 0 = a := by
  simp [Table.get_eq, Table.push]

/-- An entry that stood at depth i stands one deeper after a push. -/
theorem Table.get_push_succ (t : Table (n + 1) α) (a : α) (i : Fin n) :
    (t.push a).get i.succ = t.get i.castSucc := by
  simp [Table.get_eq, Table.push]

/-- An entry that stood at index i + 1 stands at i after a shift. -/
theorem Table.get_shift_castSucc (t : Table (n + 1) α) (a : α) (i : Fin n) :
    (t.shift a).get i.castSucc = t.get i.succ := by
  simp [Table.get_eq, Table.shift, t.size]

theorem Table.get_shift_last (t : Table (n + 1) α) (a : α) : (t.shift a).get (Fin.last n) = a := by
  simp [Table.get_eq, Table.shift, t.size]

/-- The cells of a table are what get reads, in index order. -/
theorem Table.cells_eq (t : Table n α) : t.cells = List.ofFn t.get := by
  apply List.ext_getElem (by simp [t.size])
  intro i h1 h2
  simp [Table.get_eq]

theorem Table.mem_cells {t : Table n α} {a : α} : a ∈ t.cells ↔ ∃ i, t.get i = a := by
  rw [t.cells_eq]; simp [List.mem_ofFn]

theorem Table.any_cells {t : Table n α} {p : α → Bool} : t.cells.any p = true ↔ ∃ i, p (t.get i) = true := by
  rw [t.cells_eq]; simp

theorem Table.all_cells {t : Table n α} {p : α → Bool} : t.cells.all p = true ↔ ∀ i, p (t.get i) = true := by
  rw [t.cells_eq]; simp

end Sys2Proof
end

