-- ==== Sys2Proof/Laws/Sets.lean ====
section
/-! SUPPORT. What the close of a set, an evaluation and an entry to HALTED can do: the branches of each, with the condition of each. -/

namespace Sys2Proof.Machine

open Sys2Proof

/-! ### Ports -/

/-- A frame handed to a port starts on a free fibre, else it waits. -/
theorem PortState.hand_eq_given (f : TripFrame) (p : PortState) : p.hand f = p.given f := by
  unfold PortState.hand PortState.given
  cases hf : p.fibre <;> simp

theorem Ports.get_map (f : PortState → PortState) (ps : Ports) (p : Port) : (ps.map f).get p = f (ps.get p) := by
  cases p <;> rfl

theorem Ports.get_modify (f : PortState → PortState) (ps : Ports) (p q : Port) :
    (ps.modify p f).get q = if q = p then f (ps.get q) else ps.get q := by
  cases p <;> cases q <;> rfl

/-! ### Entry to HALTED -/

/-- In HALTED a check is only recorded. -/
theorem reportCheck_in_halted {s : State} (c : IntegrityCheck) (h : s.mode = .halted) :
    reportCheck c s = { s with supervision := s.supervision.recordCheck c } := by
  unfold reportCheck
  rw [h]

/-- In SETUP and in RUN a check leads to HALTED. -/
theorem reportCheck_enters {s : State} (c : IntegrityCheck) (h : s.mode ≠ .halted) :
    reportCheck c s =
      driveLines
        { s with
          mode := .halted
          lines := { s.lines with sync := false }
          timer := { s.timer with running := false }
          ports := s.ports.map (fun p => { p with waiting := none })
          published := none
          supervision := { s.supervision.recordCheck c with haltCode := some c }
          trip := TripLogic.reset
          bf := idleTimers
          link := s.link.halt c } := by
  unfold reportCheck
  cases hm : s.mode with
  | setup => rfl
  | run => rfl
  | halted => exact absurd hm h

/-- A report leaves the device in HALTED. -/
theorem reportCheck_mode (c : IntegrityCheck) (s : State) : (reportCheck c s).mode = .halted := by
  cases h : s.mode <;> simp [reportCheck, h, driveLines]

/-! ### The close -/

theorem closeDue_iff {s : State} : closeDue s = true ↔ s.Due := by
  unfold closeDue State.Due setsSinceC0 offsetOf
  rw [Bool.and_eq_true, Bool.and_eq_true, decide_eq_true_iff, Option.isNone_iff_eq_none, and_assoc]

theorem applyUpsets_nil (s : State) : applyUpsets [] s = s := rfl

/-- Where R33 allows no close nothing changes. -/
theorem execSetClose_not_due {s : State} (h : ¬ s.Due) : execSetClose [] s = .next s := by
  unfold execSetClose
  rw [if_neg (by rwa [closeDue_iff]), applyUpsets_nil]

/-- A slot's close finds a mismatch only where it copies an entry in mismatch. -/
theorem closeSlot_mismatch {r : BayRecord} {cell : Option Sample} {b : BayStore} (h : (b.ring.get 23).mismatch = false) :
    (closeSlot r cell b).mismatch = false := by
  unfold closeSlot
  repeat' split
  all_goals first | exact h | rfl

/-- The path of a used slot that is not LOST and holds a sample. -/
theorem closeSlot_received {r : BayRecord} {smp : Sample} {b : BayStore} (hr : r.kind.used = true) (hl : b.lost = false) :
    closeSlot r (some smp) b = closeReceived r b smp := by
  simp [closeSlot, hr, hl]

/-- The path of a used slot that is LOST and holds a sample. -/
theorem closeSlot_recovering {r : BayRecord} {smp : Sample} {b : BayStore} (hr : r.kind.used = true) (hl : b.lost = true) :
    closeSlot r (some smp) b = closeRecovering r b smp := by
  simp [closeSlot, hr, hl]

/-- The path of a used slot at its first or second miss. -/
theorem closeSlot_substituted {r : BayRecord} {b : BayStore} (hr : r.kind.used = true) (hl : b.lost = false) (hg : b.gap ≤ 1) :
    closeSlot r none b = closeSubstituted b := by
  simp [closeSlot, hr, hl, hg]

/-- The path of a used slot at its third miss. -/
theorem closeSlot_lost {r : BayRecord} {b : BayStore} (hr : r.kind.used = true) (hl : b.lost = false) (hg : 1 < b.gap) :
    closeSlot r none b = closeLost b := by
  simp [closeSlot, hr, hl, Nat.not_le.mpr hg]

/-- The path of a LOST slot at a miss. -/
theorem closeSlot_still_lost {r : BayRecord} {b : BayStore} (hr : r.kind.used = true) (hl : b.lost = true) :
    closeSlot r none b = closeStillLost b := by
  simp [closeSlot, hr, hl]

theorem BayKind.used_iff {k : BayKind} : k.used = true ↔ k ≠ .unused := by
  cases k <;> simp [BayKind.used]

/-- The path of an UNUSED slot. -/
theorem closeSlot_unused {r : BayRecord} {cell : Option Sample} {b : BayStore} (hr : r.kind.used = false) :
    closeSlot r cell b = closeUnused b := by
  simp [closeSlot, hr]

/-- The set of c0, closed and published. -/
def closedSet (s : State) : State :=
  { writeClose s with published := some (publication s) }

/-- With sound sources no read of a close finds a mismatch. -/
theorem closeMismatch_eq_false {s : State} (hs : s.SoundSources) : closeMismatch s = false := by
  unfold closeMismatch
  rw [Table.cells_eq, List.any_eq_false]
  intro c hc
  obtain ⟨b, rfl⟩ := List.mem_ofFn.mp hc
  rw [slotCloses, Table.get_build, Bool.not_eq_true]
  exact closeSlot_mismatch (hs b)

/-- A close that R33 allows, with sound sources: the request in flight is handled, then the set is closed and published. -/
theorem execSetClose_due {s : State} (h : s.Due) (hs : s.SoundSources) :
    execSetClose [] s = .next (closedSet (closeFlight s)) := by
  unfold execSetClose
  rw [if_pos (closeDue_iff.mpr h), applyUpsets_nil]
  unfold closeSet closeStore closedSet
  have hm : closeMismatch (closeFlight s) = false :=
    closeMismatch_eq_false (fun b => by rw [closeFlight_store]; exact hs b)
  rw [if_neg (by rw [hm]; exact Bool.false_ne_true)]

/-- What a close leaves in a slot. -/
theorem closedSet_slot (s : State) (b : Slot) :
    (closedSet s).store.slots.get b =
      (closeSlot (s.bays.get b) ((s.store.cells.get 0).get b) (s.store.slots.get b)).store := by
  show ((slotCloses s).map SlotClose.store).get b = _
  rw [Table.get_map, slotCloses, Table.get_build]

/-! ### The evaluation -/

/-- An evaluation without a parity mismatch: the five stages, then the trip frame and SETTLE. -/
theorem evaluateSet_whole {s s1 : State} {p : Published} {r : Results} (h : s.published = some p)
    (hm : measureSet (newTopology p.stamp (deriveReplica p s)) (assembleZones p.stamp (deriveReplica p s)) = .whole s1 r) :
    evaluateSet s =
      finishSet p (newTopology p.stamp (deriveReplica p s)) r
        (superviseSet (newTopology p.stamp (deriveReplica p s)) r s1) := by
  unfold evaluateSet
  rw [h]
  dsimp only
  unfold evaluateFrom
  rw [hm]

/-- An evaluation that finds a parity mismatch leads to HALTED. -/
theorem evaluateSet_abandoned {s s1 : State} {p : Published} (h : s.published = some p)
    (hm : measureSet (newTopology p.stamp (deriveReplica p s)) (assembleZones p.stamp (deriveReplica p s)) = .abandoned s1) :
    evaluateSet s = reportCheck .storeParity s1 := by
  unfold evaluateSet
  rw [h]
  dsimp only
  unfold evaluateFrom
  rw [hm]

/-- Of two checks reported at one moment in SETUP or RUN the first taken halts the device, and the second changes nothing but the
record of the checks (R153). -/
theorem reportCheck_beside {s : State} (c d : IntegrityCheck) :
    reportCheck d (reportCheck c s) =
      { reportCheck c s with supervision := (reportCheck c s).supervision.recordCheck d } :=
  reportCheck_in_halted d (reportCheck_mode c s)

/-- With no set in evaluation, and no close that finds a mismatch at the moment of the report, nothing but the report acts. -/
theorem execRefclkAbsent_idle {s : State} {m : ClockReport} (hp : s.published = none)
    (h : m.clockFirst = false ∨ ¬ s.Due ∨ s.SoundSources) :
    execRefclkAbsent m s = .next (reportCheck .timerFault s) := by
  have hc : cutShort m s = ⟨s, false⟩ := by
    unfold cutShort
    rw [hp]
    dsimp only
    rw [if_neg]
    rw [Bool.and_eq_true, Bool.and_eq_true, closeDue_iff]
    rintro ⟨⟨hf, hd⟩, hm⟩
    rcases h with h | h | h
    · rw [h] at hf
      exact Bool.false_ne_true hf
    · exact h hd
    · rw [closeMismatch_eq_false (fun b => by rw [closeFlight_store]; exact h b)] at hm
      exact Bool.false_ne_true hm
  unfold execRefclkAbsent reportAbsent
  rw [hc]
  rfl

/-- The windows hold the twelve newest depths. -/
theorem mem_windowDepths {i : Fin 32} : i ∈ windowDepths ↔ i.val < 12 := by
  revert i
  decide

/-- The entries that the windows read are sound. -/
theorem windowMismatch_eq_false {s : State} (h : s.SoundWindow) : windowMismatch s.store.slots s.bays = false := by
  unfold windowMismatch
  rw [List.any_eq_false]
  intro b _
  rw [Bool.not_eq_true, Bool.and_eq_false_iff]
  cases hb : (s.bays.get b).kind.used with
  | false => exact Or.inl rfl
  | true =>
    right
    rw [List.any_eq_false]
    intro i hi
    rw [Bool.not_eq_true]
    exact h b i (BayKind.used_iff.mp hb) (mem_windowDepths.mp hi)

/-- Stage 3 without a mismatch: the detectors, then the counters, then the results. -/
theorem measureSet_whole {s : State} {t : Topology} (hn : newestMismatch s.store.slots t = false) (hw : s.SoundWindow) :
    let d := s.detectors.act s.active s.store.slots t
    let u : State :=
      { s with detectors := d, evaluator := (s.evaluator.restart t).update s.active s.store.slots t d }
    measureSet t s = .whole { u with evaluator := { u.evaluator with results := some (resultsOf t u) } } (resultsOf t u) := by
  intro d u
  unfold measureSet
  dsimp only
  rw [if_neg (by rw [hn]; exact Bool.false_ne_true), if_neg (by rw [windowMismatch_eq_false hw]; exact Bool.false_ne_true)]

/-- Stage 3 with a mismatch in a newest entry: nothing but the effect of the change marks on the counters. -/
theorem measureSet_newest {s : State} {t : Topology} (hn : newestMismatch s.store.slots t = true) :
    measureSet t s = .abandoned { s with evaluator := s.evaluator.restart t } := by
  unfold measureSet
  dsimp only
  rw [if_pos hn]

/-! ### Windowed sums -/

/-- A signed current as the statements say it. -/
theorem signedCurrent_eq (s : State) (m : Member) (p : Phase) (i : Fin 32) :
    signedCurrent s m p i = m.signed (current s.store.slots m.slot i p) := by
  unfold signedCurrent Member.signed current ringEntry
  split <;> simp

theorem natAbs_signedCurrent (s : State) (m : Member) (p : Phase) (i : Fin 32) :
    (signedCurrent s m p i).natAbs = (current s.store.slots m.slot i p).natAbs := by
  rw [signedCurrent_eq, Member.signed]
  split <;> simp

/-- D as the statements say it. -/
theorem windowD_eq (s : State) (ms : List Member) (p : Phase) : windowD s.store.slots ms p = windowedD s ms p := by
  unfold windowD windowedD windowDepths sumD
  simp only [List.map_map, Fin.sum_univ_def, signedCurrent_eq]
  rfl

/-- R as the statements say it. -/
theorem windowR_eq (s : State) (ms : List Member) (p : Phase) : windowR s.store.slots ms p = windowedR s ms p := by
  unfold windowR windowedR windowDepths sumR
  simp only [List.map_map, Fin.sum_univ_def, natAbs_signedCurrent]
  rfl

end Sys2Proof.Machine
end

