-- ==== Sys2Proof/Laws/Yard.lean ====
section
/-! SUPPORT. What the search over the bay slots answers, and what the checks of R11 answer. -/

namespace Sys2Proof.Machine

open Sys2Proof

/-! ### Searches in ascending order -/

/-- A search in ascending order answers the first index that meets the test. -/
theorem find_finRange_eq_some {n : Nat} {p : Fin n → Bool} {b : Fin n} :
    (List.finRange n).find? p = some b ↔ p b = true ∧ ∀ a, a < b → p a = false := by
  rw [List.find?_eq_some_iff_getElem]
  constructor
  · rintro ⟨hb, i, hi, hib, hlt⟩
    refine ⟨hb, fun a ha => ?_⟩
    have hb' : b.val = i := by rw [← hib]; simp
    have := hlt a.val (by omega)
    simpa using this
  · rintro ⟨hb, hlt⟩
    refine ⟨hb, b.val, by simp, by simp, fun j hj => ?_⟩
    have := hlt ⟨j, by omega⟩ (by simpa [Fin.lt_def] using hj)
    simp [this]

/-- A search finds nothing when no index meets the test. -/
theorem find_finRange_eq_none {n : Nat} {p : Fin n → Bool} :
    (List.finRange n).find? p = none ↔ ∀ a, p a = false := by
  simp [List.find?_eq_none]

/-! ### Sections in use -/

theorem inUse_iff {s : State} {k : Bus} : s.yard.sections.inUse k = true ↔ s.InUse k := by
  have hk := k.isLt
  unfold SectionCount.inUse State.InUse
  rw [decide_eq_true_iff]
  rcases s.yard.sections with _ | _
  · simp [SectionCount.number]
  · simp [SectionCount.number]

/-! ### The checks of R11 -/

theorem streamNames_iff {streams : Table 26 (Option StreamEntry)} {b : Slot} :
    streamNames streams b = true ↔ ∃ i e, streams.get i = some e ∧ e.slot = b := by
  unfold streamNames
  rw [Table.any_cells]
  constructor
  · rintro ⟨i, h⟩
    cases he : streams.get i with
    | none => rw [he] at h; cases h
    | some e => rw [he] at h; exact ⟨i, e, he, by simpa using h⟩
  · rintro ⟨i, e, he, h⟩
    exact ⟨i, by rw [he]; simpa using h⟩

theorem used_iff {k : BayKind} : k.used = true ↔ k ≠ .unused := by
  cases k <;> simp [BayKind.used]

theorem failsPairing_iff {s : State} {b : Slot} : failsPairing s b = true ↔ s.CheckFails 1 b.val := by
  have hn := @streamNames_iff s.streams b
  unfold failsPairing State.CheckFails
  constructor
  · intro h
    refine ⟨b, rfl, ?_⟩
    by_cases hu : (s.bays.get b).kind = .unused
    · right
      have : streamNames s.streams b = true := by
        cases hs : streamNames s.streams b with
        | true => rfl
        | false => rw [hs, hu] at h; cases h
      exact ⟨hu, hn.mp this⟩
    · left
      refine ⟨hu, fun i e he hb => ?_⟩
      have h1 := hn.mpr ⟨i, e, he, hb⟩
      rw [h1, used_iff.mpr hu] at h
      cases h
  · rintro ⟨c, hc, h⟩
    have := Fin.ext hc
    subst this
    rcases h with ⟨hu, h⟩ | ⟨hu, h⟩
    · have : streamNames s.streams c = false := by
        cases hs : streamNames s.streams c with
        | false => rfl
        | true => obtain ⟨i, e, he, hb⟩ := hn.mp hs; exact absurd hb (h i e he)
      rw [this, used_iff.mpr hu]
      rfl
    · rw [hn.mpr h, hu]
      rfl

theorem failsSections_iff {s : State} {b : Slot} : failsSections s b = true ↔ s.CheckFails 2 b.val := by
  unfold failsSections State.CheckFails
  rw [Bool.and_eq_true, decide_eq_true_iff]
  constructor
  · rintro ⟨h2, hk⟩
    refine ⟨b, rfl, h2, ?_⟩
    rcases hkind : (s.bays.get b).kind with _ | side | ⟨j, c⟩
    · rw [hkind] at hk; cases hk
    · cases side <;> simp_all [BayKind.needsFour]
    · cases j <;> simp_all [BayKind.needsFour]
  · rintro ⟨c, hc, h2, h⟩
    have := Fin.ext hc
    subst this
    refine ⟨h2, ?_⟩
    rcases h with h | ⟨ct, h | h | h⟩ <;> rw [h] <;> rfl

theorem failsJunction_iff {s : State} {b : Slot} : failsJunction s b = true ↔ s.CheckFails 3 b.val := by
  unfold failsJunction State.CheckFails
  simp only [Bool.and_eq_true, List.any_eq_true, decide_eq_true_eq]
  constructor
  · rintro ⟨hj, a, -, hab, hk⟩
    refine ⟨a, b, rfl, hab, ?_⟩
    rcases hkb : (s.bays.get b).kind with _ | side | ⟨j, c⟩
    · rw [hkb] at hj; cases hj
    · rw [hkb] at hj; cases hj
    · rcases hka : (s.bays.get a).kind with _ | side' | ⟨j', c'⟩
      · rw [hka, hkb] at hk; cases hk
      · rw [hka, hkb] at hk; cases hk
      · rw [hka, hkb] at hk
        simp only [BayKind.junctionKind, Option.some.injEq] at hk
        subst hk
        exact ⟨j', c', c, rfl, rfl⟩
  · rintro ⟨a, c, hc, hac, j, c1, c2, ha, hb⟩
    have := Fin.ext hc
    subst this
    exact ⟨by rw [hb]; rfl, a, List.mem_finRange a, hac, by rw [ha, hb]; rfl⟩

theorem noFeeder_iff {s : State} :
    allSlots.all (fun b => !(s.bays.get b).kind.isFeeder) = true ↔ s.CheckFails 4 255 := by
  unfold State.CheckFails
  simp only [List.all_eq_true, allSlots, List.mem_finRange, true_imp_iff, true_and]
  constructor
  · intro h b side hk
    have := h b
    rw [hk] at this
    cases this
  · intro h b
    rcases hk : (s.bays.get b).kind with _ | side | ⟨j, c⟩
    · rfl
    · exact absurd hk (h b side)
    · rfl

theorem failedRelation_iff {s : State} : s.active.failedRelation.isSome = true ↔ s.CheckFails 5 255 := by
  unfold State.CheckFails Bank.failedRelation
  split_ifs <;> simp_all

/-- Every check that fails is one of the five, at a slot or at 255. -/
theorem checkFails_cases {s : State} {c b : Nat} (h : s.CheckFails c b) :
    (∃ x : Slot, b = x.val ∧ ((c = 1 ∧ failsPairing s x = true) ∨ (c = 2 ∧ failsSections s x = true) ∨
      (c = 3 ∧ failsJunction s x = true))) ∨
    (b = 255 ∧ ((c = 4 ∧ allSlots.all (fun b => !(s.bays.get b).kind.isFeeder) = true) ∨
      (c = 5 ∧ s.active.failedRelation.isSome = true))) := by
  match c, h with
  | 1, h =>
    obtain ⟨x, hx, -⟩ := id h
    exact .inl ⟨x, hx.symm, .inl ⟨rfl, failsPairing_iff.mpr (by rw [hx]; exact h)⟩⟩
  | 2, h =>
    obtain ⟨x, hx, -⟩ := id h
    exact .inl ⟨x, hx.symm, .inr (.inl ⟨rfl, failsSections_iff.mpr (by rw [hx]; exact h)⟩)⟩
  | 3, h =>
    obtain ⟨a, x, hx, -⟩ := id h
    exact .inl ⟨x, hx.symm, .inr (.inr ⟨rfl, failsJunction_iff.mpr (by rw [hx]; exact h)⟩)⟩
  | 4, h =>
    have hb : b = 255 := h.1
    subst hb
    exact .inr ⟨rfl, .inl ⟨rfl, noFeeder_iff.mpr h⟩⟩
  | 5, h =>
    have hb : b = 255 := h.1
    subst hb
    exact .inr ⟨rfl, .inr ⟨rfl, failedRelation_iff.mpr h⟩⟩

/-- The checks of R11 find nothing exactly when none fails. -/
theorem failedCheck_eq_none {s : State} : failedCheck s = none ↔ ∀ c b, ¬ s.CheckFails c b := by
  unfold failedCheck allSlots
  constructor
  · intro h c b hc
    cases h1 : (List.finRange 26).find? (failsPairing s) with
    | some x => rw [h1] at h; cases h
    | none =>
      cases h2 : (List.finRange 26).find? (failsSections s) with
      | some x => rw [h1, h2] at h; cases h
      | none =>
        cases h3 : (List.finRange 26).find? (failsJunction s) with
        | some x => rw [h1, h2, h3] at h; cases h
        | none =>
          rw [h1, h2, h3] at h
          simp only at h
          rcases checkFails_cases hc with ⟨x, -, ⟨-, hx⟩ | ⟨-, hx⟩ | ⟨-, hx⟩⟩ | ⟨-, ⟨-, hx⟩ | ⟨-, hx⟩⟩
          · rw [find_finRange_eq_none.mp h1 x] at hx; cases hx
          · rw [find_finRange_eq_none.mp h2 x] at hx; cases hx
          · rw [find_finRange_eq_none.mp h3 x] at hx; cases hx
          · unfold allSlots at hx; rw [if_pos hx] at h; cases h
          · split_ifs at h
  · intro h
    have h1 : (List.finRange 26).find? (failsPairing s) = none :=
      find_finRange_eq_none.mpr (fun a => Bool.eq_false_iff.mpr (fun ha => h 1 _ (failsPairing_iff.mp ha)))
    have h2 : (List.finRange 26).find? (failsSections s) = none :=
      find_finRange_eq_none.mpr (fun a => Bool.eq_false_iff.mpr (fun ha => h 2 _ (failsSections_iff.mp ha)))
    have h3 : (List.finRange 26).find? (failsJunction s) = none :=
      find_finRange_eq_none.mpr (fun a => Bool.eq_false_iff.mpr (fun ha => h 3 _ (failsJunction_iff.mp ha)))
    rw [h1, h2, h3]
    have h4 : ¬ (List.finRange 26).all (fun b => !(s.bays.get b).kind.isFeeder) = true := fun ha => h 4 255 (noFeeder_iff.mp ha)
    have h5 : ¬ s.active.failedRelation.isSome = true := fun ha => h 5 255 (failedRelation_iff.mp ha)
    simp only [if_neg h4, if_neg h5]

/-- The first failure in the order of R11 is what the checks answer. -/
theorem failedCheck_of_first {s : State} {c b : Nat} (h : s.FirstFailure c b) : failedCheck s = some (c, b) := by
  obtain ⟨hc, hbefore, hlow⟩ := h
  have none_of : ∀ (p : Slot → Bool) (k : Nat), (∀ x, p x = true ↔ s.CheckFails k x.val) → k < c →
      (List.finRange 26).find? p = none := fun p k hp hk =>
    find_finRange_eq_none.mpr (fun a => Bool.eq_false_iff.mpr (fun ha => hbefore k _ hk ((hp a).mp ha)))
  have some_of : ∀ (p : Slot → Bool) (x : Slot), (∀ x, p x = true ↔ s.CheckFails c x.val) → b = x.val → p x = true →
      (List.finRange 26).find? p = some x := fun p x hp hb hx =>
    find_finRange_eq_some.mpr ⟨hx, fun a ha => Bool.eq_false_iff.mpr (fun hpa => hlow a.val (by omega) ((hp a).mp hpa))⟩
  unfold failedCheck allSlots
  rcases checkFails_cases hc with ⟨x, hx, ⟨rfl, hf⟩ | ⟨rfl, hf⟩ | ⟨rfl, hf⟩⟩ | ⟨rfl, ⟨rfl, hf⟩ | ⟨rfl, hf⟩⟩
  · rw [some_of _ x (fun _ => failsPairing_iff) hx hf, hx]
  · rw [none_of _ 1 (fun _ => failsPairing_iff) (by omega), some_of _ x (fun _ => failsSections_iff) hx hf, hx]
  · rw [none_of _ 1 (fun _ => failsPairing_iff) (by omega), none_of _ 2 (fun _ => failsSections_iff) (by omega),
      some_of _ x (fun _ => failsJunction_iff) hx hf, hx]
  · rw [none_of _ 1 (fun _ => failsPairing_iff) (by omega), none_of _ 2 (fun _ => failsSections_iff) (by omega),
      none_of _ 3 (fun _ => failsJunction_iff) (by omega)]
    unfold allSlots at hf
    simp only [if_pos hf]
    rfl
  · rw [none_of _ 1 (fun _ => failsPairing_iff) (by omega), none_of _ 2 (fun _ => failsSections_iff) (by omega),
      none_of _ 3 (fun _ => failsJunction_iff) (by omega)]
    have h4 : ¬ (List.finRange 26).all (fun b => !(s.bays.get b).kind.isFeeder) = true := fun ha =>
      hbefore 4 255 (by omega) (noFeeder_iff.mp ha)
    simp only [if_neg h4, if_pos hf]
    rfl

end Sys2Proof.Machine
end

