-- ==== Sys2Proof/Tests/Slice0.lean ====
section
/-! SUPPORT. Small tests of single commands, their results taken from the manual's tables and worked examples or computed by hand
from its rules, and for each statement with hypotheses one named state and operands that meet them together. -/

namespace Sys2Proof.Tests

open Sys2Proof Sys2Proof.Machine

set_option Elab.async false

/-! ### States and readings -/

/-- The state after a command. -/
def after (c : Instr) (s : State) : State :=
  match exec c s with
  | .next t => t
  | .fault _ => s
  | .refused _ => s

/-- KIND, TAG and payload of the frame on the transmit line after a command. -/
def sent (c : Instr) (s : State) : List Byte :=
  match (after c s).link.line with
  | none => []
  | some f => (f.bytes.drop 3).take (f.bytes.length - 5)

/-- A feeder of side 1, polarity +1, ratio 16,384. -/
def feeder : BayRecord := ⟨.feeder .one, .plus, 16384⟩

/-- An enabled entry that names slot 0. -/
def entry (admitted : Admit) : StreamEntry := ⟨100, 0, admitted, true, StreamCounters.zero⟩

/-- The device after a hard reset but with a feeder in slot 0 and its stream entry at index 0. -/
def oneBay (admitted : Admit) : State :=
  { State.reset with
    bays := State.reset.bays.set 0 feeder
    streams := (Table.fill 26 none).set 0 (some (entry admitted)) }

/-- The same in RUN. -/
def inRun : State :=
  { oneBay .either with mode := .run }

/-- The device in HALTED after a missing reference clock. -/
def inHalted : State :=
  { State.reset with
    mode := .halted
    lines := ⟨false, false, Table.fill 4 false⟩
    timer := ⟨false, 0, 0, 20000⟩
    supervision := { Supervision.reset with haltCode := some .timerFault, timerFault := true } }

/-- A sample of 1,000, -1,000 and 0 with both isolators closed and the breaker closed. -/
def sample : Sample :=
  ⟨⟨[1000, 0xFC18, 0], rfl⟩, ⟨⟨true, false⟩, ⟨true, false⟩, ⟨true, false⟩⟩, true⟩

/-- One bay, and the sample timer just far enough ahead of c0 for the close of set 0, with ALIGN_DELAY 2. -/
def due : State :=
  { oneBay .either with timer := ⟨true, 2, 7, 20000⟩ }

/-- The same with slot 0 as given. -/
def dueWith (b : BayStore) : State :=
  { due with store := { due.store with slots := due.store.slots.set 0 b } }

/-- The same with a sample held for slot 0 in the oldest open set. -/
def dueHeld (b : BayStore) : State :=
  { dueWith b with
    store :=
      { (dueWith b).store with
        cells := Store.emptyCells.set 0 ((Table.fill 26 none).set 0 (some sample)) } }

/-- The stamp and contents of a set closed in RUN. -/
def published : Published :=
  ⟨⟨5, 9⟩, Table.fill 26 none, Table.fill 26 false, true⟩

/-- One bay, with a set in evaluation that was closed in RUN. -/
def evaluating : State :=
  { inRun with published := some published }

/-- The same with 2,000 in every phase at every depth, settings that release at the first set, and a breaker failure timer about to
expire. -/
def tripping : State :=
  { evaluating with
    store :=
      { Store.reset with
        slots :=
          Store.reset.slots.set 0
            { BayStore.reset with ring := Table.fill 32 ⟨Table.fill 3 2000, .present, false⟩ } }
    active := { Bank.reset with zoneOperateSets := 1, checkOperateSets := 1 }
    bf := State.reset.bf.set 0 ⟨.timing, 1, 0, 0⟩ }

/-- A busy transmit line. -/
def busy : Option TxFrame := some ⟨[], false⟩

/-- A record of a backtrip of slot 3. -/
def record : TripRecord := .backtrip ⟨⟨2, 3⟩, 3, 1200, 0b0001, 0b1000⟩

/-- A latched entry of STREAM_LOST for slot 0 that has ended. -/
def ended : Condition := ⟨.streamLost, .bay 0, false, some ⟨0b0001, true⟩, ⟨1, 2⟩⟩

/-- One bay with that entry. -/
def withEnded : State :=
  { oneBay .either with supervision := { Supervision.reset with conditions := [ended] } }

/-! ### Ill-formed commands -/

theorem test_wf_payload_too_long : (Instr.ident 0 (List.replicate 1025 0)).wf = false := by decide +kernel

theorem test_wf_known_kind : (Instr.unknownKindRequest 0x16 0 []).wf = false := by decide

theorem test_wf_upset_twice : (Instr.setClose [⟨3, 1⟩, ⟨3, 1⟩]).wf = false := by decide

/-! ### Byte layer (R183, R186) -/

/-- The catalogued check value of the CRC-16 with polynomial 0x1021 and start 0xFFFF, over the digits 1 to 9. -/
theorem test_crc16_check_value :
    crc16 [0x31, 0x32, 0x33, 0x34, 0x35, 0x36, 0x37, 0x38, 0x39] = 0x29B1 := by decide +kernel

/-- The catalogued check value of the reflected CRC-32 with polynomial 0x04C11DB7, over the digits 1 to 9. -/
theorem test_crc32_check_value :
    crc32 [0x31, 0x32, 0x33, 0x34, 0x35, 0x36, 0x37, 0x38, 0x39] = 0xCBF43926 := by decide +kernel

/-- No row of the command table has bits. -/
theorem test_decode_none : decodeTableWord 8 0 = none ∧ State.reset.withFetchWord 8 0 = State.reset := by decide

/-! ### The worked examples of chapters 5 to 7 -/

/-- The scaling table under R80. -/
theorem test_scaling_table :
    scaleRaw ⟨.unused, .plus, 8192⟩ 3001 = 1501 ∧ scaleRaw ⟨.unused, .minus, 8192⟩ 3001 = -1501 ∧
      scaleRaw ⟨.unused, .plus, 8192⟩ 3000 = 1500 ∧ scaleRaw ⟨.unused, .plus, 4915⟩ 1000 = 300 ∧
      scaleRaw ⟨.unused, .plus, 1024⟩ 1 = 0 ∧ scaleRaw ⟨.unused, .plus, 65535⟩ 32767 = 131066 ∧
      scaleRaw ⟨.unused, .plus, 16384⟩ 0x8000 = -32767 := by decide +kernel

/-- The rows of sets 499, 503, 504 and of set 1,014 with both slopes. -/
theorem test_operate_condition :
    operateHolds 500 32 0 24000 = false ∧ operateHolds 500 32 16000 33600 = false ∧
      operateHolds 500 32 20000 36000 = true ∧ operateHolds 500 32 168000 312000 = true ∧
      operateHolds 500 52 168000 312000 = false := by decide +kernel

/-- The merge of set 3,000 in chapter 6, and the transition that follows it. -/
theorem test_merge_and_transition :
    mergeDetectors [⟨.external, 100⟩, ⟨.settle, 0⟩] = ⟨.external, 100⟩ ∧
      mergeDetectors [⟨.watch, 0⟩, ⟨.quiet, 0⟩] = ⟨.settle, 0⟩ ∧
      (⟨.external, 100⟩ : Detector).transition Bank.reset 0 0 = ⟨.external, 99⟩ := by decide +kernel

/-- The external fault of chapter 6 with the reset settings: 400 against 40,000 takes QUIET to WATCH and WATCH to EXTERNAL. -/
theorem test_external_fault_onset :
    (⟨.quiet, 0⟩ : Detector).transition Bank.reset 400 40000 = ⟨.watch, 0⟩ ∧
      (⟨.watch, 0⟩ : Detector).transition Bank.reset 400 40000 = ⟨.external, 240⟩ := by decide +kernel

/-- One set without current does not stop a timer and a second one does (R133). -/
theorem test_timer_absences :
    (⟨.timing, 9, 0, 0⟩ : BfTimer).act 180 true false = ⟨.timing, 8, 1, 0⟩ ∧
      (⟨.timing, 8, 1, 0⟩ : BfTimer).act 180 true false = ⟨.idle, 0, 0, 0⟩ := by decide

/-! ### Events -/

theorem test_hardReset : (after (.hardReset true false) inHalted).rate = 2 ∧
    (after (.hardReset true false) inHalted).mode = .setup := by decide +kernel

theorem test_refclkAbsent : (after (.refclkAbsent ⟨0, false⟩) inRun).mode = .halted ∧
    sent (.refclkAbsent ⟨0, false⟩) inRun = [0x64, 0, 2] := by decide +kernel


/-- Every third set period at 60 Hz is one REFCLK period shorter (R27). -/
theorem test_setInstant :
    (after .setInstant { State.reset with yard := ⟨.two, .hz60, 2⟩, timer := ⟨true, 1, 0, 16667⟩ }).timer =
      ⟨true, 2, 0, 16666⟩ := by decide +kernel

theorem test_sampleCountWrap :
    (after .sampleCountWrap { State.reset with timer := ⟨true, 1199, 65535, 20000⟩ }).timer = ⟨true, 0, 0, 20000⟩ := by
  decide +kernel

theorem test_linkDown :
    (after (.linkDown .x)
      { State.reset with ports := ⟨{ PortState.reset with link := .up, silence := 23 }, PortState.reset⟩ }).ports.x.link = .down := by
  decide +kernel

/-- The second row of the example under R33: count 1,198 with c0 at 1,197 is at offset 1 and is placed; count 1,199 with c0 at 0
is LATE. -/
theorem test_portFrameReceived :
    let f (n : Nat) : List Byte := bayFrameBytes ⟨100, n, 0, 0, Table.fill 3 0⟩
    let at1197 : State := { oneBay .x with store := { Store.reset with c0 := 1197 } }
    ((((after (.portFrameReceived .x (f 1198)) at1197).store.cells.get 1).get 0).isSome = true ∧
      ((after (.portFrameReceived .x (f 1199)) (oneBay .x)).streams.get 0).map (fun e => e.counters.late) = some 1) := by
  decide +kernel

theorem test_tripFrameSent :
    ((after (.tripFrameSent .y)
      { State.reset with ports := ⟨PortState.reset, { PortState.reset with fibre := some [], waiting := some ⟨513, 3⟩ }⟩ }).ports.y.fibre.map
        (fun bs => (bs.length, bs.take 7))) = some (11, [0xB2, 2, 1, 0, 0, 0, 3]) := by decide +kernel

/-- The third miss in a row (row "close of set 3" of the second example of chapter 2). -/
theorem test_setClose_lost :
    let t := after (.setClose []) (dueWith { BayStore.reset with gap := 2 })
    (t.store.slots.get 0).lost = true ∧ (t.store.slots.get 0).gap = 2 ∧ ((t.store.slots.get 0).ring.get 0).mark = .zero := by
  decide +kernel

/-- The 24th sample in a row ends LOST (row "close of set 27"). -/
theorem test_setClose_recovered :
    let t := after (.setClose []) (dueHeld { BayStore.reset with lost := true, recovery := 23 })
    (t.store.slots.get 0).lost = false ∧ ((t.store.slots.get 0).ring.get 0).currents.cells = [1000, -1000, 0] := by
  decide +kernel

theorem test_evaluateSet_trips :
    (after (.evaluateSet []) tripping).trip.tripLatch.get 0 = true ∧ (after (.evaluateSet []) tripping).trip.bitmap = 1 := by
  decide +kernel

theorem test_externalHoldExpiry :
    let s : State := { evaluating with detectors := { Detectors.reset with check := Table.fill 3 ⟨.external, 1⟩ } }
    (after (.externalHoldExpiry (.check 2)) s).detectors.check.get 2 = ⟨.settle, 0⟩ := by decide +kernel

theorem test_bfTimerExpiry :
    (after (.bfTimerExpiry 0) tripping).trip.backtripLatch.get 1 = true ∧
      ((after (.bfTimerExpiry 0) tripping).bf.get 0).state = .expired := by decide +kernel

theorem test_moderationTimerExpiry :
    let s : State := { State.reset with link := { ControlLink.reset with alarm := ⟨true, 24, some 1, true⟩ } }
    sent (.moderationTimerExpiry .alarm) s = [0x62, 0, 0] ∧
      (after (.moderationTimerExpiry .alarm) s).link.alarm = ⟨true, 24, some 24, false⟩ := by decide +kernel

theorem test_controlByteReceived :
    (after (.controlByteReceived 0xC3 false) State.reset).link.framer = .header [] ∧
      (after (.controlByteReceived 0xC3 true) State.reset).link.framer = .hunt := by decide +kernel

theorem test_gapTimeout :
    (after .gapTimeout { State.reset with link := { ControlLink.reset with framer := .header [0] } }).link.framing = 1 := by
  decide +kernel

/-- A TRIP notice goes before a reply (R182). -/
theorem test_frameTransmitted :
    let s : State :=
      { State.reset with
        link :=
          { ControlLink.reset with
            line := busy, replies := [⟨0x81, 4, [0], false⟩], slots := { NoticeSlots.empty with trip := some [9] } } }
    sent .frameTransmitted s = [0x60, 0, 9] ∧ (after .frameTransmitted s).link.replies.length = 1 := by decide +kernel

theorem test_restartMade :
    let s : State :=
      { withEnded with
        store := { Store.reset with c0 := 77 }
        link := { ControlLink.reset with requests := [⟨0x03, 0, []⟩], flight := some .restart } }
    (after .restartMade s).supervision.conditions = [] ∧ (after .restartMade s).store.c0 = 77 := by decide +kernel

/-! ### Requests (the reply's KIND, TAG, status and data) -/

theorem test_unknownKindRequest :
    sent (.unknownKindRequest 0x05 3 []) State.reset = [0x85, 3, 1] ∧
      sent (.unknownKindRequest 0x90 3 []) State.reset = [0xFF, 3, 1] := by decide +kernel

theorem test_ident : sent (.ident 7 []) State.reset = [0x81, 7, 0, 0x4D, 0x26, 1, 26, 0, 0] := by decide +kernel

/-- The example of 01_switchyard_description_and_setting_banks.md: SECTIONS left at 2 fails check 2 at slot 1. -/
theorem test_mode :
    let e (k : Nat) (b : Slot) : StreamEntry := ⟨BitVec.ofNat 32 (k + 1), b, .either, true, StreamCounters.zero⟩
    let s : State :=
      { State.reset with
        bays :=
          ((((State.reset.bays.set 0 ⟨.junction .coupler1 false, .plus, 16384⟩).set 1 ⟨.junction .sectionA true, .minus, 16384⟩).set 2
            feeder).set 3 feeder).set 4 ⟨.feeder .two, .plus, 16384⟩
        streams :=
          (((((Table.fill 26 none).set 0 (some (e 0 0))).set 1 (some (e 1 1))).set 2 (some (e 2 2))).set 3 (some (e 3 3))).set 4
            (some (e 4 4)) }
    sent (.mode 1 [1]) s = [0x82, 1, 6, 2, 1] ∧
      (after (.mode 1 [1]) { s with yard := ⟨.four, .hz50, 2⟩ }).link.flight = some (.mode true) := by decide +kernel

theorem test_restart :
    sent (.restart 2 []) State.reset = [0x83, 2, 0] ∧
      (after (.restart 2 []) State.reset).link.flight = some .restart := by decide +kernel

/-- The identifier stands at another index. -/
theorem test_streamSet : sent (.streamSet 0 [1, 0, 0, 0, 100, 5, 2, 1]) (oneBay .either) = [0x90, 0, 5] := by decide +kernel

theorem test_streamDrop : (after (.streamDrop 0 [0]) (oneBay .either)).streams.get 0 = none := by decide +kernel

theorem test_streamList :
    (sent (.streamList 0 []) (oneBay .y)).take 10 = [0x92, 0, 0, 0, 0, 0, 100, 0, 1, 1] ∧
      (sent (.streamList 0 []) (oneBay .y)).length = 185 := by decide +kernel

/-- Slot 1 of the example description. -/
theorem test_baySet :
    (after (.baySet 0 [1, 2, 0xFF, 2, 2, 0xFF, 0x40, 0]) State.reset).bays.get 1 = ⟨.junction .sectionA true, .minus, 16384⟩ ∧
      sent (.baySet 0 [1, 2, 0xFF, 2, 1, 0xFF, 0x40, 0]) State.reset = [0x94, 0, 3] := by decide +kernel

theorem test_bayGet : sent (.bayGet 0 [0]) (oneBay .either) = [0x95, 0, 0, 0, 1, 1, 0xFF, 0xFF, 1, 0x40, 0] := by decide +kernel

theorem test_yardSet :
    (after (.yardSet 0 [4, 60, 4]) State.reset).yard = ⟨.four, .hz60, 4⟩ ∧
      (after (.yardSet 0 [4, 60, 4]) State.reset).timer = ⟨true, 0, 0, 16667⟩ := by decide +kernel

/-- In SETUP, the ALARM timer at its last set and the TOPOLOGY timer at k, both marks set. -/
def moderating (k : Nat) (line : Option TxFrame) : State :=
  { State.reset with
    link :=
      { State.reset.link with
        line := line
        alarm := { State.reset.link.alarm with timer := some 1, pending := true }
        topology := { State.reset.link.topology with enabled := true, timer := some k, pending := true } } }

/-- The instant of a frequency restart steps both moderation timers (R30, R180); the ALARM notice of the empty table takes the free
line and the reply waits. -/
theorem test_yardSet_moderates :
    (after (.yardSet 0 [2, 60, 2]) (moderating 2 none)).link.alarm = ⟨true, 24, some 24, false⟩ ∧
      (after (.yardSet 0 [2, 60, 2]) (moderating 2 none)).link.topology = ⟨true, 120, some 1, true⟩ ∧
      (after (.yardSet 0 [2, 60, 2]) (moderating 2 none)).link.line = some ⟨controlFrame 0x62 0 [0], false⟩ ∧
      (after (.yardSet 0 [2, 60, 2]) (moderating 2 none)).link.replies = [⟨0x96, 0, [0], false⟩] ∧
      (after (.yardSet 0 [2, 50, 1]) (moderating 2 none)).link.alarm.timer = some 1 := by decide +kernel

theorem test_yardGet : sent (.yardGet 0 []) State.reset = [0x97, 0, 0, 2, 50, 2] := by decide +kernel

/-- ZONE_IDMIN to 501, and BF_SETS of slot 25 to 601, which is one too many. -/
theorem test_bankWrite :
    (after (.bankWrite 0 [1, 0, 0, 0, 1, 0xF5]) State.reset).edit.zoneIdmin = 501 ∧
      sent (.bankWrite 0 [0x10, 25, 0, 0, 2, 0x59]) State.reset = [0xA0, 0, 3] := by decide +kernel

/-- EXT_RESTRAINT after a hard reset is 5,000. -/
theorem test_bankRead : sent (.bankRead 0 [0, 9, 0]) State.reset = [0xA1, 0, 0, 0, 0, 0x13, 0x88] := by decide +kernel

theorem test_bankApply :
    sent (.bankApply 0 []) { State.reset with edit := { Bank.reset with zoneSlope := 53 } } = [0xA2, 0, 6, 1, 0xFF] ∧
      (after (.bankApply 0 []) inRun).link.flight = some .bankApply := by decide +kernel

/-- STREAM_LOST below BLOCK_ZONE is refused (R145). -/
theorem test_responseSet :
    sent (.responseSet 0 [1, 1, 0]) State.reset = [0xA4, 0, 3] ∧
      (after (.responseSet 0 [2, 3, 1]) State.reset).supervision.responses.get 1 = ⟨.blockAll, true⟩ := by decide +kernel

theorem test_responseGet : sent (.responseGet 0 [3]) State.reset = [0xA5, 0, 0, 2, 1] := by decide +kernel

theorem test_status :
    (sent (.status 0 [0]) State.reset).length = 158 ∧
      sent (.status 0 [1]) withEnded = [0xB0, 0, 0, 1, 1, 0, 70, 0, 1, 0, 2] := by decide +kernel

theorem test_topology :
    sent (.topology 0 []) State.reset =
      [0xB1, 0, 0, 1, 0, 0, 0, 0, 2, 0, 0, 0] ++ List.replicate 16 0 ++ [0] := by decide +kernel

theorem test_measure : sent (.measure 0 []) State.reset = [0xB2, 0, 0, 1, 0, 0, 0, 0, 0, 0] := by decide +kernel

theorem test_positions :
    (sent (.positions 0 []) (oneBay .either)).take 13 = [0xB3, 0, 0, 1, 0, 0, 0, 0, 1, 0, 4, 4, 4] := by decide +kernel

theorem test_counters :
    (sent (.counters 0 [0]) State.reset).length = 345 ∧
      (after (.counters 0 [1]) { State.reset with link := { ControlLink.reset with overrun := 7 } }).link.overrun = 0 := by
  decide +kernel

theorem test_recordRead :
    sent (.recordRead 0 [0]) { State.reset with records := ⟨[record], 2⟩ } =
      [0xB8, 0, 0, 1, 2, 2, 0, 2, 0, 3, 3, 0, 0, 4, 0xB0, 1, 0, 0, 0, 8] ∧
      sent (.recordRead 0 [1]) { State.reset with records := ⟨[record], 2⟩ } = [0xB8, 0, 9] := by decide +kernel

theorem test_recordDiscard :
    sent (.recordDiscard 0 []) { State.reset with records := ⟨[record, record], 2⟩ } = [0xB9, 0, 0, 1] ∧
      sent (.recordDiscard 0 []) State.reset = [0xB9, 0, 9] := by decide +kernel

theorem test_tripClear :
    let s : State :=
      { inRun with
        lines := ⟨true, true, Table.fill 4 true⟩
        trip := { TripLogic.reset with tripLatch := Table.fill 4 true } }
    (after (.tripClear 0 [1]) s).lines.trip.cells = [true, false, true, true] := by decide +kernel

/-- The removal of an entry whose code is at BLOCK_ZONE is a cause of an ALARM notice, which goes out before the reply. -/
theorem test_alarmClear :
    sent (.alarmClear 0 [1, 0]) withEnded = [0x62, 0, 0] ∧
      (after (.alarmClear 0 [1, 0]) withEnded).link.replies = [⟨0xC1, 0, [0], false⟩] := by decide +kernel

theorem test_zoneBlock :
    (after (.zoneBlock 0 [0xFF, 1]) State.reset).supervision.hostBlocks.cells = [true, true, true, true] ∧
      sent (.zoneBlock 0 [4, 1]) State.reset = [0xC2, 0, 3] := by decide +kernel

theorem test_force :
    ((after (.force 0 [0, 1, 2]) (oneBay .either)).replica.slots.get 0).forcedB = .opened ∧
      sent (.force 0 [1, 0, 1]) (oneBay .either) = [0xC4, 0, 3] := by decide +kernel

theorem test_noticeSet :
    (after (.noticeSet 0 [0x63, 1, 9, 0x60]) State.reset).link.topology = ⟨true, 2400, none, false⟩ ∧
      sent (.noticeSet 0 [0x63, 1, 9, 0x61]) State.reset = [0xC8, 0, 3] := by decide +kernel

theorem test_settle :
    (after (.settle 0 []) State.reset).link.flight = some (.settle false) ∧
      (after (.settle 0 []) inHalted).link.flight = none := by decide +kernel

/-! ### Witnesses: a concrete state and operands that meet the hypotheses of a statement together, clause by clause -/

/-- With a control link as after a hard reset and no set in evaluation, any request is served. -/
theorem served_on_reset_link {s : State} (hl : s.link = ControlLink.reset) (hp : s.published = none) (req : Request) :
    s.Served req [] := by
  refine ⟨fun _ => ?_, Or.inr ?_, ?_, ?_, hp⟩ <;> rw [hl]
  · exact ⟨rfl, rfl⟩
  · exact ⟨rfl, rfl, rfl⟩
  · rfl
  · decide

/-- The one entry of the stream table of these states. -/
theorem oneBay_entry {a : Admit} {i : Fin 26} {e : StreamEntry} (h : (oneBay a).streams.get i = some e) :
    i = 0 ∧ e = entry a := by
  have h' : (if i = 0 then some (entry a) else none) = some e := by
    rw [← h]
    show _ = ((Table.fill 26 none).set 0 (some (entry a))).get i
    rw [Table.get_set, Table.get_fill]
  split at h'
  · exact ⟨‹_›, (Option.some.inj h').symm⟩
  · exact nomatch h'

theorem oneBay_paired (a : Admit) : (oneBay a).Paired where
  identifier _ _ _ _ hi hj _ := (oneBay_entry hi).1.trans (oneBay_entry hj).1.symm
  slot _ _ _ _ hi hj _ := (oneBay_entry hi).1.trans (oneBay_entry hj).1.symm
  nonzero _ _ hi := by rw [(oneBay_entry hi).2]; show (100 : BitVec 32) ≠ 0; decide
  counters _ _ hi := by rw [(oneBay_entry hi).2]; show StreamCounters.zero.Bounded; decide
  portX := by show PortState.reset.Bounded; decide
  portY := by show PortState.reset.Bounded; decide

theorem resetBank_admits (i : BankItem) : i.admits (Bank.reset.item i) = true := by
  cases i with
  | releaseMode k => simp [BankItem.admits, BankItem.range, Bank.item, Bank.reset, ReleaseMode.value]
  | bfCurrent b => simp [BankItem.admits, BankItem.range, Bank.item, Bank.reset]
  | bfSets b => simp [BankItem.admits, BankItem.range, Bank.item, Bank.reset]
  | _ => decide

/-- One bay in RUN, with a command that waits. -/
def ready : State :=
  { inRun with pending := [.setInstant] }

theorem ready_ranged : ready.Ranged where
  active := resetBank_admits
  edit := resetBank_admits
  relations := by decide
  applying := by decide
  operate := by decide +kernel
  checkOperate := by decide +kernel
  detectors := by decide +kernel
  checkDetectors := by decide +kernel
  timers := by decide +kernel
  levels c := by cases c <;> decide
  delay := by decide
  ratio := by decide +kernel

theorem witness_StepKeepsWhatTheModeDrives : ready.Driven ∧ ∃ t, step ready = .next t :=
  ⟨⟨by decide, by decide +kernel, by decide, by decide, by decide +kernel, by decide, by decide, by decide, by decide⟩, _, rfl⟩

theorem witness_StepKeepsTheQueues : ready.Queued ∧ ∃ t, step ready = .next t :=
  ⟨⟨by decide, by decide, by decide, by decide, fun _ => ⟨rfl, rfl⟩, trivial, by decide, by decide, by decide, by decide, by decide⟩, _, rfl⟩

theorem witness_StepKeepsSettingsAndStores :
    ready.Ranged ∧ ready.Paired ∧ ready.Stored ∧ ready.Tabled ∧ ∃ t, step ready = .next t :=
  ⟨ready_ranged, ⟨(oneBay_paired .either).1, (oneBay_paired .either).2, (oneBay_paired .either).3, (oneBay_paired .either).4,
      (oneBay_paired .either).5, (oneBay_paired .either).6⟩,
    ⟨by decide, by decide, by decide, by decide +kernel, by decide +kernel, by decide +kernel, by decide +kernel, by decide +kernel,
      by decide⟩,
    ⟨List.nil_sublist _, by decide⟩, _, rfl⟩

theorem witness_EvaluationReadsWhatTheCloseFound :
    evaluating.published ≠ none ∧ (∀ r1 r0, Instr.gapTimeout ≠ .hardReset r1 r0) ∧ exec .gapTimeout evaluating = .next evaluating :=
  ⟨by decide, by decide, rfl⟩

theorem inHalted_driven : inHalted.Driven :=
  ⟨by decide, by decide +kernel, by decide, by decide +kernel, by decide, by decide, by decide, by decide, by decide⟩

theorem witness_HaltedIsLeftByHardResetAlone :
    inHalted.Driven ∧ inHalted.mode = .halted ∧ (∀ r1 r0, Instr.gapTimeout ≠ .hardReset r1 r0) ∧
      exec .gapTimeout inHalted = .next inHalted :=
  ⟨inHalted_driven, rfl, by decide, rfl⟩

theorem witness_LatchesRiseInEvaluationInRunOnly : ∃ t, exec (.evaluateSet []) tripping = .next t ∧
    (tripping.trip.tripLatch.get 0 = false ∧ t.trip.tripLatch.get 0 = true) ∧
    (tripping.trip.backtripLatch.get 0 = false ∧ t.trip.backtripLatch.get 0 = true) :=
  ⟨_, rfl, by decide +kernel⟩

/-- A port that is UP with this silence count. -/
def upAfter (n : Nat) : State :=
  { State.reset with ports := ⟨{ PortState.reset with link := .up, silence := n }, PortState.reset⟩ }

theorem witness_SetInstantAdvancesTimerAndSilence :
    inHalted.timer.running = false ∧ State.reset.timer.running = true ∧
      (let s : State := { State.reset with timer := ⟨true, 1198, 0, 20000⟩ }
       s.timer.running = true ∧ s.timer.count + 1 < s.yard.frequency.ncount) ∧
      (let s : State := { State.reset with timer := ⟨true, 1199, 0, 20000⟩ }
       s.timer.running = true ∧ s.yard.frequency.ncount ≤ s.timer.count + 1) ∧
      ((upAfter 23).timer.running = true ∧ ((upAfter 23).ports.get .x).link = .up ∧ 23 ≤ ((upAfter 23).ports.get .x).silence) ∧
      ((upAfter 22).timer.running = true ∧ ((upAfter 22).ports.get .x).silence < 23) ∧
      ((upAfter 22).ports.get .y).link = .down ∧
      (∀ timer ∈ [none, some 1, some 2], ∀ mark,
        let s : State :=
          { State.reset with link := { ControlLink.reset with alarm := ⟨true, 5, timer, mark⟩, topology := ⟨true, 5, timer, mark⟩ } }
        s.timer.running = true ∧ s.link.Settled ∧ s.link.line = none ∧ s.link.alarm.timer = timer ∧ s.link.topology.timer = timer) := by
  decide

/-- Both moderated classes one set before their timers end. -/
def moderated (interval : Nat) (mark : Bool) : State :=
  { State.reset with
    link := { ControlLink.reset with alarm := ⟨true, interval, some 1, mark⟩, topology := ⟨true, interval, some 1, mark⟩ } }

theorem witness_ModerationExpiryMakesPendingNotice : ∀ interval ∈ [0, 2400], ∀ mark,
    (moderated interval mark).timer.running = true ∧ (moderated interval mark).link.alarm.timer = some 1 ∧
      (moderated interval mark).link.topology.timer = some 1 ∧ (moderated interval mark).link.alarm.pending = mark ∧
      (moderated interval mark).link.topology.pending = mark := by decide

theorem witness_PortDisposesOfUnwantedFrames :
    (1 : BitVec 32) ≠ crc32 [] ∧ ([] : List Byte).length ≠ 15 ∧ ([0xB2] : List Byte).head? ≠ some 0xB1 ∧
      (let f : BayFrame := ⟨100, 1200, 0, 0, Table.fill 3 0⟩
       f.count < 65536 ∧ State.reset.yard.frequency.ncount ≤ f.count) ∧
      (let f : BayFrame := ⟨100, 1199, 1, 0, Table.fill 3 0⟩
       f.count < State.reset.yard.frequency.ncount ∧ inHalted.mode = .halted ∧ State.reset.mode ≠ .halted ∧
        (∀ i, State.reset.streams.get i = none) ∧
        ∀ a : Admit, (oneBay a).Paired ∧ (oneBay a).mode ≠ .halted ∧ f.count < (oneBay a).yard.frequency.ncount ∧
          (oneBay a).streams.get 0 = some (entry a) ∧ (entry a).enabled = true ∧ (entry a).identifier = f.identifier ∧
          (entry a).admitted = a ∧ f.flags.getLsbD 0 = true) :=
  ⟨by decide +kernel, by decide, by decide, by decide, by decide, by decide, by decide, by decide, fun a =>
    ⟨oneBay_paired a, by cases a <;> decide, by cases a <;> decide, by cases a <;> decide, by cases a <;> decide,
      by cases a <;> decide, by cases a <;> decide, by decide⟩⟩

/-- Sample counts at offsets 0, 7, 8, 599, 600 and 1,199 from c0, with the cell empty or full. -/
theorem witness_AcceptedFrameIsPlacedByOffset :
    (∀ count ∈ [0, 7, 8, 599, 600, 1199],
      let f : BayFrame := ⟨100, count, 0, 0, Table.fill 3 0⟩
      (oneBay .either).mode ≠ .halted ∧ (oneBay .either).store.c0 < (oneBay .either).yard.frequency.ncount ∧
        f.count < (oneBay .either).yard.frequency.ncount ∧ (oneBay .either).streams.get 0 = some (entry .either) ∧
        (entry .either).enabled = true ∧ (entry .either).identifier = f.identifier ∧ (entry .either).admitted = .either ∧
        f.flags.getLsbD 0 = false ∧
        (f.count + (oneBay .either).yard.frequency.ncount - (oneBay .either).store.c0) % (oneBay .either).yard.frequency.ncount =
          count) ∧
      (oneBay .either).Paired ∧ ((oneBay .either).store.cells.get 7).get 0 = none ∧
      ((dueHeld BayStore.reset).store.cells.get 0).get 0 = some sample ∧ (dueHeld BayStore.reset).Paired ∧
      (dueHeld BayStore.reset).streams.get 0 = some (entry .either) :=
  ⟨by decide +kernel, oneBay_paired .either, by decide, by decide,
    ⟨(oneBay_paired .either).1, (oneBay_paired .either).2, (oneBay_paired .either).3, (oneBay_paired .either).4,
      (oneBay_paired .either).5, (oneBay_paired .either).6⟩, by decide⟩

theorem witness_SentTripFrameMakesRoomForTheNext :
    (let s : State := { State.reset with ports := ⟨{ PortState.reset with fibre := some [] }, PortState.reset⟩ }
     (s.ports.get .x).fibre = some [] ∧ (s.ports.get .x).waiting = none) ∧
    (let s : State := { State.reset with ports := ⟨{ PortState.reset with fibre := some [], waiting := some ⟨1, 2⟩ }, PortState.reset⟩ }
     (s.ports.get .x).fibre = some [] ∧ (s.ports.get .x).waiting = some ⟨1, 2⟩) := by decide

/-- The stream table of these states is that of `oneBay`. -/
theorem dueHeld_paired (b : BayStore) : (dueWith b).Paired ∧ (dueHeld b).Paired :=
  let ⟨h1, h2, h3, h4, h5, h6⟩ := oneBay_paired .either
  ⟨⟨h1, h2, h3, h4, h5, h6⟩, ⟨h1, h2, h3, h4, h5, h6⟩⟩

/-- The only entry names slot 0, UNUSED here. -/
def dueUnused : State :=
  { dueHeld BayStore.reset with bays := Table.fill 26 BayRecord.reset }

theorem witness_CloseAdvancesAndPublishes :
    (let s : State := { due with timer := ⟨true, 1, 0, 20000⟩ }
     ¬ s.Due) ∧ due.Due ∧ due.SoundSources ∧ due.link.flight = none ∧
      dueUnused.Due ∧ dueUnused.SoundSources ∧ (dueUnused.bays.get 0).kind = .unused ∧
      (dueUnused.store.cells.get 0).get 0 = some sample ∧ dueUnused.streams.get 0 = some (entry .either) ∧
      (entry .either).slot = 0 ∧ dueUnused.Paired :=
  ⟨by decide, by decide, by decide +kernel, by decide, by decide, by decide +kernel, by decide, by decide, by decide, by decide,
    let ⟨h1, h2, h3, h4, h5, h6⟩ := oneBay_paired .either
    ⟨h1, h2, h3, h4, h5, h6⟩⟩

theorem witness_CloseStoresReceivedSample :
    (let s := dueHeld BayStore.reset
     s.Due ∧ s.SoundSources ∧ (s.bays.get 0).kind ≠ .unused ∧ (s.store.slots.get 0).lost = false ∧
      (s.store.cells.get 0).get 0 = some sample) ∧
    ∀ lost,
      let s := dueHeld { BayStore.reset with lost := lost }
      s.Due ∧ s.Paired ∧ (s.bays.get 0).kind ≠ .unused ∧ (s.store.cells.get 0).get 0 = some sample ∧
        s.streams.get 0 = some (entry .either) ∧ (entry .either).slot = 0 :=
  ⟨by decide +kernel, fun lost => ⟨by cases lost <;> decide, (dueHeld_paired _).2, by cases lost <;> decide⟩⟩

theorem witness_CloseSubstitutesAMissingSample :
    (∀ gap ∈ [0, 1],
      let s := dueWith { BayStore.reset with gap := gap }
      s.Due ∧ s.SoundSources ∧ (s.bays.get 0).kind ≠ .unused ∧ (s.store.slots.get 0).lost = false ∧
        (s.store.cells.get 0).get 0 = none ∧ (s.store.slots.get 0).gap ≤ 1 ∧ s.streams.get 0 = some (entry .either) ∧
        (entry .either).slot = 0) ∧
      ∀ gap, (dueWith { BayStore.reset with gap := gap }).Paired :=
  ⟨by decide +kernel, fun _ => (dueHeld_paired _).1⟩

theorem witness_CloseLosesAndRecoversABay :
    (let s := dueWith { BayStore.reset with gap := 2 }
     s.Due ∧ s.SoundSources ∧ (s.bays.get 0).kind ≠ .unused ∧ (s.store.cells.get 0).get 0 = none ∧
      (s.store.slots.get 0).lost = false ∧ (s.store.slots.get 0).gap = 2) ∧
    (let s := dueWith { BayStore.reset with lost := true, recovery := 23 }
     s.Due ∧ s.SoundSources ∧ (s.bays.get 0).kind ≠ .unused ∧ (s.store.cells.get 0).get 0 = none ∧
      (s.store.slots.get 0).lost = true) ∧
    ∀ recovery ∈ [22, 23],
      let s := dueHeld { BayStore.reset with lost := true, recovery := recovery }
      s.Due ∧ s.SoundSources ∧ (s.bays.get 0).kind ≠ .unused ∧ (s.store.slots.get 0).lost = true ∧
        (s.store.cells.get 0).get 0 = some sample ∧ (s.store.slots.get 0).recovery < 24 := by decide +kernel

/-- A close that may be taken, with this request in flight. -/
def dueInFlight (req : Request) (f : Flight) : State :=
  { due with link := { ControlLink.reset with requests := [req], flight := some f } }

theorem witness_CloseCopiesTheBankInFlight :
    let s := dueInFlight ⟨0x22, 9, []⟩ .bankApply
    s.Due ∧ s.SoundSources ∧ s.link.Settled ∧ s.link.flight = some .bankApply ∧ s.link.requests = ⟨0x22, 9, []⟩ :: [] :=
  ⟨by decide, by decide +kernel, fun _ => ⟨rfl, rfl⟩, rfl, rfl⟩

theorem witness_CloseMakesTheModeInFlight (toRun : Bool) :
    let s := dueInFlight ⟨0x02, 9, [1]⟩ (.mode toRun)
    s.Due ∧ s.SoundSources ∧ s.link.Settled ∧ s.link.flight = some (.mode toRun) ∧ s.link.requests = ⟨0x02, 9, [1]⟩ :: [] :=
  ⟨by cases toRun <;> decide, by cases toRun <;> decide +kernel, fun _ => ⟨rfl, rfl⟩, rfl, rfl⟩

theorem witness_ScalingRoundsHalfAwayFromZero :
    (⟨.unused, .plus, 65535⟩ : BayRecord).ratio ≤ 65535 ∧
      2 * (16384 * scaleRaw ⟨.unused, .plus, 8192⟩ 3001 - 3001 * 8192) = 16384 ∧
      2 * (16384 * scaleRaw ⟨.unused, .minus, 8192⟩ 3001 - 3001 * (-1) * 8192) = -16384 := by decide +kernel

/-- A set in evaluation over a feeder with contact pairs, a feeder of side 2 without, a junction and unused slots. -/
def mixed : State :=
  { evaluating with
    yard := ⟨.four, .hz50, 2⟩
    bays := (evaluating.bays.set 1 ⟨.feeder .two, .plus, 16384⟩).set 2 ⟨.junction .coupler1 true, .plus, 16384⟩
    published := some { published with contacts := (Table.fill 26 none).set 0 (some sample.contacts) } }

theorem witness_EvaluationDerivesPositions : ∃ p, mixed.published = some p ∧ p.contacts.get 0 = some sample.contacts ∧
    p.contacts.get 1 = none ∧ (mixed.bays.get 0).kind = .feeder .one ∧ (mixed.bays.get 1).kind = .feeder .two ∧
    (mixed.bays.get 2).kind = .junction .coupler1 true ∧ (mixed.bays.get 3).kind = .unused := ⟨_, rfl, by decide⟩

/-- The same with the set that its evaluation leaves held from before, so that nothing differs. -/
def steady : State :=
  { mixed with topology := (after (.evaluateSet []) mixed).topology }

/-- The zones of a set and their lists. -/
def shape (tp : Topology) : List (BusSet × List Member) × List Member :=
  (tp.zones.map (fun z => (z.buses, z.members)), tp.checkMembers)

/-- No set held, with the class disabled, enabled and idle, enabled and running; and a set held that does not differ. -/
theorem witness_EvaluationPartitionsTheSections : mixed.published ≠ none ∧ mixed.InUse 3 ∧ evaluating.published ≠ none ∧
    ¬ evaluating.InUse 2 ∧ (∀ tp, TopologyDiffers mixed.topology tp) ∧ mixed.link.Settled ∧ mixed.link.topology.enabled = false ∧
    (∀ timer ∈ [none, some 3],
      let s : State := { mixed with link := { ControlLink.reset with topology := ⟨true, 5, timer, false⟩ } }
      s.published ≠ none ∧ s.topology = none ∧ s.link.Settled ∧ s.link.topology.enabled = true ∧ s.link.topology.timer = timer) ∧
    steady.published ≠ none ∧ steady.topology.isSome = true ∧
    (after (.evaluateSet []) steady).topology.map shape = steady.topology.map shape :=
  ⟨by decide, by decide, by decide, by decide, fun _ => Or.inl rfl, by decide, by decide, by decide, by decide, by decide +kernel,
    by decide +kernel⟩

/-- The feeder of side 1 closes both its isolators, so the coupler of the side is INTERNAL (R64). -/
theorem witness_EvaluationListsTheMembers :
    mixed.published ≠ none ∧ evaluating.published ≠ none ∧ (mixed.bays.get 2).kind = .junction .coupler1 true ∧
      (mixed.bays.get 0).kind = .feeder .one ∧
      (after (.evaluateSet []) mixed).topology.map (fun tp => (tp.roles.get 2, tp.roles.get 0)) = some (some .internal, none) := by
  decide +kernel

theorem witness_ConnectedSectionsAreThoseWhoseScopeNamesTheBay : mixed.published ≠ none ∧ evaluating.published ≠ none := by decide

theorem witness_DifferentialIsAtMostRestraint :
    let slots := Table.fill 26 { BayStore.reset with ring := Table.fill 32 ⟨Table.fill 3 (-131066), .present, false⟩ }
    (∀ b i q, (((slots.get b).ring.get i).currents.get q).natAbs ≤ 131066) ∧
      (List.replicate 26 (⟨25, true⟩ : Member)).length ≤ 26 := by
  intro slots
  refine ⟨fun b i q => ?_, by decide⟩
  simp [slots]

theorem witness_HigherSlopeNeverCausesOperation :
    (32 ≤ 52 ∧ operateHolds 500 32 16000 33600 = false) ∧ 64 ≤ 64 ∧ 1 ≤ 1 := by decide +kernel

theorem evaluating_sound : evaluating.SoundWindow := by decide +kernel

theorem tripping_sound : tripping.SoundWindow := by decide +kernel

theorem witness_EvaluationCountsOperation : tripping.published = some published ∧ tripping.SoundWindow ∧ ¬ tripping.InUse 2 ∧
    (tripping.bays.get 0).kind ≠ .unused ∧ (tripping.bays.get 1).kind = .unused :=
  ⟨rfl, tripping_sound, by decide⟩

/-- The two tests of R107 at their bounds, each way out of EXTERNAL and of SETTLE, and a hold of one set with one transition. -/
theorem witness_DetectorFollowsItsTable :
    (Bank.reset.extRestraint ≤ 5000 ∧ 64 * (1249 : Int).natAbs < Bank.reset.extRatio * 5000) ∧
      (Bank.reset.extRestraint ≤ 5000 ∧ ¬ 64 * (1250 : Int).natAbs < Bank.reset.extRatio * 5000) ∧
      ¬ Bank.reset.extRestraint ≤ 4999 ∧
      (1 < (⟨.external, 2⟩ : Detector).hold ∧ (⟨.external, 1⟩ : Detector).hold = 1) ∧
      (2 * 2499 < Bank.reset.extRestraint ∧ Bank.reset.extRestraint ≤ 2 * 2500) ∧
      (1 ≤ 1 ∧ ([] : List (Int × Nat)).length < 1 ∧ ([(0, 0)] : List (Int × Nat)).length = 1) := by decide

theorem witness_MergeTakesTheStrongestDetector :
    (∀ x ∈ ([⟨.external, 3⟩, ⟨.external, 7⟩, ⟨.watch, 0⟩] : List Detector), x.state ≠ .external → x.hold = 0) ∧
      (∃ x ∈ ([⟨.external, 3⟩, ⟨.external, 7⟩, ⟨.watch, 0⟩] : List Detector), x.state = .external) ∧
      (∀ x ∈ ([⟨.quiet, 0⟩, ⟨.watch, 0⟩] : List Detector), x.state ≠ .external) ∧
      (∃ x ∈ ([⟨.quiet, 0⟩, ⟨.watch, 0⟩] : List Detector), x.state = .settle ∨ x.state = .watch) ∧
      (∀ x ∈ ([⟨.quiet, 0⟩] : List Detector), x.state = .quiet) := by decide

theorem witness_HoldExpirySettlesTheDetector :
    let s : State :=
      { evaluating with detectors := ⟨Table.fill 4 (Table.fill 3 ⟨.external, 1⟩), Table.fill 3 ⟨.external, 1⟩⟩ }
    s.published = some published ∧ s.SoundWindow ∧ s.detectors.check.get 2 = ⟨.external, 1⟩ ∧ s.InUse 1 ∧
      ∀ j : Bus, j.val / 2 = 0 → (s.detectors.zones.get j).get 2 = ⟨.external, 1⟩ := by decide +kernel

theorem witness_EvaluationOutsideRunReleasesNothing :
    (let s : State := { tripping with mode := .setup }
     s.published = some published ∧ s.SoundWindow ∧ s.mode ≠ .run ∧ s.link.Settled) ∧
    (let s : State := { tripping with published := some { published with runAtClose := false } }
     s.published = some { published with runAtClose := false } ∧ s.SoundWindow ∧ s.link.Settled) := by decide +kernel

theorem witness_EvaluationInRunLatchesReleasedZones :
    tripping.published = some published ∧ tripping.SoundWindow ∧ tripping.mode = .run ∧ published.runAtClose = true ∧
      ¬ tripping.InUse 3 ∧ NewlyLatched tripping (after (.evaluateSet []) tripping) 0 ∧
      Expires tripping (after (.evaluateSet []) tripping) 0 ∧
      (evaluating.published = some published ∧ evaluating.SoundWindow ∧ evaluating.mode = .run ∧ evaluating.link.Settled ∧
        (¬ ∃ k, NewlyLatched evaluating (after (.evaluateSet []) evaluating) k) ∧
        ¬ ∃ b, Expires evaluating (after (.evaluateSet []) evaluating) b) :=
  ⟨rfl, tripping_sound, rfl, rfl, by decide, by decide +kernel, by decide +kernel, rfl, evaluating_sound, rfl, by decide,
    by decide +kernel, by decide +kernel⟩

theorem witness_EvaluationInRunOrdersTheBitmap :
    tripping.published = some published ∧ tripping.SoundWindow ∧ tripping.mode = .run ∧ published.runAtClose = true ∧
      (tripping.bays.get 1).kind = .unused ∧ (tripping.bays.get 0).kind ≠ .unused := ⟨rfl, tripping_sound, rfl, rfl, by decide⟩

/-- A timer of three sets that sees one set without current and one without initiation, then runs out. -/
theorem witness_BreakerFailureTimerFollowsItsTable :
    let acts := [(true, false), (false, true), (true, true)]
    1 ≤ 3 ∧ acts.length = 3 ∧
      (∀ i < 3, i + 1 < acts.length → (acts[i]?.map Prod.fst = some true ∨ acts[i + 1]?.map Prod.fst = some true) ∧
        (acts[i]?.map Prod.snd = some true ∨ acts[i + 1]?.map Prod.snd = some true)) ∧
      (⟨.timing, 1, 1, 0⟩ : BfTimer).countdown = 1 ∧ 1 < (⟨.timing, 2, 1, 0⟩ : BfTimer).countdown := by decide

theorem witness_TimerExpiryBacktripsTheSections :
    tripping.published = some published ∧ tripping.SoundWindow ∧ tripping.mode = .run ∧ published.runAtClose = true ∧
      (tripping.bays.get 0).kind ≠ .unused ∧ tripping.bf.get 0 = ⟨.timing, 1, 0, 0⟩ ∧
      (((after (.evaluateSet []) tripping).topology.map (fun tp => (tp.connected.get 0).getLsbD 1)) = some true) :=
  ⟨rfl, tripping_sound, rfl, rfl, by decide, by decide, by decide +kernel⟩

/-- The set in evaluation with slot 0 LOST or not, and the entry of STREAM_LOST for it as given. -/
def watched (lost : Bool) (entries : List Condition) : State :=
  { evaluating with
    store := { Store.reset with slots := Store.reset.slots.set 0 { BayStore.reset with lost := lost } }
    supervision := { Supervision.reset with conditions := entries } }

/-- The possible pairs hold STREAM_LOST of slot 0, so a table of one such entry is in order. -/
theorem watched_tabled (lost : Bool) (e : Condition) (hc : e.code = .streamLost) (hs : e.scope = .bay 0)
    (ha : e.active = false → e.latched ≠ none) : (watched lost [e]).Tabled ∧ (watched lost []).Tabled := by
  refine ⟨⟨?_, ?_⟩, List.nil_sublist _, fun _ h => nomatch h⟩
  · show [(e.code, e.scope)].Sublist (watched lost [e]).possibleKeys
    rw [hc, hs, List.singleton_sublist]
    show (Code.streamLost, Scope.bay 0) ∈ evaluating.possibleKeys
    decide +kernel
  · intro x hx
    rw [List.mem_singleton.mp hx]
    exact ha

/-- With slot 0 not LOST, STREAM_LOST has no cause for it; with it LOST, it has. -/
theorem watched_caused (entries : List Condition) (t : State) :
    Caused (watched true entries) t .streamLost (.bay 0) ∧ ¬ Caused (watched false entries) t .streamLost (.bay 0) := by
  refine ⟨Or.inl ⟨0, rfl, Or.inl ⟨rfl, rfl⟩⟩, ?_⟩
  rintro (⟨b, hb, h⟩ | ⟨k, hk, -⟩ | ⟨hk, -⟩ | ⟨p, hk, -⟩)
  · obtain rfl : 0 = b := Scope.bay.inj hb
    rcases h with ⟨-, h⟩ | ⟨h, -⟩ | ⟨h, -⟩ | ⟨h, -⟩ | ⟨h, -⟩ | ⟨h, -⟩
    · exact absurd (show ((watched false []).store.slots.get 0).lost = true from h) (by decide)
    all_goals exact nomatch h
  all_goals exact nomatch hk

/-- The cause present or absent; no entry, a latched one, one that is not latched; the latch flag of the code clear or set; a set that
raises the ALARM cause and one that does not. -/
theorem witness_EvaluationTreatsConditionEntries :
    (∀ lost, (watched lost [ended]).Tabled ∧ (watched lost []).Tabled ∧
      (watched lost [⟨.streamLost, .bay 0, true, none, ⟨1, 2⟩⟩]).Tabled) ∧
      (∀ lost, (watched lost []).published = some published ∧ (watched lost []).SoundWindow ∧
        (Code.streamLost, Scope.bay 0) ∈ (watched lost []).possibleKeys) ∧
      (∀ entries t, Caused (watched true entries) t .streamLost (.bay 0) ∧ ¬ Caused (watched false entries) t .streamLost (.bay 0)) ∧
      (∀ lost, (watched lost []).entryOf (.streamLost, .bay 0) = none ∧
        (watched lost [ended]).entryOf (.streamLost, .bay 0) = some ended ∧
        (watched lost [⟨.streamLost, .bay 0, true, none, ⟨1, 2⟩⟩]).entryOf (.streamLost, .bay 0) =
          some ⟨.streamLost, .bay 0, true, none, ⟨1, 2⟩⟩) ∧
      ((watched true []).supervision.response .streamLost).latch = false ∧
      (let s : State :=
        { watched true [] with
          supervision := { Supervision.reset with responses := Supervision.reset.responses.set 0 ⟨.blockZone, true⟩ } }
       s.published = some published ∧ s.SoundWindow ∧ s.Tabled ∧ s.entryOf (.streamLost, .bay 0) = none ∧
        (s.supervision.response .streamLost).latch = true) ∧
      ((after (.evaluateSet []) (watched true [])).entryOf (.streamLost, .bay 0) ≠ (watched true []).entryOf (.streamLost, .bay 0) ∧
        ((watched true []).supervision.response .streamLost).level ≠ .none ∧ (watched true []).link.Settled) ∧
      (let s : State := { State.reset with published := some published }
       s.published = some published ∧ s.SoundWindow ∧ s.Tabled ∧ s.link.Settled ∧
        ∀ key ∈ s.possibleKeys, (after (.evaluateSet []) s).entryOf key = s.entryOf key) :=
  ⟨fun lost => ⟨(watched_tabled lost ended rfl rfl (by decide)).1, (watched_tabled lost ended rfl rfl (by decide)).2,
      (watched_tabled lost _ rfl rfl (by decide)).1⟩,
    fun lost => ⟨by cases lost <;> rfl, by cases lost <;> decide +kernel, by cases lost <;> decide +kernel⟩,
    watched_caused, fun lost => by cases lost <;> decide +kernel, by decide,
    ⟨rfl, by decide +kernel, ⟨List.nil_sublist _, by decide⟩, by decide +kernel, by decide⟩, by decide +kernel,
    ⟨rfl, by decide +kernel, ⟨List.nil_sublist _, by decide⟩, by decide, by decide +kernel⟩⟩

theorem witness_EvaluationFormsBlockFlags :
    let s := watched true [ended]
    s.published = some published ∧ s.SoundWindow ∧ s.Tabled ∧ s.Ranged :=
  ⟨rfl, by decide +kernel, (watched_tabled true ended rfl rfl (by decide)).1,
    ⟨resetBank_admits, resetBank_admits, ready_ranged.3, ready_ranged.4, ready_ranged.5, ready_ranged.6, ready_ranged.7,
      ready_ranged.8, ready_ranged.9, ready_ranged.10, ready_ranged.11, ready_ranged.12⟩⟩

theorem witness_PushKeepsTheNewestEight :
    let st : RecordStack := ⟨List.replicate 8 record, 255⟩
    st.stack.length ≤ 8 ∧ st.overwrites ≤ 255 := by decide

theorem witness_ParityMismatchHalts :
    (∀ gap ∈ [0, 1],
      let s := dueWith { BayStore.reset with gap := gap }
      s.mode ≠ .halted ∧ s.Due ∧ (s.bays.get 0).kind ≠ .unused ∧ (s.store.slots.get 0).lost = false ∧
        (s.store.cells.get 0).get 0 = none ∧ (s.store.slots.get 0).gap ≤ 1) ∧
      evaluating.mode ≠ .halted ∧ evaluating.published = some published ∧ (evaluating.bays.get 0).kind = .feeder .one ∧
      evaluating.SoundWindow ∧ (11 : Fin 32).val < 12 ∧
      (mixed.mode ≠ .halted ∧ mixed.published ≠ none ∧ (mixed.bays.get 2).kind ≠ .unused ∧ mixed.SoundWindow ∧
        (after (.evaluateSet []) mixed).topology.map (fun tp => tp.zones.all (fun z => z.members.all (fun m => m.slot ≠ 2))) =
          some true) := by
  decide +kernel

/-- A request in flight behind a busy line; of a RESTART the reply still waits. -/
def flying (req : Request) (f : Flight) (replies : List Reply) : State :=
  { inRun with link := { ControlLink.reset with requests := [req], flight := some f, line := busy, replies := replies } }

/-- A close that is due and whose substitution for slot 0 finds its source in mismatch. -/
def dueUnsound : State :=
  applyUpsets [⟨0, 23⟩] (dueWith BayStore.reset)

/-- Each number of stages, with sound rings and with a mismatch in the window; no set; a close whose read finds a mismatch; HALTED;
requests in flight. -/
theorem witness_AbsentClockHalts :
    (inRun.mode ≠ .halted ∧ inRun.link.Settled ∧ inRun.published = none ∧ inRun.link.flight = none ∧ ¬ inRun.Due ∧
      inRun.link.replies.any (fun r => r.ofRestart) = false) ∧
      (evaluating.mode ≠ .halted ∧ evaluating.published = some published ∧ evaluating.SoundWindow ∧
        (∃ u, exec (.evaluateSet []) evaluating = .next u) ∧ ¬ (applyUpsets [⟨0, 5⟩] evaluating).SoundWindow ∧
        (applyUpsets [⟨0, 5⟩] evaluating).published = some published) ∧
      (dueUnsound.mode ≠ .halted ∧ dueUnsound.Due ∧ (dueUnsound.bays.get 0).kind ≠ .unused ∧
        (dueUnsound.store.slots.get 0).lost = false ∧ (dueUnsound.store.cells.get 0).get 0 = none ∧
        (dueUnsound.store.slots.get 0).gap ≤ 1 ∧ ((dueUnsound.store.slots.get 0).ring.get 23).mismatch = true) ∧
      (inHalted.mode = .halted ∧ inHalted.published = none ∧ ¬ inHalted.Due) ∧
      (let s := flying ⟨0x22, 9, []⟩ .bankApply []
       s.mode ≠ .halted ∧ s.published = none ∧ s.link.line ≠ none ∧ s.link.flight = some .bankApply ∧
        s.link.requests = ⟨0x22, 9, []⟩ :: []) ∧
      (let s := flying ⟨0x03, 9, []⟩ .restart [⟨0x83, 9, [0], true⟩]
       s.mode ≠ .halted ∧ s.published = none ∧ s.link.line ≠ none ∧ s.link.flight = some .restart ∧
        s.link.requests = ⟨0x03, 9, []⟩ :: []) :=
  ⟨by decide, ⟨by decide, rfl, evaluating_sound, ⟨_, rfl⟩, by decide +kernel, rfl⟩, by decide +kernel, by decide, by decide,
    by decide⟩

/-- Of two checks reported at one moment the one taken first is the halt code, and both are recorded (R153): at a read of the
evaluator, and at the read of a close, which stands as SET_CLOSE would leave it. -/
theorem test_refclkAbsent_beside :
    (∀ first,
      let s := after (.refclkAbsent ⟨3, first⟩) (applyUpsets [⟨0, 5⟩] evaluating)
      s.supervision.haltCode = some (if first then .timerFault else .storeParity) ∧ s.supervision.storeParity = true ∧
        s.supervision.timerFault = true) ∧
    let t := after (.refclkAbsent ⟨0, true⟩) dueUnsound
    t.supervision.haltCode = some .timerFault ∧ t.supervision.storeParity = true ∧
      t.store = (after (.setClose []) dueUnsound).store ∧ sent (.refclkAbsent ⟨0, true⟩) dueUnsound = [0x64, 0, 2] := by
  decide +kernel

theorem witness_FramerReceivesFrames :
    (State.reset.link.framer = .hunt ∧ (List.replicate 1024 (0 : Byte)).length ≤ 1024) ∧
      (0 : BitVec 16) ≠ crc16 (u16 0 ++ [1, 7] ++ []) ∧ (0 : Byte) ≠ 0xC3 ∧
      (let s : State := { State.reset with link := { ControlLink.reset with framer := .header [4] } }
       s.link.framer ≠ .hunt ∧ s.link.framer = .header [4] ∧ 1024 < 256 * (4 : Byte).toNat + (1 : Byte).toNat) := by
  decide +kernel

/-- A busy line with these notices and replies waiting. -/
def queued (slots : NoticeSlots) (replies : List Reply) : State :=
  { State.reset with link := { ControlLink.reset with line := busy, slots := slots, replies := replies } }

theorem witness_TransmitterTakesByPriority :
    let r : Reply := ⟨0x81, 1, [0], false⟩
    let q : Reply := ⟨0x83, 1, [0], true⟩
    let all : NoticeSlots := ⟨some [1], some [2], some [3], some [4], some [5]⟩
    State.reset.link.line = none ∧ (queued all [r]).link.line ≠ none ∧
      (∀ x ∈ (queued all [r]).link.replies, x.ofRestart = false) ∧ (queued all [r]).link.slots.halt = some [1] ∧
      (let a : NoticeSlots := { all with halt := none }
       (queued a [r]).link.slots.halt = none ∧ (queued a [r]).link.slots.trip = some [2]) ∧
      (let a : NoticeSlots := { all with halt := none, trip := none }
       (queued a [r]).link.slots.trip = none ∧ (queued a [r]).link.slots.backtrip = some [3]) ∧
      (let a : NoticeSlots := { all with halt := none, trip := none, backtrip := none }
       (queued a [r]).link.slots.backtrip = none ∧ (queued a [r]).link.replies = r :: [] ∧
        (queued a []).link.replies = [] ∧ (queued a []).link.slots.topology = some [4]) ∧
      (let a : NoticeSlots := { NoticeSlots.empty with alarm := some [5] }
       (queued a []).link.slots.topology = none ∧ (queued a []).link.slots.alarm = some [5] ∧
        (queued NoticeSlots.empty []).link.slots.alarm = none) ∧
      (let a : NoticeSlots := { NoticeSlots.empty with halt := some [1] }
       (queued a [q]).link.line ≠ none ∧ (queued a [q]).link.slots.trip = none ∧ (queued a [q]).link.slots.backtrip = none ∧
        (queued a [q]).link.replies = q :: [] ∧ ∃ x ∈ (queued a [q]).link.replies, x.ofRestart = true) := by decide

theorem witness_RequestsMeetTheCommonChecks :
    (askedBy (.ident 0 []) = some ⟨0x01, 0, []⟩ ∧ (Instr.ident 0 []).wf = true) ∧
      (let s : State := { State.reset with link := { ControlLink.reset with requests := [⟨0x17, 0, []⟩] } }
       ∀ q, ¬ s.Turn ⟨0x01, 0, []⟩ q) ∧
      (evaluating.Turn ⟨0x01, 0, []⟩ [] ∧ ¬ evaluating.Free) ∧
      (State.reset.Served ⟨0x05, 0, []⟩ [] ∧ requestRow 0x05 = none ∧ (Instr.unknownKindRequest 0x05 0 []).wf = true) ∧
      (State.reset.Served ⟨0x01, 0, [1]⟩ [] ∧ ([1] : List Byte).length ≠ 0 ∧ (Instr.ident 0 [1]).wf = true ∧
        requestRow 0x01 = some ⟨0x01, 0, true⟩) ∧
      (inHalted.Served ⟨0x17, 0, []⟩ [] ∧ requestRow 0x17 = some ⟨0x17, 0, false⟩ ∧ inHalted.mode = .halted ∧
        (Instr.yardGet 0 []).wf = true) := by
  refine ⟨by decide, ?_, ⟨Or.inr ⟨rfl, rfl, rfl⟩, by decide⟩, ⟨served_on_reset_link rfl rfl _, by decide, by decide⟩,
    ⟨served_on_reset_link rfl rfl _, by decide, by decide, by decide⟩, served_on_reset_link rfl rfl _, by decide, by decide, by decide⟩
  intro s q h
  rcases h with h | h
  · exact absurd (List.cons.inj h).1 (by decide)
  · exact absurd h.1 (List.cons_ne_nil _ _)

theorem witness_SettingsReadsReturnWhatIsHeld :
    (∀ req, State.reset.Served req []) ∧ State.reset.mode ≠ .halted ∧ (26 : Byte).toNat = 26 ∧ (25 : Byte).toNat = (25 : Slot).val ∧
      (2 ≤ (2 : Byte).toNat ∧ ∀ i : BankItem, i.bytes ≠ [0x13, 0]) ∧ (BankItem.bfSets 25).bytes = [0x10, 25] ∧
      (1 : Byte).toNat < 2 ∧ 10 ≤ (10 : Byte).toNat ∧ (9 : Byte).toNat = (8 : Fin 9).val + 1 := by
  refine ⟨served_on_reset_link rfl rfl, by decide, by decide, by decide, ⟨by decide, ?_⟩, by decide, by decide, by decide, by decide⟩
  intro i
  cases i <;> simp [BankItem.bytes, u8]

theorem witness_StateReadsReturnWhatIsHeld :
    (∀ req, State.reset.Served req []) ∧ State.reset.mode ≠ .halted ∧ State.reset.topology = none ∧
      State.reset.evaluator.results = none ∧ 2 ≤ (2 : Byte).toNat ∧
      (let s := after (.evaluateSet []) { evaluating with link := ControlLink.reset }
       s.topology.isSome = true ∧ s.evaluator.results.isSome = true ∧ s.mode ≠ .halted ∧ s.published = none ∧
        s.link.flight = none ∧ s.link.replies.length < 4 ∧ s.link.requests = [] ∧ s.link.framer = .hunt ∧ s.link.replies = [] ∧
        s.link.slots = NoticeSlots.empty) ∧
      (let s := after (.evaluateSet []) { mixed with link := ControlLink.reset }
       s.topology.map (fun tp => (tp.roles.get 2, tp.roles.get 0)) = some (some .internal, none) ∧ s.link.line.isSome = true) :=
  ⟨served_on_reset_link rfl rfl, by decide, by decide, by decide, by decide, by decide +kernel, by decide +kernel⟩

theorem witness_CountersAreReturnedAndCleared :
    (∀ clear : Byte, (oneBay .either).Served ⟨0x34, 0, [clear]⟩ []) ∧ 2 ≤ (2 : Byte).toNat ∧ (1 : Byte).toNat < 2 :=
  ⟨fun _ => served_on_reset_link rfl rfl _, by decide, by decide⟩

/-- A full stack, with any request served. -/
def stacked (r : TripRecord) : State :=
  { inHalted with records := ⟨List.replicate 8 r, 255⟩ }

theorem witness_RecordsAreReadAndDiscarded :
    (∀ r req, (stacked r).Served req []) ∧ 7 < (8 : Byte).toNat ∧ (7 : Byte).toNat ≤ 7 ∧
      (∀ r, (stacked r).records.stack[(7 : Byte).toNat]? = some r) ∧ State.reset.records.stack.length ≤ (0 : Byte).toNat ∧
      (∀ r, (stacked r).records.stack = r :: List.replicate 7 r) ∧ State.reset.records.stack = [] :=
  ⟨fun _ => served_on_reset_link rfl rfl, by decide, by decide, fun _ => rfl, by decide, fun _ => rfl, rfl⟩

theorem reset_first_failure : State.reset.FirstFailure 4 255 := by
  refine ⟨⟨rfl, ?_⟩, ?_, ?_⟩
  · intro b side
    show ((Table.fill 26 BayRecord.reset).get b).kind ≠ _
    rw [Table.get_fill]
    exact nofun
  · intro c b hc h
    have hb (x : Slot) : State.reset.bays.get x = BayRecord.reset := Table.get_fill _ _
    have hs (i : Fin 26) : State.reset.streams.get i = none := Table.get_fill _ _
    match c, hc with
    | 0, _ => exact h
    | 1, _ =>
      obtain ⟨x, -, h | ⟨-, i, e, he, -⟩⟩ := h
      · exact h.1 (by rw [hb]; rfl)
      · rw [hs] at he
        exact nomatch he
    | 2, _ =>
      obtain ⟨x, -, -, h | ⟨c, h | h | h⟩⟩ := h <;> rw [hb] at h <;> exact nomatch h
    | 3, _ =>
      obtain ⟨x, y, -, -, j, c, c', h, -⟩ := h
      rw [hb] at h
      exact nomatch h
  · intro b hb h
    have : b = 255 := h.1
    omega

theorem inRun_passes (check slot : Nat) : ¬ (oneBay .either).CheckFails check slot := by
  have hb (x : Slot) : (oneBay .either).bays.get x = if x = 0 then feeder else BayRecord.reset := by
    show ((Table.fill 26 BayRecord.reset).set 0 feeder).get x = _
    rw [Table.get_set, Table.get_fill]
  intro h
  match check with
  | 0 => exact h
  | 1 =>
    obtain ⟨x, -, ⟨hk, hn⟩ | ⟨hk, i, e, he, hx⟩⟩ := h
    · rw [hb] at hk
      split at hk
      · subst x
        exact hn 0 (entry .either) (by decide) rfl
      · exact hk rfl
    · rw [(oneBay_entry he).2] at hx
      rw [hb, ← hx] at hk
      exact nomatch hk
  | 2 =>
    obtain ⟨x, -, -, h | ⟨c, h | h | h⟩⟩ := h <;> rw [hb] at h <;> split at h <;> exact nomatch h
  | 3 =>
    obtain ⟨x, y, -, -, j, c, c', h, -⟩ := h
    rw [hb] at h
    split at h <;> exact nomatch h
  | 4 => exact h.2 0 .one (by decide)
  | 5 => exact absurd h.2 (by decide)
  | n + 6 => exact h

theorem witness_ModeIsCheckedAndWaitsForTheClose :
    (∀ req, State.reset.Served req []) ∧ State.reset.mode = .setup ∧ State.reset.FirstFailure 4 255 ∧
      (∀ req, (oneBay .either).Served req []) ∧ (oneBay .either).mode = .setup ∧
      (∀ check slot, ¬ (oneBay .either).CheckFails check slot) ∧ (∀ req, inRun.Served req []) ∧ inRun.mode = .run ∧
      2 ≤ (2 : Byte).toNat :=
  ⟨served_on_reset_link rfl rfl, rfl, reset_first_failure, served_on_reset_link rfl rfl, rfl, inRun_passes,
    served_on_reset_link rfl rfl, rfl, by decide⟩

theorem witness_RestartIsMadeOnceItsReplyHasLeft :
    (inRun.mode ≠ .halted ∧ inRun.Served ⟨0x03, 9, []⟩ []) ∧
      (let s : State := { inRun with link := { ControlLink.reset with requests := [⟨0x03, 9, []⟩], flight := some .restart } }
       s.link.flight = some .restart ∧ ((∀ r ∈ s.link.replies, r.ofRestart = false) ∧ s.link.line = none) ∧
        s.published = none ∧ s.mode ≠ .halted) ∧
      (let s := flying ⟨0x03, 9, []⟩ .restart [⟨0x83, 9, [0], true⟩]
       ¬ ∀ r ∈ s.link.replies, r.ofRestart = false) :=
  ⟨⟨by decide, served_on_reset_link rfl rfl _⟩, by decide, by decide⟩

theorem witness_SettleWaitsForAWholeSet :
    (inRun.mode ≠ .halted ∧ inRun.Served ⟨0x4F, 9, []⟩ []) ∧
      (∀ closed, (dueInFlight ⟨0x4F, 9, []⟩ (.settle closed)).Due ∧ (dueInFlight ⟨0x4F, 9, []⟩ (.settle closed)).SoundSources ∧
        (dueInFlight ⟨0x4F, 9, []⟩ (.settle closed)).link.flight = some (.settle closed)) ∧
      ∀ closed,
        let s : State :=
          { evaluating with link := { ControlLink.reset with requests := [⟨0x4F, 9, []⟩], flight := some (.settle closed) } }
        s.published = some published ∧ s.SoundWindow ∧ s.link.requests = ⟨0x4F, 9, []⟩ :: [] ∧
          s.link.flight = some (.settle closed) :=
  ⟨⟨by decide, served_on_reset_link rfl rfl _⟩, by decide +kernel, by decide +kernel⟩

theorem witness_StreamTableIsWritten :
    let p : List Byte := [25, 0, 0, 0, 100, 0, 2, 1]
    p.length = 8 ∧ (∀ req, (oneBay .either).Served req []) ∧ (∀ req, inRun.Served req []) ∧ inRun.mode = .run ∧
      (oneBay .either).mode = .setup ∧ 26 ≤ (26 : Byte).toNat ∧
      (p = [BitVec.ofNat 8 (25 : Fin 26).val] ++ u32 (100 : BitVec 32).toNat ++
          [BitVec.ofNat 8 (0 : Slot).val, match Admit.either with | .x => 0 | .y => 1 | .either => 2, if true = true then 1 else 0] ∧
        (100 : BitVec 32) ≠ 0 ∧ (oneBay .either).streams.get 0 = some (entry .either) ∧ (0 : Fin 26) ≠ 25 ∧
        (entry .either).identifier = 100) ∧
      (∀ j e, j ≠ 0 → (oneBay .either).streams.get j = some e → e.identifier ≠ 101 ∧ e.slot ≠ 1) ∧
      (25 : Byte).toNat = (25 : Fin 26).val := by
  refine ⟨by decide, served_on_reset_link rfl rfl, served_on_reset_link rfl rfl, rfl, rfl, by decide, by decide, ?_, by decide⟩
  intro j e hj he
  exact absurd (oneBay_entry he).1 hj

theorem witness_BaySetReplacesTheRecord :
    let p : List Byte := recordFields 25 ⟨.feeder .two, .minus, 65535⟩
    p.length = 8 ∧ (∀ req, State.reset.Served req []) ∧ (∀ req, inRun.Served req []) ∧ inRun.mode = .run ∧ State.reset.mode = .setup ∧
      State.reset.bays.get 25 ≠ ⟨.feeder .two, .minus, 65535⟩ ∧ (oneBay .either).bays.get 0 = feeder ∧
      1024 ≤ feeder.ratio ∧ feeder.ratio ≤ 65535 ∧
      (∀ b r, 1024 ≤ r.ratio → r.ratio ≤ 65535 → ([26, 0, 0xFF, 0xFF, 0xFF, 1, 4, 0] : List Byte) ≠ recordFields b r) := by
  refine ⟨by decide, served_on_reset_link rfl rfl, served_on_reset_link rfl rfl, rfl, rfl, by decide, by decide, by decide, by decide, ?_⟩
  intro b r _ _ h
  have h0 := congrArg List.head? h
  have : (26 : Byte) = BitVec.ofNat 8 b.val := by
    have h1 : (recordFields b r).head? = some (BitVec.ofNat 8 b.val) := rfl
    rw [h1] at h0
    exact Option.some.inj h0
  have := congrArg BitVec.toNat this
  simp at this
  omega

theorem witness_YardSetTakesEachConsequence :
    (∀ req, inRun.Served req []) ∧ inRun.mode = .run ∧ (∀ req, State.reset.Served req []) ∧ State.reset.mode = .setup ∧
      5 ≤ (5 : Byte).toNat ∧
      (let y : Yard := ⟨.four, .hz60, 4⟩
       (4 : Byte) = (if y.sections = .two then 2 else 4) ∧ (60 : Byte) = (if y.frequency = .hz50 then 50 else 60) ∧
        (4 : Byte).toNat = y.alignDelay ∧ 1 ≤ y.alignDelay ∧ y.alignDelay ≤ 4 ∧ y.frequency ≠ State.reset.yard.frequency ∧
        y.sections ≠ State.reset.yard.sections) ∧
      (let y : Yard := ⟨.two, .hz50, 1⟩
       (2 : Byte) = (if y.sections = .two then 2 else 4) ∧ (50 : Byte) = (if y.frequency = .hz50 then 50 else 60) ∧
        (1 : Byte).toNat = y.alignDelay ∧ 1 ≤ y.alignDelay ∧ y.alignDelay ≤ 4 ∧ y.frequency = State.reset.yard.frequency ∧
        y.sections = State.reset.yard.sections) ∧
      (∀ k line req, (moderating k line).Served req []) ∧ (moderating 2 none).mode = .setup ∧
      (moderating 2 none).link.alarm.Due ∧ ¬ (moderating 2 none).link.topology.Due ∧ (moderating 1 none).link.topology.Due ∧
      (moderating 2 none).yard = State.reset.yard ∧ (moderating 2 none).link.line = none ∧
      (moderating 1 (some ⟨[], false⟩)).link.line ≠ none ∧ ¬ State.reset.link.alarm.Due :=
  ⟨served_on_reset_link rfl rfl, rfl, served_on_reset_link rfl rfl, rfl, by decide, by decide, by decide,
    fun _ _ _ => ⟨fun _ => ⟨rfl, rfl⟩, Or.inr ⟨rfl, rfl, rfl⟩, rfl, Nat.zero_lt_succ 3, rfl⟩, rfl, ⟨rfl, 1, rfl, le_rfl⟩,
    fun ⟨_, k, hk, h1⟩ => by cases hk; exact absurd h1 (by decide), ⟨rfl, 1, rfl, le_rfl⟩, rfl, rfl, nofun,
    fun h => Bool.false_ne_true h.1⟩

theorem witness_BanksAreWrittenAndApplied :
    (∀ req, State.reset.Served req []) ∧ State.reset.mode = .setup ∧ (∀ req, inRun.Served req []) ∧ inRun.mode = .run ∧
      (BankItem.bytes .zoneIdmin = [1, 0] ∧ BankItem.zoneIdmin.range.1 ≤ 100 ∧ 10000 ≤ BankItem.zoneIdmin.range.2) ∧
      (∀ i : BankItem, i.bytes = [1, 0] → 99 < i.range.1 ∨ i.range.2 < 99) ∧
      (let s : State := { State.reset with edit := { Bank.reset with zoneSlope := 53 } }
       s.edit.zoneSlopeHigh < s.edit.zoneSlope ∧ ∀ req, s.Served req []) ∧
      (let s : State := { State.reset with edit := { Bank.reset with checkSlope := 41 } }
       s.edit.zoneSlope ≤ s.edit.zoneSlopeHigh ∧ s.edit.checkSlopeHigh < s.edit.checkSlope ∧ ∀ req, s.Served req []) ∧
      State.reset.edit.zoneSlope ≤ State.reset.edit.zoneSlopeHigh ∧ State.reset.edit.checkSlope ≤ State.reset.edit.checkSlopeHigh := by
  refine ⟨served_on_reset_link rfl rfl, rfl, served_on_reset_link rfl rfl, rfl, by decide, ?_,
    ⟨by decide, served_on_reset_link rfl rfl⟩, ⟨by decide, by decide, served_on_reset_link rfl rfl⟩, by decide, by decide⟩
  intro i hi
  cases i <;> simp [BankItem.bytes, u8] at hi
  exact Or.inl (by decide)

theorem witness_ResponsesAndNoticeClassesAreWritten :
    (∀ req, inRun.Served req []) ∧ inRun.mode ≠ .halted ∧ 10 ≤ (10 : Byte).toNat ∧ (9 : Byte).toNat = (8 : Fin 9).val + 1 ∧
      (3 : Byte) = (match Level.blockAll with | .none => 0 | .alarm => 1 | .blockZone => 2 | .blockAll => 3) ∧
      2400 < (9 : Byte).toNat * 256 + (0x61 : Byte).toNat ∧ (9 : Byte).toNat * 256 + (0x60 : Byte).toNat ≤ 2400 ∧
      (1 : Byte).toNat < 2 := ⟨served_on_reset_link rfl rfl, by decide⟩

theorem witness_HostBlocksAndForcedValuesAreWritten :
    (∀ req, inRun.Served req []) ∧ inRun.mode ≠ .halted ∧ (4 ≤ (4 : Byte).toNat ∧ (4 : Byte) ≠ 0xFF) ∧ (3 : Byte).toNat < 4 ∧
      (1 : Byte).toNat < 2 ∧ 26 ≤ (26 : Byte).toNat ∧ (0 : Byte).toNat = (0 : Slot).val ∧ (inRun.bays.get 0).kind = .feeder .one ∧
      (1 : Byte).toNat = (1 : Slot).val ∧ (inRun.bays.get 1).kind = .unused ∧
      (2 : Byte) = (match Forced.opened with | .none => 0 | .closed => 1 | .opened => 2) :=
  ⟨served_on_reset_link rfl rfl, by decide⟩

/-- A set in force with a zone of sections 0 and 1, its operate counters as given. -/
def operating (n : Nat) : State :=
  { inRun with
    topology :=
      some ⟨⟨0, 0⟩, .two, [⟨0, 0b0011, [], false⟩], Table.fill 4 false, [], false, Table.fill 4 0, Table.fill 26 0, Table.fill 26 none⟩
    evaluator := { Evaluator.reset with operate := Table.fill 4 (Table.fill 3 n) } }

theorem witness_TripClearClearsTheSectionsNamed :
    inRun.mode ≠ .halted ∧ inRun.Driven ∧ (∀ req, inRun.Served req []) ∧ inRun.topology = none ∧
      4 ≤ (4 : Byte).toNat ∧ (3 : Byte).toNat < 4 ∧
      ((operating 2).mode ≠ .halted ∧ (operating 2).Driven ∧ (∀ req, (operating 2).Served req []) ∧
        ∃ tp z, (operating 2).topology = some tp ∧ tp.zoneOf 1 = some z ∧
          ((operating 2).evaluator.operate.get z.name).get 0 = (operating 2).active.zoneOperateSets ∧ (operating 2).InUse 1) :=
  ⟨by decide, ⟨by decide, by decide +kernel, by decide, by decide, by decide +kernel, by decide, by decide, by decide, by decide⟩,
    served_on_reset_link rfl rfl, rfl, by decide, by decide, by decide,
    ⟨by decide, by decide +kernel, by decide, by decide, by decide +kernel, by decide, by decide, by decide, by decide⟩,
    served_on_reset_link rfl rfl, _, ⟨0, 0b0011, [], false⟩, rfl, by decide, by decide, by decide⟩

/-- An entry removed with its class enabled and idle, enabled with its timer running, disabled; an entry that is active; none. -/
theorem witness_AlarmClearRemovesEndedConditions :
    withEnded.mode ≠ .halted ∧ withEnded.Tabled ∧ (∀ req, withEnded.Served req []) ∧
      ([1, 0] : List Byte) = [BitVec.ofNat 8 Code.streamLost.number, BitVec.ofNat 8 (Scope.bay 0).code] ∧
      Scope.bay 0 ∈ Code.streamLost.scopes ∧ ended ∈ withEnded.supervision.conditions ∧ ended.active = false ∧
      (withEnded.supervision.response .streamLost).level ≠ .none ∧ withEnded.link.alarm.enabled = true ∧
      withEnded.link.alarm.timer = none ∧ State.reset.Tabled ∧ State.reset.supervision.conditions = [] ∧
      (∀ sc : Scope, ([0, 0] : List Byte) ≠ [BitVec.ofNat 8 Code.streamLost.number, BitVec.ofNat 8 sc.code]) :=
  ⟨by decide, ⟨by decide +kernel, by decide⟩, served_on_reset_link rfl rfl, by decide, by decide, by decide, by decide, by decide,
    by decide, by decide, ⟨List.nil_sublist _, by decide⟩, rfl, fun _ h => absurd (List.cons.inj h).1 (by decide)⟩

end Sys2Proof.Tests
end

