-- ==== Sys2Proof/Proofs/Moves.lean ====
section
/-! PROOF. What a step can do: every command is a chain of a few kinds of change, each with the condition under which it is made.
An invariant that every kind of change keeps is kept by every step. -/

namespace Sys2Proof.Machine

open Sys2Proof Relation

/-! ### The link's operations and the request in flight -/

@[simp] theorem ControlLink.kick_flight (l : ControlLink) : l.kick.flight = l.flight := by
  unfold ControlLink.kick ControlLink.takeNext
  repeat' split
  all_goals rfl

@[simp] theorem ControlLink.placeReply_flight (r : Reply) (l : ControlLink) : (l.placeReply r).flight = l.flight :=
  ControlLink.kick_flight _

@[simp] theorem ControlLink.answerHead_flight (st : Status) (data : List Byte) (l : ControlLink) :
    (l.answerHead st data).flight = none := by
  unfold ControlLink.answerHead
  split
  · rfl
  · exact ControlLink.placeReply_flight _ _

@[simp] theorem ControlLink.moderate_flight (a t : List Byte) (l : ControlLink) : (l.moderate a t).flight = l.flight :=
  ControlLink.kick_flight _

@[simp] theorem ControlLink.halt_flight (c : IntegrityCheck) (l : ControlLink) : (l.halt c).flight = none := by
  refine (ControlLink.kick_flight _).trans ?_
  show l.haltFlight.flight = none
  unfold ControlLink.haltFlight
  repeat' split
  all_goals first | assumption | rfl

@[simp] theorem ControlLink.transmitted_flight (l : ControlLink) : l.transmitted.flight = l.flight := by
  unfold ControlLink.transmitted
  split
  · rfl
  · exact ControlLink.kick_flight _

@[simp] theorem ControlLink.offer_flight (req : Request) (l : ControlLink) : (l.offer req).flight = l.flight := by
  unfold ControlLink.offer
  split <;> rfl

@[simp] theorem ControlLink.receive_flight (b : Byte) (e : Bool) (l : ControlLink) : (l.receive b e).flight = l.flight := by
  unfold ControlLink.receive ControlLink.headerByte ControlLink.bodyByte
  repeat' split
  all_goals first | rfl | exact ControlLink.offer_flight _ _

@[simp] theorem ControlLink.gap_flight (l : ControlLink) : l.gap.flight = l.flight := by
  unfold ControlLink.gap
  split <;> rfl

@[simp] theorem ControlLink.setClass_flight (cls : Moderated) (e : Bool) (n : Nat) (l : ControlLink) :
    (l.setClass cls e n).flight = l.flight := by
  cases cls <;> rfl

/-! ### The kinds of change -/

/-- One change that a command can make, with the condition under which it is made. -/
inductive Move : State → State → Prop
  /-- Nothing changes but the waiting commands, the mode, the lines, the rate, the set in evaluation, the zones, trip logic and the
  records. -/
  | aside {s t : State}
      (h : t =
        { s with
          pending := t.pending
          mode := t.mode
          lines := t.lines
          rate := t.rate
          published := t.published
          topology := t.topology
          trip := t.trip
          records := t.records }) : Move s t
  /-- Nothing changes but the control link; a BANK-APPLY comes to be in flight only with the cross-relations of EDIT met (R15). -/
  | link {s t : State} (h : t = { s with link := t.link })
      (hf : t.link.flight = some .bankApply → s.link.flight = some .bankApply ∨ s.edit.failedRelation = none) : Move s t
  /-- A hard reset (R178). -/
  | hardReset (s : State) (p : List Instr) (r : BitVec 2) : Move s { State.reset with pending := p, rate := r }
  /-- The timer reaches the next nominal instant, of which the ports count one more set of silence (R20, R27). -/
  | advance (s : State) : Move s { s with timer := s.timer.advance s.yard.frequency, ports := s.ports.map PortState.silent }
  /-- The timer is STOPPED and every breaker failure timer is made IDLE (R137, R153). -/
  | stop (s : State) (running : Bool) : Move s { s with timer := { s.timer with running := running }, bf := idleTimers }
  /-- The trip frames of the ports change, and nothing else of them (R21, R125). -/
  | fibre (s : State) (f : PortState → PortState) (g : PortState → PortState)
      (hf : ∀ q, ∃ a b, f q = { q with fibre := a, waiting := b })
      (hg : ∀ q, ∃ a b, g q = { q with fibre := a, waiting := b }) :
      Move s { s with ports := ⟨f s.ports.x, g s.ports.y⟩ }
  /-- The checks recorded, the halt code and the blocks change (R149, R150, R153). -/
  | blocks {s t : State}
      (h : t =
        { s with
          supervision :=
            { s.supervision with
              hostBlocks := t.supervision.hostBlocks
              blockFlags := t.supervision.blockFlags
              checkBlocked := t.supervision.checkBlocked
              haltCode := t.supervision.haltCode
              storeParity := t.supervision.storeParity
              timerFault := t.supervision.timerFault } }) : Move s t
  /-- A frame is received on a port (R19). -/
  | receive (s : State) (port : Port) (frame : List Byte) : Move s (receiveFrame port frame s)
  /-- The counters of the ports and of the stream table are cleared (R42). -/
  | clear (s : State) :
      Move s { s with ports := s.ports.map PortState.clearCounters, streams := clearStreamCounters s.streams }
  /-- Ring entries are upset (log 6). -/
  | upset (s : State) (u : List Upset) : Move s (applyUpsets u s)
  /-- EDIT, with its cross-relations met, is copied into ACTIVE (R15 to R17). -/
  | copy (s : State) (h : s.link.flight = some .bankApply ∨ s.edit.failedRelation = none) : Move s (copyBank s)
  /-- Operate counters and detectors return to their reset values (R92, R117, R174). -/
  | quiet (s : State) (r : Option Results) :
      Move s { s with evaluator := { Evaluator.reset with results := r }, detectors := Detectors.reset }
  /-- A close is written (R33 to R41). -/
  | close (s : State) : Move s (writeClose s)
  /-- The positions of a set are derived (R46). -/
  | derive (s : State) (p : Published) : Move s (deriveReplica p s)
  /-- The change marks act on the operate counters (R70). -/
  | mark (s : State) (t : Topology) : Move s { s with evaluator := s.evaluator.restart t }
  /-- The detectors act (R106). -/
  | detect (s : State) (t : Topology) : Move s { s with detectors := s.detectors.act s.active s.store.slots t }
  /-- The operate counters are updated (R90, R95). -/
  | count (s : State) (t : Topology) :
      Move s { s with evaluator := s.evaluator.update s.active s.store.slots t s.detectors }
  /-- The results of a set are kept (R102). -/
  | results (s : State) (r : Option Results) : Move s { s with evaluator := { s.evaluator with results := r } }
  /-- The CT supervision counts are updated (R141). -/
  | suspect (s : State) (t : Topology) (r : Results) : Move s { s with supervision := s.supervision.countCt t r }
  /-- The condition entries of a set are treated (R143). -/
  | treat (s : State) (t : Topology) :
      Move s { s with supervision := { s.supervision with conditions := nextConditions t s } }
  /-- The breaker failure timers act (R133). -/
  | timers (s : State) (p : Published) (r : Results) (x : TripLogic) (t : Topology) :
      Move s { s with bf := actTimers s p r x t }
  /-- The stores, the counts and the condition table return to their reset values at a RESTART (R43, R59, R137, R156). -/
  | restart (s : State) :
      Move s
        { s with
          store := { Store.reset with c0 := s.store.c0 }
          replica := Replica.reset
          supervision := s.supervision.restart
          bf := idleTimers }
  /-- A stream entry that repeats no other is written (R23). -/
  | setStream (s : State) (o : StreamOperands) (h : o.duplicates s.streams = false) (hz : o.identifier ≠ 0) :
      Move s { s with streams := s.streams.set o.index (some (o.entry (s.streams.get o.index))) }
  /-- A stream entry is dropped (R24). -/
  | dropStream (s : State) (i : Fin 26) : Move s { s with streams := s.streams.set i none }
  /-- A bay record is replaced (R7). -/
  | setBay (s : State) (b : Slot) (r : BayRecord) (h : 1024 ≤ r.ratio ∧ r.ratio ≤ 65535) : Move s (replaceRecord b r s)
  /-- The yard settings are written (R2). -/
  | setYard (s : State) (y : Yard) (h : 1 ≤ y.alignDelay ∧ y.alignDelay ≤ 4) : Move s (writeYard y s)
  /-- A value in its range is written into EDIT while no BANK-APPLY is in flight (R13). -/
  | write (s : State) (i : BankItem) (v : Nat) (h : i.admits v = true) (hf : s.link.flight = none) :
      Move s { s with edit := s.edit.write i v }
  /-- A response that R145 allows is written (R146). -/
  | respond (s : State) (c : Code) (r : Response) (h : c.allows r.level = true) :
      Move s { s with supervision := { s.supervision with responses := s.supervision.responses.set c.index r } }
  /-- Condition entries are removed (R151). -/
  | remove (s : State) (f : Condition → Bool) :
      Move s { s with supervision := { s.supervision with conditions := s.supervision.conditions.filter f } }
  /-- A forced value of a feeder is stored or removed (R49). -/
  | force (s : State) (b : Slot) (i : Bool) (v : Forced) (h : (s.bays.get b).kind.isFeeder = true) :
      Move s { s with replica := { s.replica with slots := s.replica.slots.modify b (SlotPositions.store i v) } }

/-- A chain of changes. -/
abbrev Moves : State → State → Prop := ReflTransGen Move

/-- A change of the control link that brings no BANK-APPLY into flight. -/
theorem Moves.ofLink {s t : State} (h : t = { s with link := t.link })
    (hf : t.link.flight = some .bankApply → s.link.flight = some .bankApply) : Moves s t :=
  .single (.link h (fun ht => .inl (hf ht)))

theorem Moves.ofAside {s t : State}
    (h : t =
      { s with
        pending := t.pending
        mode := t.mode
        lines := t.lines
        rate := t.rate
        published := t.published
        topology := t.topology
        trip := t.trip
        records := t.records }) : Moves s t :=
  .single (.aside h)

/-- An ALARM cause changes the link alone. -/
theorem moves_causeAlarm (s : State) : Moves s (causeAlarm s) := Moves.ofLink rfl (by simp [causeAlarm])

theorem moves_causeTopology (s : State) : Moves s (causeTopology s) := Moves.ofLink rfl (by simp [causeTopology])

theorem moves_causeTrips (st : Stamp) (a b : Bool) (s : State) : Moves s (causeTrips st a b s) :=
  Moves.ofLink rfl (by simp [causeTrips])

theorem moves_moderate (s : State) : Moves s (moderate s) := Moves.ofLink rfl (by simp)

/-! ### The shared operations -/

theorem moves_nominalInstant (s : State) : Moves s (nominalInstant s) := by
  unfold nominalInstant
  split
  · refine (ReflTransGen.single (.advance s)).trans ?_
    refine ReflTransGen.trans (Moves.ofAside ?_) (moves_moderate _)
    rfl
  · exact .refl

theorem moves_reportCheck (c : IntegrityCheck) (s : State) : Moves s (reportCheck c s) := by
  by_cases h : s.mode = .halted
  · rw [reportCheck_in_halted c h]
    cases c <;> exact .single (.blocks rfl)
  · let u : State :=
      { s with
        timer := { s.timer with running := false }
        bf := idleTimers
        ports := s.ports.map (fun p => { p with waiting := none }) }
    let v : State := { u with supervision := { s.supervision.recordCheck c with haltCode := some c } }
    have hu : Moves s u :=
      (ReflTransGen.single (.stop s false)).tail
        (.fibre _ _ _ (fun q => ⟨q.fibre, none, rfl⟩) (fun q => ⟨q.fibre, none, rfl⟩))
    have hv : Moves u v := by cases c <;> exact .single (.blocks rfl)
    have hl : Moves v { v with link := s.link.halt c } := Moves.ofLink rfl (by simp)
    rw [reportCheck_enters c h]
    exact ((hu.trans hv).trans hl).trans (Moves.ofAside rfl)

theorem moves_makeRestart (s : State) : Moves s (makeRestart s) := by
  let u : State :=
    { s with
      ports := s.ports.map PortState.clearCounters
      streams := clearStreamCounters s.streams
      store := { Store.reset with c0 := s.store.c0 }
      replica := Replica.reset
      supervision := s.supervision.restart
      bf := idleTimers
      evaluator := Evaluator.reset
      detectors := Detectors.reset }
  have hu : Moves s u := ((ReflTransGen.single (.clear s)).tail (.restart _)).tail (.quiet _ none)
  have hl : Moves u { u with link := s.link.restart } := Moves.ofLink rfl nofun
  exact (hu.trans hl).trans (Moves.ofAside rfl)

theorem moves_enterRun (s : State) : Moves s (enterRun s) := by
  let u : State :=
    { s with
      bf := idleTimers
      evaluator := { Evaluator.reset with results := s.evaluator.results }
      detectors := Detectors.reset }
  have hu : Moves s u := (ReflTransGen.single (.stop s s.timer.running)).tail (.quiet _ _)
  exact hu.trans (Moves.ofAside rfl)

theorem moves_returnToSetup (s : State) : Moves s (returnToSetup s) := by
  have hu : Moves s { s with bf := idleTimers } := .single (.stop s s.timer.running)
  exact hu.trans (Moves.ofAside rfl)

theorem moves_closeFlight (s : State) : Moves s (closeFlight s) := by
  have answer : ∀ t : State, Moves t { t with link := t.link.answerHead .done [] } := fun t => Moves.ofLink rfl (by simp)
  unfold closeFlight
  split
  next h => exact (ReflTransGen.single (.copy s (.inl h))).trans (answer _)
  next toRun h =>
    cases toRun
    · exact (moves_returnToSetup s).trans (answer _)
    · exact (moves_enterRun s).trans (answer _)
  next => exact Moves.ofLink rfl nofun
  next => exact .refl
  next => exact .refl

theorem moves_closeStore (s : State) : Moves s (closeStore s) := by
  unfold closeStore
  refine (ReflTransGen.single (.close s)).trans ?_
  split
  · exact moves_reportCheck _ _
  · exact Moves.ofAside rfl

theorem moves_execSetClose (u : List Upset) (s : State) :
    Moves s (if closeDue s then closeSet (applyUpsets u s) else applyUpsets u s) := by
  refine (ReflTransGen.single (.upset s u)).trans ?_
  split
  · exact (moves_closeFlight _).trans (moves_closeStore _)
  · exact .refl

/-! ### The stages of an evaluation -/

theorem moves_assembleZones (st : Stamp) (s : State) : Moves s (assembleZones st s) := by
  have h : Moves s { s with topology := some (newTopology st s) } := Moves.ofAside rfl
  unfold assembleZones
  dsimp only
  split
  · exact h.trans (moves_causeTopology _)
  · exact h

/-- Where stage 3 is abandoned or ends. -/
def Measured.state : Measured → State
  | .whole s _ => s
  | .abandoned s => s

theorem moves_measureSet (t : Topology) (s : State) : Moves s (measureSet t s).state := by
  unfold measureSet
  dsimp only
  refine (ReflTransGen.single (.mark s t)).trans ?_
  split
  · exact .refl
  refine (ReflTransGen.single (.detect _ t)).trans ?_
  split
  · exact .refl
  exact (ReflTransGen.single (.count _ t)).trans (.single (.results _ _))

theorem moves_superviseSet (t : Topology) (r : Results) (s : State) : Moves s (superviseSet t r s) := by
  let s1 : State := { s with supervision := s.supervision.countCt t r }
  let s2 : State := { s1 with supervision := { s1.supervision with conditions := nextConditions t s1 } }
  have h : Moves s s2 := (ReflTransGen.single (.suspect s t r)).tail (.treat s1 t)
  have h3 : Moves s2 (if alarmCause s1 then causeAlarm s2 else s2) := by
    split
    · exact moves_causeAlarm s2
    · exact .refl
  exact (h.trans h3).tail (.blocks rfl)

theorem moves_tripStage (p : Published) (t : Topology) (r : Results) (s : State) : Moves s (tripStage p t r s) := by
  unfold tripStage
  split
  · refine (ReflTransGen.single (.timers s p r (latchZones s r t) t)).trans ?_
    refine ReflTransGen.trans (Moves.ofAside ?_) (moves_causeTrips _ _ _ _)
    rfl
  · exact Moves.ofAside rfl

theorem PortState.hand_eq (f : TripFrame) (p : PortState) : ∃ a b, p.hand f = { p with fibre := a, waiting := b } := by
  unfold PortState.hand
  split
  · exact ⟨_, p.waiting, rfl⟩
  · exact ⟨p.fibre, _, rfl⟩

theorem PortState.sent_eq (p : PortState) : ∃ a b, p.sent = { p with fibre := a, waiting := b } := by
  unfold PortState.sent
  split
  · exact ⟨p.fibre, p.waiting, rfl⟩
  · exact ⟨_, _, rfl⟩

theorem moves_handTripFrame (st : Stamp) (s : State) : Moves s (handTripFrame st s) :=
  .single (.fibre s _ _ (PortState.hand_eq ⟨st.count, s.trip.bitmap⟩) (PortState.hand_eq ⟨st.count, s.trip.bitmap⟩))

theorem moves_answerSettle (s : State) : Moves s (answerSettle s) := by
  unfold answerSettle
  split
  · exact Moves.ofLink rfl (by simp)
  all_goals exact .refl

theorem moves_finishSet (p : Published) (t : Topology) (r : Results) (s : State) : Moves s (finishSet p t r s) :=
  (((moves_tripStage p t r s).trans (moves_handTripFrame _ _)).trans (Moves.ofAside rfl)).trans (moves_answerSettle _)

theorem moves_evaluateFrom (p : Published) (t : Topology) (s : State) : Moves s (evaluateFrom p t s) := by
  have h := moves_measureSet t s
  unfold evaluateFrom
  cases hm : measureSet t s with
  | abandoned s1 => rw [hm] at h; exact h.trans (moves_reportCheck _ _)
  | whole s1 r => rw [hm] at h; exact (h.trans (moves_superviseSet t r s1)).trans (moves_finishSet _ _ _ _)

theorem moves_evaluateSet (s : State) : Moves s (evaluateSet s) := by
  unfold evaluateSet
  split
  · exact .refl
  · exact ((ReflTransGen.single (.derive s _)).trans (moves_assembleZones _ _)).trans (moves_evaluateFrom _ _ _)

theorem moves_measurePart (supervised : Bool) (t : Topology) (s : State) : Moves s (measurePart supervised t s).state := by
  have h := moves_measureSet t s
  unfold measurePart
  cases hm : measureSet t s with
  | abandoned s1 => rw [hm] at h; exact h
  | whole s1 r =>
    rw [hm] at h
    cases supervised
    · exact h
    · exact h.trans (moves_superviseSet t r s1)

theorem moves_evaluatePart (n : Nat) (p : Published) (s : State) : Moves s (evaluatePart n p s).state := by
  have h1 : Moves s (deriveReplica p s) := .single (.derive s p)
  have h2 := h1.trans (moves_assembleZones p.stamp _)
  unfold evaluatePart
  dsimp only
  repeat' split
  · exact .refl
  · exact h1
  · exact h2
  · exact h2.trans (moves_measurePart _ _ _)

theorem moves_cutShort (m : ClockReport) (s : State) : Moves s (cutShort m s).state := by
  unfold cutShort
  split
  · exact moves_evaluatePart _ _ _
  · dsimp only
    split
    · exact (moves_closeFlight s).trans (.single (.close _))
    · exact .refl

theorem moves_reportAbsent (clockFirst : Bool) (c : CutShort) : Moves c.state (reportAbsent clockFirst c) := by
  unfold reportAbsent
  repeat' split
  · exact (moves_reportCheck _ _).trans (moves_reportCheck _ _)
  · exact (moves_reportCheck _ _).trans (moves_reportCheck _ _)
  · exact moves_reportCheck _ _

/-! ### The service of a request -/

/-- What a request's own rule answers in a state is made by such changes. -/
def Service.Moved (s : State) : Service → Prop
  | .done t _ => Moves s t
  | .refuse _ _ => True
  | .hold f => f = .bankApply → s.edit.failedRelation = none
  | .restart => True

/-- The service of a request, from what its own rule does while nothing is in flight. -/
theorem moves_serve {req : Request} {own : List Byte → State → Service}
    (h : ∀ s : State, s.link.flight = none → (own req.payload s).Moved s) (s : State) : Moves s (serve req own s) := by
  have hfin : ∀ t : State, t.canServe = true → Moves t (finishService req t (commonChecks req own t)) := by
    intro t ht
    have hm : (commonChecks req own t).Moved t := by
      unfold commonChecks
      repeat' split
      any_goals exact trivial
      exact h t (State.canServe_iff.mp ht).1
    cases hc : commonChecks req own t with
    | done u data => rw [hc] at hm; exact ReflTransGen.trans hm (Moves.ofLink rfl (by simp [finishService]))
    | refuse st detail => exact Moves.ofLink rfl (by simp [finishService])
    | hold f => rw [hc] at hm; exact .single (.link rfl (fun hf => .inr (hm (Option.some.inj hf))))
    | restart => exact Moves.ofLink rfl (by simp [finishService])
  have hhead : ∀ t, s.atHead req = some t → Moves s t := by
    intro t ht
    unfold State.atHead at ht
    repeat' split at ht
    all_goals cases ht
    · exact .refl
    · exact Moves.ofLink rfl (by simp)
  unfold serve
  split
  · exact .refl
  next t ht =>
    split
    next hc => exact (hhead t ht).trans (hfin t hc)
    next => exact hhead t ht

/-- A request that only reads. -/
theorem moves_serve_read {req : Request} (data : State → List Byte) (s : State) :
    Moves s (serve req (fun _ s => .done s (data s)) s) :=
  moves_serve (own := fun _ s => .done s (data s)) (fun _ _ => ReflTransGen.refl) s

/-! ### The rules of the requests -/

theorem ruleMode_moved (payload : List Byte) (s : State) : (ruleMode payload s).Moved s := by
  unfold ruleMode
  repeat' split
  any_goals exact trivial
  · exact ReflTransGen.refl
  all_goals exact nofun

theorem ruleResponseSet_moved (payload : List Byte) (s : State) : (ruleResponseSet payload s).Moved s := by
  unfold ruleResponseSet
  repeat' split
  any_goals exact trivial
  all_goals exact .single (.respond s _ _ ‹_›)

theorem ruleResponseGet_moved (payload : List Byte) (s : State) : (ruleResponseGet payload s).Moved s := by
  unfold ruleResponseGet
  repeat' split
  any_goals exact trivial
  all_goals exact ReflTransGen.refl

theorem ruleStatus_moved (payload : List Byte) (s : State) : (ruleStatus payload s).Moved s := by
  unfold ruleStatus
  repeat' split
  any_goals exact trivial
  all_goals exact ReflTransGen.refl

theorem moves_clearCounters (s : State) : Moves s (clearCounters s) := by
  have h : Moves s { s with ports := s.ports.map PortState.clearCounters, streams := clearStreamCounters s.streams } :=
    .single (.clear s)
  exact h.trans (Moves.ofLink rfl id)

theorem ruleCounters_moved (payload : List Byte) (s : State) : (ruleCounters payload s).Moved s := by
  unfold ruleCounters
  repeat' split
  any_goals exact trivial
  · exact moves_clearCounters s
  · exact ReflTransGen.refl

theorem ruleRecordRead_moved (payload : List Byte) (s : State) : (ruleRecordRead payload s).Moved s := by
  unfold ruleRecordRead
  repeat' split
  any_goals exact trivial
  all_goals exact ReflTransGen.refl

theorem ruleRecordDiscard_moved (payload : List Byte) (s : State) : (ruleRecordDiscard payload s).Moved s := by
  unfold ruleRecordDiscard
  split
  · trivial
  · exact Moves.ofAside rfl

theorem ruleTripClear_moved (payload : List Byte) (s : State) : (ruleTripClear payload s).Moved s := by
  unfold ruleTripClear
  repeat' split
  any_goals exact trivial
  all_goals exact Moves.ofAside rfl

theorem moves_removeEntries (f : Condition → Bool) (s : State) : Moves s (removeEntries f s) := by
  unfold removeEntries
  dsimp only
  split
  · exact (ReflTransGen.single (.remove s _)).trans (moves_causeAlarm _)
  · exact .single (.remove s _)

theorem ruleAlarmClear_moved (payload : List Byte) (s : State) : (ruleAlarmClear payload s).Moved s := by
  unfold ruleAlarmClear clearEntry
  repeat' split
  any_goals exact trivial
  all_goals exact moves_removeEntries _ s

theorem ruleZoneBlock_moved (payload : List Byte) (s : State) : (ruleZoneBlock payload s).Moved s := by
  unfold ruleZoneBlock
  repeat' split
  any_goals exact trivial
  all_goals exact .single (.blocks rfl)

theorem ruleForce_moved (payload : List Byte) (s : State) : (ruleForce payload s).Moved s := by
  unfold ruleForce
  repeat' split
  any_goals exact trivial
  all_goals exact .single (.force s _ _ _ ‹_›)

theorem ruleNoticeSet_moved (payload : List Byte) (s : State) : (ruleNoticeSet payload s).Moved s := by
  unfold ruleNoticeSet
  repeat' split
  any_goals exact trivial
  all_goals exact Moves.ofLink rfl (by simp)

/-- The operands of STREAM-SET that are read hold no identifier 0 (R23). -/
theorem readStream_identifier {x : Byte} {i3 i2 i1 i0 b a e : Byte} {o : StreamOperands}
    (h : readStream x (natOfBytes [i3, i2, i1, i0]) b a e = some o) : o.identifier ≠ 0 := by
  have hlt : natOfBytes [i3, i2, i1, i0] < 4294967296 := by
    rw [natOfBytes_four]
    omega
  unfold readStream at h
  repeat' split at h
  all_goals cases h
  intro hz
  have := congrArg BitVec.toNat hz
  simp [Nat.mod_eq_of_lt hlt] at this
  omega

theorem ruleStreamSet_moved (payload : List Byte) (s : State) : (ruleStreamSet payload s).Moved s := by
  unfold ruleStreamSet
  repeat' split
  any_goals exact trivial
  next ho hd => exact .single (.setStream s _ (Bool.not_eq_true _ ▸ hd) (readStream_identifier ho))

theorem ruleStreamDrop_moved (payload : List Byte) (s : State) : (ruleStreamDrop payload s).Moved s := by
  unfold ruleStreamDrop
  repeat' split
  any_goals exact trivial
  all_goals exact .single (.dropStream s _)

theorem ruleBaySet_moved (payload : List Byte) (s : State) : (ruleBaySet payload s).Moved s := by
  unfold ruleBaySet
  repeat' split
  any_goals exact trivial
  · exact ReflTransGen.refl
  next b r _ hr _ => exact .single (.setBay s b r ((readRecord_eq_some b).mp hr).2)

theorem ruleBayGet_moved (payload : List Byte) (s : State) : (ruleBayGet payload s).Moved s := by
  unfold ruleBayGet
  repeat' split
  any_goals exact trivial
  all_goals exact ReflTransGen.refl

/-- The yard settings that are read have an ALIGN_DELAY of 1 to 4 (R1). -/
theorem readYard_delay {n f d : Byte} {y : Yard} (h : readYard n f d = some y) : 1 ≤ y.alignDelay ∧ y.alignDelay ≤ 4 := by
  unfold readYard at h
  repeat' split at h
  all_goals cases h
  assumption

theorem ruleYardSet_moved (payload : List Byte) (s : State) : (ruleYardSet payload s).Moved s := by
  unfold ruleYardSet
  repeat' split
  any_goals exact trivial
  all_goals exact .single (.setYard s _ (readYard_delay ‹_›))

theorem ruleBankWrite_moved (payload : List Byte) {s : State} (h : s.link.flight = none) :
    (ruleBankWrite payload s).Moved s := by
  unfold ruleBankWrite
  repeat' split
  any_goals exact trivial
  all_goals exact .single (.write s _ _ ‹_› h)

theorem ruleBankRead_moved (payload : List Byte) (s : State) : (ruleBankRead payload s).Moved s := by
  unfold ruleBankRead
  repeat' split
  any_goals exact trivial
  all_goals exact ReflTransGen.refl

theorem ruleBankApply_moved (payload : List Byte) (s : State) : (ruleBankApply payload s).Moved s := by
  unfold ruleBankApply
  repeat' split
  · trivial
  next h _ => exact fun _ => h
  next h _ => exact .single (.copy s (.inr h))

/-! ### Every step -/

/-- Every command is a chain of changes. -/
theorem exec_moves {c : Instr} {s t : State} (h : exec c s = .next t) : Moves s t := by
  cases c <;> cases h
  case hardReset => exact .single (.hardReset s _ _)
  case refclkAbsent m => exact (moves_cutShort m s).trans (moves_reportAbsent _ _)
  case setInstant => exact moves_nominalInstant s
  case sampleCountWrap => split; exacts [moves_nominalInstant s, .refl]
  case linkDown => split; exacts [moves_nominalInstant s, .refl]
  case moderationTimerExpiry => split; exacts [moves_nominalInstant s, .refl]
  case portFrameReceived => exact .single (.receive s _ _)
  case tripFrameSent port =>
    cases port
    · exact .single (.fibre s _ id PortState.sent_eq (fun q => ⟨_, _, rfl⟩))
    · exact .single (.fibre s id _ (fun q => ⟨_, _, rfl⟩) PortState.sent_eq)
  case setClose u => exact moves_execSetClose u s
  case evaluateSet u => exact (ReflTransGen.single (.upset s u)).trans (moves_evaluateSet _)
  case externalHoldExpiry => split; exacts [moves_evaluateSet s, .refl]
  case bfTimerExpiry => split; exacts [moves_evaluateSet s, .refl]
  case controlByteReceived => exact Moves.ofLink rfl (by simp)
  case gapTimeout => exact Moves.ofLink rfl (by simp)
  case frameTransmitted => exact Moves.ofLink rfl (by simp)
  case unknownKindRequest =>
    split
    · exact moves_serve (own := fun _ _ => .refuse .unknownKind []) (fun _ _ => trivial) s
    · exact .refl
  case restartMade => split; exacts [moves_makeRestart s, .refl]
  case ident => exact moves_serve_read _ s
  case streamList => exact moves_serve_read _ s
  case yardGet => exact moves_serve_read _ s
  case topology => exact moves_serve_read _ s
  case measure => exact moves_serve_read _ s
  case positions => exact moves_serve_read _ s
  case restart => exact moves_serve (own := fun _ _ => .restart) (fun _ _ => trivial) s
  case settle => exact moves_serve (own := fun _ _ => .hold (.settle false)) (fun _ _ => nofun) s
  case mode => exact moves_serve (fun t _ => ruleMode_moved _ t) s
  case streamSet => exact moves_serve (fun t _ => ruleStreamSet_moved _ t) s
  case streamDrop => exact moves_serve (fun t _ => ruleStreamDrop_moved _ t) s
  case baySet => exact moves_serve (fun t _ => ruleBaySet_moved _ t) s
  case bayGet => exact moves_serve (fun t _ => ruleBayGet_moved _ t) s
  case yardSet => exact moves_serve (fun t _ => ruleYardSet_moved _ t) s
  case bankWrite => exact moves_serve (fun t h => ruleBankWrite_moved _ h) s
  case bankRead => exact moves_serve (fun t _ => ruleBankRead_moved _ t) s
  case bankApply => exact moves_serve (fun t _ => ruleBankApply_moved _ t) s
  case responseSet => exact moves_serve (fun t _ => ruleResponseSet_moved _ t) s
  case responseGet => exact moves_serve (fun t _ => ruleResponseGet_moved _ t) s
  case status => exact moves_serve (fun t _ => ruleStatus_moved _ t) s
  case counters => exact moves_serve (fun t _ => ruleCounters_moved _ t) s
  case recordRead => exact moves_serve (fun t _ => ruleRecordRead_moved _ t) s
  case recordDiscard => exact moves_serve (fun t _ => ruleRecordDiscard_moved _ t) s
  case tripClear => exact moves_serve (fun t _ => ruleTripClear_moved _ t) s
  case alarmClear => exact moves_serve (fun t _ => ruleAlarmClear_moved _ t) s
  case zoneBlock => exact moves_serve (fun t _ => ruleZoneBlock_moved _ t) s
  case force => exact moves_serve (fun t _ => ruleForce_moved _ t) s
  case noticeSet => exact moves_serve (fun t _ => ruleNoticeSet_moved _ t) s

/-- Every step is a chain of changes. -/
theorem step_moves {s t : State} (h : step s = .next t) : Moves s t := by
  have hp : ∀ rest, Moves s { s with pending := rest } := fun rest => Moves.ofAside rfl
  unfold step at h
  split at h
  · cases h; exact .refl
  next rest _ => exact (hp rest).trans (exec_moves h)

/-- What every change keeps, every step keeps. -/
theorem step_keeps {P : State → Prop} (hP : ∀ s t, Move s t → P s → P t) {s t : State} (h : step s = .next t) (hs : P s) :
    P t := by
  have hm := step_moves h
  clear h
  induction hm with
  | refl => exact hs
  | tail _ hm ih => exact hP _ _ hm ih

end Sys2Proof.Machine
end

