-- ==== Sys2Proof/Proofs/Reset.lean ====
section
/-! PROOF. The state after a hard reset. -/

namespace Sys2Proof.Machine

open Sys2Proof

/-- Every item of a bank after a hard reset, at its value of R12. -/
theorem Bank.reset_item (i : BankItem) : Bank.reset.item i = i.resetValue := by
  cases i with
  | releaseMode k => exact congrArg ReleaseMode.value (Table.get_fill _ k)
  | bfCurrent b => exact Table.get_fill _ b
  | bfSets b => exact Table.get_fill _ b
  | _ => rfl

theorem BankItem.admits_iff {i : BankItem} {v : Nat} : i.admits v = true ↔ i.range.1 ≤ v ∧ v ≤ i.range.2 := by
  simp [BankItem.admits]

theorem Bank.reset_admits (i : BankItem) : i.admits (Bank.reset.item i) = true := by
  rw [Bank.reset_item]
  cases i <;> rfl

theorem Detector.reset_bounded (n : Nat) : Detector.reset.Bounded n := ⟨Nat.zero_le _, nofun, fun _ => rfl⟩

theorem BfTimer.reset_bounded : BfTimer.reset.Bounded := by decide

theorem RingEntry.zero_bounded : RingEntry.zero.Bounded := by decide

theorem BayStore.reset_bounded : BayStore.reset.Bounded :=
  ⟨by decide, by decide, nofun, by decide, fun i => (Table.get_fill RingEntry.zero i).symm ▸ RingEntry.zero_bounded⟩

theorem SlotPositions.reset_bounded : SlotPositions.reset.Bounded := by decide

/-- Both ports stand at their hard-reset values. -/
theorem reset_port (p : Port) : State.reset.ports.get p = PortState.reset := by
  cases p <;> rfl

/-- The two straps together are a number of two bits. -/
theorem straps_lt (r1 r0 : Bool) : 2 * r1.toNat + r0.toNat < 4 := by
  cases r1 <;> cases r0 <;> decide

theorem reset_driven : State.reset.Driven where
  healthy := rfl
  trip k := by simp [State.reset]
  latches _ k := by simp [State.reset, TripLogic.reset]
  timers _ b := Table.get_fill _ b
  captured k _ _ := Table.get_fill _ k
  clock := rfl
  haltCode := by decide
  evaluation _ := rfl
  waiting _ := ⟨rfl, rfl⟩

theorem reset_ranged : State.reset.Ranged where
  active := Bank.reset_admits
  edit := Bank.reset_admits
  relations := by decide
  applying h := nomatch h
  operate k p := by simp [State.reset, Evaluator.reset]
  checkOperate p := by simp [State.reset, Evaluator.reset]
  detectors k p := by simp only [State.reset, Detectors.reset, Table.get_fill]; exact Detector.reset_bounded _
  checkDetectors p := by simp only [State.reset, Detectors.reset, Table.get_fill]; exact Detector.reset_bounded _
  timers b := by simp only [State.reset, Table.get_fill]; exact BfTimer.reset_bounded
  levels c := by cases c <;> rfl
  delay := by decide
  ratio b := by simp [State.reset, BayRecord.reset]

theorem reset_queued : State.reset.Queued where
  requests := Nat.zero_le _
  replies := Nat.zero_le _
  head h := absurd rfl h
  room h := absurd rfl h
  settled _ := ⟨rfl, rfl⟩
  framer := trivial
  alarm := ⟨by decide, nofun, nofun, nofun⟩
  topology := ⟨by decide, nofun, nofun, fun _ => ⟨rfl, rfl⟩⟩
  counters := by decide
  stack := Nat.zero_le _
  overwrites := Nat.zero_le _

theorem reset_paired : State.reset.Paired where
  identifier i j e f he := by simp [State.reset] at he
  slot i j e f he := by simp [State.reset] at he
  nonzero i e he := by simp [State.reset] at he
  counters i e he := by simp [State.reset] at he
  portX := by decide
  portY := by decide

theorem reset_stored : State.reset.Stored where
  count := by decide
  second := by decide
  c0 := by decide
  ratio b := by simp [State.reset, BayRecord.reset]
  slots b := by simp only [State.reset, Store.reset, Table.get_fill]; exact BayStore.reset_bounded
  positions b := by simp only [State.reset, Replica.reset, Table.get_fill]; exact SlotPositions.reset_bounded
  unused b _ := by simp [State.reset, Replica.reset, Store.reset, BayStore.reset]
  ct k p := by simp [State.reset, Supervision.reset]
  checkCt p := by simp [State.reset, Supervision.reset]

theorem reset_tabled : State.reset.Tabled where
  keys := List.nil_sublist _
  latched _ he := nomatch he

end Sys2Proof.Machine

open Sys2Proof Sys2Proof.Machine

/-- Settles O57, one lemma for each invariant. -/
theorem resetMeetsTheInvariants : Obligations.ResetMeetsTheInvariants :=
  ⟨reset_driven, reset_ranged, reset_queued, reset_paired, reset_stored, reset_tabled⟩

/-- Settles O3: every field of the state after a hard reset is read from its table. -/
theorem hardResetLeavesResetValues : Obligations.HardResetLeavesResetValues := by
  intro r1 r0 s
  refine ⟨_, rfl, ?_⟩
  have hp := reset_port
  have hi : ∀ i, State.reset.active.item i = i.resetValue ∧ State.reset.edit.item i = i.resetValue := fun i =>
    ⟨Bank.reset_item i, Bank.reset_item i⟩
  simp_all [State.reset, BayRecord.reset, PortState.reset, Store.reset, Store.emptyCells, BayStore.reset, RingEntry.zero,
    Replica.reset, SlotPositions.reset, Evaluator.reset, Detectors.reset, Detector.reset, Supervision.reset,
    Supervision.resetResponses, TripLogic.reset, BfTimer.reset, ControlLink.reset, NoticeSlots.empty, straps_lt]

end

