-- ==== Sys2Proof/Proofs/Ranged.lean ====
section
/-! PROOF. Every change keeps the settings in their ranges and what they bound within them. -/

namespace Sys2Proof.Machine

open Sys2Proof

/-! ### Banks -/

/-- One item is written and no other changes (R13). -/
theorem Bank.item_write (b : Bank) {i : BankItem} {v : Nat} (h : i.admits v = true) (j : BankItem) :
    (b.write i v).item j = if j = i then v else b.item j := by
  cases i with
  | releaseMode k =>
    have hv : (ReleaseMode.ofValue v).value = v := by
      have hle : v ≤ 1 := (BankItem.admits_iff.mp h).2
      interval_cases v <;> rfl
    cases j <;> simp [Bank.write, Bank.item, Table.get_set]
    split <;> simp [hv]
  | bfCurrent k => cases j <;> simp [Bank.write, Bank.item, Table.get_set]
  | bfSets k => cases j <;> simp [Bank.write, Bank.item, Table.get_set]
  | _ => cases j <;> simp [Bank.write, Bank.item]

theorem Bank.write_admits {b : Bank} {i : BankItem} {v : Nat} (h : i.admits v = true)
    (hb : ∀ j : BankItem, j.admits (b.item j) = true) (j : BankItem) : j.admits ((b.write i v).item j) = true := by
  rw [Bank.item_write b h]
  split
  next hj => rw [hj]; exact h
  next => exact hb j

/-- The cross-relations hold where none fails (R15). -/
theorem Bank.failedRelation_eq_none {b : Bank} :
    b.failedRelation = none ↔ b.zoneSlope ≤ b.zoneSlopeHigh ∧ b.checkSlope ≤ b.checkSlopeHigh := by
  unfold Bank.failedRelation
  split_ifs <;> simp <;> omega

/-- A bank in its ranges has an EXT_HOLD of at least one set. -/
theorem extHold_pos {b : Bank} (h : ∀ i : BankItem, i.admits (b.item i) = true) : 1 ≤ b.extHold :=
  Nat.le_trans (by decide) (BankItem.admits_iff.mp (h .extHold)).1

/-- A bank in its ranges has BF_SETS of 12 to 600. -/
theorem bfSets_range {b : Bank} (h : ∀ i : BankItem, i.admits (b.item i) = true) (x : Slot) :
    1 ≤ b.bfSets.get x ∧ b.bfSets.get x ≤ 600 :=
  ⟨Nat.le_trans (Nat.le_add_left 1 11) (BankItem.admits_iff.mp (h (.bfSets x))).1, (BankItem.admits_iff.mp (h (.bfSets x))).2⟩

/-! ### Detectors and counters -/

theorem Detector.transition_bounded {b : Bank} (hb : 1 ≤ b.extHold) (d : Int) (r : Nat) {x : Detector}
    (hx : x.Bounded b.extHold) : (x.transition b d r).Bounded b.extHold := by
  obtain ⟨hle, -, -⟩ := hx
  unfold Detector.transition
  repeat' split
  all_goals simp_all [Detector.Bounded]
  all_goals omega

theorem Detector.cap_bounded {b : Bank} (hb : 1 ≤ b.extHold) {n : Nat} {x : Detector} (hx : x.Bounded n) :
    (x.cap b).Bounded b.extHold := by
  obtain ⟨-, h1, h0⟩ := hx
  refine ⟨Nat.min_le_right _ _, fun h => ?_, fun h => ?_⟩
  · exact le_min (h1 h) hb
  · show min x.hold b.extHold = 0
    rw [h0 h]
    exact Nat.zero_min _

theorem largestHold_cons (x : Detector) (ds : List Detector) :
    largestHold (x :: ds) = max (if x.state = .external then x.hold else 0) (largestHold ds) := rfl

/-- The largest hold count of detectors within a bound is within it. -/
theorem largestHold_le {n : Nat} {ds : List Detector} (h : ∀ x ∈ ds, x.Bounded n) : largestHold ds ≤ n := by
  induction ds with
  | nil => exact Nat.zero_le _
  | cons x ds ih =>
    rw [largestHold_cons]
    refine max_le ?_ (ih (fun y hy => h y (List.mem_cons_of_mem _ hy)))
    split
    · exact (h x List.mem_cons_self).1
    · exact Nat.zero_le _

/-- A detector in EXTERNAL holds no more than the largest hold count. -/
theorem le_largestHold {ds : List Detector} {x : Detector} (hx : x ∈ ds) (he : x.state = .external) :
    x.hold ≤ largestHold ds := by
  induction ds with
  | nil => cases hx
  | cons y ds ih =>
    rw [largestHold_cons]
    rcases List.mem_cons.mp hx with rfl | hx
    · rw [if_pos he]; exact le_max_left _ _
    · exact le_trans (ih hx) (le_max_right _ _)

theorem mergeDetectors_bounded {n : Nat} {ds : List Detector} (h : ∀ x ∈ ds, x.Bounded n) :
    (mergeDetectors ds).Bounded n := by
  unfold mergeDetectors
  split_ifs with he
  · obtain ⟨x, hx, hs⟩ := List.any_eq_true.mp he
    have hs := of_decide_eq_true hs
    exact ⟨largestHold_le h, fun _ => le_trans ((h x hx).2.1 hs) (le_largestHold hx hs), fun hn => absurd rfl hn⟩
  all_goals exact ⟨Nat.zero_le _, nofun, fun _ => rfl⟩

theorem Detectors.act_zones_bounded {b : Bank} (hb : 1 ≤ b.extHold) (slots : Table 26 BayStore) (t : Topology)
    {d : Detectors} (h : ∀ k p, ((d.zones.get k).get p).Bounded b.extHold) (k : Bus) (p : Phase) :
    (((d.act b slots t).zones.get k).get p).Bounded b.extHold := by
  simp only [Detectors.act, Table.get_build]
  split
  · exact h k p
  · rw [Table.get_build]
    apply Detector.transition_bounded hb
    unfold zoneDetector
    split
    · apply mergeDetectors_bounded
      intro x hx
      obtain ⟨s, -, rfl⟩ := List.mem_map.mp hx
      exact h s p
    · exact h _ p

theorem Detectors.act_check_bounded {b : Bank} (hb : 1 ≤ b.extHold) (slots : Table 26 BayStore) (t : Topology)
    {d : Detectors} (h : ∀ p, (d.check.get p).Bounded b.extHold) (p : Phase) :
    ((d.act b slots t).check.get p).Bounded b.extHold := by
  simp only [Detectors.act, Table.get_build]
  apply Detector.transition_bounded hb
  unfold checkDetector
  split
  · exact mergeDetectors_bounded (by simpa using h p)
  · exact h p

theorem countOperate_le (holds : Bool) (n c : Nat) : countOperate holds n c ≤ n := by
  unfold countOperate
  split
  · exact Nat.min_le_right _ _
  · exact Nat.zero_le _

/-! ### Breaker failure timers -/

theorem countAbsent_le (present : Bool) (n : Nat) : countAbsent present n ≤ 2 := by
  unfold countAbsent
  split
  · exact Nat.zero_le _
  · exact Nat.min_le_right _ _

theorem BfTimer.act_bounded {n : Nat} (hn : 1 ≤ n ∧ n ≤ 600) (init present : Bool) {x : BfTimer} (hx : x.Bounded) :
    (x.act n init present).Bounded := by
  have hc := countAbsent_le present x.currentAbsent
  have hi := countAbsent_le init x.initAbsent
  obtain ⟨hle, -⟩ := hx
  unfold BfTimer.act
  dsimp only
  repeat' split
  all_goals simp_all [BfTimer.Bounded]
  all_goals omega

theorem idleTimers_get (b : Slot) : idleTimers.get b = BfTimer.reset := Table.get_fill _ b

/-! ### Yard settings -/

/-- Where FREQUENCY stands, nothing but a change of SECTIONS has a consequence (R2). -/
theorem writeYard_same {y : Yard} {s : State} (h : y.frequency = s.yard.frequency) :
    writeYard y s = if y.sections = s.yard.sections then { s with yard := y } else resetOuter { s with yard := y } := by
  unfold writeYard
  dsimp only
  rw [if_pos h.symm]
  simp only [eq_comm]

/-- A change of FREQUENCY makes the frequency restart, and a change of SECTIONS acts after it (R2; log 21). -/
theorem writeYard_restart {y : Yard} {s : State} (h : y.frequency ≠ s.yard.frequency) :
    writeYard y s =
      if y.sections = s.yard.sections then frequencyRestart { s with yard := y }
      else resetOuter (frequencyRestart { s with yard := y }) := by
  unfold writeYard
  dsimp only
  rw [if_neg (Ne.symm h)]
  simp only [eq_comm]

@[simp] theorem writeYard_yard (y : Yard) (s : State) : (writeYard y s).yard = y := by
  unfold writeYard
  dsimp only
  split_ifs <;> rfl

@[simp] theorem writeYard_bays (y : Yard) (s : State) : (writeYard y s).bays = s.bays := by
  unfold writeYard
  dsimp only
  split_ifs <;> rfl

@[simp] theorem writeYard_streams (y : Yard) (s : State) : (writeYard y s).streams = s.streams := by
  unfold writeYard
  dsimp only
  split_ifs <;> rfl

@[simp] theorem writeYard_ports (y : Yard) (s : State) : (writeYard y s).ports = s.ports := by
  unfold writeYard
  dsimp only
  split_ifs <;> rfl

@[simp] theorem resetOuter_conditions (s : State) :
    (resetOuter s).supervision.conditions = s.supervision.conditions.filter (fun e => !outerScope e.scope) := rfl

/-- Only a change of SECTIONS removes condition entries, and only those of sections 2 and 3 (R2, R157). -/
theorem writeYard_conditions (y : Yard) (s : State) :
    (writeYard y s).supervision.conditions =
      s.supervision.conditions.filter (fun e => decide (y.sections = s.yard.sections) || !outerScope e.scope) := by
  by_cases hf : y.frequency = s.yard.frequency
  · rw [writeYard_same hf]
    split_ifs with hn <;> simp [hn]
  · rw [writeYard_restart hf]
    split_ifs with hn <;> simp [hn]

theorem frequencyRestart_ranged {s : State} (h : s.Ranged) : (frequencyRestart s).Ranged :=
  { h with
    applying := by simpa using h.applying
    operate := fun k p => by simp [Evaluator.reset]
    checkOperate := fun p => by simp [Evaluator.reset]
    detectors := fun k p => by
      simp only [frequencyRestart_detectors, Detectors.reset, Table.get_fill]; exact Detector.reset_bounded _
    checkDetectors := fun p => by
      simp only [frequencyRestart_detectors, Detectors.reset, Table.get_fill]; exact Detector.reset_bounded _ }

theorem resetOuter_ranged {s : State} (h : s.Ranged) : (resetOuter s).Ranged :=
  { h with
    operate := fun k p => by
      simp only [resetOuter, Table.get_build]
      split
      · simp
      · exact h.operate k p
    detectors := fun k p => by
      simp only [resetOuter, Table.get_build]
      split
      · rw [Table.get_fill]; exact Detector.reset_bounded _
      · exact h.detectors k p }

theorem writeYard_ranged {s : State} {y : Yard} (h : s.Ranged) (hy : 1 ≤ y.alignDelay ∧ y.alignDelay ≤ 4) :
    (writeYard y s).Ranged := by
  have h1 : State.Ranged { s with yard := y } := { h with delay := hy }
  by_cases hf : y.frequency = s.yard.frequency
  · rw [writeYard_same hf]
    split_ifs
    exacts [h1, resetOuter_ranged h1]
  · rw [writeYard_restart hf]
    split_ifs
    exacts [frequencyRestart_ranged h1, resetOuter_ranged (frequencyRestart_ranged h1)]

/-! ### The bank copied into ACTIVE -/

theorem copyBank_ranged {s : State} (h : s.Ranged)
    (hr : s.link.flight = some .bankApply ∨ s.edit.failedRelation = none) : (copyBank s).Ranged where
  active := h.edit
  edit := h.edit
  relations := hr.elim h.applying Bank.failedRelation_eq_none.mp
  applying := h.applying
  operate k p := by simp [copyBank, Evaluator.cap]
  checkOperate p := by simp [copyBank, Evaluator.cap]
  detectors k p := by
    simp only [copyBank, Detectors.cap, Table.get_map]
    exact Detector.cap_bounded (extHold_pos h.edit) (h.detectors k p)
  checkDetectors p := by
    simp only [copyBank, Detectors.cap, Table.get_map]
    exact Detector.cap_bounded (extHold_pos h.edit) (h.checkDetectors p)
  timers := h.timers
  levels := h.levels
  delay := h.delay
  ratio := h.ratio

/-! ### A frame received on a port -/

/-- A frame received on a port changes nothing but the ports, the stream table and the samples of the open sets. -/
theorem receiveFrame_frame (port : Port) (frame : List Byte) (s : State) :
    ∃ x y z, receiveFrame port frame s = { s with ports := x, streams := y, store := { s.store with cells := z } } := by
  have hplace : ∀ i e f (t : State),
      ∃ y z, placeSample i e f t = { t with streams := y, store := { t.store with cells := z } } := by
    intro i e f t
    unfold placeSample
    dsimp only
    split
    · exact ⟨_, _, rfl⟩
    · exact ⟨_, t.store.cells, rfl⟩
  have hstream : ∀ f (t : State), ∃ x y z,
      streamFrame port f t = { t with ports := x, streams := y, store := { t.store with cells := z } } := by
    intro f t
    unfold streamFrame
    repeat' split
    · exact ⟨_, t.streams, t.store.cells, rfl⟩
    · exact ⟨t.ports, t.streams, t.store.cells, rfl⟩
    · exact ⟨_, t.streams, t.store.cells, rfl⟩
    · exact ⟨_, t.streams, t.store.cells, rfl⟩
    next i _ _ e _ _ _ =>
      obtain ⟨y, z, h⟩ := hplace i e f t
      exact ⟨t.ports, y, z, h⟩
  unfold receiveFrame
  dsimp only
  repeat' split
  · exact ⟨_, s.streams, s.store.cells, rfl⟩
  · exact ⟨_, s.streams, s.store.cells, rfl⟩
  · exact hstream _ _
  · exact hstream _ _
  · exact ⟨_, s.streams, s.store.cells, rfl⟩

/-! ### Every change -/

/-- A code stands at its index among the nine (R140). -/
theorem Code.at_index (c : Code) : allCodes[c.index.val]? = some c := by
  cases c <;> rfl

theorem Code.index_injective {c d : Code} (h : c.index = d.index) : c = d :=
  Option.some.inj (by rw [← c.at_index, h, d.at_index])

/-- Every change keeps the settings and what they bound within their ranges. -/
theorem Move.keeps_ranged {s t : State} (h : Move s t) (hs : s.Ranged) : t.Ranged := by
  cases h with
  | aside h => rw [h]; exact { hs with }
  | blocks h => rw [h]; exact { hs with }
  | link h hf =>
    rw [h]
    exact { hs with applying := fun ht => (hf ht).elim hs.applying Bank.failedRelation_eq_none.mp }
  | hardReset => exact { reset_ranged with }
  | stop => exact { hs with timers := fun b => (idleTimers_get b).symm ▸ BfTimer.reset_bounded }
  | receive port frame =>
    obtain ⟨x, y, z, h⟩ := receiveFrame_frame port frame s
    rw [h]
    exact { hs with }
  | copy h => exact copyBank_ranged hs h
  | quiet r =>
    exact
      { hs with
        operate := fun k p => by simp [Evaluator.reset]
        checkOperate := fun p => by simp [Evaluator.reset]
        detectors := fun k p => by simp only [Detectors.reset, Table.get_fill]; exact Detector.reset_bounded _
        checkDetectors := fun p => by simp only [Detectors.reset, Table.get_fill]; exact Detector.reset_bounded _ }
  | mark t =>
    exact
      { hs with
        operate := fun k p => by
          simp only [Evaluator.restart, Table.get_build]
          repeat' split
          · exact hs.operate k p
          · simp
          · exact hs.operate k p
        checkOperate := fun p => by
          simp only [Evaluator.restart]
          split
          · simp
          · exact hs.checkOperate p }
  | detect t =>
    exact
      { hs with
        detectors := Detectors.act_zones_bounded (extHold_pos hs.active) _ t hs.detectors
        checkDetectors := Detectors.act_check_bounded (extHold_pos hs.active) _ t hs.checkDetectors }
  | count t =>
    exact
      { hs with
        operate := fun k p => by
          simp only [Evaluator.update, Table.get_build]
          split
          · exact hs.operate k p
          · rw [Table.get_build]; exact countOperate_le _ _ _
        checkOperate := fun p => by
          simp only [Evaluator.update, Table.get_build]
          exact countOperate_le _ _ _ }
  | timers p r x t =>
    exact
      { hs with
        timers := fun b => by
          simp only [actTimers, Table.get_build]
          split
          · exact BfTimer.act_bounded (bfSets_range hs.active b) _ _ (hs.timers b)
          · exact hs.timers b }
  | restart => exact { hs with timers := fun b => (idleTimers_get b).symm ▸ BfTimer.reset_bounded }
  | setBay b r h =>
    exact
      { hs with
        timers := fun c => by
          simp only [replaceRecord, Table.get_set]
          split
          · exact BfTimer.reset_bounded
          · exact hs.timers c
        ratio := fun c => by
          simp only [replaceRecord, Table.get_set]
          split
          · exact h
          · exact hs.ratio c }
  | setYard y h => exact writeYard_ranged hs h
  | write i v h hf =>
    exact { hs with edit := Bank.write_admits h hs.edit, applying := fun ht => by rw [hf] at ht; cases ht }
  | respond c r h =>
    exact
      { hs with
        levels := fun d => by
          simp only [Supervision.response, Table.get_set]
          split
          next hd => rw [Code.index_injective hd]; exact h
          next => exact hs.levels d }
  | _ => exact { hs with }

end Sys2Proof.Machine
end

