-- ==== Sys2Proof/Proofs/Paired.lean ====
section
/-! PROOF. Every change keeps the stream table free of repeats, and the counters of its entries and of the ports within 16 bits. -/

namespace Sys2Proof.Machine

open Sys2Proof

/-! ### The stream table -/

/-- The part of the pairing that speaks of the stream table. -/
structure StreamsPaired (streams : Table 26 (Option StreamEntry)) : Prop where
  identifier : ∀ i j e f, streams.get i = some e → streams.get j = some f → e.identifier = f.identifier → i = j
  slot : ∀ i j e f, streams.get i = some e → streams.get j = some f → e.slot = f.slot → i = j
  nonzero : ∀ i e, streams.get i = some e → e.identifier ≠ 0
  counters : ∀ i e, streams.get i = some e → e.counters.Bounded

theorem State.Paired.streams {s : State} (h : s.Paired) : StreamsPaired s.streams :=
  { h with }

/-- Entries changed in nothing but their counters, which stay in bounds. -/
theorem StreamsPaired.map {streams : Table 26 (Option StreamEntry)} {f : StreamEntry → StreamEntry}
    (h : StreamsPaired streams) (hi : ∀ e, (f e).identifier = e.identifier) (hb : ∀ e, (f e).slot = e.slot)
    (hc : ∀ e, e.counters.Bounded → (f e).counters.Bounded) : StreamsPaired (streams.map (Option.map f)) := by
  have hget : ∀ i e, (streams.map (Option.map f)).get i = some e → ∃ e', streams.get i = some e' ∧ f e' = e := by
    intro i e he
    rw [Table.get_map] at he
    exact Option.map_eq_some_iff.mp he
  constructor
  · intro i j _ _ he hg heq
    obtain ⟨e, he', rfl⟩ := hget i _ he
    obtain ⟨g, hg', rfl⟩ := hget j _ hg
    exact h.identifier i j e g he' hg' (by rwa [hi, hi] at heq)
  · intro i j _ _ he hg heq
    obtain ⟨e, he', rfl⟩ := hget i _ he
    obtain ⟨g, hg', rfl⟩ := hget j _ hg
    exact h.slot i j e g he' hg' (by rwa [hb, hb] at heq)
  · intro i _ he
    obtain ⟨e, he', rfl⟩ := hget i _ he
    rw [hi]
    exact h.nonzero i e he'
  · intro i _ he
    obtain ⟨e, he', rfl⟩ := hget i _ he
    exact hc e (h.counters i e he')

/-- One index is emptied, or takes an entry that repeats no other. -/
theorem StreamsPaired.set {streams : Table 26 (Option StreamEntry)} (h : StreamsPaired streams) (i : Fin 26)
    (o : Option StreamEntry)
    (ho : ∀ e, o = some e → e.identifier ≠ 0 ∧ e.counters.Bounded ∧
      ∀ j f, j ≠ i → streams.get j = some f → f.identifier ≠ e.identifier ∧ f.slot ≠ e.slot) :
    StreamsPaired (streams.set i o) := by
  have hget : ∀ j e, (streams.set i o).get j = some e → (j = i ∧ o = some e) ∨ (j ≠ i ∧ streams.get j = some e) := by
    intro j e he
    rw [Table.get_set] at he
    by_cases hj : j = i
    · rw [if_pos hj] at he; exact .inl ⟨hj, he⟩
    · rw [if_neg hj] at he; exact .inr ⟨hj, he⟩
  constructor
  · intro j k e f he hf heq
    rcases hget j e he with ⟨rfl, he'⟩ | ⟨hj, he'⟩ <;> rcases hget k f hf with ⟨rfl, hf'⟩ | ⟨hk, hf'⟩
    · rfl
    · exact absurd heq.symm ((ho e he').2.2 k f hk hf').1
    · exact absurd heq ((ho f hf').2.2 j e hj he').1
    · exact h.identifier j k e f he' hf' heq
  · intro j k e f he hf heq
    rcases hget j e he with ⟨rfl, he'⟩ | ⟨hj, he'⟩ <;> rcases hget k f hf with ⟨rfl, hf'⟩ | ⟨hk, hf'⟩
    · rfl
    · exact absurd heq.symm ((ho e he').2.2 k f hk hf').2
    · exact absurd heq ((ho f hf').2.2 j e hj he').2
    · exact h.slot j k e f he' hf' heq
  · intro j e he
    rcases hget j e he with ⟨-, he'⟩ | ⟨-, he'⟩
    · exact (ho e he').1
    · exact h.nonzero j e he'
  · intro j e he
    rcases hget j e he with ⟨-, he'⟩ | ⟨-, he'⟩
    · exact (ho e he').2.1
    · exact h.counters j e he'

/-! ### Counters -/

theorem bump_le (n : Nat) : bump n ≤ 65535 := Nat.min_le_right _ _

theorem bumpBy_le (k n : Nat) : bumpBy k n ≤ 65535 := Nat.min_le_right _ _

theorem StreamCounters.zero_bounded : StreamCounters.zero.Bounded := by decide

theorem StreamCounters.count_bounded (p : Placement) {c : StreamCounters} (h : c.Bounded) : (c.count p).Bounded := by
  obtain ⟨h1, h2, h3, h4, h5, h6⟩ := h
  cases p
  · exact ⟨bump_le _, h2, h3, h4, h5, h6⟩
  · exact ⟨h1, bump_le _, h3, h4, h5, h6⟩
  · exact ⟨h1, h2, bump_le _, h4, h5, h6⟩
  · exact ⟨h1, h2, h3, bump_le _, h5, h6⟩

theorem StreamEntry.countClose_bounded (cl : Table 26 SlotClose) {e : StreamEntry} (h : e.counters.Bounded) :
    (e.countClose cl).counters.Bounded := by
  obtain ⟨h1, h2, h3, h4, -, -⟩ := h
  exact ⟨h1, h2, h3, h4, bumpBy_le _ _, bumpBy_le _ _⟩

theorem StreamOperands.entry_bounded (o : StreamOperands) {old : Option StreamEntry}
    (h : ∀ e, old = some e → e.counters.Bounded) : (o.entry old).counters.Bounded := by
  cases old with
  | none => exact StreamCounters.zero_bounded
  | some e =>
    unfold StreamOperands.entry
    dsimp only
    split
    · exact h e rfl
    · exact StreamCounters.zero_bounded

/-- Operands that duplicate nothing clash with no entry at another index (R23). -/
theorem StreamOperands.duplicates_eq_false {o : StreamOperands} {streams : Table 26 (Option StreamEntry)}
    (h : o.duplicates streams = false) {j : Fin 26} {f : StreamEntry} (hj : j ≠ o.index) (hf : streams.get j = some f) :
    f.identifier ≠ o.identifier ∧ f.slot ≠ o.slot := by
  unfold StreamOperands.duplicates at h
  have := List.any_eq_false.mp h j (List.mem_finRange j)
  rw [hf] at this
  simpa [StreamOperands.clashes, hj] using this

/-! ### Ports -/

theorem PortState.silent_bounded {p : PortState} (h : p.Bounded) : p.silent.Bounded := by
  obtain ⟨hs, hl, hc⟩ := h
  refine ⟨Nat.min_le_right _ _, ?_, hc⟩
  show (if 24 ≤ p.silence + 1 then Link.down else p.link) = .down ↔ min (p.silence + 1) 24 = 24
  by_cases h24 : 24 ≤ p.silence + 1
  · rw [if_pos h24]; exact ⟨fun _ => Nat.min_eq_right h24, fun _ => rfl⟩
  · rw [if_neg h24, hl]; omega

theorem PortState.clearCounters_bounded {p : PortState} (h : p.Bounded) : p.clearCounters.Bounded := by
  obtain ⟨hs, hl, -⟩ := h
  exact ⟨hs, hl, Nat.zero_le _, Nat.zero_le _, Nat.zero_le _, Nat.zero_le _, Nat.zero_le _, Nat.zero_le _⟩

theorem PortState.fibre_bounded {f : PortState → PortState} (hf : ∀ q, ∃ a b, f q = { q with fibre := a, waiting := b })
    {p : PortState} (h : p.Bounded) : (f p).Bounded := by
  obtain ⟨a, b, hp⟩ := hf p
  rw [hp]
  exact h

theorem Ports.modify_bounded {f : PortState → PortState} (hf : ∀ q : PortState, q.Bounded → (f q).Bounded) (p : Port)
    {ps : Ports} (h : ps.x.Bounded ∧ ps.y.Bounded) : (ps.modify p f).x.Bounded ∧ (ps.modify p f).y.Bounded := by
  cases p
  · exact ⟨hf _ h.1, h.2⟩
  · exact ⟨h.1, hf _ h.2⟩

/-- A port that is heard is UP with its silence count at 0 (R20). -/
theorem PortState.heard_bounded {q : PortState} (h : q.Bounded) :
    ({ q with link := .up, silence := 0 } : PortState).Bounded := by
  obtain ⟨-, -, hc⟩ := h
  exact ⟨Nat.zero_le _, by simp, hc⟩

theorem PortState.valid_bounded {q : PortState} (h : q.Bounded) : ({ q with valid := bump q.valid } : PortState).Bounded := by
  obtain ⟨h1, h2, -, h4, h5, h6, h7, h8⟩ := h
  exact ⟨h1, h2, bump_le _, h4, h5, h6, h7, h8⟩

theorem PortState.badCrc_bounded {q : PortState} (h : q.Bounded) : ({ q with badCrc := bump q.badCrc } : PortState).Bounded := by
  obtain ⟨h1, h2, h3, -, h5, h6, h7, h8⟩ := h
  exact ⟨h1, h2, h3, bump_le _, h5, h6, h7, h8⟩

theorem PortState.badFormat_bounded {q : PortState} (h : q.Bounded) :
    ({ q with badFormat := bump q.badFormat } : PortState).Bounded := by
  obtain ⟨h1, h2, h3, h4, -, h6, h7, h8⟩ := h
  exact ⟨h1, h2, h3, h4, bump_le _, h6, h7, h8⟩

theorem PortState.unknownId_bounded {q : PortState} (h : q.Bounded) :
    ({ q with unknownId := bump q.unknownId } : PortState).Bounded := by
  obtain ⟨h1, h2, h3, h4, h5, -, h7, h8⟩ := h
  exact ⟨h1, h2, h3, h4, h5, bump_le _, h7, h8⟩

theorem PortState.wrongPort_bounded {q : PortState} (h : q.Bounded) :
    ({ q with wrongPort := bump q.wrongPort } : PortState).Bounded := by
  obtain ⟨h1, h2, h3, h4, h5, h6, -, h8⟩ := h
  exact ⟨h1, h2, h3, h4, h5, h6, bump_le _, h8⟩

theorem PortState.invalid_bounded {q : PortState} (h : q.Bounded) : ({ q with invalid := bump q.invalid } : PortState).Bounded := by
  obtain ⟨h1, h2, h3, h4, h5, h6, h7, -⟩ := h
  exact ⟨h1, h2, h3, h4, h5, h6, h7, bump_le _⟩

/-! ### Frames received -/

/-- A sample placed or discarded counts in the entry that matched, and in nothing else of the table. -/
theorem placeSample_streams {s : State} {i : Fin 26} {e : StreamEntry} (f : BayFrame) (h : StreamsPaired s.streams)
    (he : s.streams.get i = some e) : StreamsPaired (placeSample i e f s).streams := by
  refine h.set i _ (fun e' he' => ?_)
  cases he'
  exact ⟨h.nonzero i e he, StreamCounters.count_bounded _ (h.counters i e he), fun j g hj hg =>
    ⟨fun heq => hj (h.identifier j i g e hg he heq), fun heq => hj (h.slot j i g e hg he heq)⟩⟩

theorem streamFrame_paired (port : Port) (f : BayFrame) {s : State} (hs : StreamsPaired s.streams)
    (hp : s.ports.x.Bounded ∧ s.ports.y.Bounded) :
    StreamsPaired (streamFrame port f s).streams ∧
      (streamFrame port f s).ports.x.Bounded ∧ (streamFrame port f s).ports.y.Bounded := by
  have unknownId := Ports.modify_bounded (fun _ => PortState.unknownId_bounded) port hp
  have wrongPort := Ports.modify_bounded (fun _ => PortState.wrongPort_bounded) port hp
  have invalid := Ports.modify_bounded (fun _ => PortState.invalid_bounded) port hp
  unfold streamFrame
  repeat' split
  · exact ⟨hs, unknownId⟩
  · exact ⟨hs, hp⟩
  · exact ⟨hs, wrongPort⟩
  · exact ⟨hs, invalid⟩
  next he _ _ => exact ⟨placeSample_streams f hs he, hp⟩

theorem receiveFrame_paired (port : Port) (frame : List Byte) {s : State} (hs : StreamsPaired s.streams)
    (hp : s.ports.x.Bounded ∧ s.ports.y.Bounded) :
    StreamsPaired (receiveFrame port frame s).streams ∧
      (receiveFrame port frame s).ports.x.Bounded ∧ (receiveFrame port frame s).ports.y.Bounded := by
  have badCrc := Ports.modify_bounded (fun _ => PortState.badCrc_bounded) port hp
  have badFormat := Ports.modify_bounded (fun _ h => PortState.badFormat_bounded (PortState.heard_bounded h)) port hp
  have valid := Ports.modify_bounded (fun _ h => PortState.valid_bounded (PortState.heard_bounded h)) port hp
  unfold receiveFrame
  dsimp only
  repeat' split
  · exact ⟨hs, badFormat⟩
  · exact ⟨hs, valid⟩
  · exact streamFrame_paired port _ hs valid
  · exact streamFrame_paired port _ hs valid
  · exact ⟨hs, badCrc⟩

/-! ### Every change -/

/-- Every change keeps the stream table free of repeats and the counters in bounds. -/
theorem Move.keeps_paired {s t : State} (h : Move s t) (hs : s.Paired) : t.Paired := by
  have hx := hs.portX
  have hy := hs.portY
  cases h with
  | aside h => rw [h]; exact { hs with }
  | blocks h => rw [h]; exact { hs with }
  | link h _ => rw [h]; exact { hs with }
  | hardReset => exact { reset_paired with }
  | advance => exact { hs with portX := PortState.silent_bounded hx, portY := PortState.silent_bounded hy }
  | fibre f g hf hg => exact { hs with portX := PortState.fibre_bounded hf hx, portY := PortState.fibre_bounded hg hy }
  | receive port frame =>
    obtain ⟨ht, htx, hty⟩ := receiveFrame_paired port frame hs.streams ⟨hx, hy⟩
    exact { ht with portX := htx, portY := hty }
  | clear =>
    have hc := hs.streams.map (f := StreamEntry.clearCounters) (fun _ => rfl) (fun _ => rfl)
      (fun _ _ => StreamCounters.zero_bounded)
    exact { hc with portX := PortState.clearCounters_bounded hx, portY := PortState.clearCounters_bounded hy }
  | close =>
    have hc := hs.streams.map (f := StreamEntry.countClose (slotCloses s)) (fun _ => rfl) (fun _ => rfl)
      (fun _ => StreamEntry.countClose_bounded _)
    exact { hc with portX := hx, portY := hy }
  | setStream o ho hz =>
    have hc := hs.streams.set o.index (some (o.entry (s.streams.get o.index))) (fun e he => by
      cases he
      exact ⟨hz, o.entry_bounded (hs.counters _), fun j f hj hf => StreamOperands.duplicates_eq_false ho hj hf⟩)
    exact { hc with portX := hx, portY := hy }
  | dropStream i => exact { hs.streams.set i none nofun with portX := hx, portY := hy }
  | setYard y =>
    have hst : StreamsPaired (writeYard y s).streams := by rw [writeYard_streams]; exact hs.streams
    exact { hst with portX := by rw [writeYard_ports]; exact hx, portY := by rw [writeYard_ports]; exact hy }
  | _ => exact { hs with }

end Sys2Proof.Machine
end

