-- ==== Sys2Proof/Proofs/Stored.lean ====
section
/-! PROOF. Every change keeps the sample timer, the alignment store, the replica and the CT supervision counts within their ranges,
and an UNUSED slot at rest. -/

namespace Sys2Proof.Machine

open Sys2Proof

/-! ### Scaled currents and rings -/

/-- A scaled current is at most 131,066 in magnitude (R81). -/
theorem scaleRaw_natAbs_le {r : BayRecord} (h : r.ratio ≤ 65535) (raw : BitVec 16) : (scaleRaw r raw).natAbs ≤ 131066 := by
  have hraw : (clampRaw raw).natAbs ≤ 32767 := by
    unfold clampRaw
    have := raw.toInt_lt
    have := raw.le_toInt
    omega
  have hsign : r.polarity.sign.natAbs = 1 := by cases r.polarity <;> rfl
  have hp : (clampRaw raw * r.polarity.sign * (r.ratio : Int)).natAbs ≤ 32767 * 65535 := by
    rw [Int.natAbs_mul, Int.natAbs_mul, hsign, Nat.mul_one, Int.natAbs_natCast]
    exact Nat.mul_le_mul hraw h
  have hround : ∀ x : Int, (roundScaled x).natAbs = (x.natAbs + 8192) / 16384 := by
    intro x
    unfold roundScaled
    dsimp only
    split <;> omega
  unfold scaleRaw
  rw [hround]
  omega

theorem presentEntry_bounded {r : BayRecord} (h : r.ratio ≤ 65535) (smp : Sample) : (presentEntry r smp).Bounded := by
  intro p
  simp only [presentEntry, Table.get_map]
  exact scaleRaw_natAbs_le h _

/-- What holds of every entry and of the one that enters holds of every entry after a push. -/
theorem Table.push_forall {n : Nat} {α : Type} {P : α → Prop} {t : Table (n + 1) α} {a : α}
    (ht : ∀ i, P (t.get i)) (ha : P a) :
    ∀ i, P ((t.push a).get i) := by
  refine Fin.cases ?_ (fun i => ?_)
  · rw [Table.get_push_zero]; exact ha
  · rw [Table.get_push_succ]; exact ht _

/-! ### The close of a slot -/

theorem closeSlot_bounded {r : BayRecord} (hr : r.ratio ≤ 65535) (cell : Option Sample) {b : BayStore} (hb : b.Bounded) :
    (closeSlot r cell b).store.Bounded := by
  obtain ⟨hg, hrec, hl, hs0, hring⟩ := hb
  have hsince : sinceMore b ≤ 24 := Nat.min_le_right _ _
  have hp := fun smp => Table.push_forall (P := RingEntry.Bounded) hring (presentEntry_bounded hr smp)
  have hz := Table.push_forall (P := RingEntry.Bounded) hring RingEntry.zero_bounded
  unfold closeSlot
  repeat' split
  · refine ⟨Nat.zero_le _, Nat.min_le_right _ _, fun h => ?_, hsince, hp _⟩
    have : b.recovery + 1 < 24 := of_decide_eq_true h
    exact lt_of_le_of_lt (Nat.min_le_left _ _) this
  · exact ⟨Nat.zero_le _, hrec, hl, hsince, hp _⟩
  · exact ⟨hg, Nat.zero_le _, fun _ => by simp [closeStillLost], hsince, hz⟩
  next h1 =>
    refine ⟨Nat.succ_le_succ h1, hrec, hl, ?_, ?_⟩
    · show (if (substituteSource b).mismatch then sinceMore b else 0) ≤ 24
      split <;> omega
    · apply Table.push_forall (P := RingEntry.Bounded) hring
      split
      · exact RingEntry.zero_bounded
      · exact hring 23
  · exact ⟨hg, Nat.zero_le _, fun _ => by simp [closeLost], hsince, hz⟩
  · exact ⟨hg, hrec, hl, hs0, hring⟩

/-! ### Upsets -/

/-- What an upset of any ring entry keeps of every slot, the upsets of a command keep. -/
theorem applyUpsets_slots {P : Slot → BayStore → Prop} (hP : ∀ b d x, P b x → P b (BayStore.upset d x)) (us : List Upset)
    {s : State} (hs : ∀ b, P b (s.store.slots.get b)) (b : Slot) : P b ((applyUpsets us s).store.slots.get b) := by
  show P b ((us.foldl (fun slots u => slots.modify u.slot (BayStore.upset u.depth)) s.store.slots).get b)
  generalize s.store.slots = slots at hs
  induction us generalizing slots with
  | nil => exact hs b
  | cons u us ih =>
    refine ih _ (fun c => ?_)
    rw [Table.get_modify]
    split
    next h => exact h ▸ hP _ _ _ (hs _)
    next => exact hs c

theorem BayStore.upset_bounded {b : BayStore} (d : Fin 32) (h : b.Bounded) : (b.upset d).Bounded := by
  obtain ⟨hg, hrec, hl, hs, hring⟩ := h
  refine ⟨hg, hrec, hl, hs, fun i => ?_⟩
  simp only [BayStore.upset, Table.get_modify]
  split
  · exact hring d
  · exact hring i

/-! ### Positions -/

theorem countWhile_le (holds : Bool) (stop n : Nat) : countWhile holds stop n ≤ stop := by
  unfold countWhile
  split
  · exact Nat.min_le_right _ _
  · exact Nat.zero_le _

theorem SlotPositions.observe_bounded (c : Option Contacts) {q : SlotPositions} (h : q.Bounded) : (q.observe c).Bounded := by
  cases c <;> exact h

theorem SlotPositions.derive_bounded (bank : Bank) (k : BayKind) (c : Option Contacts) {q : SlotPositions} (h : q.Bounded) :
    (q.derive bank k c).Bounded := by
  obtain ⟨h1, h2, h3, h4, h5, h6⟩ := SlotPositions.observe_bounded c h
  cases k with
  | unused => exact h
  | feeder side => exact ⟨countWhile_le _ _ _, countWhile_le _ _ _, countWhile_le _ _ _, countWhile_le _ _ _, h5, h6⟩
  | junction j ct => exact ⟨h1, h2, h3, h4, countWhile_le _ _ _, countWhile_le _ _ _⟩

theorem SlotPositions.store_bounded (i : Bool) (v : Forced) {q : SlotPositions} (h : q.Bounded) : (q.store i v).Bounded := by
  cases i <;> exact h

/-! ### Counts and timer -/

theorem countSuspect_le (suspect : Bool) (n : Nat) : countSuspect suspect n ≤ 12000 := by
  unfold countSuspect
  split
  · exact Nat.min_le_right _ _
  · exact Nat.zero_le _

theorem Frequency.ncount_pos (f : Frequency) : 0 < f.ncount := by
  cases f <;> decide

theorem SampleTimer.advance_count (f : Frequency) (t : SampleTimer) : (t.advance f).count < f.ncount := by
  unfold SampleTimer.advance
  split
  · assumption
  · exact f.ncount_pos

theorem SampleTimer.advance_second (f : Frequency) {t : SampleTimer} (h : t.second < 65536) : (t.advance f).second < 65536 := by
  unfold SampleTimer.advance
  split
  · exact h
  · exact Nat.mod_lt _ (by decide)

/-! ### Yard settings -/

theorem frequencyRestart_stored {s : State} (hsec : s.timer.second < 65536) (hr : ∀ b, (s.bays.get b).ratio ≤ 65535)
    (hu : ∀ b, (s.bays.get b).kind = .unused → s.bf.get b = BfTimer.reset ∧ s.replica.slots.get b = SlotPositions.reset) :
    (frequencyRestart s).Stored where
  count := s.yard.frequency.ncount_pos
  second := hsec
  c0 := s.yard.frequency.ncount_pos
  ratio := hr
  slots b := by simp only [frequencyRestart_store, Store.reset, Table.get_fill]; exact BayStore.reset_bounded
  positions b := by simp only [frequencyRestart_replica, Table.get_map]; exact SlotPositions.reset_bounded
  unused b hb := by
    obtain ⟨h1, h2⟩ := hu b hb
    refine ⟨h1, ?_, ?_⟩
    · simp only [frequencyRestart_replica, Table.get_map, h2]; rfl
    · simp [Store.reset, BayStore.reset]
  ct k p := by simp
  checkCt p := by simp

theorem resetOuter_stored {s : State} (h : s.Stored) : (resetOuter s).Stored :=
  { h with
    ct := fun k p => by
      simp only [resetOuter, Table.get_build]
      split
      · simp
      · exact h.ct k p }

theorem writeYard_stored {s : State} (h : s.Stored) (y : Yard) : (writeYard y s).Stored := by
  by_cases hf : y.frequency = s.yard.frequency
  · have h1 : State.Stored { s with yard := y } := { h with count := hf ▸ h.count, c0 := hf ▸ h.c0 }
    rw [writeYard_same hf]
    split_ifs
    exacts [h1, resetOuter_stored h1]
  · have h1 : (frequencyRestart { s with yard := y }).Stored :=
      frequencyRestart_stored h.second h.ratio (fun b hb => ⟨(h.unused b hb).1, (h.unused b hb).2.1⟩)
    rw [writeYard_restart hf]
    split_ifs
    exacts [h1, resetOuter_stored h1]

/-! ### Every change -/

/-- Every change keeps the timer, the stores and the counts in their ranges, and an UNUSED slot at rest. -/
theorem Move.keeps_stored {s t : State} (h : Move s t) (hs : s.Stored) : t.Stored := by
  cases h with
  | aside h => rw [h]; exact { hs with }
  | blocks h => rw [h]; exact { hs with }
  | link h _ => rw [h]; exact { hs with }
  | hardReset => exact { reset_stored with }
  | advance =>
    exact { hs with count := SampleTimer.advance_count _ _, second := SampleTimer.advance_second _ hs.second }
  | stop =>
    exact { hs with unused := fun b hb => ⟨idleTimers_get b, (hs.unused b hb).2⟩ }
  | receive port frame =>
    obtain ⟨x, y, cells, h⟩ := receiveFrame_frame port frame s
    rw [h]
    exact { hs with }
  | upset us =>
    exact
      { hs with
        slots := applyUpsets_slots (P := fun _ x => x.Bounded) (fun _ d _ hx => BayStore.upset_bounded d hx) us hs.slots
        unused := fun b hb =>
          ⟨(hs.unused b hb).1, (hs.unused b hb).2.1,
            applyUpsets_slots (P := fun c x => (s.bays.get c).kind = .unused → x.lost = false) (fun _ _ _ hx => hx) us
              (fun c hc => (hs.unused c hc).2.2) b hb⟩ }
  | close =>
    have hslot : ∀ b, (writeClose s).store.slots.get b =
        (closeSlot (s.bays.get b) ((s.store.cells.get 0).get b) (s.store.slots.get b)).store := closedSet_slot s
    exact
      { hs with
        c0 := Nat.mod_lt _ s.yard.frequency.ncount_pos
        slots := fun b => by rw [hslot]; exact closeSlot_bounded (hs.ratio b) _ (hs.slots b)
        unused := fun b hb => by
          obtain ⟨h1, h2, h3⟩ := hs.unused b hb
          refine ⟨h1, h2, ?_⟩
          rw [hslot, closeSlot_unused (by rw [show (s.bays.get b).kind = .unused from hb]; rfl)]
          exact h3 }
  | derive p =>
    exact
      { hs with
        positions := fun b => by
          simp only [deriveReplica, Table.get_build]
          exact SlotPositions.derive_bounded _ _ _ (hs.positions b)
        unused := fun b hb => by
          obtain ⟨h1, h2, h3⟩ := hs.unused b hb
          refine ⟨h1, ?_, h3⟩
          simp only [deriveReplica, Table.get_build]
          rw [show (s.bays.get b).kind = .unused from hb]
          exact h2 }
  | suspect t r =>
    exact
      { hs with
        ct := fun k p => by
          simp only [Supervision.countCt, Table.get_build]
          split
          · exact hs.ct k p
          · rw [Table.get_build]; exact countSuspect_le _ _
        checkCt := fun p => by
          simp only [Supervision.countCt, Table.get_build]
          exact countSuspect_le _ _ }
  | timers p r x t =>
    exact
      { hs with
        unused := fun b hb => by
          obtain ⟨h1, h2, h3⟩ := hs.unused b hb
          refine ⟨?_, h2, h3⟩
          simp only [actTimers, Table.get_build]
          rw [show (s.bays.get b).kind = .unused from hb]
          exact h1 }
  | restart =>
    exact
      { hs with
        slots := fun b => by simp only [Store.reset, Table.get_fill]; exact BayStore.reset_bounded
        positions := fun b => by simp only [Replica.reset, Table.get_fill]; exact SlotPositions.reset_bounded
        unused := fun b _ => ⟨idleTimers_get b, Table.get_fill _ b, by simp [Store.reset, BayStore.reset]⟩
        ct := fun k p => by simp [Supervision.restart]
        checkCt := fun p => by simp [Supervision.restart] }
  | setBay b r h =>
    exact
      { hs with
        ratio := fun c => by
          simp only [replaceRecord, Table.get_set]
          split
          · exact h.2
          · exact hs.ratio c
        slots := fun c => by
          simp only [replaceRecord, Table.get_set]
          split
          · exact BayStore.reset_bounded
          · exact hs.slots c
        positions := fun c => by
          simp only [replaceRecord, Table.get_set]
          split
          · exact SlotPositions.reset_bounded
          · exact hs.positions c
        unused := fun c hc => by
          simp only [replaceRecord, Table.get_set] at hc ⊢
          split_ifs with hcb
          · exact ⟨rfl, rfl, rfl⟩
          · rw [if_neg hcb] at hc
            exact hs.unused c hc }
  | setYard y => exact writeYard_stored hs y
  | force b i v h =>
    exact
      { hs with
        positions := fun c => by
          simp only [Table.get_modify]
          split
          · exact SlotPositions.store_bounded _ _ (hs.positions b)
          · exact hs.positions c
        unused := fun c hc => by
          obtain ⟨h1, h2, h3⟩ := hs.unused c hc
          refine ⟨h1, ?_, h3⟩
          rw [Table.get_modify, if_neg]
          · exact h2
          · rintro rfl
            rw [show (s.bays.get c).kind = .unused from hc] at h
            cases h }
  | _ => exact { hs with }

end Sys2Proof.Machine
end

