-- ==== Sys2Proof/Proofs/Tabled.lean ====
section
/-! PROOF. Every change keeps the condition table in order, without repeats and among the pairs that can exist; and with that, every
step keeps the settings, the stream table, the stores and the condition table. -/

namespace Sys2Proof.Machine

open Sys2Proof

/-- The pair of code and scope of an entry (R139). -/
def Condition.key (e : Condition) : Code × Scope := (e.code, e.scope)

/-- The table lies in order among the possible pairs when it lies in order among all pairs and each of its pairs can exist. -/
theorem State.tabled_iff {s : State} :
    s.Tabled ↔ (s.supervision.conditions.map Condition.key).Sublist conditionKeys ∧
      (∀ e ∈ s.supervision.conditions, pairExists s e.code e.scope = true) ∧
      ∀ e ∈ s.supervision.conditions, e.active = false → e.latched ≠ none := by
  constructor
  · rintro ⟨hk, hl⟩
    refine ⟨hk.trans List.filter_sublist, fun e he => ?_, hl⟩
    exact (List.mem_filter.mp (hk.subset (List.mem_map_of_mem he))).2
  · rintro ⟨hk, hp, hl⟩
    refine ⟨?_, hl⟩
    have hall : ∀ key ∈ s.supervision.conditions.map Condition.key, pairExists s key.1 key.2 = true := by
      intro key hkey
      obtain ⟨e, he, rfl⟩ := List.mem_map.mp hkey
      exact hp e he
    have := hk.filter (fun key => pairExists s key.1 key.2)
    rwa [List.filter_eq_self.mpr hall] at this

/-- Entries are removed, and the pairs of those that stay can still exist. -/
theorem State.Tabled.filter {s t : State} (h : s.Tabled) (f : Condition → Bool)
    (hc : t.supervision.conditions = s.supervision.conditions.filter f)
    (hp : ∀ e, f e = true → pairExists s e.code e.scope = true → pairExists t e.code e.scope = true) : t.Tabled := by
  obtain ⟨hk, he, hl⟩ := State.tabled_iff.mp h
  rw [State.tabled_iff, hc]
  refine ⟨(List.filter_sublist.map _).trans hk, fun e hm => ?_, fun e hm => hl e (List.mem_filter.mp hm).1⟩
  obtain ⟨hm, hf⟩ := List.mem_filter.mp hm
  exact hp e hf (he e hm)

/-- The entries made for a list of pairs, each with the pair that it is made for, lie in the order of the list. -/
theorem filterMap_key_sublist {f : Code × Scope → Option Condition} (hf : ∀ key e, f key = some e → e.key = key)
    (keys : List (Code × Scope)) : ((keys.filterMap f).map Condition.key).Sublist keys := by
  induction keys with
  | nil => exact List.Sublist.slnil
  | cons key keys ih =>
    cases he : f key with
    | none => rw [List.filterMap_cons_none he]; exact ih.cons _
    | some e =>
      rw [List.filterMap_cons_some he, List.map_cons, hf key e he]
      exact ih.cons_cons _

theorem findEntry_eq_some {cs : List Condition} {c : Code} {sc : Scope} {e : Condition} (h : findEntry cs c sc = some e) :
    e ∈ cs ∧ e.key = (c, sc) := by
  unfold findEntry at h
  refine ⟨List.mem_of_find?_eq_some h, ?_⟩
  simpa [Condition.key] using List.find?_some h

/-- An entry treated keeps its pair, and is active or latched (R143). -/
theorem treatEntry_eq_some {stamp : Stamp} {latch : Bool} {r : Reach} {c : Code} {sc : Scope} {present : Bool}
    {old : Option Condition} {e : Condition} (hold : ∀ o, old = some o → o.key = (c, sc))
    (h : treatEntry stamp latch r c sc present old = some e) : e.key = (c, sc) ∧ (e.active = false → e.latched ≠ none) := by
  unfold treatEntry at h
  cases old with
  | none =>
    dsimp only at h
    split at h <;> cases h
    exact ⟨rfl, nofun⟩
  | some o =>
    dsimp only at h
    split_ifs at h with hp hl <;> cases h
    · exact ⟨hold o rfl, nofun⟩
    · exact ⟨hold o rfl, fun _ hn => by rw [show o.latched = none from hn] at hl; cases hl⟩

theorem nextEntry_eq_some {t : Topology} {s : State} (hs : s.Tabled) {key : Code × Scope} {e : Condition}
    (h : nextEntry t s key = some e) :
    e.key = key ∧ pairExists s key.1 key.2 = true ∧ (e.active = false → e.latched ≠ none) := by
  obtain ⟨-, hp, hl⟩ := State.tabled_iff.mp hs
  unfold nextEntry at h
  dsimp only at h
  split at h
  next hpair =>
    obtain ⟨hk, hal⟩ := treatEntry_eq_some (fun o ho => (findEntry_eq_some ho).2) h
    exact ⟨hk, hpair, hal⟩
  next =>
    obtain ⟨he, hk⟩ := findEntry_eq_some h
    have hkey : e.key = key := hk
    exact ⟨hkey, hkey ▸ hp e he, hl e he⟩

/-- The condition table after a set (R139, R143). -/
theorem treated_tabled {s : State} (hs : s.Tabled) (t : Topology) :
    State.Tabled { s with supervision := { s.supervision with conditions := nextConditions t s } } := by
  rw [State.tabled_iff]
  have hmem : ∀ e ∈ nextConditions t s, ∃ key, nextEntry t s key = some e := fun e he => by
    obtain ⟨key, -, h⟩ := List.mem_filterMap.mp he
    exact ⟨key, h⟩
  refine ⟨filterMap_key_sublist (fun key e h => (nextEntry_eq_some hs h).1) conditionKeys, fun e he => ?_, fun e he => ?_⟩
  · obtain ⟨key, h⟩ := hmem e he
    obtain ⟨hk, hp, -⟩ := nextEntry_eq_some hs h
    subst hk
    exact hp
  · obtain ⟨key, h⟩ := hmem e he
    exact (nextEntry_eq_some hs h).2.2

/-- A pair of code and scope stays possible when another slot's record is replaced. -/
theorem pairExists_replaceRecord {s : State} {b : Slot} {r : BayRecord} {c : Code} {sc : Scope} (h : sc ≠ .bay b) :
    pairExists (replaceRecord b r s) c sc = pairExists s c sc := by
  cases sc with
  | bay x =>
    have hx : x ≠ b := fun hx => h (hx ▸ rfl)
    simp [pairExists, replaceRecord, Table.get_set_ne _ _ hx]
  | bus k => rfl
  | check => rfl
  | port p => rfl

/-- The first two sections are in use under either value of SECTIONS (R4). -/
theorem inUse_inner {n m : SectionCount} {k : Bus} (h : outerBus k = false) : n.inUse k = m.inUse k := by
  have hk : k.val < 2 := by simpa [outerBus] using h
  cases n <;> cases m <;> simp [SectionCount.inUse, SectionCount.number] <;> omega

/-- The condition entries and what can exist after a change of the yard settings (R2, R157). -/
theorem writeYard_tabled {s : State} (h : s.Tabled) (y : Yard) : (writeYard y s).Tabled := by
  refine h.filter _ (writeYard_conditions y s) (fun e hf he => ?_)
  unfold pairExists at he ⊢
  rw [writeYard_bays, writeYard_yard]
  cases hsc : e.scope with
  | bus k =>
    rw [hsc] at he hf
    rcases Bool.or_eq_true_iff.mp hf with hn | ho
    · rw [of_decide_eq_true hn]
      exact he
    · show (decide (e.code = .zoneCtSuspect) && y.sections.inUse k) = true
      rw [inUse_inner (m := s.yard.sections) (by simpa [outerScope] using ho)]
      exact he
  | bay b => rw [hsc] at he; exact he
  | check => rw [hsc] at he; exact he
  | port p => rw [hsc] at he; exact he

/-- Every change keeps the condition table in order and among the pairs that can exist. -/
theorem Move.keeps_tabled {s t : State} (h : Move s t) (hs : s.Tabled) : t.Tabled := by
  cases h with
  | aside h => rw [h]; exact { hs with }
  | blocks h => rw [h]; exact { hs with }
  | link h _ => rw [h]; exact { hs with }
  | hardReset => exact { reset_tabled with }
  | receive port frame =>
    obtain ⟨x, y, z, h⟩ := receiveFrame_frame port frame s
    rw [h]
    exact { hs with }
  | treat t => exact treated_tabled hs t
  | restart => exact ⟨List.nil_sublist _, nofun⟩
  | setBay b r =>
    refine hs.filter _ rfl (fun e hf he => ?_)
    rw [pairExists_replaceRecord (of_decide_eq_true hf)]
    exact he
  | setYard y => exact writeYard_tabled hs y
  | remove f => exact hs.filter f rfl (fun _ _ he => he)
  | _ => exact { hs with }

end Sys2Proof.Machine

open Sys2Proof Sys2Proof.Machine

/-- Settles O60: every step is a chain of changes, and each of the four invariants is kept by every kind of change. -/
theorem stepKeepsSettingsAndStores : Obligations.StepKeepsSettingsAndStores := fun _ _ h =>
  ⟨step_keeps (fun _ _ => Move.keeps_ranged) h, step_keeps (fun _ _ => Move.keeps_paired) h,
    step_keeps (fun _ _ => Move.keeps_stored) h, step_keeps (fun _ _ => Move.keeps_tabled) h⟩

end

