-- ==== Sys2Proof/Proofs/InEvaluation.lean ====
section
/-! PROOF. What stands while a set is in evaluation. -/

namespace Sys2Proof.Machine

open Sys2Proof

/-- The settings and forced values that the stages of a set read stand (R16, R50, R67). -/
structure SettingsStand (s t : State) : Prop where
  active : t.active = s.active
  bays : t.bays = s.bays
  yard : t.yard = s.yard
  forced : ∀ b, (t.replica.slots.get b).forcedA = (s.replica.slots.get b).forcedA ∧
    (t.replica.slots.get b).forcedB = (s.replica.slots.get b).forcedB

theorem SettingsStand.refl (s : State) : SettingsStand s s := ⟨rfl, rfl, rfl, fun _ => ⟨rfl, rfl⟩⟩

theorem SettingsStand.trans {s t u : State} (h : SettingsStand s t) (k : SettingsStand t u) : SettingsStand s u :=
  ⟨k.active.trans h.active, k.bays.trans h.bays, k.yard.trans h.yard, fun b =>
    ⟨(k.forced b).1.trans (h.forced b).1, (k.forced b).2.trans (h.forced b).2⟩⟩

/-- The forced values stand with the whole replica. -/
theorem SettingsStand.ofReplica {s t : State} (ha : t.active = s.active) (hb : t.bays = s.bays) (hy : t.yard = s.yard)
    (hr : t.replica = s.replica) : SettingsStand s t :=
  ⟨ha, hb, hy, fun _ => hr ▸ ⟨rfl, rfl⟩⟩

/-! ### Requests -/

/-- While a set is in evaluation no request is served: it waits at the head, or it is not its turn (R168). -/
theorem serve_in_evaluation {s : State} (h : s.published ≠ none) (req : Request) (own : List Byte → State → Service) :
    ∃ l, serve req own s = { s with link := l } := by
  by_cases ht : ∃ rest, s.Turn req rest
  · obtain ⟨rest, ht⟩ := ht
    rw [serve_waits ht (fun hf => h hf.2.2)]
    exact ⟨_, rfl⟩
  · rw [serve_out_of_turn (fun q hq => ht ⟨q, hq⟩)]
    exact ⟨s.link, rfl⟩

/-- A request, whatever its rule, changes none of the settings while a set is in evaluation. -/
theorem serve_settings {s : State} (h : s.published ≠ none) (req : Request) (own : List Byte → State → Service) :
    SettingsStand s (serve req own s) := by
  obtain ⟨l, hl⟩ := serve_in_evaluation h req own
  rw [hl]
  exact .ofReplica rfl rfl rfl rfl

/-! ### The stages of an evaluation -/

/-- The replica's work on a slot keeps the stored forced values (R50). -/
theorem SlotPositions.derive_forced (bank : Bank) (k : BayKind) (c : Option Contacts) (q : SlotPositions) :
    (q.derive bank k c).forcedA = q.forcedA ∧ (q.derive bank k c).forcedB = q.forcedB := by
  cases k <;> cases c <;> exact ⟨rfl, rfl⟩

theorem deriveReplica_slot (p : Published) (s : State) (b : Slot) :
    (deriveReplica p s).replica.slots.get b =
      (s.replica.slots.get b).derive s.active (s.bays.get b).kind (p.contacts.get b) := by
  simp [deriveReplica]

theorem deriveReplica_settings (p : Published) (s : State) : SettingsStand s (deriveReplica p s) :=
  ⟨rfl, rfl, rfl, fun b => by rw [deriveReplica_slot]; exact SlotPositions.derive_forced _ _ _ _⟩

/-- Stage 3 changes nothing but the evaluator and the detectors, whether it is abandoned or not. -/
theorem measureSet_frame (t : Topology) (s : State) :
    ∃ e d, (measureSet t s).state = { s with evaluator := e, detectors := d } := by
  unfold measureSet
  dsimp only
  repeat' split
  · exact ⟨_, s.detectors, rfl⟩
  · exact ⟨_, _, rfl⟩
  · exact ⟨_, _, rfl⟩

theorem measureSet_settings (t : Topology) (s : State) : SettingsStand s (measureSet t s).state := by
  obtain ⟨e, d, h⟩ := measureSet_frame t s
  rw [h]
  exact .ofReplica rfl rfl rfl rfl

theorem assembleZones_settings (st : Stamp) (s : State) : SettingsStand s (assembleZones st s) :=
  .ofReplica (by simp) (by simp) (by simp) (by simp)

theorem superviseSet_settings (t : Topology) (r : Results) (s : State) : SettingsStand s (superviseSet t r s) :=
  .ofReplica (by simp) (by simp) (by simp) (by simp)

theorem reportCheck_settings (c : IntegrityCheck) (s : State) : SettingsStand s (reportCheck c s) :=
  .ofReplica (by simp) (by simp) (by simp) (by simp)

theorem finishSet_settings (p : Published) (t : Topology) (r : Results) (s : State) : SettingsStand s (finishSet p t r s) := by
  unfold finishSet
  exact .ofReplica (by simp) (by simp) (by simp) (by simp)

theorem evaluateFrom_settings (p : Published) (t : Topology) (s : State) : SettingsStand s (evaluateFrom p t s) := by
  have h := measureSet_settings t s
  unfold evaluateFrom
  cases hm : measureSet t s with
  | abandoned s1 => rw [hm] at h; exact h.trans (reportCheck_settings _ _)
  | whole s1 r => rw [hm] at h; exact (h.trans (superviseSet_settings t r s1)).trans (finishSet_settings _ _ _ _)

theorem evaluateSet_settings (s : State) : SettingsStand s (evaluateSet s) := by
  unfold evaluateSet
  split
  · exact .refl s
  · exact ((deriveReplica_settings _ s).trans (assembleZones_settings _ _)).trans (evaluateFrom_settings _ _ _)

theorem measurePart_settings (supervised : Bool) (t : Topology) (s : State) :
    SettingsStand s (measurePart supervised t s).state := by
  have h := measureSet_settings t s
  unfold measurePart
  cases hm : measureSet t s with
  | abandoned s1 => rw [hm] at h; exact h
  | whole s1 r =>
    rw [hm] at h
    cases supervised
    · exact h
    · exact h.trans (superviseSet_settings t r s1)

theorem evaluatePart_settings (n : Nat) (p : Published) (s : State) : SettingsStand s (evaluatePart n p s).state := by
  have h1 := deriveReplica_settings p s
  have h2 := h1.trans (assembleZones_settings p.stamp _)
  unfold evaluatePart
  dsimp only
  repeat' split
  · exact .refl s
  · exact h1
  · exact h2
  · exact h2.trans (measurePart_settings _ _ _)

theorem reportAbsent_settings (clockFirst : Bool) (c : CutShort) : SettingsStand c.state (reportAbsent clockFirst c) := by
  unfold reportAbsent
  repeat' split
  · exact (reportCheck_settings _ _).trans (reportCheck_settings _ _)
  · exact (reportCheck_settings _ _).trans (reportCheck_settings _ _)
  · exact reportCheck_settings _ _

/-! ### Every command -/

theorem nominalInstant_settings (s : State) : SettingsStand s (nominalInstant s) :=
  .ofReplica (by simp) (by simp) (by simp) (by simp)

theorem receiveFrame_settings (port : Port) (frame : List Byte) (s : State) : SettingsStand s (receiveFrame port frame s) := by
  obtain ⟨x, y, z, h⟩ := receiveFrame_frame port frame s
  rw [h]
  exact .ofReplica rfl rfl rfl rfl

/-- While a set is in evaluation no close is due (R33). -/
theorem closeDue_in_evaluation {s : State} (h : s.published ≠ none) : closeDue s = false :=
  Bool.eq_false_iff.mpr (fun hd => h (closeDue_iff.mp hd).2.1)

/-- While a set is in evaluation no restart is due (R177). -/
theorem restartDue_in_evaluation {s : State} (h : s.published ≠ none) : restartDue s = false := by
  cases hp : s.published with
  | none => exact absurd hp h
  | some p => simp [restartDue, hp]

theorem exec_settings {c : Instr} {s t : State} (h : s.published ≠ none) (hc : ∀ r1 r0, c ≠ .hardReset r1 r0)
    (ht : exec c s = .next t) : SettingsStand s t := by
  cases c <;> cases ht
  case hardReset r1 r0 => exact absurd rfl (hc r1 r0)
  case refclkAbsent m =>
    refine SettingsStand.trans ?_ (reportAbsent_settings _ _)
    cases hp : s.published with
    | none => exact absurd hp h
    | some p => unfold cutShort; rw [hp]; exact evaluatePart_settings _ p s
  case setInstant => exact nominalInstant_settings s
  case sampleCountWrap => split; exacts [nominalInstant_settings s, .refl s]
  case linkDown => split; exacts [nominalInstant_settings s, .refl s]
  case moderationTimerExpiry => split; exacts [nominalInstant_settings s, .refl s]
  case portFrameReceived => exact receiveFrame_settings _ _ s
  case setClose u => rw [closeDue_in_evaluation h]; exact .ofReplica rfl rfl rfl rfl
  case evaluateSet u => exact SettingsStand.trans (t := applyUpsets u s) (.ofReplica rfl rfl rfl rfl) (evaluateSet_settings _)
  case externalHoldExpiry => split; exacts [evaluateSet_settings s, .refl s]
  case bfTimerExpiry => split; exacts [evaluateSet_settings s, .refl s]
  case unknownKindRequest => split; exacts [serve_settings h _ _, .refl s]
  case restartMade => rw [restartDue_in_evaluation h]; exact .refl s
  case tripFrameSent => exact .ofReplica rfl rfl rfl rfl
  case controlByteReceived => exact .ofReplica rfl rfl rfl rfl
  case gapTimeout => exact .ofReplica rfl rfl rfl rfl
  case frameTransmitted => exact .ofReplica rfl rfl rfl rfl
  all_goals exact serve_settings h _ _

end Sys2Proof.Machine

open Sys2Proof Sys2Proof.Machine

/-- Settles O4: a request waits, a close and a restart are not due, and no stage of an evaluation writes a setting. -/
theorem evaluationReadsWhatTheCloseFound : Obligations.EvaluationReadsWhatTheCloseFound := fun _ _ _ h hc ht =>
  let k := exec_settings h hc ht
  ⟨k.active, k.bays, k.yard, k.forced⟩

end

