-- ==== Sys2Proof/Proofs/Settings.lean ====
section
/-! PROOF. The setting banks and the bay table: what the close and the requests do with them. -/

namespace Sys2Proof.Machine

open Sys2Proof

/-! ### EDIT copied into ACTIVE (R15 to R17) -/

theorem copyBank_operate (s : State) (k : Bus) (p : Phase) :
    ((copyBank s).evaluator.operate.get k).get p = min ((s.evaluator.operate.get k).get p) s.edit.zoneOperateSets := by
  simp [copyBank, Evaluator.cap]

theorem copyBank_checkOperate (s : State) (p : Phase) :
    (copyBank s).evaluator.checkOperate.get p = min (s.evaluator.checkOperate.get p) s.edit.checkOperateSets := by
  simp [copyBank, Evaluator.cap]

theorem copyBank_detector (s : State) (k : Bus) (p : Phase) :
    ((copyBank s).detectors.zones.get k).get p =
      ⟨((s.detectors.zones.get k).get p).state, min ((s.detectors.zones.get k).get p).hold s.edit.extHold⟩ := by
  simp [copyBank, Detectors.cap, Detector.cap]

theorem copyBank_checkDetector (s : State) (p : Phase) :
    (copyBank s).detectors.check.get p =
      ⟨(s.detectors.check.get p).state, min (s.detectors.check.get p).hold s.edit.extHold⟩ := by
  simp [copyBank, Detectors.cap, Detector.cap]

/-- The close handles a BANK-APPLY in flight (R16). -/
theorem closeFlight_bankApply {s : State} {req : Request} {rest : List Request} (hl : s.link.Settled)
    (hf : s.link.flight = some .bankApply) (hq : s.link.requests = req :: rest) :
    closeFlight s = { copyBank s with link := s.link.answered req rest 0 [] } := by
  unfold closeFlight
  rw [hf]
  dsimp only
  rw [copyBank_link, ControlLink.answerHead_settled hl hq]
  rfl

/-! ### Payloads -/

/-- A payload of eight bytes. -/
theorem payload_eight {payload : List Byte} (h : payload.length = 8) :
    ∃ a b c d e f g i, payload = [a, b, c, d, e, f, g, i] := by
  match payload, h with
  | [a, b, c, d, e, f, g, i], _ => exact ⟨a, b, c, d, e, f, g, i, rfl⟩

/-- The record fields begin with the slot (R184). -/
theorem recordFields_head {b : Slot} {r : BayRecord} {slot kind side junction ct polarity r1 r0 : Byte}
    (h : [slot, kind, side, junction, ct, polarity, r1, r0] = recordFields b r) : slot = BitVec.ofNat 8 b.val := by
  simp only [recordFields, u8, List.cons_append, List.nil_append, List.cons.injEq] at h
  exact h.1

/-- The byte of a slot reads back as the slot. -/
theorem readSlot_ofNat (b : Slot) : readSlot (BitVec.ofNat 8 b.val) = some b :=
  readSlot_eq_some.mpr (by simp; omega)

/-- The rule of BAY-SET in SETUP, for bytes that spell a record. -/
theorem ruleBaySet_spelled {s : State} (hm : s.mode ≠ .run) {payload : List Byte} {b : Slot} {r : BayRecord}
    (h1 : 1024 ≤ r.ratio) (h2 : r.ratio ≤ 65535) (hp : payload = recordFields b r) (hlen : payload.length = 8) :
    ruleBaySet payload s = if s.bays.get b = r then .done s [] else .done (replaceRecord b r s) [] := by
  obtain ⟨slot, kind, side, junction, ct, polarity, r1, r0, rfl⟩ := payload_eight hlen
  obtain rfl := recordFields_head hp
  have hr : readRecord kind side junction ct polarity r1 r0 = some r := (readRecord_eq_some b).mpr ⟨hp.symm, h1, h2⟩
  unfold ruleBaySet
  simp only [if_neg hm, readSlot_ofNat, hr]

/-- The rule of BAY-SET in SETUP, for bytes that spell no record. -/
theorem ruleBaySet_unspelled {s : State} (hm : s.mode ≠ .run) {payload : List Byte} (hlen : payload.length = 8)
    (h : ∀ (b : Slot) (r : BayRecord), 1024 ≤ r.ratio → r.ratio ≤ 65535 → payload ≠ recordFields b r) :
    ruleBaySet payload s = .refuse .outOfRange [] := by
  obtain ⟨slot, kind, side, junction, ct, polarity, r1, r0, rfl⟩ := payload_eight hlen
  unfold ruleBaySet
  dsimp only
  rw [if_neg hm]
  split
  next b r hb hr =>
    obtain ⟨hf, h1, h2⟩ := (readRecord_eq_some b).mp hr
    exact absurd (by rw [hf, byte_of_toNat (readSlot_eq_some.mp hb)]) (h b r h1 h2)
  next => rfl

theorem ruleBaySet_run {s : State} (hm : s.mode = .run) {payload : List Byte} (hlen : payload.length = 8) :
    ruleBaySet payload s = .refuse .wrongMode [] := by
  obtain ⟨slot, kind, side, junction, ct, polarity, r1, r0, rfl⟩ := payload_eight hlen
  unfold ruleBaySet
  dsimp only
  rw [if_pos hm]

/-! ### BANK-WRITE -/

theorem ruleBankWrite_refused {s : State} {item index v3 v2 v1 v0 : Byte}
    (h : ∀ i : BankItem, i.bytes = [item, index] → i.admits (natOfBytes [v3, v2, v1, v0]) = false) :
    ruleBankWrite [item, index, v3, v2, v1, v0] s = .refuse .outOfRange [] := by
  unfold ruleBankWrite
  dsimp only
  split
  · rfl
  next i hi => rw [if_neg (by rw [h i (readItem_eq_some.mp hi)]; exact Bool.false_ne_true)]

theorem ruleBankWrite_done {s : State} {item index v3 v2 v1 v0 : Byte} {i : BankItem} (hi : i.bytes = [item, index])
    (ha : i.admits (natOfBytes [v3, v2, v1, v0]) = true) :
    ruleBankWrite [item, index, v3, v2, v1, v0] s =
      .done { s with edit := s.edit.write i (natOfBytes [v3, v2, v1, v0]) } [] := by
  unfold ruleBankWrite
  dsimp only
  rw [readItem_eq_some.mpr hi]
  dsimp only
  rw [if_pos ha]

/-! ### BANK-APPLY -/

theorem ruleBankApply_relation {s : State} {n : Nat} (h : s.edit.failedRelation = some n) (payload : List Byte) :
    ruleBankApply payload s = .refuse .inconsistent (u8 n ++ u8 noSlot) := by
  unfold ruleBankApply
  rw [h]

theorem ruleBankApply_passed {s : State} (h : s.edit.failedRelation = none) (payload : List Byte) :
    ruleBankApply payload s = if s.mode = .run then .hold .bankApply else .done (copyBank s) [] := by
  unfold ruleBankApply
  rw [h]

end Sys2Proof.Machine

open Sys2Proof Sys2Proof.Machine

/-- Settles O16: the request in flight is handled first, and the close itself touches none of these blocks. -/
theorem closeCopiesTheBankInFlight : Obligations.CloseCopiesTheBankInFlight := by
  intro s req rest hd hs hl hf hq
  refine ⟨_, execSetClose_due hd hs, ?_⟩
  rw [closeFlight_bankApply hl hf hq]
  exact ⟨rfl, rfl, copyBank_operate s, copyBank_checkOperate s, copyBank_detector s, copyBank_checkDetector s, rfl, rfl, rfl, rfl,
    rfl, rfl, rfl⟩

/-- Settles O50, by whether the bytes spell a record and whether it is the one held. -/
theorem baySetReplacesTheRecord : Obligations.BaySetReplacesTheRecord := by
  intro tag payload s rest hm hlen hs
  refine ⟨fun hrun => ?_, fun hsetup => ?_⟩
  · exact congrArg _ (serve_own_refuse ⟨0x14, 8, false⟩ hs rfl hlen (.inl hm)
      (ruleBaySet_run (s := s.fronted _ rest) hrun hlen))
  have hrun : s.mode ≠ .run := by rw [hsetup]; nofun
  refine ⟨fun h => ?_, fun b r h1 h2 hp => ⟨fun heq => ?_, fun hne => ?_⟩⟩
  · exact congrArg _ (serve_own_refuse ⟨0x14, 8, false⟩ hs rfl hlen (.inl hm)
      (ruleBaySet_unspelled (s := s.fronted _ rest) hrun hlen h))
  · refine congrArg _ (serve_own_read ⟨0x14, 8, false⟩ hs rfl hlen (.inl hm) ?_)
    exact (ruleBaySet_spelled (s := s.fronted _ rest) hrun h1 h2 hp hlen).trans (if_pos heq)
  · refine congrArg _ ((serve_own_write ⟨0x14, 8, false⟩ hs rfl hlen (.inl hm)
      ((ruleBaySet_spelled (s := s.fronted _ rest) hrun h1 h2 hp hlen).trans (if_neg hne)) rfl).trans ?_)
    rfl

/-- Settles O52, by the item named, the value's range, the cross-relations and the mode. -/
theorem banksAreWrittenAndApplied : Obligations.BanksAreWrittenAndApplied := by
  intro tag s rest hm
  refine ⟨fun item index v3 v2 v1 v0 hs => ?_, fun hs => ?_⟩
  · intro req v
    have hv : natOfBytes [v3, v2, v1, v0] = v := natOfBytes_four v3 v2 v1 v0
    refine ⟨fun h => ?_, fun i hi hlo hhi => ⟨s.edit.write i v, ?_, fun j => ?_⟩⟩
    · refine congrArg _ (serve_own_refuse ⟨0x20, 6, false⟩ hs rfl rfl (.inl hm) (ruleBankWrite_refused (fun i hi => ?_)))
      rw [hv, ← Bool.not_eq_true, BankItem.admits_iff]
      have := h i hi
      omega
    · have ha : i.admits (natOfBytes [v3, v2, v1, v0]) = true := by rw [hv]; exact BankItem.admits_iff.mpr ⟨hlo, hhi⟩
      refine congrArg _ ((serve_own_write ⟨0x20, 6, false⟩ hs rfl rfl (.inl hm) (ruleBankWrite_done hi ha) rfl).trans ?_)
      rw [hv]
      rfl
    · exact Bank.item_write s.edit (BankItem.admits_iff.mpr ⟨hlo, hhi⟩) j
  · refine ⟨fun h => ?_, fun h1 h2 => ?_, fun h1 h2 => ?_⟩
    · have hr : s.edit.failedRelation = some 1 := by unfold Bank.failedRelation; rw [if_pos h]
      exact congrArg _ (serve_own_refuse ⟨0x22, 0, false⟩ hs rfl rfl (.inl hm)
        (ruleBankApply_relation (s := s.fronted _ rest) hr _))
    · have hr : s.edit.failedRelation = some 2 := by
        unfold Bank.failedRelation; rw [if_neg (Nat.not_lt.mpr h1), if_pos h2]
      exact congrArg _ (serve_own_refuse ⟨0x22, 0, false⟩ hs rfl rfl (.inl hm)
        (ruleBankApply_relation (s := s.fronted _ rest) hr _))
    · have hr := Bank.failedRelation_eq_none.mpr ⟨h1, h2⟩
      refine ⟨fun hrun => ?_, fun hsetup =>
        ⟨{ copyBank s with link := s.link.answered ⟨0x22, tag, []⟩ rest 0 [] }, ?_, rfl, rfl, fun p => ?_⟩⟩
      · exact congrArg _ (serve_own_hold ⟨0x22, 0, false⟩ hs rfl rfl (.inl hm)
          ((ruleBankApply_passed (s := s.fronted _ rest) hr _).trans (if_pos hrun)))
      · exact congrArg _ (serve_own_write (t := copyBank (s.fronted _ rest)) ⟨0x22, 0, false⟩ hs rfl rfl (.inl hm)
          ((ruleBankApply_passed (s := s.fronted _ rest) hr _).trans (if_neg (by rw [State.fronted_mode, hsetup]; nofun))) rfl)
      · exact ⟨copyBank_checkOperate s p, copyBank_checkDetector s p, fun k =>
          ⟨copyBank_operate s k p, copyBank_detector s k p⟩⟩

end

