-- ==== Sys2Proof/Proofs/Reads.lean ====
section
/-! PROOF. The requests that return settings as held, and MODE. -/

namespace Sys2Proof.Machine

open Sys2Proof

/-! ### Layouts, byte for byte (R184) -/

theorem identBytes_eq (s : State) :
    identBytes s =
      [0x4D, 0x26, 1, 26, BitVec.ofNat 8 s.rate.toNat, match s.mode with | .setup => 0 | .run => 1 | .halted => 2] := by
  unfold identBytes
  cases s.mode <;> rfl

theorem streamFields_some (e : StreamEntry) :
    streamFields (some e) =
      u32 e.identifier.toNat ++ [BitVec.ofNat 8 e.slot.val,
        match e.admitted with | .x => 0 | .y => 1 | .either => 2, if e.enabled = true then 1 else 0] := by
  obtain ⟨id, b, a, en, c⟩ := e
  cases a <;> cases en <;> rfl

theorem Yard.bytes_eq (y : Yard) :
    y.bytes = [if y.sections = .two then 2 else 4, if y.frequency = .hz50 then 50 else 60, BitVec.ofNat 8 y.alignDelay] := by
  obtain ⟨n, f, d⟩ := y
  cases n <;> cases f <;> rfl

theorem recordFields_eq (b : Slot) (r : BayRecord) :
    recordFields b r =
      BitVec.ofNat 8 b.val ::
        ((match r.kind with
          | .unused => [0, 0xFF, 0xFF, 0xFF]
          | .feeder .one => [1, 1, 0xFF, 0xFF]
          | .feeder .two => [1, 2, 0xFF, 0xFF]
          | .junction .coupler1 c => [2, 0xFF, 0, if c = true then 1 else 0]
          | .junction .coupler2 c => [2, 0xFF, 1, if c = true then 3 else 2]
          | .junction .sectionA c => [2, 0xFF, 2, if c = true then 2 else 0]
          | .junction .sectionB c => [2, 0xFF, 3, if c = true then 3 else 1] : List Byte)
        ++ [if r.polarity = .plus then 0x01 else 0xFF] ++ u16 r.ratio) := by
  obtain ⟨k, p, n⟩ := r
  rcases k with _ | side | ⟨j, c⟩
  · cases p <;> rfl
  · cases side <;> cases p <;> rfl
  · cases j <;> cases c <;> cases p <;> rfl

theorem responseFields_eq (r : Response) :
    u8 r.level.code ++ flagByte r.latch =
      [match r.level with | .none => 0 | .alarm => 1 | .blockZone => 2 | .blockAll => 3, if r.latch = true then 1 else 0] := by
  obtain ⟨l, f⟩ := r
  cases l <;> cases f <;> rfl

/-- A table laid out cell by cell. -/
theorem Table.flatMap_cells {n : Nat} {α β : Type} (t : Table n α) (f : α → List β) :
    t.cells.flatMap f = (List.finRange n).flatMap (fun i => f (t.get i)) := by
  rw [t.cells_eq, List.ofFn_eq_map, List.flatMap_map]

/-- A request that only reads, with its reply's data laid out another way. -/
theorem read_replies {s : State} {req : Request} {rest : List Request} {own : List Byte → State → Service}
    {data laid : List Byte}
    (h : serve req own s = s.replied req rest 0 data) (hd : data = laid) :
    (.next (serve req own s) : Host.Outcome State Fault Refusal) = .next (s.replied req rest 0 laid) := by
  rw [h, hd]

/-! ### Operands -/

/-- The code at an index of the response table (R140, R183). -/
theorem Code.ofIndex : ∀ i : Fin 9, ∃ c : Code, c.index = i ∧ c.number = i.val + 1
  | 0 => ⟨.streamLost, rfl, rfl⟩
  | 1 => ⟨.streamGap, rfl, rfl⟩
  | 2 => ⟨.zoneCtSuspect, rfl, rfl⟩
  | 3 => ⟨.checkCtSuspect, rfl, rfl⟩
  | 4 => ⟨.isolatorTravel, rfl, rfl⟩
  | 5 => ⟨.isolatorInvalid, rfl, rfl⟩
  | 6 => ⟨.breakerInvalid, rfl, rfl⟩
  | 7 => ⟨.positionForced, rfl, rfl⟩
  | 8 => ⟨.portSilent, rfl, rfl⟩

theorem selectBank_none {s : State} {bank : Byte} (h : 2 ≤ bank.toNat) : selectBank s bank = none := by
  unfold selectBank
  rw [if_neg (by omega), if_neg (by omega)]

theorem selectBank_some {s : State} {bank : Byte} (h : bank.toNat < 2) :
    selectBank s bank = some (if bank = 0 then s.active else s.edit) := by
  unfold selectBank
  by_cases h0 : bank.toNat = 0
  · obtain rfl : bank = 0 := byte_of_toNat h0
    rfl
  · rw [if_neg h0, if_pos (by omega), if_neg (by rintro rfl; exact h0 rfl)]

/-- BANK-READ is refused for a bank or an item that its bytes do not name (R14). -/
theorem ruleBankRead_refused {s : State} {bank item index : Byte}
    (h : 2 ≤ bank.toNat ∨ ∀ i : BankItem, i.bytes ≠ [item, index]) :
    ruleBankRead [bank, item, index] s = .refuse .outOfRange [] := by
  unfold ruleBankRead
  dsimp only
  split
  next b i hb hi =>
    rcases h with h | h
    · rw [selectBank_none h] at hb; cases hb
    · exact absurd (readItem_eq_some.mp hi) (h i)
  next => rfl

theorem ruleBankRead_done {s : State} {bank item index : Byte} {i : BankItem} (hi : i.bytes = [item, index])
    (hb : bank.toNat < 2) :
    ruleBankRead [bank, item, index] s = .done s (u32 ((if bank = 0 then s.active else s.edit).item i)) := by
  unfold ruleBankRead
  dsimp only
  rw [readItem_eq_some.mpr hi, selectBank_some hb]

theorem ruleBayGet_refused {s : State} {slot : Byte} (h : 26 ≤ slot.toNat) : ruleBayGet [slot] s = .refuse .outOfRange [] := by
  unfold ruleBayGet
  dsimp only
  rw [readSlot_eq_none.mpr h]

theorem ruleBayGet_done {s : State} {slot : Byte} {b : Slot} (h : slot.toNat = b.val) :
    ruleBayGet [slot] s = .done s (recordFields b (s.bays.get b)) := by
  unfold ruleBayGet
  dsimp only
  rw [readSlot_eq_some.mpr h]

theorem ruleResponseGet_refused {s : State} {code : Byte} (h : code = 0 ∨ 10 ≤ code.toNat) :
    ruleResponseGet [code] s = .refuse .outOfRange [] := by
  unfold ruleResponseGet
  dsimp only
  rw [readCode_eq_none.mpr (h.imp_left (fun h => h ▸ rfl))]

theorem ruleResponseGet_done {s : State} {code : Byte} {i : Fin 9} (h : code.toNat = i.val + 1) :
    ruleResponseGet [code] s =
      .done s (u8 (s.supervision.responses.get i).level.code ++ flagByte (s.supervision.responses.get i).latch) := by
  obtain ⟨c, rfl, hn⟩ := Code.ofIndex i
  unfold ruleResponseGet
  dsimp only
  rw [readCode_eq_some.mpr (h.trans hn.symm)]
  rfl

/-! ### MODE (R11, R173) -/

theorem ruleMode_refused {s : State} {target : Byte} (h : 2 ≤ target.toNat) : ruleMode [target] s = .refuse .outOfRange [] := by
  unfold ruleMode readTarget
  dsimp only
  rw [if_neg (by omega), if_neg (by omega)]

/-- The mode held is answered at once. -/
theorem ruleMode_held {s : State} {target : Byte} (h : readTarget target = some s.mode) : ruleMode [target] s = .done s [] := by
  unfold ruleMode
  dsimp only
  rw [h]
  exact if_pos rfl

/-- RUN is refused with the check of R11 that failed first. -/
theorem ruleMode_inconsistent {s : State} {target : Byte} {check slot : Nat} (h : readTarget target = some .run)
    (hm : s.mode = .setup) (hf : failedCheck s = some (check, slot)) :
    ruleMode [target] s = .refuse .inconsistent (u8 check ++ u8 slot) := by
  unfold ruleMode
  dsimp only
  rw [h]
  dsimp only
  rw [if_neg (by rw [hm]; nofun), if_pos rfl, hf]

theorem ruleMode_enters {s : State} {target : Byte} (h : readTarget target = some .run) (hm : s.mode = .setup)
    (hf : failedCheck s = none) : ruleMode [target] s = .hold (.mode true) := by
  unfold ruleMode
  dsimp only
  rw [h]
  dsimp only
  rw [if_neg (by rw [hm]; nofun), if_pos rfl, hf]

theorem ruleMode_leaves {s : State} {target : Byte} (h : readTarget target = some .setup) (hm : s.mode = .run) :
    ruleMode [target] s = .hold (.mode false) := by
  unfold ruleMode
  dsimp only
  rw [h]
  dsimp only
  rw [if_neg (by rw [hm]; nofun), if_neg nofun]

end Sys2Proof.Machine

open Sys2Proof Sys2Proof.Machine

/-- Settles O42, request by request: each rule reads the state, and its reply is laid out as R184 says. -/
theorem settingsReadsReturnWhatIsHeld : Obligations.SettingsReadsReturnWhatIsHeld := by
  intro tag s rest
  refine ⟨fun hs => ?_, fun hm => ⟨fun hs => ?_, fun hs => ?_, fun slot hs => ⟨fun h => ?_, fun b hb => ?_⟩,
    fun bank item index hs => ⟨fun h => ?_, fun i hi hb => ?_⟩, fun code hs => ⟨fun h => ?_, fun i hi => ?_⟩⟩⟩
  · exact read_replies (serve_own_read ⟨0x01, 0, true⟩ hs rfl rfl (.inr rfl) rfl) (identBytes_eq s)
  · refine read_replies (serve_own_read ⟨0x12, 0, false⟩ hs rfl rfl (.inl hm) rfl) ?_
    rw [Table.flatMap_cells]
    congr 1
    funext i
    show streamFields (s.streams.get i) = _
    cases s.streams.get i with
    | none => rfl
    | some e => exact streamFields_some e
  · exact read_replies (serve_own_read ⟨0x17, 0, false⟩ hs rfl rfl (.inl hm) rfl) (Yard.bytes_eq s.yard)
  · exact congrArg _ (serve_own_refuse ⟨0x15, 1, false⟩ hs rfl rfl (.inl hm) (ruleBayGet_refused h))
  · refine read_replies (serve_own_read ⟨0x15, 1, false⟩ hs rfl rfl (.inl hm) (ruleBayGet_done hb)) ?_
    rw [recordFields_eq, ← byte_of_toNat hb]
    rfl
  · exact congrArg _ (serve_own_refuse ⟨0x21, 3, false⟩ hs rfl rfl (.inl hm) (ruleBankRead_refused h))
  · exact congrArg _ (serve_own_read ⟨0x21, 3, false⟩ hs rfl rfl (.inl hm) (ruleBankRead_done hi hb))
  · exact congrArg _ (serve_own_refuse ⟨0x25, 1, false⟩ hs rfl rfl (.inl hm) (ruleResponseGet_refused h))
  · exact read_replies (serve_own_read ⟨0x25, 1, false⟩ hs rfl rfl (.inl hm) (ruleResponseGet_done hi)) (responseFields_eq _)

/-- Settles O46, by the target, the mode held and what the checks of R11 answer. -/
theorem modeIsCheckedAndWaitsForTheClose : Obligations.ModeIsCheckedAndWaitsForTheClose := by
  intro tag target s rest hm hs
  refine ⟨fun h => ?_, fun h => ?_, fun ht hsetup => ⟨fun check slot hf => ?_, fun hf => ?_⟩, fun ht hrun => ?_⟩
  · exact congrArg _ (serve_own_refuse ⟨0x02, 1, false⟩ hs rfl rfl (.inl hm) (ruleMode_refused h))
  · refine congrArg _ (serve_own_read ⟨0x02, 1, false⟩ hs rfl rfl (.inl hm) (ruleMode_held ?_))
    rcases h with ⟨rfl, h⟩ | ⟨rfl, h⟩ <;> exact congrArg some h.symm
  · subst ht
    exact congrArg _ (serve_own_refuse ⟨0x02, 1, false⟩ hs rfl rfl (.inl hm)
      (ruleMode_inconsistent (s := s.fronted _ rest) rfl hsetup (failedCheck_of_first (s := s.fronted _ rest) hf)))
  · subst ht
    exact congrArg _ (serve_own_hold ⟨0x02, 1, false⟩ hs rfl rfl (.inl hm)
      (ruleMode_enters (s := s.fronted _ rest) rfl hsetup (failedCheck_eq_none (s := s.fronted _ rest).mpr hf)))
  · subst ht
    exact congrArg _ (serve_own_hold ⟨0x02, 1, false⟩ hs rfl rfl (.inl hm)
      (ruleMode_leaves (s := s.fronted _ rest) rfl hrun))

end

