-- ==== Sys2Proof/Proofs/YardSet.lean ====
section
/-! PROOF. YARD-SET. -/

namespace Sys2Proof.Machine

open Sys2Proof

/-! ### The three values (R1) -/

/-- The bytes that are read are those of the yard settings. -/
theorem readYard_eq_some {n f d : Byte} {y : Yard} :
    readYard n f d = some y ↔
      n.toNat = y.sections.number ∧ f.toNat = y.frequency.number ∧ d.toNat = y.alignDelay ∧
        1 ≤ y.alignDelay ∧ y.alignDelay ≤ 4 := by
  unfold readYard
  constructor
  · intro h
    repeat' split at h
    all_goals cases h
    next hn hf hd => exact ⟨readSections_eq_some.mp hn, readFrequency_eq_some.mp hf, rfl, hd⟩
  · rintro ⟨hn, hf, hd, h1, h4⟩
    rw [readSections_eq_some.mpr hn, readFrequency_eq_some.mpr hf]
    dsimp only
    rw [if_pos (by omega), hd]

theorem number_of_byte {n : Byte} {c : SectionCount} (h : n = if c = .two then 2 else 4) : n.toNat = c.number := by
  subst h
  cases c <;> rfl

theorem frequency_of_byte {f : Byte} {c : Frequency} (h : f = if c = .hz50 then 50 else 60) : f.toNat = c.number := by
  subst h
  cases c <;> rfl

/-- Bytes outside the values of R1 are not read. -/
theorem readYard_eq_none {n f d : Byte} (h : (n ≠ 2 ∧ n ≠ 4) ∨ (f ≠ 50 ∧ f ≠ 60) ∨ d.toNat = 0 ∨ 5 ≤ d.toNat) :
    readYard n f d = none := by
  rw [Option.eq_none_iff_forall_ne_some]
  intro y hy
  obtain ⟨hn, hf, hd, h1, h4⟩ := readYard_eq_some.mp hy
  rcases h with ⟨h2, h4⟩ | ⟨h50, h60⟩ | h
  · cases hs : y.sections
    · exact h2 (byte_of_toNat (by rw [hn, hs]; rfl))
    · exact h4 (byte_of_toNat (by rw [hn, hs]; rfl))
  · cases hs : y.frequency
    · exact h50 (byte_of_toNat (by rw [hf, hs]; rfl))
    · exact h60 (byte_of_toNat (by rw [hf, hs]; rfl))
  · omega

/-! ### The rule -/

theorem ruleYardSet_run {s : State} (h : s.mode = .run) (n f d : Byte) : ruleYardSet [n, f, d] s = .refuse .wrongMode [] := by
  unfold ruleYardSet
  dsimp only
  rw [if_pos h]

theorem ruleYardSet_refused {s : State} (h : s.mode ≠ .run) {n f d : Byte} (hy : readYard n f d = none) :
    ruleYardSet [n, f, d] s = .refuse .outOfRange [] := by
  unfold ruleYardSet
  dsimp only
  rw [if_neg h, hy]

theorem ruleYardSet_done {s : State} (h : s.mode ≠ .run) {n f d : Byte} {y : Yard} (hy : readYard n f d = some y) :
    ruleYardSet [n, f, d] s = .done (writeYard y s) [] := by
  unfold ruleYardSet
  dsimp only
  rw [if_neg h, hy]

/-! ### The link -/

/-- A transmitter that takes the next frame leaves the request queue alone. -/
theorem ControlLink.kick_withRequests (l : ControlLink) (rs : List Request) :
    ({ l with requests := rs } : ControlLink).kick = { l.kick with requests := rs } := by
  obtain ⟨fr, rq, fl, rp, ln, e1, e2, e3, ⟨ha, tr, bt, tp, al⟩, ca, ct⟩ := l
  cases ln with
  | some f => rfl
  | none =>
    simp only [ControlLink.kick, ControlLink.takeNext, ControlLink.haltReady]
    repeat' split
    all_goals rfl

theorem ControlLink.moderate_withRequests (l : ControlLink) (rs : List Request) (a t : List Byte) :
    ({ l with requests := rs } : ControlLink).moderate a t = { l.moderate a t with requests := rs } := by
  unfold ControlLink.moderate
  exact ControlLink.kick_withRequests
    { l with
      alarm := l.alarm.instant.1, topology := l.topology.instant.1,
      slots := { l.slots with
        alarm := if l.alarm.instant.2 then some a else l.slots.alarm,
        topology := if l.topology.instant.2 then some t else l.slots.topology } } rs

/-- What YARD-SET makes of the link before its reply: a frequency restart steps both moderation timers (R30, R180). -/
def yardLink (y : Yard) (s : State) : ControlLink :=
  if y.frequency = s.yard.frequency then s.link
  else s.link.moderate (conditionBytes s.supervision.conditions) (topologyHead y.sections none)

theorem writeYard_link (y : Yard) (s : State) : (writeYard y s).link = yardLink y s := by
  unfold yardLink
  split_ifs with hf
  · rw [writeYard_same hf]
    split_ifs <;> rfl
  · rw [writeYard_restart hf]
    split_ifs <;> rfl

theorem yardLink_settled {y : Yard} {s : State} (h : s.link.Settled) : (yardLink y s).Settled := by
  unfold yardLink
  split_ifs
  · exact h
  · exact ControlLink.moderate_stays_settled h _ _

theorem yardLink_fronted (y : Yard) (req : Request) (rest : List Request) (s : State) :
    yardLink y (s.fronted req rest) = { yardLink y s with requests := req :: rest } := by
  unfold yardLink
  by_cases hf : y.frequency = s.yard.frequency
  · rw [if_pos hf, if_pos (show y.frequency = (s.fronted req rest).yard.frequency from hf)]
    rfl
  · rw [if_neg hf, if_neg (show y.frequency ≠ (s.fronted req rest).yard.frequency from hf)]
    exact ControlLink.moderate_withRequests s.link (req :: rest) _ _

/-- The yard settings written do not depend on the request queue. -/
theorem writeYard_fronted (y : Yard) (req : Request) (rest : List Request) (s : State) :
    writeYard y (s.fronted req rest) = { writeYard y s with link := { yardLink y s with requests := req :: rest } } := by
  have h : ({ writeYard y (s.fronted req rest) with link := (writeYard y (s.fronted req rest)).link } : State) =
      { writeYard y s with link := (writeYard y (s.fronted req rest)).link } := by
    unfold writeYard
    dsimp only [State.fronted]
    by_cases hf : s.yard.frequency = y.frequency <;> by_cases hn : s.yard.sections = y.sections <;>
      simp only [hf, hn, if_true, if_false] <;> rfl
  rw [← yardLink_fronted, ← writeYard_link]
  exact h

/-- YARD-SET done (R2). -/
theorem execYardSet_done {tag n f d : Byte} {s : State} {rest : List Request} {y : Yard}
    (hs : s.Served ⟨0x16, tag, [n, f, d]⟩ rest) (hm : s.mode = .setup) (hy : readYard n f d = some y) :
    exec (.yardSet tag [n, f, d]) s =
      .next { writeYard y s with link := (yardLink y s).answered ⟨0x16, tag, [n, f, d]⟩ rest 0 [] } := by
  have hrun : s.mode ≠ .run := by rw [hm]; nofun
  have hhalt : s.mode ≠ .halted := by rw [hm]; nofun
  have hc := (commonChecks_pass (s := s.fronted ⟨0x16, tag, [n, f, d]⟩ rest) (req := ⟨0x16, tag, [n, f, d]⟩)
    ⟨0x16, 3, false⟩ ruleYardSet rfl rfl (.inl hhalt)).trans (ruleYardSet_done (s := s.fronted _ rest) hrun hy)
  rw [writeYard_fronted] at hc
  exact congrArg _ (serve_done hs hc (yardLink_settled hs.1) rfl)

/-! ### The consequences -/

/-- The scopes of sections 2 and 3. -/
theorem outerScope_eq_false {sc : Scope} : outerScope sc = false ↔ sc ≠ .bus 2 ∧ sc ≠ .bus 3 := by
  cases sc with
  | bus k => revert k; decide
  | bay b => simp [outerScope]
  | check => simp [outerScope]
  | port p => simp [outerScope]

/-- What YARD-SET clears of a section: all of it for a change of FREQUENCY, sections 2 and 3 for a change of SECTIONS (R2, R30). -/
def clearsSection (y : Yard) (s : State) (k : Bus) : Prop :=
  y.frequency ≠ s.yard.frequency ∨ (y.sections ≠ s.yard.sections ∧ 2 ≤ k.val)

/-- A section that is cleared has its hard-reset values. -/
theorem writeYard_cleared {y : Yard} {s : State} {k : Bus} (h : clearsSection y s k) :
    (writeYard y s).evaluator.operate.get k = Table.fill 3 0 ∧
      (writeYard y s).detectors.zones.get k = Table.fill 3 Detector.reset ∧
      (writeYard y s).supervision.ctCounts.get k = Table.fill 3 0 := by
  by_cases hf : y.frequency = s.yard.frequency
  · obtain ⟨hn, hk⟩ := h.resolve_left (not_not_intro hf)
    rw [writeYard_same hf, if_neg hn]
    simp [resetOuter, outerBus, hk]
  · rw [writeYard_restart hf]
    split_ifs
    · simp [Evaluator.reset, Detectors.reset]
    · simp [resetOuter, Evaluator.reset, Detectors.reset]

/-- A section that is not cleared stands. -/
theorem writeYard_uncleared {y : Yard} {s : State} {k : Bus} (h : ¬ clearsSection y s k) :
    (writeYard y s).evaluator.operate.get k = s.evaluator.operate.get k ∧
      (writeYard y s).detectors.zones.get k = s.detectors.zones.get k ∧
      (writeYard y s).supervision.ctCounts.get k = s.supervision.ctCounts.get k := by
  obtain ⟨hf, hn⟩ := not_or.mp h
  rw [writeYard_same (not_not.mp hf)]
  split_ifs with he
  · exact ⟨rfl, rfl, rfl⟩
  · have hk : ¬ 2 ≤ k.val := fun hk => hn ⟨he, hk⟩
    simp [resetOuter, outerBus, hk]

/-- With FREQUENCY unchanged, what belongs to no section stands. -/
theorem writeYard_same_stands {y : Yard} {s : State} (h : y.frequency = s.yard.frequency) :
    (writeYard y s).timer = s.timer ∧ (writeYard y s).lines = s.lines ∧ (writeYard y s).store = s.store ∧
      (writeYard y s).replica = s.replica ∧ (writeYard y s).topology = s.topology ∧
      (writeYard y s).evaluator.results = s.evaluator.results ∧ (writeYard y s).trip = s.trip ∧
      (writeYard y s).supervision.checkCt = s.supervision.checkCt ∧
      (writeYard y s).evaluator.checkOperate = s.evaluator.checkOperate ∧
      (writeYard y s).detectors.check = s.detectors.check := by
  rw [writeYard_same h]
  split_ifs <;> exact ⟨rfl, rfl, rfl, rfl, rfl, rfl, rfl, rfl, rfl, rfl⟩

/-- A change of FREQUENCY sets what belongs to no section as the frequency restart does (R2, R30). -/
theorem writeYard_restart_values {y : Yard} {s : State} (h : y.frequency ≠ s.yard.frequency) :
    (writeYard y s).timer = { s.timer with running := true, count := 0, period := y.frequency.period 0 } ∧
      (writeYard y s).lines = { s.lines with sync := true } ∧ (writeYard y s).store = Store.reset ∧
      (writeYard y s).replica = { slots := s.replica.slots.map SlotPositions.keepForced, stamp := none } ∧
      (writeYard y s).topology = none ∧ (writeYard y s).evaluator.results = none ∧
      (writeYard y s).trip = { s.trip with bitmap := 0 } ∧ (writeYard y s).evaluator.checkOperate = Table.fill 3 0 ∧
      (writeYard y s).detectors.check = Table.fill 3 Detector.reset ∧
      (writeYard y s).supervision.checkCt = Table.fill 3 0 := by
  rw [writeYard_restart h]
  split_ifs <;> exact ⟨rfl, rfl, rfl, rfl, rfl, rfl, rfl, rfl, rfl, rfl⟩

/-- YARD-SET reaches neither the mode nor the tables, the stores, the records or what the host has written. -/
theorem writeYard_frame (y : Yard) (s : State) :
    (writeYard y s).mode = s.mode ∧ (writeYard y s).bays = s.bays ∧ (writeYard y s).active = s.active ∧
      (writeYard y s).edit = s.edit ∧ (writeYard y s).ports = s.ports ∧ (writeYard y s).streams = s.streams ∧
      (writeYard y s).records = s.records ∧ (writeYard y s).bf = s.bf ∧ (writeYard y s).lines.trip = s.lines.trip ∧
      (writeYard y s).lines.healthy = s.lines.healthy ∧
      (writeYard y s).supervision.hostBlocks = s.supervision.hostBlocks ∧
      (writeYard y s).supervision.blockFlags = s.supervision.blockFlags ∧
      (writeYard y s).supervision.responses = s.supervision.responses := by
  unfold writeYard
  dsimp only
  split_ifs <;> exact ⟨rfl, rfl, rfl, rfl, rfl, rfl, rfl, rfl, rfl, rfl, rfl, rfl, rfl⟩

theorem Frequency.period_zero (f : Frequency) : f.period 0 = if f = .hz50 then 20000 else 16667 := by
  cases f <;> rfl

end Sys2Proof.Machine

open Sys2Proof Sys2Proof.Machine

/-- Settles O51, by what the bytes spell and by which of FREQUENCY and SECTIONS change. -/
theorem yardSetTakesEachConsequence : Obligations.YardSetTakesEachConsequence := by
  intro tag n f d s rest hm hs
  refine ⟨fun h => ?_, fun h hr => ?_, fun y hsetup hn hf hd h1 h4 => ?_⟩
  · exact congrArg _ (serve_own_refuse ⟨0x16, 3, false⟩ hs rfl rfl (.inl hm) (ruleYardSet_run (s := s.fronted _ rest) h n f d))
  · exact congrArg _ (serve_own_refuse ⟨0x16, 3, false⟩ hs rfl rfl (.inl hm)
      (ruleYardSet_refused (s := s.fronted _ rest) (by rw [State.fronted_mode, h]; nofun) (readYard_eq_none hr)))
  have hy := readYard_eq_some.mpr ⟨number_of_byte hn, frequency_of_byte hf, hd, h1, h4⟩
  refine ⟨_, yardLink y s, execYardSet_done hs hsetup hy, writeYard_yard y s, rfl, fun h => if_pos h, fun h => ?_, fun h => ?_,
    fun h => ?_, fun h => ?_, ?_, ?_⟩
  · rw [yardLink, if_neg h]
    exact ControlLink.moderate_settled hs.1 _ _
  · obtain ⟨ht, hl, hst, hr, htp, hre, htr, hct, hop, hdt⟩ := writeYard_same_stands h
    refine ⟨ht, hl, hst, hr, htp, hre, htr, hct, hop, hdt, fun k hk => writeYard_uncleared ?_⟩
    rintro (hf | ⟨hn, h2⟩)
    · exact hf h
    · rcases hk with hk | hk
      · omega
      · exact hn hk
  · obtain ⟨ht, hl, hst, hr, htp, hre, htr, hop, hdt, hct⟩ := writeYard_restart_values h
    dsimp only
    rw [ht, hl, hst, hr, htp, hre, htr, hop, hdt, hct]
    refine ⟨rfl, rfl, rfl, y.frequency.period_zero, rfl, rfl, rfl, fun i b => ?_, fun b => ⟨?_, ?_⟩, rfl, rfl, rfl, rfl,
      fun p => ?_⟩
    · simp [Store.reset, Store.emptyCells]
    · simp [Store.reset]
    · exact Table.get_map _ _ b
    · refine ⟨Table.get_fill _ _, Table.get_fill _ _, Table.get_fill _ _, fun k => ?_⟩
      obtain ⟨ho, hd, hc⟩ := writeYard_cleared (k := k) (.inl h)
      rw [ho, hd, hc]
      exact ⟨Table.get_fill _ _, Table.get_fill _ _, Table.get_fill _ _⟩
  · intro k hk p
    obtain ⟨ho, hd, hc⟩ := writeYard_cleared (.inr ⟨h, hk⟩)
    dsimp only
    rw [ho, hd, hc]
    exact ⟨Table.get_fill _ _, Table.get_fill _ _, Table.get_fill _ _⟩
  · dsimp only
    rw [writeYard_conditions]
    refine List.filter_congr fun e _ => ?_
    rw [Bool.eq_iff_iff, Bool.or_eq_true, decide_eq_true_iff, decide_eq_true_iff, Bool.not_eq_true', outerScope_eq_false]
  · exact writeYard_frame y s

end

