-- ==== Sys2Proof/Proofs/Zones.lean ====
section
/-! PROOF. What the zone assembler derives: the zones of a set, their member lists, the marks and the roles. -/

namespace Sys2Proof.Machine

open Sys2Proof

/-! ### Linked sections and zone names (R61, R62) -/

/-- Both sections of a side are in use exactly when one is (R4). -/
theorem ZoneInput.sideInUse_eq (z : ZoneInput) (k : Side) :
    z.sideInUse k = z.sections.inUse k.busA ∧ z.sideInUse k = z.sections.inUse k.busB := by
  unfold ZoneInput.sideInUse
  cases z.sections <;> cases k <;> decide

/-- The two sections of a side are linked by a feeder with both zoning positions closed (R61). -/
theorem ZoneInput.linked_iff {z : ZoneInput} {k : Side} :
    z.linked k = true ↔
      z.sideInUse k = true ∧
        ∃ b, (z.bays.get b).kind = .feeder k ∧ (z.positions.get b).closedA = true ∧ (z.positions.get b).closedB = true := by
  simp only [ZoneInput.linked, ZoneInput.links, allSlots, List.any_eq_true, List.mem_finRange, true_and, Bool.and_eq_true,
    decide_eq_true_iff]
  constructor
  · rintro ⟨b, ⟨⟨hk, ha⟩, hb⟩, hu⟩
    exact ⟨hu, b, hk, ha, hb⟩
  · rintro ⟨hu, b, hk, ha, hb⟩
    exact ⟨b, ⟨⟨hk, ha⟩, hb⟩, hu⟩

/-- The name of a section's zone, from which sides are linked (R62). -/
def zoneNameOf (one two : Bool) (k : Bus) : Bus :=
  if (match sideOf k with | .one => one | .two => two) = true then (sideOf k).busA else k

theorem ZoneInput.zoneName_eq (z : ZoneInput) (k : Bus) : z.zoneName k = zoneNameOf (z.linked .one) (z.linked .two) k := by
  unfold ZoneInput.zoneName zoneNameOf
  cases sideOf k <;> rfl

/-- A zone's name is a section of its own zone, and none of its sections is lower. -/
theorem ZoneInput.zoneName_fixed (z : ZoneInput) (k : Bus) : z.zoneName (z.zoneName k) = z.zoneName k ∧ z.zoneName k ≤ k := by
  simp only [ZoneInput.zoneName_eq]
  generalize z.linked .one = one
  generalize z.linked .two = two
  revert one two k
  decide

/-- Two sections share a zone only as the linked sections of a side. -/
theorem ZoneInput.zoneName_eq_iff {z : ZoneInput} {j k : Bus} (h : j < k) :
    z.zoneName j = z.zoneName k ↔ (j = 0 ∧ k = 1 ∧ z.linked .one = true) ∨ (j = 2 ∧ k = 3 ∧ z.linked .two = true) := by
  simp only [ZoneInput.zoneName_eq]
  generalize z.linked .one = one
  generalize z.linked .two = two
  revert one two j k
  decide

/-- The name of a zone in use is a section in use. -/
theorem ZoneInput.inUse_zoneName {z : ZoneInput} {k : Bus} (h : z.sections.inUse k = true) :
    z.sections.inUse (z.zoneName k) = true := by
  unfold SectionCount.inUse at h ⊢
  rw [decide_eq_true_iff] at h ⊢
  exact Nat.lt_of_le_of_lt (z.zoneName_fixed k).2 h

/-! ### The zones (R62) -/

/-- A zone holds the sections in use that have its name. -/
theorem ZoneInput.holds_iff {z : ZoneInput} {before : Option Topology} {g k : Bus} :
    (z.zone before g).Holds k ↔ z.sections.inUse k = true ∧ z.zoneName k = g := by
  unfold Zone.Holds ZoneInput.zone ZoneInput.buses
  rw [BitVec.getLsbD_ofFnLE, dif_pos k.isLt, Bool.and_eq_true, decide_eq_true_iff]

/-- The zones are those of the sections in use. -/
theorem ZoneInput.mem_zones {z : ZoneInput} {before : Option Topology} {y : Zone} :
    y ∈ z.zones before ↔ ∃ k, z.sections.inUse k = true ∧ y = z.zone before (z.zoneName k) := by
  simp only [ZoneInput.zones, allBuses, List.mem_map, List.mem_filter, List.mem_finRange, true_and, Bool.and_eq_true,
    decide_eq_true_iff]
  constructor
  · rintro ⟨g, ⟨hg, hn⟩, rfl⟩
    exact ⟨g, hg, by rw [hn]⟩
  · rintro ⟨k, hk, rfl⟩
    exact ⟨z.zoneName k, ⟨z.inUse_zoneName hk, (z.zoneName_fixed k).1⟩, rfl⟩

/-- The zone that holds a section is the zone of its name. -/
theorem ZoneInput.zone_of_holds {z : ZoneInput} {before : Option Topology} {y : Zone} {k : Bus} (hy : y ∈ z.zones before)
    (h : y.Holds k) : z.sections.inUse k = true ∧ y = z.zone before (z.zoneName k) := by
  obtain ⟨j, -, rfl⟩ := ZoneInput.mem_zones.mp hy
  obtain ⟨hk, hn⟩ := ZoneInput.holds_iff.mp h
  exact ⟨hk, by rw [hn]⟩

/-- The zone of a section in use holds it. -/
theorem ZoneInput.zone_holds {z : ZoneInput} {before : Option Topology} {k : Bus} (h : z.sections.inUse k = true) :
    z.zone before (z.zoneName k) ∈ z.zones before ∧ (z.zone before (z.zoneName k)).Holds k :=
  ⟨ZoneInput.mem_zones.mpr ⟨k, h, rfl⟩, ZoneInput.holds_iff.mpr ⟨h, rfl⟩⟩

/-- Two sections lie in one zone exactly when both are in use and have one name. -/
theorem ZoneInput.sharesZone_iff {z : ZoneInput} {before : Option Topology} {j k : Bus} :
    (∃ y ∈ z.zones before, y.Holds j ∧ y.Holds k) ↔
      z.sections.inUse j = true ∧ z.sections.inUse k = true ∧ z.zoneName j = z.zoneName k := by
  constructor
  · rintro ⟨y, hy, hj, hk⟩
    obtain ⟨uj, rfl⟩ := ZoneInput.zone_of_holds hy hj
    obtain ⟨uk, hn⟩ := ZoneInput.holds_iff.mp hk
    exact ⟨uj, uk, hn.symm⟩
  · rintro ⟨uj, uk, hn⟩
    exact ⟨_, (ZoneInput.zone_holds uj).1, (ZoneInput.zone_holds uj).2, ZoneInput.holds_iff.mpr ⟨uk, hn.symm⟩⟩

/-- The two sections of a side lie in one zone exactly when the side is in use and linked (R61, R62). -/
theorem ZoneInput.sideShares_iff {z : ZoneInput} {before : Option Topology} (k : Side) :
    (∃ y ∈ z.zones before, y.Holds k.busA ∧ y.Holds k.busB) ↔
      z.sideInUse k = true ∧
        ∃ b, (z.bays.get b).kind = .feeder k ∧ (z.positions.get b).closedA = true ∧ (z.positions.get b).closedB = true := by
  rw [ZoneInput.sharesZone_iff, ← (z.sideInUse_eq k).1, ← (z.sideInUse_eq k).2, ← ZoneInput.linked_iff]
  have hl : z.zoneName k.busA = z.zoneName k.busB ↔ z.linked k = true := by
    cases k
    · exact (ZoneInput.zoneName_eq_iff (by decide)).trans (by simp [Side.busA, Side.busB])
    · exact (ZoneInput.zoneName_eq_iff (by decide)).trans (by simp [Side.busA, Side.busB])
  rw [hl]
  exact ⟨fun h => h.2.2, fun h => ⟨(ZoneInput.linked_iff.mp h).1, (ZoneInput.linked_iff.mp h).1, h⟩⟩

/-- Every section in use, and no other, lies in a zone. -/
theorem ZoneInput.inUse_iff_held {z : ZoneInput} {before : Option Topology} {k : Bus} :
    z.sections.inUse k = true ↔ ∃ y ∈ z.zones before, y.Holds k :=
  ⟨fun h => ⟨_, ZoneInput.zone_holds h⟩, fun ⟨_, hy, h⟩ => (ZoneInput.zone_of_holds hy h).1⟩

/-- A zone is named by its lowest section. -/
theorem ZoneInput.zone_name {z : ZoneInput} {before : Option Topology} {y : Zone} (hy : y ∈ z.zones before) :
    y.Holds y.name ∧ ∀ k, y.Holds k → y.name ≤ k := by
  obtain ⟨j, hj, rfl⟩ := ZoneInput.mem_zones.mp hy
  refine ⟨ZoneInput.holds_iff.mpr ⟨ZoneInput.inUse_zoneName hj, (z.zoneName_fixed j).1⟩, fun k hk => ?_⟩
  have hn := (ZoneInput.holds_iff.mp hk).2
  exact (show z.zoneName k = (z.zone before (z.zoneName j)).name from hn) ▸ (z.zoneName_fixed k).2

/-! ### Change marks (R68) -/

/-- A section is marked against the set held from before. -/
theorem ZoneInput.mark_iff {z : ZoneInput} {before : Option Topology} {st : Stamp} {k : Bus} :
    (z.derive before st).marks.get k = true ↔ z.sections.inUse k = true ∧ MarkedChanged before (z.derive before st) k := by
  show (Table.build (z.mark before)).get k = true ↔ _
  rw [Table.get_build, ZoneInput.mark, Bool.and_eq_true, and_congr_right_iff]
  intro hk
  have hz (y : Zone) : y ∈ (z.derive before st).zones ∧ y.Holds k ↔ y = z.zone before (z.zoneName k) :=
    ⟨fun ⟨hy, h⟩ => (ZoneInput.zone_of_holds hy h).2, fun h => h ▸ ZoneInput.zone_holds hk⟩
  unfold ZoneInput.marked MarkedChanged
  cases before with
  | none => simp
  | some old =>
    dsimp only
    cases ho : old.zoneOf k with
    | none => simp [ho]
    | some o =>
      simp only [reduceCtorEq, false_or, Option.some.injEq, Bool.or_eq_true, decide_eq_true_iff]
      constructor
      · exact fun h => ⟨old, rfl, .inr ⟨o, _, ho, ((hz _).mpr rfl).1, ((hz _).mpr rfl).2, h⟩⟩
      · rintro ⟨_, rfl, h | ⟨o', y, h, hy, hyk, hd⟩⟩
        · cases ho.symm.trans h
        · cases ho.symm.trans h
          cases (hz y).mp ⟨hy, hyk⟩
          exact hd

/-- A zone is changed when one of its sections is marked. -/
theorem ZoneInput.changed_iff {z : ZoneInput} {before : Option Topology} {st : Stamp} {y : Zone}
    (hy : y ∈ (z.derive before st).zones) :
    y.changed = true ↔ ∃ k, y.Holds k ∧ (z.derive before st).marks.get k = true := by
  obtain ⟨j, -, rfl⟩ := ZoneInput.mem_zones.mp hy
  simp only [ZoneInput.derive, ZoneInput.zone, allBuses, List.any_eq_true, List.mem_finRange, true_and, Bool.and_eq_true,
    Table.get_build, Zone.Holds]

theorem ZoneInput.checkChanged_iff {z : ZoneInput} {before : Option Topology} {st : Stamp} :
    (z.derive before st).checkChanged = true ↔
      ∀ old, before = some old → (z.derive before st).checkMembers ≠ old.checkMembers := by
  cases before <;> simp [ZoneInput.derive]

/-! ### The TOPOLOGY cause (R74) -/

/-- No two zones have the same section set. -/
theorem ZoneInput.zones_nodup (z : ZoneInput) (before : Option Topology) : ((z.zones before).map Zone.buses).Nodup := by
  unfold ZoneInput.zones allBuses
  rw [List.map_map, List.nodup_map_iff_inj_on ((List.nodup_finRange 4).filter _)]
  intro g hg g' hg' h
  obtain ⟨hu, hn⟩ := Bool.and_eq_true_iff.mp (List.mem_filter.mp hg).2
  have hh : (z.zone before g).Holds g := ZoneInput.holds_iff.mpr ⟨hu, of_decide_eq_true hn⟩
  have hh' : (z.zone before g').Holds g := by
    unfold Zone.Holds
    rw [← show (z.zone before g).buses = (z.zone before g').buses from h]
    exact hh
  exact (of_decide_eq_true hn).symm.trans (ZoneInput.holds_iff.mp hh').2

/-- Among zones with distinct section sets the list of the zone with a given section set is the only one to compare. -/
theorem Topology.listDiffers_iff {old : Topology} (h : (old.zones.map Zone.buses).Nodup) (y : Zone) :
    old.listDiffers y = true ↔ ∃ o ∈ old.zones, o.buses = y.buses ∧ o.members ≠ y.members := by
  unfold Topology.listDiffers
  cases hf : old.zones.find? (fun o => decide (o.buses = y.buses)) with
  | none =>
    rw [List.find?_eq_none] at hf
    simp only [Bool.false_eq_true, false_iff]
    rintro ⟨o, ho, hb, -⟩
    exact hf o ho (decide_eq_true hb)
  | some o =>
    have ho := List.mem_of_find?_eq_some hf
    have hb : o.buses = y.buses := by simpa using List.find?_some hf
    simp only [decide_eq_true_iff]
    constructor
    · exact fun hd => ⟨o, ho, hb, hd⟩
    · rintro ⟨o', ho', hb', hd⟩
      cases List.inj_on_of_nodup_map h ho ho' (hb.trans hb'.symm)
      exact hd

/-- The cause is a difference of partition or of a member list. -/
theorem ZoneInput.topologyCause_iff {z : ZoneInput} {before : Option Topology} {st : Stamp} :
    topologyCause before (z.derive before st) = true ↔ TopologyDiffers before (z.derive before st) := by
  unfold topologyCause TopologyDiffers
  cases before with
  | none => simp
  | some old =>
    simp only [reduceCtorEq, false_or, Option.some.injEq, exists_eq_left', Bool.or_eq_true, decide_eq_true_iff, or_assoc]
    by_cases hp : old.zones.map Zone.buses = (z.derive (some old) st).zones.map Zone.buses
    · have hd := Topology.listDiffers_iff (hp ▸ z.zones_nodup (some old))
      simp only [hp, List.any_eq_true, hd]
    · simp [hp]

/-! ### Member lists (R63 to R66) -/

/-- A filtered list of slots is in ascending order. -/
theorem filterMap_slots_pairwise (f : Slot → Option Member) (h : ∀ b m, f b = some m → m.slot = b) :
    ((allSlots.filterMap f).map (fun m => m.slot)).Pairwise (· < ·) := by
  rw [List.pairwise_map, List.pairwise_filterMap]
  refine (List.pairwise_lt_finRange 26).imp fun hlt m hm n hn => ?_
  rw [h _ m hm, h _ n hn]
  exact hlt

/-- The zone of a feeder (R63). -/
theorem ZoneInput.feederZone_iff {z : ZoneInput} {k : Side} {q : SlotPositions} {before : Option Topology} {g : Bus} :
    z.feederZone k q = some g ↔
      if q.closedA = true then (z.zone before g).Holds k.busA else q.closedB = true ∧ (z.zone before g).Holds k.busB := by
  simp only [ZoneInput.holds_iff, ← (z.sideInUse_eq k).1, ← (z.sideInUse_eq k).2]
  unfold ZoneInput.feederZone
  cases z.sideInUse k with
  | false => simp
  | true =>
    by_cases ha : q.closedA = true
    · simp [ha]
    · by_cases hb : q.closedB = true <;> simp [ha, hb]

/-- A junction is a member (R64). -/
theorem ZoneInput.role_member {z : ZoneInput} {j : Junction} {q : SlotPositions} :
    z.role j q = .member ↔
      z.sections.inUse j.first = true ∧ z.sections.inUse j.second = true ∧ q.excluded = false ∧
        z.zoneName j.first ≠ z.zoneName j.second := by
  unfold ZoneInput.role
  by_cases hu : z.sections.inUse j.first = true ∧ z.sections.inUse j.second = true
  · obtain ⟨h1, h2⟩ := hu
    cases q.excluded with
    | true => simp [h1, h2]
    | false => by_cases hn : z.zoneName j.first = z.zoneName j.second <;> simp [h1, h2, hn]
  · rw [if_pos (by rwa [← Bool.not_eq_true, Bool.and_eq_true])]
    exact ⟨nofun, fun ⟨h1, h2, _⟩ => absurd ⟨h1, h2⟩ hu⟩

/-- The role of a junction is the first whose condition holds (R64). -/
theorem ZoneInput.role_eq {z : ZoneInput} {j : Junction} {q : SlotPositions} {before : Option Topology} {u : Bus → Prop}
    [DecidablePred u] [Decidable (∃ y ∈ z.zones before, y.Holds j.first ∧ y.Holds j.second)]
    (hu : ∀ k, z.sections.inUse k = true ↔ u k) :
    z.role j q =
      if ¬ (u j.first ∧ u j.second) then .outOfUse
      else if q.excluded = true then .excluded
      else if ∃ y ∈ z.zones before, y.Holds j.first ∧ y.Holds j.second then .internal
      else .member := by
  unfold ZoneInput.role
  by_cases h : u j.first ∧ u j.second
  · have h1 := (hu _).mpr h.1
    have h2 := (hu _).mpr h.2
    simp only [ZoneInput.sharesZone_iff, h1, h2, h, and_self, not_true_eq_false, true_and, Bool.and_self, reduceCtorEq, if_false]
  · have h1 : (z.sections.inUse j.first && z.sections.inUse j.second) = false := by
      rw [← Bool.not_eq_true, Bool.and_eq_true, hu, hu]
      exact h
    rw [if_pos h1, if_pos h]

/-- The entry of a slot names the slot. -/
theorem ZoneInput.memberOf_slot {z : ZoneInput} {g : Bus} {b : Slot} {m : Member} (h : z.memberOf g b = some m) : m.slot = b := by
  unfold ZoneInput.memberOf at h
  repeat' split at h
  all_goals cases h
  all_goals rfl

theorem ZoneInput.mem_members {z : ZoneInput} {g : Bus} {m : Member} : m ∈ z.members g ↔ z.memberOf g m.slot = some m := by
  simp only [ZoneInput.members, List.mem_filterMap, allSlots, List.mem_finRange, true_and]
  constructor
  · rintro ⟨b, h⟩
    rw [ZoneInput.memberOf_slot h]
    exact h
  · exact fun h => ⟨_, h⟩

theorem ZoneInput.memberOf_feeder {z : ZoneInput} {g : Bus} {b : Slot} {k : Side} {minus : Bool}
    (h : (z.bays.get b).kind = .feeder k) :
    z.memberOf g b = some ⟨b, minus⟩ ↔ minus = false ∧ z.feederZone k (z.positions.get b) = some g := by
  unfold ZoneInput.memberOf
  rw [h]
  by_cases hz : z.feederZone k (z.positions.get b) = some g
  · simp [hz, eq_comm]
  · simp [hz]

theorem ZoneInput.memberOf_junction {z : ZoneInput} {g : Bus} {b : Slot} {j : Junction} {c minus : Bool}
    (h : (z.bays.get b).kind = .junction j c) :
    z.memberOf g b = some ⟨b, minus⟩ ↔
      z.role j (z.positions.get b) = .member ∧ (if minus = true then z.zoneName (j.ct c) = g else z.zoneName (j.far c) = g) := by
  unfold ZoneInput.memberOf
  rw [h]
  dsimp only
  cases hr : z.role j (z.positions.get b) with
  | member =>
    obtain ⟨-, -, -, hn⟩ := ZoneInput.role_member.mp hr
    have hcf : z.zoneName (j.ct c) ≠ z.zoneName (j.far c) := by
      cases c
      · exact hn
      · exact hn.symm
    by_cases hc : z.zoneName (j.ct c) = g
    · have hf : z.zoneName (j.far c) ≠ g := fun hf => hcf (hc.trans hf.symm)
      cases minus <;> simp [hc, hf]
    · by_cases hf : z.zoneName (j.far c) = g
      · cases minus <;> simp [hc, hf]
      · cases minus <;> simp [hc, hf]
  | internal => simp
  | excluded => simp
  | outOfUse => simp

/-- A feeder in the member list of a zone (R63). -/
theorem ZoneInput.mem_members_feeder {z : ZoneInput} {before : Option Topology} {g : Bus} {b : Slot} {k : Side} {minus : Bool}
    (h : (z.bays.get b).kind = .feeder k) :
    (⟨b, minus⟩ : Member) ∈ (z.zone before g).members ↔
      minus = false ∧
        (if (z.positions.get b).closedA = true then (z.zone before g).Holds k.busA
          else (z.positions.get b).closedB = true ∧ (z.zone before g).Holds k.busB) := by
  rw [← ZoneInput.feederZone_iff, ← ZoneInput.memberOf_feeder h]
  exact ZoneInput.mem_members

/-- A junction in the member list of a zone (R64). -/
theorem ZoneInput.mem_members_junction {z : ZoneInput} {before : Option Topology} {g : Bus} {b : Slot} {j : Junction}
    {c minus : Bool} (h : (z.bays.get b).kind = .junction j c) :
    (⟨b, minus⟩ : Member) ∈ (z.zone before g).members ↔
      z.sections.inUse j.first = true ∧ z.sections.inUse j.second = true ∧ (z.positions.get b).excluded = false ∧
        (¬ ∃ y ∈ z.zones before, y.Holds j.first ∧ y.Holds j.second) ∧
        (if minus = true then (z.zone before g).Holds (j.ct c) else (z.zone before g).Holds (j.far c)) := by
  have hm : (⟨b, minus⟩ : Member) ∈ (z.zone before g).members ↔ z.memberOf g b = some ⟨b, minus⟩ := ZoneInput.mem_members
  rw [hm, ZoneInput.memberOf_junction h, ZoneInput.role_member]
  simp only [ZoneInput.sharesZone_iff, ZoneInput.holds_iff]
  by_cases hu : z.sections.inUse j.first = true ∧ z.sections.inUse j.second = true
  · have hc : z.sections.inUse (j.ct c) = true ∧ z.sections.inUse (j.far c) = true := by
      cases c
      · exact hu
      · exact hu.symm
    simp only [hu.1, hu.2, hc.1, hc.2, true_and, and_assoc, ne_eq]
  · constructor
    · exact fun ⟨⟨h1, h2, _⟩, _⟩ => absurd ⟨h1, h2⟩ hu
    · exact fun ⟨h1, h2, _⟩ => absurd ⟨h1, h2⟩ hu

theorem ZoneInput.not_mem_members_unused {z : ZoneInput} {before : Option Topology} {g : Bus} {b : Slot} {minus : Bool}
    (h : (z.bays.get b).kind = .unused) : (⟨b, minus⟩ : Member) ∉ (z.zone before g).members := by
  have hm : (⟨b, minus⟩ : Member) ∈ (z.zone before g).members ↔ z.memberOf g b = some ⟨b, minus⟩ := ZoneInput.mem_members
  rw [hm]
  unfold ZoneInput.memberOf
  rw [h]
  nofun

theorem BayKind.isFeeder_iff {k : BayKind} : k.isFeeder = true ↔ ∃ side, k = .feeder side := by
  cases k <;> simp [BayKind.isFeeder]

/-- The check zone holds every feeder, in ascending order (R66). -/
theorem ZoneInput.checkMembers_pairwise (z : ZoneInput) : (z.checkMembers.map (fun m => m.slot)).Pairwise (· < ·) :=
  filterMap_slots_pairwise _ fun b m h => by
    split at h
    · cases h
      rfl
    · cases h

theorem ZoneInput.mem_checkMembers {z : ZoneInput} {b : Slot} {minus : Bool} :
    (⟨b, minus⟩ : Member) ∈ z.checkMembers ↔ minus = false ∧ ∃ side, (z.bays.get b).kind = .feeder side := by
  simp only [ZoneInput.checkMembers, allSlots, List.mem_filterMap, List.mem_finRange, true_and, Option.ite_none_right_eq_some,
    Option.some.injEq, Member.mk.injEq, BayKind.isFeeder_iff]
  constructor
  · rintro ⟨a, hk, rfl, rfl⟩
    exact ⟨rfl, hk⟩
  · rintro ⟨rfl, hk⟩
    exact ⟨b, hk, rfl, rfl⟩

theorem ZoneInput.roleOf_junction {z : ZoneInput} {b : Slot} {j : Junction} {c : Bool} (h : (z.bays.get b).kind = .junction j c) :
    z.roleOf b = some (z.role j (z.positions.get b)) := by
  unfold ZoneInput.roleOf
  rw [h]

theorem ZoneInput.roleOf_eq_none {z : ZoneInput} {b : Slot} (h : ∀ j c, (z.bays.get b).kind ≠ .junction j c) :
    z.roleOf b = none := by
  unfold ZoneInput.roleOf
  cases hk : (z.bays.get b).kind with
  | unused => rfl
  | feeder side => rfl
  | junction j c => exact absurd hk (h j c)

end Sys2Proof.Machine

end

