-- ==== Sys2Proof/Proofs/Assembled.lean ====
section
/-! PROOF. The topology of a set, its TOPOLOGY cause, and what the later stages of the evaluation leave of both. -/

namespace Sys2Proof.Machine

open Sys2Proof

/-! ### The TOPOLOGY class on the link -/

/-- A free transmitter leaves no TOPOLOGY notice waiting (R182). -/
def ControlLink.TopologyTaken (l : ControlLink) : Prop :=
  l.line = none → l.slots.topology = none

theorem ControlLink.Settled.topologyTaken {l : ControlLink} (h : l.Settled) : l.TopologyTaken := fun hl => by
  rw [(h hl).2]
  rfl

/-- The TOPOLOGY class stands, a waiting TOPOLOGY notice still waits, and a busy line stays as it is. -/
structure ControlLink.KeepsTopology (l m : ControlLink) : Prop where
  cls : m.topology = l.topology
  taken : l.TopologyTaken → m.TopologyTaken
  slot : l.TopologyTaken → m.slots.topology = l.slots.topology
  line : l.line ≠ none → m.line = l.line

theorem ControlLink.KeepsTopology.refl (l : ControlLink) : l.KeepsTopology l := ⟨rfl, id, fun _ => rfl, fun _ => rfl⟩

theorem ControlLink.KeepsTopology.trans {l m n : ControlLink} (h : l.KeepsTopology m) (k : m.KeepsTopology n) :
    l.KeepsTopology n :=
  ⟨k.cls.trans h.cls, fun hl => k.taken (h.taken hl), fun hl => (k.slot (h.taken hl)).trans (h.slot hl), fun hl =>
    (k.line (by rw [h.line hl]; exact hl)).trans (h.line hl)⟩

/-- A notice that is carried is still carried. -/
theorem ControlLink.KeepsTopology.carries {l m : ControlLink} (h : l.KeepsTopology m) (hl : l.TopologyTaken) {p : List Byte}
    (hc : l.Carries l.slots.topology 0x63 p) : m.Carries m.slots.topology 0x63 p := by
  rcases hc with hc | hc
  · exact .inl ((h.slot hl).trans hc)
  · exact .inr ((h.line (by rw [hc]; nofun)).trans hc)

@[simp] theorem ControlLink.kick_topology (l : ControlLink) : l.kick.topology = l.topology := by
  unfold ControlLink.kick ControlLink.takeNext
  repeat' split
  all_goals rfl

@[simp] theorem ControlLink.kick_alarm (l : ControlLink) : l.kick.alarm = l.alarm := by
  unfold ControlLink.kick ControlLink.takeNext
  repeat' split
  all_goals rfl

/-- A transmitter that takes a frame takes the TOPOLOGY notice or leaves it waiting behind another frame. -/
theorem ControlLink.kick_takes_topology (l : ControlLink) :
    l.kick.slots.topology = l.slots.topology ∧ (l.kick.line = none → l.slots.topology = none) ∨
      l.line = none ∧ l.kick.slots.topology = none ∧
        ∃ p, l.slots.topology = some p ∧ l.kick.line = some (noticeFrame 0x63 p) := by
  cases hl : l.line with
  | some f =>
    rw [ControlLink.kick_busy (by rw [hl]; nofun), hl]
    exact .inl ⟨rfl, nofun⟩
  | none =>
    have hk : l.kick = l.takeNext := by
      unfold ControlLink.kick
      rw [hl]
    rw [hk]
    unfold ControlLink.takeNext
    split
    · exact .inl ⟨rfl, nofun⟩
    split
    · exact .inl ⟨rfl, nofun⟩
    split
    · exact .inl ⟨rfl, nofun⟩
    split
    · exact .inl ⟨rfl, nofun⟩
    split
    next p hp => exact .inr ⟨rfl, rfl, p, hp, rfl⟩
    next hp =>
      split
      · exact .inl ⟨rfl, nofun⟩
      · exact .inl ⟨rfl, fun _ => hp⟩

theorem ControlLink.kick_topologyTaken (l : ControlLink) : l.kick.TopologyTaken := fun hk => by
  rcases l.kick_takes_topology with ⟨he, ht⟩ | ⟨-, he, -⟩
  · rw [he, ht hk]
  · exact he

theorem ControlLink.kick_keepsTopology (l : ControlLink) : l.KeepsTopology l.kick where
  cls := l.kick_topology
  taken := fun _ => l.kick_topologyTaken
  slot := fun hl => by
    rcases l.kick_takes_topology with ⟨he, -⟩ | ⟨hn, -, p, hp, -⟩
    · exact he
    · rw [hl hn] at hp
      cases hp
  line := fun hl => by rw [ControlLink.kick_busy hl]

/-- The transmitter, after a change that leaves the class, its slot and the line alone. -/
theorem ControlLink.KeepsTopology.ofKick {l m : ControlLink} (hc : m.topology = l.topology)
    (hs : m.slots.topology = l.slots.topology) (hl : m.line = l.line) : l.KeepsTopology m.kick :=
  ControlLink.KeepsTopology.trans ⟨hc, fun h hm => hs.trans (h (hl ▸ hm)), fun _ => hs, fun _ => hl⟩ m.kick_keepsTopology

/-- The request in flight at the entry to HALTED touches the queues alone. -/
theorem ControlLink.haltFlight_frame (l : ControlLink) :
    ∃ rq fl rs, l.haltFlight = { l with requests := rq, flight := fl, replies := rs } := by
  unfold ControlLink.haltFlight
  repeat' split
  · exact ⟨l.requests, l.flight, l.replies, rfl⟩
  · exact ⟨_, _, _, rfl⟩
  · exact ⟨l.requests, none, l.replies, rfl⟩
  · exact ⟨_, _, _, rfl⟩

theorem ControlLink.halt_keepsTopology (c : IntegrityCheck) (l : ControlLink) : l.KeepsTopology (l.halt c) := by
  obtain ⟨rq, fl, rs, h⟩ := l.haltFlight_frame
  unfold ControlLink.halt
  rw [h]
  exact .ofKick rfl rfl rfl

theorem ControlLink.answerHead_keepsTopology (st : Status) (data : List Byte) (l : ControlLink) :
    l.KeepsTopology (l.answerHead st data) := by
  unfold ControlLink.answerHead
  split
  · exact ⟨rfl, id, fun _ => rfl, fun _ => rfl⟩
  · exact .ofKick rfl rfl rfl

/-! ### The stages after the assembler -/

/-- What the later stages of an evaluation leave of the assembler's work: the topology, the replica, the TOPOLOGY class. -/
structure AssemblyStands (s t : State) : Prop where
  topology : t.topology = s.topology
  replica : t.replica = s.replica
  link : s.link.KeepsTopology t.link

theorem AssemblyStands.trans {s t u : State} (h : AssemblyStands s t) (k : AssemblyStands t u) : AssemblyStands s u :=
  ⟨k.topology.trans h.topology, k.replica.trans h.replica, h.link.trans k.link⟩

/-- A stage that leaves the link alone. -/
theorem AssemblyStands.ofLink {s t : State} (ht : t.topology = s.topology) (hr : t.replica = s.replica) (hl : t.link = s.link) :
    AssemblyStands s t :=
  ⟨ht, hr, hl ▸ .refl _⟩

theorem reportCheck_assembly (c : IntegrityCheck) (s : State) : AssemblyStands s (reportCheck c s) := by
  by_cases h : s.mode = .halted
  · rw [reportCheck_in_halted c h]
    exact .ofLink rfl rfl rfl
  · rw [reportCheck_enters c h]
    exact ⟨rfl, rfl, ControlLink.halt_keepsTopology c s.link⟩

theorem measureSet_assembly (t : Topology) (s : State) : AssemblyStands s (measureSet t s).state := by
  obtain ⟨e, d, h⟩ := measureSet_frame t s
  rw [h]
  exact .ofLink rfl rfl rfl

theorem causeAlarm_assembly (s : State) : AssemblyStands s (causeAlarm s) := by
  refine ⟨rfl, rfl, .ofKick rfl ?_ rfl⟩
  dsimp only
  split <;> rfl

theorem superviseSet_assembly (t : Topology) (r : Results) (s : State) : AssemblyStands s (superviseSet t r s) := by
  refine ⟨by simp, by simp, ?_⟩
  unfold superviseSet
  dsimp only
  split
  · let u : State := { s with supervision := s.supervision.countCt t r }
    exact (causeAlarm_assembly { u with supervision := { u.supervision with conditions := nextConditions t u } }).link
  · exact .refl _

theorem causeTrips_assembly (st : Stamp) (a b : Bool) (s : State) : AssemblyStands s (causeTrips st a b s) :=
  ⟨rfl, rfl, .ofKick rfl rfl rfl⟩

theorem tripStage_assembly (p : Published) (t : Topology) (r : Results) (s : State) : AssemblyStands s (tripStage p t r s) := by
  unfold tripStage
  split
  · unfold tripSet
    refine AssemblyStands.trans ?_ (causeTrips_assembly _ _ _ _)
    exact .ofLink rfl rfl rfl
  · exact .ofLink rfl rfl rfl

theorem answerSettle_assembly (s : State) : AssemblyStands s (answerSettle s) := by
  unfold answerSettle
  split
  · exact ⟨rfl, rfl, ControlLink.answerHead_keepsTopology _ _ _⟩
  all_goals exact .ofLink rfl rfl rfl

theorem finishSet_assembly (p : Published) (t : Topology) (r : Results) (s : State) : AssemblyStands s (finishSet p t r s) := by
  unfold finishSet
  refine AssemblyStands.trans ?_ (answerSettle_assembly _)
  exact (tripStage_assembly p t r s).trans (.ofLink rfl rfl rfl)

theorem evaluateFrom_assembly (p : Published) (t : Topology) (s : State) : AssemblyStands s (evaluateFrom p t s) := by
  have h := measureSet_assembly t s
  unfold evaluateFrom
  cases hm : measureSet t s with
  | abandoned s1 => rw [hm] at h; exact h.trans (reportCheck_assembly _ _)
  | whole s1 r => rw [hm] at h; exact (h.trans (superviseSet_assembly t r s1)).trans (finishSet_assembly _ _ _ _)

/-! ### The assembler's stage -/

/-- The whole evaluation leaves what the assembler made of the set. -/
theorem evaluateSet_assembly {s : State} {p : Published} (h : s.published = some p) :
    AssemblyStands (assembleZones p.stamp (deriveReplica p s)) (evaluateSet s) := by
  unfold evaluateSet
  rw [h]
  exact evaluateFrom_assembly _ _ _

/-- What the assembler reads of a set in evaluation. -/
def setInput (p : Published) (s : State) : ZoneInput :=
  (deriveReplica p s).zoneInput

/-- What the assembler makes of a set in evaluation. -/
def setTopology (p : Published) (s : State) : Topology :=
  (setInput p s).derive s.topology p.stamp

/-- The topology of a set in evaluation. -/
theorem evaluateSet_topology {s : State} {p : Published} (h : s.published = some p) :
    (evaluateSet s).topology = some (setTopology p s) :=
  (evaluateSet_assembly h).topology.trans (by
    unfold assembleZones
    dsimp only
    split <;> rfl)

theorem evaluateSet_positions {s : State} {p : Published} (h : s.published = some p) :
    (evaluateSet s).replica.slots = (setInput p s).positions :=
  congrArg Replica.slots ((evaluateSet_assembly h).replica.trans (assembleZones_replica _ _))

/-! ### The TOPOLOGY cause -/

/-- What a cause makes of a class, and whether a notice is made (R180). -/
theorem NoticeClass.cause_causedTo (c : NoticeClass) : c.CausedTo c.cause.1 (c.cause.2 = true) := by
  obtain ⟨e, i, t, p⟩ := c
  cases e <;> cases t <;> simp [NoticeClass.CausedTo, NoticeClass.cause]
  split <;> simp_all

theorem NoticeClass.cause_idle {c : NoticeClass} (h : c.enabled = false ∨ c.timer ≠ none) : c.cause.2 = false := by
  obtain ⟨e, i, t, p⟩ := c
  rcases h with h | h
  · cases h
    rfl
  · cases t with
    | none => exact absurd rfl h
    | some k => cases e <;> rfl

/-- A notice that is made is carried. -/
theorem ControlLink.kick_carries_topology {l : ControlLink} {p : List Byte} (h : l.slots.topology = some p) :
    l.kick.Carries l.kick.slots.topology 0x63 p := by
  rcases l.kick_takes_topology with ⟨he, -⟩ | ⟨-, -, q, hq, ht⟩
  · exact .inl (he.trans h)
  · rw [h] at hq
    cases hq
    exact .inr ht

/-- Whether the set in evaluation differs from the set held from before (R74). -/
theorem setCause_iff {s : State} {p : Published} :
    topologyCause (deriveReplica p s).topology (newTopology p.stamp (deriveReplica p s)) = true ↔
      TopologyDiffers s.topology (setTopology p s) :=
  ZoneInput.topologyCause_iff (z := setInput p s)

/-- The link after the assembler's stage of a set that differs. -/
theorem assembleZones_differs {s : State} {p : Published} (h : TopologyDiffers s.topology (setTopology p s)) :
    (assembleZones p.stamp (deriveReplica p s)).link =
      ({ s.link with
          topology := s.link.topology.cause.1
          slots :=
            if s.link.topology.cause.2 = true then
              { s.link.slots with topology := some (topologyHead s.yard.sections (some (setTopology p s))) }
            else s.link.slots } : ControlLink).kick := by
  unfold assembleZones
  dsimp only
  rw [if_pos (setCause_iff.mpr h)]
  rfl

/-- The link after the assembler's stage of a set that does not differ. -/
theorem assembleZones_steady {s : State} {p : Published} (h : ¬ TopologyDiffers s.topology (setTopology p s)) :
    (assembleZones p.stamp (deriveReplica p s)).link = s.link := by
  unfold assembleZones
  dsimp only
  rw [if_neg (fun hc => h (setCause_iff.mp hc))]
  rfl

/-- A set that differs is a cause of the TOPOLOGY class, and a notice that is made carries the set's topology. -/
theorem evaluateSet_caused {s : State} {p : Published} (hp : s.published = some p)
    (h : TopologyDiffers s.topology (setTopology p s)) :
    s.link.topology.CausedTo (evaluateSet s).link.topology
      ((evaluateSet s).link.Carries (evaluateSet s).link.slots.topology 0x63
        (topologyHead s.yard.sections (some (setTopology p s)))) := by
  have hk := (evaluateSet_assembly hp).link
  rw [assembleZones_differs h] at hk
  obtain ⟨hoff, hrun, hmade⟩ := s.link.topology.cause_causedTo
  rw [hk.cls, ControlLink.kick_topology]
  refine ⟨hoff, hrun, fun he ht => ⟨(hmade he ht).1, hk.carries (ControlLink.kick_topologyTaken _) ?_⟩⟩
  refine ControlLink.kick_carries_topology ?_
  dsimp only
  rw [if_pos (hmade he ht).2]

/-- A set that does not differ leaves the TOPOLOGY class as it is. -/
theorem evaluateSet_steady {s : State} {p : Published} (hp : s.published = some p)
    (h : ¬ TopologyDiffers s.topology (setTopology p s)) : (evaluateSet s).link.topology = s.link.topology := by
  rw [(evaluateSet_assembly hp).link.cls, assembleZones_steady h]

/-- Without a cause that makes a notice, the notice that waits is the one that waited. -/
theorem evaluateSet_slot {s : State} {p : Published} (hp : s.published = some p)
    (h : ¬ TopologyDiffers s.topology (setTopology p s) ∨ s.link.topology.enabled = false ∨ s.link.topology.timer ≠ none)
    (hs : s.link.Settled) : (evaluateSet s).link.slots.topology = s.link.slots.topology := by
  have hk := (evaluateSet_assembly hp).link
  by_cases hd : TopologyDiffers s.topology (setTopology p s)
  · rw [assembleZones_differs hd, NoticeClass.cause_idle (h.resolve_left (not_not_intro hd))] at hk
    rw [hk.slot (ControlLink.kick_topologyTaken _)]
    exact (ControlLink.kick_keepsTopology _).slot hs.topologyTaken
  · rw [assembleZones_steady hd] at hk
    exact hk.slot hs.topologyTaken

theorem exec_evaluateSet (s : State) : exec (.evaluateSet []) s = .next (evaluateSet s) :=
  congrArg (fun u => Host.Outcome.next (evaluateSet u)) (applyUpsets_nil s)

end Sys2Proof.Machine

open Sys2Proof Sys2Proof.Machine

/-- Settles O20, from the sections' zone names and the stages that follow the assembler. -/
theorem evaluationPartitionsTheSections : Obligations.EvaluationPartitionsTheSections := by
  intro s p hp
  have hin (k : Bus) : (setInput p s).sections.inUse k = true ↔ s.InUse k := inUse_iff
  rw [exec_evaluateSet]
  refine ⟨_, setTopology p s, rfl, evaluateSet_topology hp, rfl, rfl, fun k => (hin k).symm.trans ZoneInput.inUse_iff_held,
    fun z hz y hy k hzk hyk => ?_, fun z hz => ZoneInput.zone_name hz, fun j k hjk h => ?_, ?_, fun k => ?_,
    fun z hz => ZoneInput.changed_iff hz, ZoneInput.checkChanged_iff, evaluateSet_caused hp, evaluateSet_steady hp,
    evaluateSet_slot hp, ?_⟩
  · exact (ZoneInput.zone_of_holds hz hzk).2.trans (ZoneInput.zone_of_holds hy hyk).2.symm
  · rcases (ZoneInput.zoneName_eq_iff hjk).mp (ZoneInput.sharesZone_iff.mp h).2.2 with ⟨hj, hk, -⟩ | ⟨hj, hk, -⟩
    · exact .inl ⟨hj, hk⟩
    · exact .inr ⟨hj, hk⟩
  · rw [evaluateSet_positions hp]
    have hu : (setInput p s).sideInUse .one = true := ((setInput p s).sideInUse_eq .one).1.trans ((hin 0).mpr (.inl (by decide)))
    exact (ZoneInput.sideShares_iff .one).trans (and_iff_right hu)
  · exact ZoneInput.mark_iff.trans (and_congr_left' (hin k))
  · rw [evaluateSet_positions hp]
    have hu : (setInput p s).sideInUse .two = true ↔ s.yard.sections = .four := by
      rw [((setInput p s).sideInUse_eq .two).1, hin]
      exact or_iff_right (by decide)
    exact (ZoneInput.sideShares_iff .two).trans (and_congr_left' hu)

/-- Settles O21, slot kind by slot kind: the entry of a slot in a member list, and the role of a junction. -/
theorem evaluationListsTheMembers : Obligations.EvaluationListsTheMembers := by
  intro s p hp
  have hin (k : Bus) : (setInput p s).sections.inUse k = true ↔ s.InUse k := inUse_iff
  rw [exec_evaluateSet]
  refine ⟨_, setTopology p s, rfl, evaluateSet_topology hp, fun z hz => ?_, fun z hz b minus => ?_, ?_, fun b minus => ?_,
    fun b j c hb => ?_, fun b hb => ?_⟩
  · obtain ⟨k, -, rfl⟩ := ZoneInput.mem_zones.mp hz
    exact filterMap_slots_pairwise _ fun b m => ZoneInput.memberOf_slot
  · rw [evaluateSet_positions hp]
    obtain ⟨k, -, rfl⟩ := ZoneInput.mem_zones.mp hz
    cases hb : (s.bays.get b).kind with
    | unused => simp [ZoneInput.not_mem_members_unused (z := setInput p s) hb]
    | feeder side =>
      rw [ZoneInput.mem_members_feeder (z := setInput p s) hb]
      cases side <;> simp [Side.busA, Side.busB]
    | junction j c =>
      rw [ZoneInput.mem_members_junction (z := setInput p s) hb, hin, hin]
      simp only [reduceCtorEq, false_and, and_false, false_or, BayKind.junction.injEq]
      constructor
      · exact fun h => ⟨j, c, ⟨rfl, rfl⟩, h⟩
      · rintro ⟨_, _, ⟨rfl, rfl⟩, h⟩
        exact h
  · exact ZoneInput.checkMembers_pairwise _
  · exact ZoneInput.mem_checkMembers
  · rw [evaluateSet_positions hp]
    show (Table.build (setInput p s).roleOf).get b = _
    rw [Table.get_build, ZoneInput.roleOf_junction hb]
    exact congrArg some (ZoneInput.role_eq hin)
  · show (Table.build (setInput p s).roleOf).get b = _
    rw [Table.get_build, ZoneInput.roleOf_eq_none hb]

end

