-- ==== Sys2Proof/Proofs/AbsentClock.lean ====
section
/-! PROOF. A missing clock: what of a set in evaluation stands, and the entry to HALTED. -/

namespace Sys2Proof.Machine

open Sys2Proof

/-! ### What the stages leave at the report -/

/-- What neither a stage of an evaluation nor the taking of a close changes, and that neither leads to HALTED. -/
structure ReportFrame (s c : State) : Prop where
  mode : s.mode ≠ .halted → c.mode ≠ .halted
  timer : c.timer = s.timer
  ports : c.ports = s.ports
  records : c.records = s.records
  edit : c.edit = s.edit
  bays : c.bays = s.bays
  yard : c.yard = s.yard

/-- What no stage up to the supervision unit changes. -/
structure StageFrame (s c : State) : Prop where
  mode : c.mode = s.mode
  timer : c.timer = s.timer
  ports : c.ports = s.ports
  records : c.records = s.records
  edit : c.edit = s.edit
  bays : c.bays = s.bays
  yard : c.yard = s.yard
  store : c.store = s.store
  active : c.active = s.active
  streams : c.streams = s.streams
  storeParity : c.supervision.storeParity = s.supervision.storeParity

theorem StageFrame.refl (s : State) : StageFrame s s := by
  constructor <;> rfl

theorem StageFrame.trans {s t u : State} (h : StageFrame s t) (k : StageFrame t u) : StageFrame s u :=
  ⟨k.mode.trans h.mode, k.timer.trans h.timer, k.ports.trans h.ports, k.records.trans h.records, k.edit.trans h.edit,
    k.bays.trans h.bays, k.yard.trans h.yard, k.store.trans h.store, k.active.trans h.active, k.streams.trans h.streams,
    k.storeParity.trans h.storeParity⟩

theorem StageFrame.report {s c : State} (h : StageFrame s c) : ReportFrame s c :=
  ⟨fun hm => h.mode ▸ hm, h.timer, h.ports, h.records, h.edit, h.bays, h.yard⟩

theorem deriveReplica_frame (p : Published) (s : State) : StageFrame s (deriveReplica p s) := by
  constructor <;> simp

theorem assembleZones_frame (st : Stamp) (s : State) : StageFrame s (assembleZones st s) := by
  constructor <;> simp

theorem measureSet_stageFrame (t : Topology) (s : State) : StageFrame s (measureSet t s).state := by
  obtain ⟨e, d, h⟩ := measureSet_frame t s
  rw [h]
  constructor <;> rfl

theorem superviseSet_frame (t : Topology) (r : Results) (s : State) : StageFrame s (superviseSet t r s) := by
  have hp : (superviseSet t r s).supervision.storeParity = s.supervision.storeParity := by
    unfold superviseSet
    dsimp only
    split <;> rfl
  constructor <;> simp [hp]

theorem measurePart_frame (supervised : Bool) (t : Topology) (s : State) : StageFrame s (measurePart supervised t s).state := by
  have h := measureSet_stageFrame t s
  unfold measurePart
  cases hm : measureSet t s with
  | abandoned s1 => rw [hm] at h; exact h
  | whole s1 r =>
    rw [hm] at h
    cases supervised
    · exact h
    · exact h.trans (superviseSet_frame t r s1)

theorem evaluatePart_frame (n : Nat) (p : Published) (s : State) : StageFrame s (evaluatePart n p s).state := by
  have h1 := deriveReplica_frame p s
  have h2 := h1.trans (assembleZones_frame p.stamp _)
  unfold evaluatePart
  dsimp only
  repeat' split
  · exact .refl s
  · exact h1
  · exact h2
  · exact h2.trans (measurePart_frame _ _ _)

theorem closeFlight_frame (s : State) : ReportFrame s (closeFlight s) := by
  have hm : s.mode ≠ .halted → (closeFlight s).mode ≠ .halted := fun h => by
    unfold closeFlight
    repeat' split
    any_goals exact h
    all_goals nofun
  refine ⟨hm, ?_, ?_, ?_, ?_, ?_, ?_⟩ <;> simp

theorem writeClose_frame (s : State) : ReportFrame s (writeClose s) := ⟨id, rfl, rfl, rfl, rfl, rfl, rfl⟩

theorem ReportFrame.trans {s t u : State} (h : ReportFrame s t) (k : ReportFrame t u) : ReportFrame s u :=
  ⟨fun hm => k.mode (h.mode hm), k.timer.trans h.timer, k.ports.trans h.ports, k.records.trans h.records, k.edit.trans h.edit,
    k.bays.trans h.bays, k.yard.trans h.yard⟩

theorem cutShort_frame (m : ClockReport) (s : State) : ReportFrame s (cutShort m s).state := by
  unfold cutShort
  split
  · exact (evaluatePart_frame _ _ s).report
  · dsimp only
    split
    · exact (closeFlight_frame s).trans (writeClose_frame _)
    · exact (StageFrame.refl s).report

/-! ### The report -/

/-- The check that is taken first (R153; log 34). -/
def firstCheck (clockFirst mismatch : Bool) : IntegrityCheck :=
  if mismatch && !clockFirst then .storeParity else .timerFault

/-- The device has entered HALTED by a check, from the state that the stages left (R153, R175). -/
structure Halts (f : IntegrityCheck) (c t : State) : Prop where
  mode : t.mode = .halted
  timer : t.timer = { c.timer with running := false }
  healthy : t.lines.healthy = false
  sync : t.lines.sync = false
  lines : ∀ k, t.lines.trip.get k = false
  trip : t.trip = TripLogic.reset
  bf : t.bf = idleTimers
  published : t.published = none
  ports : t.ports = c.ports.map (fun p => { p with waiting := none })
  records : t.records = c.records
  edit : t.edit = c.edit
  bays : t.bays = c.bays
  yard : t.yard = c.yard
  store : t.store = c.store
  active : t.active = c.active
  streams : t.streams = c.streams
  haltCode : t.supervision.haltCode = some f
  timerFault : t.supervision.timerFault = true
  link : t.link = c.link.halt f

/-- Both checks are recorded, and the first is the halt code. -/
theorem reportAbsent_eq {clockFirst : Bool} {x : CutShort} (h : x.state.mode ≠ .halted) :
    reportAbsent clockFirst x =
      { reportCheck (firstCheck clockFirst x.mismatch) x.state with
        supervision :=
          { x.state.supervision with
            haltCode := some (firstCheck clockFirst x.mismatch)
            storeParity := x.mismatch || x.state.supervision.storeParity
            timerFault := true } } := by
  obtain ⟨c, mismatch⟩ := x
  dsimp only at h ⊢
  rw [reportCheck_enters _ h]
  cases mismatch with
  | false =>
    refine (reportCheck_enters .timerFault h).trans ?_
    rfl
  | true =>
    cases clockFirst with
    | false =>
      refine (reportCheck_beside .storeParity .timerFault).trans ?_
      rw [reportCheck_enters _ h]
      rfl
    | true =>
      refine (reportCheck_beside .timerFault .storeParity).trans ?_
      rw [reportCheck_enters _ h]
      rfl

theorem reportAbsent_halts {clockFirst : Bool} {x : CutShort} (h : x.state.mode ≠ .halted) :
    Halts (firstCheck clockFirst x.mismatch) x.state (reportAbsent clockFirst x) := by
  rw [reportAbsent_eq h, reportCheck_enters _ h]
  refine ⟨rfl, rfl, rfl, rfl, fun k => ?_, rfl, rfl, rfl, rfl, rfl, rfl, rfl, rfl, rfl, rfl, rfl, rfl, rfl, rfl⟩
  simp [driveLines]

theorem reportAbsent_storeParity {clockFirst : Bool} {x : CutShort} (h : x.state.mode ≠ .halted) :
    (reportAbsent clockFirst x).supervision.storeParity = (x.mismatch || x.state.supervision.storeParity) := by
  rw [reportAbsent_eq h]

/-! ### The HALT notice -/

/-- A HALT notice that is made waits or is taken (R182). -/
theorem ControlLink.kick_carries_halt {l : ControlLink} {q : List Byte} (h : l.slots.halt = some q) :
    l.kick.Carries l.kick.slots.halt 0x64 q := by
  cases hl : l.line with
  | some f =>
    rw [ControlLink.kick_busy (by rw [hl]; nofun)]
    exact .inl h
  | none =>
    have hk : l.kick = l.takeNext := by
      unfold ControlLink.kick
      rw [hl]
    rw [hk]
    unfold ControlLink.takeNext
    cases hr : l.haltReady with
    | some p =>
      have hp : p = q := by
        unfold ControlLink.haltReady at hr
        split at hr
        · cases hr
        · exact Option.some.inj (hr.symm.trans h)
      exact .inr (by rw [hp]; rfl)
    | none =>
      dsimp only
      repeat' split
      all_goals exact .inl h

theorem ControlLink.halt_carries (c : IntegrityCheck) (l : ControlLink) :
    (l.halt c).Carries (l.halt c).slots.halt 0x64 (u8 c.code) :=
  ControlLink.kick_carries_halt rfl

/-- With nothing in flight and no reply of a RESTART, the HALT notice takes a free line or waits. -/
theorem ControlLink.halt_settled {l : ControlLink} (h : l.Settled) (hf : l.flight = none)
    (hr : l.replies.any (fun r => r.ofRestart) = false) :
    l.halt .timerFault =
      if l.line = none then { l with line := some ⟨controlFrame 0x64 0 [2], false⟩ }
      else { l with slots := { l.slots with halt := some [2] } } := by
  obtain ⟨fr, rq, fl, rs, ln, e1, e2, e3, sl, al, tp⟩ := l
  cases hf
  cases ln with
  | some f => rfl
  | none =>
    obtain ⟨hrs, hsl⟩ := h rfl
    simp only at hrs hsl
    subst hrs hsl
    rfl

/-! ### The set cut short against the set evaluated whole -/

/-- What the later stages leave of the evaluator's and the supervision unit's work: their blocks and the ALARM class. -/
structure SupervisionStands (s t : State) : Prop where
  evaluator : t.evaluator = s.evaluator
  detectors : t.detectors = s.detectors
  conditions : t.supervision.conditions = s.supervision.conditions
  ctCounts : t.supervision.ctCounts = s.supervision.ctCounts
  checkCt : t.supervision.checkCt = s.supervision.checkCt
  blockFlags : t.supervision.blockFlags = s.supervision.blockFlags
  checkBlocked : t.supervision.checkBlocked = s.supervision.checkBlocked
  alarm : t.link.alarm = s.link.alarm

theorem SupervisionStands.trans {s t u : State} (h : SupervisionStands s t) (k : SupervisionStands t u) : SupervisionStands s u :=
  ⟨k.evaluator.trans h.evaluator, k.detectors.trans h.detectors, k.conditions.trans h.conditions, k.ctCounts.trans h.ctCounts,
    k.checkCt.trans h.checkCt, k.blockFlags.trans h.blockFlags, k.checkBlocked.trans h.checkBlocked, k.alarm.trans h.alarm⟩

/-- A stage that leaves the supervision unit alone. -/
theorem SupervisionStands.ofSupervision {s t : State} (he : t.evaluator = s.evaluator) (hd : t.detectors = s.detectors)
    (hv : t.supervision = s.supervision) (ha : t.link.alarm = s.link.alarm) : SupervisionStands s t := by
  constructor <;> simp only [he, hd, hv, ha]

theorem ControlLink.halt_alarm (c : IntegrityCheck) (l : ControlLink) : (l.halt c).alarm = l.alarm := by
  obtain ⟨rq, fl, rs, h⟩ := l.haltFlight_frame
  unfold ControlLink.halt
  rw [h, ControlLink.kick_alarm]

theorem ControlLink.answerHead_alarm (st : Status) (data : List Byte) (l : ControlLink) :
    (l.answerHead st data).alarm = l.alarm := by
  unfold ControlLink.answerHead
  split
  · rfl
  · exact ControlLink.kick_alarm _

theorem reportCheck_supervision (c : IntegrityCheck) (s : State) : SupervisionStands s (reportCheck c s) := by
  by_cases h : s.mode = .halted
  · rw [reportCheck_in_halted c h]
    cases c <;> exact ⟨rfl, rfl, rfl, rfl, rfl, rfl, rfl, rfl⟩
  · rw [reportCheck_enters c h]
    have ha := ControlLink.halt_alarm c s.link
    cases c <;> exact ⟨rfl, rfl, rfl, rfl, rfl, rfl, rfl, ha⟩

theorem tripStage_alarm (p : Published) (t : Topology) (r : Results) (s : State) :
    (tripStage p t r s).link.alarm = s.link.alarm := by
  unfold tripStage
  split
  · exact ControlLink.kick_alarm _
  · rfl

theorem answerSettle_alarm (s : State) : (answerSettle s).link.alarm = s.link.alarm := by
  unfold answerSettle
  split
  · exact ControlLink.answerHead_alarm _ _ _
  all_goals rfl

theorem finishSet_supervision (p : Published) (t : Topology) (r : Results) (s : State) :
    SupervisionStands s (finishSet p t r s) := by
  unfold finishSet
  refine .ofSupervision (by simp) (by simp) (by simp) ?_
  exact (answerSettle_alarm _).trans (tripStage_alarm p t r s)

/-- A report, of one check or of two, after what the stages left. -/
theorem reportAbsent_stands (clockFirst : Bool) (c : CutShort) :
    AssemblyStands c.state (reportAbsent clockFirst c) ∧ SupervisionStands c.state (reportAbsent clockFirst c) := by
  unfold reportAbsent
  repeat' split
  · exact ⟨(reportCheck_assembly _ _).trans (reportCheck_assembly _ _),
      (reportCheck_supervision _ _).trans (reportCheck_supervision _ _)⟩
  · exact ⟨(reportCheck_assembly _ _).trans (reportCheck_assembly _ _),
      (reportCheck_supervision _ _).trans (reportCheck_supervision _ _)⟩
  · exact ⟨reportCheck_assembly _ _, reportCheck_supervision _ _⟩

end Sys2Proof.Machine

end

