-- ==== Sys2Proof/Proofs/CutShort.lean ====
section
/-! PROOF. A set cut short against the same set evaluated whole, stage by stage, and REFCLK_ABSENT. -/

namespace Sys2Proof.Machine

open Sys2Proof

/-- Stages 1 and 2 of a set in evaluation. -/
def assembledSet (p : Published) (s : State) : State :=
  assembleZones p.stamp (deriveReplica p s)

/-- Stages 1 to 3, and stage 4 where it acts, of a set in evaluation. -/
def measuredSet (supervised : Bool) (p : Published) (s : State) : CutShort :=
  measurePart supervised (newTopology p.stamp (deriveReplica p s)) (assembledSet p s)

theorem evaluatePart_measuredSet {n : Nat} (h : 3 ≤ n) (p : Published) (s : State) :
    evaluatePart n p s = measuredSet (decide (n = 4)) p s := by
  unfold evaluatePart
  dsimp only
  rw [if_neg (by omega), if_neg (by omega), if_neg (by omega)]
  rfl

/-! ### What has acted -/

theorem measurePart_assembly (supervised : Bool) (t : Topology) (s : State) :
    AssemblyStands s (measurePart supervised t s).state := by
  have h := measureSet_assembly t s
  unfold measurePart
  cases hm : measureSet t s with
  | abandoned s1 => rw [hm] at h; exact h
  | whole s1 r =>
    rw [hm] at h
    cases supervised
    · exact h
    · exact h.trans (superviseSet_assembly t r s1)

/-- From stage 2 on the assembler's work stands. -/
theorem evaluatePart_assembled {n : Nat} (h : 2 ≤ n) (p : Published) (s : State) :
    AssemblyStands (assembledSet p s) (evaluatePart n p s).state := by
  rcases Nat.lt_or_ge n 3 with h3 | h3
  · have hn : n = 2 := by omega
    subst hn
    exact .ofLink rfl rfl rfl
  · rw [evaluatePart_measuredSet h3]
    exact measurePart_assembly _ _ _

/-- From stage 1 on the replica's work stands. -/
theorem evaluatePart_replica {n : Nat} (h : 1 ≤ n) (p : Published) (s : State) :
    (evaluatePart n p s).state.replica = (deriveReplica p s).replica := by
  rcases Nat.lt_or_ge n 2 with h2 | h2
  · have hn : n = 1 := by omega
    subst hn
    rfl
  · exact (evaluatePart_assembled h2 p s).replica.trans (assembleZones_replica _ _)

/-- From stage 3 on the evaluator's and the detectors' work stands, as the whole evaluation leaves it. -/
theorem measurePart_measured (supervised : Bool) (t : Topology) (s : State) :
    (measurePart supervised t s).state.evaluator = (measureSet t s).state.evaluator ∧
      (measurePart supervised t s).state.detectors = (measureSet t s).state.detectors := by
  unfold measurePart
  cases measureSet t s with
  | abandoned s1 => exact ⟨rfl, rfl⟩
  | whole s1 r =>
    cases supervised
    · exact ⟨rfl, rfl⟩
    · exact ⟨superviseSet_evaluator t r s1, superviseSet_detectors t r s1⟩

/-- After stage 4 nothing but trip logic and what follows it acts on the set. -/
theorem evaluateSet_supervision {s : State} {p : Published} (h : s.published = some p) :
    SupervisionStands (measuredSet true p s).state (evaluateSet s) := by
  unfold evaluateSet
  rw [h]
  dsimp only
  unfold evaluateFrom measuredSet measurePart assembledSet
  cases measureSet (newTopology p.stamp (deriveReplica p s)) (assembleZones p.stamp (deriveReplica p s)) with
  | abandoned s1 => exact reportCheck_supervision _ _
  | whole s1 r => exact finishSet_supervision _ _ _ _

/-- From stage 3 on the evaluator and the detectors are as the whole evaluation leaves them. -/
theorem evaluatePart_measured {n : Nat} (h : 3 ≤ n) {p : Published} {s : State} (hp : s.published = some p) :
    (evaluatePart n p s).state.evaluator = (evaluateSet s).evaluator ∧
      (evaluatePart n p s).state.detectors = (evaluateSet s).detectors := by
  rw [evaluatePart_measuredSet h, (evaluateSet_supervision hp).evaluator, (evaluateSet_supervision hp).detectors]
  obtain ⟨he, hd⟩ := measurePart_measured (decide (n = 4)) (newTopology p.stamp (deriveReplica p s)) (assembledSet p s)
  obtain ⟨he', hd'⟩ := measurePart_measured true (newTopology p.stamp (deriveReplica p s)) (assembledSet p s)
  exact ⟨he.trans he'.symm, hd.trans hd'.symm⟩

/-! ### What has not acted -/

/-- Before stage 2 acts the topology and the link stand. -/
theorem evaluatePart_unassembled {n : Nat} (h : n < 2) (p : Published) (s : State) :
    (evaluatePart n p s).state.topology = s.topology ∧ (evaluatePart n p s).state.link = s.link := by
  have hn : n = 0 ∨ n = 1 := by omega
  rcases hn with rfl | rfl
  · exact ⟨rfl, rfl⟩
  · exact ⟨rfl, rfl⟩

theorem assembleZones_alarm (st : Stamp) (s : State) : (assembleZones st s).link.alarm = s.link.alarm := by
  unfold assembleZones
  dsimp only
  split
  · exact ControlLink.kick_alarm _
  · rfl

/-- Before stage 3 acts the evaluator and the detectors stand, and no read has been made. -/
theorem evaluatePart_unmeasured {n : Nat} (h : n < 3) (p : Published) (s : State) :
    (evaluatePart n p s).state.evaluator = s.evaluator ∧ (evaluatePart n p s).state.detectors = s.detectors ∧
      (evaluatePart n p s).mismatch = false := by
  have hn : n = 0 ∨ n = 1 ∨ n = 2 := by omega
  rcases hn with rfl | rfl | rfl
  · exact ⟨rfl, rfl, rfl⟩
  · exact ⟨rfl, rfl, rfl⟩
  · exact ⟨assembleZones_evaluator _ _, assembleZones_detectors _ _, rfl⟩

/-- Stage 3 touches neither the supervision unit nor the link. -/
theorem measurePart_unsupervised (t : Topology) (s : State) :
    (measurePart false t s).state.supervision = s.supervision ∧ (measurePart false t s).state.link = s.link := by
  obtain ⟨e, d, h⟩ := measureSet_frame t s
  unfold measurePart
  cases hm : measureSet t s with
  | abandoned s1 => rw [hm] at h; cases h; exact ⟨rfl, rfl⟩
  | whole s1 r => rw [hm] at h; cases h; exact ⟨rfl, rfl⟩

/-- Before stage 4 acts the supervision unit and the ALARM class stand. -/
theorem evaluatePart_unsupervised {n : Nat} (h : n < 4) (p : Published) (s : State) :
    (evaluatePart n p s).state.supervision = s.supervision ∧ (evaluatePart n p s).state.link.alarm = s.link.alarm := by
  have h2 : (assembledSet p s).supervision = s.supervision ∧ (assembledSet p s).link.alarm = s.link.alarm :=
    ⟨assembleZones_supervision _ _, assembleZones_alarm _ _⟩
  have hn : n = 0 ∨ n = 1 ∨ n = 2 ∨ n = 3 := by omega
  rcases hn with rfl | rfl | rfl | rfl
  · exact ⟨rfl, rfl⟩
  · exact ⟨rfl, rfl⟩
  · exact h2
  · rw [evaluatePart_measuredSet (Nat.le_refl 3)]
    obtain ⟨hv, hl⟩ := measurePart_unsupervised (newTopology p.stamp (deriveReplica p s)) (assembledSet p s)
    exact ⟨hv.trans h2.1, (congrArg ControlLink.alarm hl).trans h2.2⟩

/-! ### Parity mismatches -/

/-- A read of the windows finds a mismatch exactly when they are not sound. -/
theorem windowMismatch_iff {s : State} : windowMismatch s.store.slots s.bays = true ↔ ¬ s.SoundWindow := by
  refine ⟨fun h hw => ?_, fun h => ?_⟩
  · rw [windowMismatch_eq_false hw] at h
    cases h
  · simp only [State.SoundWindow, not_forall, Bool.not_eq_false] at h
    obtain ⟨b, i, hk, hi, hm⟩ := h
    unfold windowMismatch
    rw [List.any_eq_true]
    refine ⟨b, List.mem_finRange b, ?_⟩
    rw [Bool.and_eq_true, List.any_eq_true]
    exact ⟨BayKind.used_iff.mpr hk, i, mem_windowDepths.mpr hi, hm⟩

/-- Every slot of a member list is in use. -/
theorem newTopology_members_used {st : Stamp} {s : State} {m : Member}
    (h : (∃ z ∈ (newTopology st s).zones, m ∈ z.members) ∨ m ∈ (newTopology st s).checkMembers) :
    (s.bays.get m.slot).kind ≠ .unused := by
  rcases h with ⟨z, hz, hm⟩ | hm
  · obtain ⟨k, -, rfl⟩ := ZoneInput.mem_zones (z := s.zoneInput).mp hz
    exact fun hk => ZoneInput.not_mem_members_unused (z := s.zoneInput) hk hm
  · obtain ⟨-, side, hk⟩ := ZoneInput.mem_checkMembers (z := s.zoneInput).mp hm
    rw [show (s.bays.get m.slot).kind = .feeder side from hk]
    nofun

/-- A mismatch in the newest entry of a member is one in its window. -/
theorem newestMismatch_unsound {st : Stamp} {s : State} (h : newestMismatch s.store.slots (newTopology st s) = true) :
    ¬ s.SoundWindow := by
  have hm : ∃ m : Member, (s.bays.get m.slot).kind ≠ .unused ∧ (ringEntry s.store.slots m.slot 0).mismatch = true := by
    unfold newestMismatch at h
    simp only [Bool.or_eq_true, List.any_eq_true] at h
    rcases h with ⟨z, hz, m, hm, h⟩ | ⟨m, hm, h⟩
    · exact ⟨m, newTopology_members_used (.inl ⟨z, hz, hm⟩), h⟩
    · exact ⟨m, newTopology_members_used (.inr hm), h⟩
  obtain ⟨m, hk, hmm⟩ := hm
  intro hw
  exact Bool.false_ne_true ((hw m.slot 0 hk (by decide)).symm.trans hmm)

/-- Stage 3 finds a mismatch in a newest entry or in a window. -/
theorem measurePart_mismatch (supervised : Bool) (t : Topology) (s : State) :
    (measurePart supervised t s).mismatch = (newestMismatch s.store.slots t || windowMismatch s.store.slots s.bays) := by
  unfold measurePart measureSet
  dsimp only
  cases newestMismatch s.store.slots t with
  | true => rfl
  | false => cases windowMismatch s.store.slots s.bays <;> rfl

/-- Stage 3 finds a mismatch exactly when the windows are not sound (R87, R115). -/
theorem measuredSet_mismatch (supervised : Bool) (p : Published) (s : State) :
    (measuredSet supervised p s).mismatch = true ↔ ¬ s.SoundWindow := by
  have hf := (deriveReplica_frame p s).trans (assembleZones_frame p.stamp (deriveReplica p s))
  unfold measuredSet assembledSet
  rw [measurePart_mismatch, hf.store, hf.bays, Bool.or_eq_true, windowMismatch_iff]
  exact or_iff_right_of_imp fun h => newestMismatch_unsound (s := deriveReplica p s) h

/-- A set cut short finds no mismatch before stage 3 nor in sound windows. -/
theorem evaluatePart_sound {n : Nat} {p : Published} {s : State} (h : s.SoundWindow ∨ n < 3) :
    (evaluatePart n p s).mismatch = false := by
  rcases Nat.lt_or_ge n 3 with h3 | h3
  · exact (evaluatePart_unmeasured h3 p s).2.2
  · rw [evaluatePart_measuredSet h3, ← Bool.not_eq_true, measuredSet_mismatch, not_not]
    exact h.resolve_right (by omega)

theorem evaluatePart_unsound {n : Nat} {p : Published} {s : State} (h : ¬ s.SoundWindow) (h3 : 3 ≤ n) :
    (evaluatePart n p s).mismatch = true := by
  rw [evaluatePart_measuredSet h3]
  exact (measuredSet_mismatch _ p s).mpr h

/-! ### The close just taken -/

/-- A substitution whose source is in mismatch is a mismatch of the close (R37, R154). -/
theorem closeMismatch_of_substituted {s : State} {b : Slot} (hk : (s.bays.get b).kind ≠ .unused)
    (hl : (s.store.slots.get b).lost = false) (hc : (s.store.cells.get 0).get b = none) (hg : (s.store.slots.get b).gap ≤ 1)
    (hm : ((s.store.slots.get b).ring.get 23).mismatch = true) : closeMismatch s = true := by
  unfold closeMismatch
  rw [Table.any_cells]
  refine ⟨b, ?_⟩
  rw [slotCloses, Table.get_build, hc, closeSlot_substituted (BayKind.used_iff.mpr hk) hl hg]
  exact hm

/-- Where TIMER_FAULT is taken first, the close just taken stands with the mismatch that its reads find (log 34). -/
theorem cutShort_close {s : State} {m : ClockReport} (hd : s.Due) (hf : m.clockFirst = true)
    (hm : closeMismatch (closeFlight s) = true) : cutShort m s = ⟨writeClose (closeFlight s), true⟩ := by
  unfold cutShort
  rw [hd.2.1]
  dsimp only
  rw [if_pos (by rw [hf, closeDue_iff.mpr hd, hm]; rfl)]

/-- A close whose read finds a mismatch leads to HALTED. -/
theorem execSetClose_mismatch {s : State} (hd : s.Due) (hm : closeMismatch (closeFlight s) = true) :
    exec (.setClose []) s = .next (reportCheck .storeParity (writeClose (closeFlight s))) := by
  show execSetClose [] s = _
  unfold execSetClose
  rw [if_pos (closeDue_iff.mpr hd), applyUpsets_nil]
  unfold closeSet closeStore
  rw [if_pos hm]

/-! ### REFCLK_ABSENT -/

theorem exec_refclkAbsent (m : ClockReport) (s : State) :
    exec (.refclkAbsent m) s = .next (reportAbsent m.clockFirst (cutShort m s)) := rfl

theorem cutShort_published {s : State} {m : ClockReport} {p : Published} (h : s.published = some p) :
    cutShort m s = evaluatePart m.acted.val p s := by
  unfold cutShort
  rw [h]

/-- With no set in evaluation and no mismatch of a close, the report acts alone. -/
theorem reportAbsent_idle {s : State} {m : ClockReport} (hp : s.published = none)
    (h : m.clockFirst = false ∨ ¬ s.Due ∨ s.SoundSources) :
    reportAbsent m.clockFirst (cutShort m s) = reportAbsent m.clockFirst ⟨s, false⟩ :=
  Host.Outcome.next.inj (execRefclkAbsent_idle hp h)

/-- Without the mismatch of a close, the report leaves the store, ACTIVE and the stream table as they are. -/
theorem reportAbsent_alone {s : State} {m : ClockReport} (hm : s.mode ≠ .halted)
    (h : m.clockFirst = false ∨ ¬ s.Due ∨ s.SoundSources) :
    (reportAbsent m.clockFirst (cutShort m s)).store = s.store ∧ (reportAbsent m.clockFirst (cutShort m s)).active = s.active ∧
      (reportAbsent m.clockFirst (cutShort m s)).streams = s.streams := by
  cases hp : s.published with
  | none =>
    rw [reportAbsent_idle hp h]
    have hk := reportAbsent_halts (clockFirst := m.clockFirst) (x := ⟨s, false⟩) hm
    exact ⟨hk.store, hk.active, hk.streams⟩
  | some p =>
    rw [cutShort_published hp]
    have hf := evaluatePart_frame m.acted.val p s
    have hk := reportAbsent_halts (clockFirst := m.clockFirst) (hf.report.mode hm)
    exact ⟨hk.store.trans hf.store, hk.active.trans hf.active, hk.streams.trans hf.streams⟩

/-- With no stage that acted, the report acts alone too. -/
theorem reportAbsent_before_stages {s : State} {m : ClockReport}
    (h : m.clockFirst = false ∨ ¬ s.Due ∨ s.SoundSources) (h0 : s.published = none ∨ m.acted = 0) :
    reportAbsent m.clockFirst (cutShort m s) = reportAbsent m.clockFirst ⟨s, false⟩ := by
  cases hp : s.published with
  | none => exact reportAbsent_idle hp h
  | some p =>
    rw [cutShort_published hp, h0.resolve_left (by rw [hp]; nofun)]
    rfl

/-! ### The request in flight -/

/-- The entry to HALTED, on a busy line. -/
theorem ControlLink.halt_busy {c : IntegrityCheck} {l : ControlLink} (h : l.line ≠ none) :
    l.halt c = { l.haltFlight with slots := { l.slots with halt := some (u8 c.code) } } := by
  obtain ⟨rq, fl, rs, hf⟩ := l.haltFlight_frame
  unfold ControlLink.halt
  rw [hf]
  exact ControlLink.kick_busy h

/-- BANK-APPLY, MODE and SETTLE in flight are answered HALTED behind the replies that wait (R175). -/
theorem ControlLink.haltFlight_answers {l : ControlLink} {f : Flight} {req : Request} {rest : List Request}
    (hf : l.flight = some f) (hr : f ≠ .restart) (hq : l.requests = req :: rest) :
    l.haltFlight = { l with requests := rest, flight := none, replies := l.replies ++ [req.reply .halted []] } := by
  unfold ControlLink.haltFlight
  rw [hf, hq]
  cases f with
  | restart => exact absurd rfl hr
  | bankApply => rfl
  | mode toRun => rfl
  | settle closed => rfl

/-- RESTART in flight leaves the queue (R177). -/
theorem ControlLink.haltFlight_restart {l : ControlLink} (hf : l.flight = some .restart) : l.haltFlight = l.dropRestart := by
  unfold ControlLink.haltFlight
  rw [hf]

end Sys2Proof.Machine

open Sys2Proof Sys2Proof.Machine

/-- Settles O38, from the entry to HALTED and the stages that had acted. -/
theorem absentClockHalts : Obligations.AbsentClockHalts := by
  refine ⟨fun s m => ⟨fun hm => ?_, fun hm hp h => ?_⟩, fun s req rest f hm hp hl hf hq => ?_⟩
  · have hc := cutShort_frame m s
    have hk := reportAbsent_halts (clockFirst := m.clockFirst) (hc.mode hm)
    rw [exec_refclkAbsent]
    refine ⟨_, rfl, hk.mode, by rw [hk.timer], ?_, ?_, hk.healthy, hk.sync, fun k => ⟨hk.lines k, ?_⟩, by rw [hk.trip]; rfl,
      fun b => ?_, hk.published, fun q => ?_, hk.timerFault, hk.records.trans hc.records, hk.edit.trans hc.edit,
      hk.bays.trans hc.bays, hk.yard.trans hc.yard, ?_, reportAbsent_alone hm, fun h h0 => ?_, fun p u hp hu => ?_,
      fun b hd hfirst hu hlost hcell hgap hb => ?_, fun hs h hp hf hr => ?_⟩
    · rw [hk.timer, hc.timer]
    · rw [hk.timer, hc.timer]
    · rw [hk.trip]
      simp [TripLogic.reset]
    · rw [hk.bf]
      exact Table.get_fill _ _
    · rw [hk.ports, Ports.get_map, hc.ports]
      exact ⟨rfl, rfl, rfl⟩
    · rw [hk.haltCode, hk.link]
      have hn := ControlLink.halt_carries (firstCheck m.clockFirst (cutShort m s).mismatch) (cutShort m s).state.link
      revert hn
      cases firstCheck m.clockFirst (cutShort m s).mismatch <;> exact id
    · rw [reportAbsent_before_stages h h0]
      have hk := reportAbsent_halts (clockFirst := m.clockFirst) (x := ⟨s, false⟩) hm
      obtain ⟨ha, hv⟩ := reportAbsent_stands m.clockFirst ⟨s, false⟩
      exact ⟨hk.haltCode, reportAbsent_storeParity (x := ⟨s, false⟩) hm, ha.replica, ha.topology, hv.evaluator, hv.detectors,
        hv.conditions⟩
    · cases hu
      rw [cutShort_published hp] at hk ⊢
      have hw := evaluateSet_assembly hp
      obtain ⟨ha, hv⟩ := reportAbsent_stands m.clockFirst (evaluatePart m.acted.val p s)
      have hpar := reportAbsent_storeParity (clockFirst := m.clockFirst) ((evaluatePart_frame m.acted.val p s).report.mode hm)
      rw [(evaluatePart_frame m.acted.val p s).storeParity] at hpar
      refine ⟨fun h1 => ?_, fun h2 => ?_, fun h2 => ?_, fun h3 => ?_, fun h3 => ?_, fun h4 => ?_, fun h4 => ?_,
        fun h => ?_, fun h h3 => ?_⟩
      · exact (ha.replica.trans (evaluatePart_replica h1 p s)).trans (hw.replica.trans (assembleZones_replica _ _)).symm
      · have hs := evaluatePart_assembled h2 p s
        exact ⟨(ha.topology.trans hs.topology).trans hw.topology.symm, (ha.link.cls.trans hs.link.cls).trans hw.link.cls.symm⟩
      · obtain ⟨ht, hl⟩ := evaluatePart_unassembled h2 p s
        exact ⟨ha.topology.trans ht, ha.link.cls.trans (congrArg ControlLink.topology hl)⟩
      · obtain ⟨he, hd⟩ := evaluatePart_measured h3 hp
        exact ⟨hv.evaluator.trans he, hv.detectors.trans hd⟩
      · obtain ⟨he, hd, -⟩ := evaluatePart_unmeasured h3 p s
        exact ⟨hv.evaluator.trans he, hv.detectors.trans hd⟩
      · have hs := evaluateSet_supervision hp
        rw [evaluatePart_measuredSet (by omega), decide_eq_true h4] at hv ⊢
        exact ⟨hv.conditions.trans hs.conditions.symm, hv.ctCounts.trans hs.ctCounts.symm, hv.checkCt.trans hs.checkCt.symm,
          hv.blockFlags.trans hs.blockFlags.symm, hv.checkBlocked.trans hs.checkBlocked.symm, hv.alarm.trans hs.alarm.symm⟩
      · obtain ⟨hs, hl⟩ := evaluatePart_unsupervised h4 p s
        rw [hv.conditions, hv.ctCounts, hv.checkCt, hv.blockFlags, hv.checkBlocked, hv.alarm, hs]
        exact ⟨rfl, rfl, rfl, rfl, rfl, hl⟩
      · rw [evaluatePart_sound h] at hpar hk
        exact ⟨hk.haltCode, hpar⟩
      · rw [evaluatePart_unsound h h3] at hpar hk
        refine ⟨hpar, hk.haltCode.trans ?_⟩
        unfold firstCheck
        cases m.clockFirst <;> rfl
    · have hx : closeMismatch (closeFlight s) = true :=
        closeMismatch_of_substituted (b := b) (by rwa [closeFlight_bays]) (by rwa [closeFlight_store])
          (by rwa [closeFlight_store]) (by rwa [closeFlight_store]) (by rwa [closeFlight_store])
      rw [cutShort_close hd hfirst hx] at hk ⊢
      have hpar := reportAbsent_storeParity (clockFirst := m.clockFirst) (x := ⟨writeClose (closeFlight s), true⟩)
        (((closeFlight_frame s).trans (writeClose_frame _)).mode hm)
      refine ⟨hk.haltCode.trans (by rw [hfirst]; rfl), hpar, _, execSetClose_mismatch hd hx, ?_, ?_, ?_⟩
      · exact hk.store.trans (reportCheck_store _ _).symm
      · exact hk.streams.trans (reportCheck_streams _ _).symm
      · exact hk.active.trans (reportCheck_active _ _).symm
    · rw [reportAbsent_idle hp h]
      have hk := reportAbsent_halts (clockFirst := m.clockFirst) (x := ⟨s, false⟩) hm
      exact hk.link.trans (ControlLink.halt_settled hs hf hr)
  · show Host.Outcome.next (reportAbsent m.clockFirst (cutShort m s)) = _
    rw [reportAbsent_idle hp h]
    exact congrArg Host.Outcome.next (reportCheck_in_halted .timerFault hm)
  · have ht : exec (.refclkAbsent ⟨0, false⟩) s = .next (reportCheck .timerFault s) := execRefclkAbsent_idle hp (.inl rfl)
    rw [ht, reportCheck_enters _ hm]
    refine ⟨_, rfl, ?_⟩
    show (s.link.halt .timerFault).requests = rest ∧ (s.link.halt .timerFault).flight = none ∧ _
    rw [ControlLink.halt_busy hl]
    by_cases hr : f = .restart
    · subst hr
      rw [ControlLink.haltFlight_restart hf]
      refine ⟨congrArg List.tail hq, rfl, rfl, rfl, rfl, rfl, fun h => absurd rfl h, fun _ => rfl⟩
    · rw [ControlLink.haltFlight_answers hf hr hq]
      refine ⟨rfl, rfl, rfl, rfl, rfl, rfl, fun _ => rfl, fun h => absurd h hr⟩

end

section
/-! PROOF. The sample timer, the silence counts and the control link at a nominal set instant. -/

namespace Sys2Proof.Machine

open Sys2Proof

/-! ### The timer -/

theorem SampleTimer.advance_before {f : Frequency} {t : SampleTimer} (h : t.count + 1 < f.ncount) :
    t.advance f = { t with count := t.count + 1, period := f.period (t.count + 1) } := if_pos h

theorem SampleTimer.advance_wrap {f : Frequency} {t : SampleTimer} (h : f.ncount ≤ t.count + 1) :
    t.advance f = { t with count := 0, second := (t.second + 1) % 65536, period := f.period 0 } := if_neg (Nat.not_lt.mpr h)

/-- The set period is the one that the count reached gives (R27), and the timer runs on. -/
theorem SampleTimer.advance_period (f : Frequency) (t : SampleTimer) :
    (t.advance f).period = f.period (t.advance f).count ∧ (t.advance f).running = t.running := by
  rcases Nat.lt_or_ge (t.count + 1) f.ncount with h | h
  · rw [SampleTimer.advance_before h]
    exact ⟨rfl, rfl⟩
  · rw [SampleTimer.advance_wrap h]
    exact ⟨rfl, rfl⟩

theorem Frequency.period_eq (f : Frequency) (n : Nat) :
    f.period n = if f = .hz50 then 20000 else if n % 3 = 2 then 16666 else 16667 := by
  cases f <;> rfl

/-! ### The ports -/

/-- A port stays UP while its silence count stays below 24 (R20). -/
theorem PortState.silent_up {p : PortState} : p.silent.link = .up ↔ p.link = .up ∧ p.silence < 23 := by
  show (if 24 ≤ p.silence + 1 then Link.down else p.link) = .up ↔ _
  split_ifs with h
  · exact ⟨nofun, fun hu => absurd hu.2 (by omega)⟩
  · exact ⟨fun hu => ⟨hu, by omega⟩, fun hu => hu.1⟩

/-! ### The instant -/

theorem nominalInstant_stopped {s : State} (h : s.timer.running = false) : nominalInstant s = s :=
  if_neg (by rw [h]; exact Bool.false_ne_true)

theorem nominalInstant_running {s : State} (h : s.timer.running = true) :
    nominalInstant s =
      { s with
        timer := s.timer.advance s.yard.frequency
        lines := { s.lines with sync := decide ((s.timer.advance s.yard.frequency).count = 0) }
        ports := s.ports.map PortState.silent
        link := s.link.moderate (alarmNotice s) (topologyNotice s) } := if_pos h

/-- Each class of the link steps by itself (R180). -/
theorem ControlLink.moderate_classes (a t : List Byte) (l : ControlLink) :
    l.alarm.SteppedTo (l.moderate a t).alarm ∧ l.topology.SteppedTo (l.moderate a t).topology := by
  exact ⟨(ControlLink.kick_alarm _).symm ▸ l.alarm.instant_stepped,
    (ControlLink.kick_topology _).symm ▸ l.topology.instant_stepped⟩

theorem exec_sampleCountWrap (s : State) :
    exec .sampleCountWrap s = .next (if s.yard.frequency.ncount ≤ s.timer.count + 1 then nominalInstant s else s) := rfl

theorem exec_linkDown (p : Port) (s : State) :
    exec (.linkDown p) s =
      .next (if (s.ports.get p).link = .up ∧ 24 ≤ (s.ports.get p).silence + 1 then nominalInstant s else s) := rfl

end Sys2Proof.Machine

open Sys2Proof Sys2Proof.Machine

/-- Settles O7, block by block: the timer, the ports, the link. -/
theorem setInstantAdvancesTimerAndSilence : Obligations.SetInstantAdvancesTimerAndSilence := by
  intro s
  refine ⟨fun h => ?_, fun h => ⟨nominalInstant s, rfl, fun hb => ?_, fun hw => ?_, ?_⟩⟩
  · have hn := nominalInstant_stopped h
    refine ⟨congrArg _ hn, ?_, fun p => ?_⟩
    · rw [exec_sampleCountWrap, hn, ite_self]
    · rw [exec_linkDown, hn, ite_self]
  · rw [exec_sampleCountWrap, if_neg (by omega), nominalInstant_running h, SampleTimer.advance_before hb]
    exact ⟨rfl, rfl, rfl⟩
  · rw [exec_sampleCountWrap, if_pos hw, nominalInstant_running h, SampleTimer.advance_wrap hw]
    exact ⟨rfl, rfl, rfl⟩
  have down (p : Port) (hu : (s.ports.get p).link = .up) (hs : 23 ≤ (s.ports.get p).silence) :
      exec (.linkDown p) s = .next (nominalInstant s) := by rw [exec_linkDown, if_pos ⟨hu, by omega⟩]
  have still (p : Port) (hd : (s.ports.get p).link = .down ∨ (s.ports.get p).silence < 23) : exec (.linkDown p) s = .next s := by
    rw [exec_linkDown, if_neg]
    rintro ⟨hu, hs⟩
    rcases hd with hd | hd
    · cases hu.symm.trans hd
    · omega
  obtain ⟨hperiod, hruns⟩ := s.timer.advance_period s.yard.frequency
  obtain ⟨⟨haIdle, haRuns⟩, htIdle, htRuns⟩ := s.link.moderate_classes (alarmNotice s) (topologyNotice s)
  rw [nominalInstant_running h] at down ⊢
  refine ⟨hruns.trans h, hperiod.trans (Frequency.period_eq _ _), decide_eq_true_iff, fun p => ⟨?_, ?_, down p, still p⟩, rfl, rfl,
    fun k hk ht => (haRuns k ht).1 hk, haIdle, fun k hk ht => (htRuns k ht).1 hk, htIdle, fun hl => ?_⟩
  · rw [Ports.get_map]
    rfl
  · rw [Ports.get_map]
    exact PortState.silent_up
  · have hm := ControlLink.moderate_settled hl (alarmNotice s) (topologyNotice s)
    exact ⟨hm.others, hm.alarmSlot, hm.topologySlot, hm.line⟩
end

section
/-! PROOF. A frame received on a port: the receiver's tests, the stream table, and the open sets; and the end of a trip frame. -/

namespace Sys2Proof.Machine

open Sys2Proof

/-! ### Bytes of a frame (R186) -/

/-- The CRC test of a string of bytes that ends in a word. -/
theorem crc32Holds_iff {body : List Byte} {crc : BitVec 32} : crc32Holds (body ++ u32 crc.toNat) = true ↔ crc = crc32 body := by
  have hl : (body ++ u32 crc.toNat).length - 4 = body.length := by simp [u32_length]
  unfold crc32Holds
  rw [hl, List.drop_left, List.take_left, natOfBytes_u32 crc.isLt, Bool.and_eq_true, decide_eq_true_iff, decide_eq_true_iff,
    ← BitVec.toNat_eq]
  exact and_iff_right (by simp [u32_length])

/-- The bytes of a bay frame end in their CRC-32. -/
theorem crc32Holds_bay (f : BayFrame) : crc32Holds (bayFrameBytes f) = true :=
  crc32Holds_iff.mpr rfl

/-- A string of bytes that does not have the length and the type of a bay frame is none. -/
theorem readBayFrame_eq_none {frame : List Byte} (h : frame.length ≠ 19 ∨ frame.head? ≠ some 0xB1) :
    readBayFrame frame = none := by
  unfold readBayFrame
  split
  next t _ _ _ _ _ _ _ _ _ _ _ _ _ _ _ _ _ _ =>
    rw [if_neg]
    intro ht
    exact h.elim (fun hl => hl rfl) (fun hh => hh (congrArg some ht))
  next => rfl

theorem word16_u16 (c : BitVec 16) : word16 (BitVec.ofNat 8 (c.toNat / 256)) (BitVec.ofNat 8 c.toNat) = c :=
  (congrArg (BitVec.ofNat 16) (natOfBytes_u16 c.isLt)).trans (BitVec.ofNat_toNat 16 c ▸ BitVec.setWidth_eq c)

/-- The bytes of a bay frame read back as its fields. -/
theorem readBayFrame_bytes {f : BayFrame} (h : f.count < 65536) : readBayFrame (bayFrameBytes f) = some f := by
  obtain ⟨id, count, flags, contacts, ⟨cells, hc⟩⟩ := f
  match cells, hc with
  | [a, b, c], hc =>
    have hi : BitVec.ofNat 32 (natOfBytes (u32 id.toNat)) = id := by
      rw [natOfBytes_u32 id.isLt]
      exact BitVec.ofNat_toNat _ _ |>.trans (BitVec.setWidth_eq id)
    have hn : natOfBytes (u16 count) = count := natOfBytes_u16 h
    have hread : readBayFrame (bayFrameBytes ⟨id, count, flags, contacts, ⟨[a, b, c], hc⟩⟩) =
        some ⟨BitVec.ofNat 32 (natOfBytes (u32 id.toNat)), natOfBytes (u16 count), flags, contacts,
          ⟨[word16 (BitVec.ofNat 8 (a.toNat / 256)) (BitVec.ofNat 8 a.toNat),
            word16 (BitVec.ofNat 8 (b.toNat / 256)) (BitVec.ofNat 8 b.toNat),
            word16 (BitVec.ofNat 8 (c.toNat / 256)) (BitVec.ofNat 8 c.toNat)], rfl⟩⟩ := rfl
    rw [hread, hi, hn]
    simp only [word16_u16]

theorem Frequency.ncount_lt (f : Frequency) : f.ncount < 65536 := by
  cases f <;> decide

/-! ### The receiver (R19, R20) -/

/-- A change of one port. -/
def State.onPort (p : Port) (f : PortState → PortState) (s : State) : State :=
  { s with ports := s.ports.modify p f }

theorem State.onPort_onPort (p : Port) (f g : PortState → PortState) (s : State) :
    (s.onPort p f).onPort p g = s.onPort p (fun q => g (f q)) := by
  cases p <;> rfl

/-- A VALID bay frame is counted on its port, which is heard (R19, R20). -/
def hearValid (p : Port) (s : State) : State :=
  s.onPort p (fun q => { q with link := .up, silence := 0, valid := min (q.valid + 1) 65535 })

theorem receiveFrame_badCrc {body : List Byte} {crc : BitVec 32} (h : crc ≠ crc32 body) (p : Port) (s : State) :
    receiveFrame p (body ++ u32 crc.toNat) s = s.onPort p (fun q => { q with badCrc := min (q.badCrc + 1) 65535 }) :=
  if_neg (fun hc => h (crc32Holds_iff.mp hc))

/-- A string whose CRC holds but that is no VALID bay frame. -/
theorem receiveFrame_badFormat {body : List Byte} {s : State}
    (h : validBayFrame s.yard.frequency.ncount (body ++ u32 (crc32 body).toNat) = none) (p : Port) :
    receiveFrame p (body ++ u32 (crc32 body).toNat) s =
      s.onPort p (fun q => { q with link := .up, silence := 0, badFormat := min (q.badFormat + 1) 65535 }) := by
  unfold receiveFrame
  rw [if_pos (crc32Holds_iff.mpr rfl), h]
  rfl

theorem validBayFrame_outside {n : Nat} {f : BayFrame} (h : f.count < 65536) (hn : n ≤ f.count) :
    validBayFrame n (bayFrameBytes f) = none := by
  unfold validBayFrame
  rw [readBayFrame_bytes h]
  exact if_neg (Nat.not_lt.mpr hn)

theorem validBayFrame_within {g : Frequency} {f : BayFrame} (h : f.count < g.ncount) :
    validBayFrame g.ncount (bayFrameBytes f) = some f := by
  unfold validBayFrame
  rw [readBayFrame_bytes (h.trans g.ncount_lt)]
  exact if_pos h

/-- A VALID bay frame is counted; outside HALTED it goes on to the stream table (R26). -/
theorem receiveFrame_valid {f : BayFrame} {s : State} (h : f.count < s.yard.frequency.ncount) (p : Port) :
    receiveFrame p (bayFrameBytes f) s =
      if s.mode = .halted then hearValid p s else streamFrame p f (hearValid p s) := by
  unfold receiveFrame
  rw [if_pos (crc32Holds_bay f), validBayFrame_within h]
  dsimp only
  split
  next hm => rw [if_pos hm]; rfl
  all_goals next hm => rw [if_neg (by rw [hm]; nofun)]; rfl

/-! ### The stream table (R26) -/

theorem Admit.accepts_iff {a : Admit} {p : Port} :
    a.accepts p = true ↔ a = .either ∨ (a = .x ∧ p = .x) ∨ (a = .y ∧ p = .y) := by
  cases a <;> cases p <;> simp [Admit.accepts]

theorem Admit.accepts_eq_false {a : Admit} {p : Port} : a.accepts p = false ↔ (a = .x ∧ p = .y) ∨ (a = .y ∧ p = .x) := by
  cases a <;> cases p <;> simp [Admit.accepts]

theorem entryMatches_iff {id : BitVec 32} {o : Option StreamEntry} :
    entryMatches id o = true ↔ ∃ e, o = some e ∧ e.enabled = true ∧ e.identifier = id := by
  cases o <;> simp [entryMatches]

theorem lookupStream_eq_none {streams : Table 26 (Option StreamEntry)} {id : BitVec 32}
    (h : ∀ i e, streams.get i = some e → e.enabled = true → e.identifier ≠ id) : lookupStream streams id = none := by
  refine find_finRange_eq_none.mpr fun i => ?_
  rw [← Bool.not_eq_true, entryMatches_iff]
  rintro ⟨e, he, hen, hid⟩
  exact h i e he hen hid

/-- In a table that holds no identifier twice the enabled entry with an identifier is the one that is found. -/
theorem lookupStream_eq_some {streams : Table 26 (Option StreamEntry)} (hs : StreamsPaired streams) {i : Fin 26} {e : StreamEntry}
    (he : streams.get i = some e) (hen : e.enabled = true) : lookupStream streams e.identifier = some i := by
  refine find_finRange_eq_some.mpr ⟨entryMatches_iff.mpr ⟨e, he, hen, rfl⟩, fun j hj => ?_⟩
  rw [← Bool.not_eq_true, entryMatches_iff]
  rintro ⟨g, hg, -, hid⟩
  exact hj.ne (hs.identifier j i g e hg he hid)

theorem streamFrame_unknown {f : BayFrame} {s : State} (h : lookupStream s.streams f.identifier = none) (p : Port) :
    streamFrame p f s = s.onPort p (fun q => { q with unknownId := min (q.unknownId + 1) 65535 }) := by
  unfold streamFrame
  rw [h]
  rfl

theorem exec_portFrameReceived (p : Port) (frame : List Byte) (s : State) :
    exec (.portFrameReceived p frame) s = .next (receiveFrame p frame s) := rfl

/-- What the stream table does with a frame whose identifier an enabled entry holds. -/
theorem streamFrame_found {f : BayFrame} {s : State} {i : Fin 26} {e : StreamEntry}
    (h : lookupStream s.streams f.identifier = some i) (he : s.streams.get i = some e) (p : Port) :
    streamFrame p f s =
      if e.admitted.accepts p = false then
        s.onPort p (fun q => { q with wrongPort := min (q.wrongPort + 1) 65535 })
      else if f.flags.getLsbD 0 then
        s.onPort p (fun q => { q with invalid := min (q.invalid + 1) 65535 })
      else placeSample i e f s := by
  unfold streamFrame
  rw [h]
  dsimp only
  rw [he]
  rfl

/-- A VALID bay frame whose identifier an enabled entry holds, outside HALTED. -/
theorem receiveFrame_found {f : BayFrame} {s : State} {i : Fin 26} {e : StreamEntry} (h : f.count < s.yard.frequency.ncount)
    (hs : s.Paired) (hm : s.mode ≠ .halted) (he : s.streams.get i = some e) (hen : e.enabled = true)
    (hid : e.identifier = f.identifier) (p : Port) :
    receiveFrame p (bayFrameBytes f) s =
      if e.admitted.accepts p = false then
        (hearValid p s).onPort p (fun q => { q with wrongPort := min (q.wrongPort + 1) 65535 })
      else if f.flags.getLsbD 0 then
        (hearValid p s).onPort p (fun q => { q with invalid := min (q.invalid + 1) 65535 })
      else placeSample i e f (hearValid p s) :=
  ((receiveFrame_valid h p).trans (if_neg hm)).trans
    (streamFrame_found (s := hearValid p s) (hid ▸ lookupStream_eq_some hs.streams he hen) he p)

/-! ### The open sets (R32) -/

/-- A sample is placed, or discarded, as its disposal says. -/
theorem placeSample_discarded {i : Fin 26} {e : StreamEntry} {f : BayFrame} {s : State} {d : Placement}
    (h : placement s.store.cells s.yard.frequency.ncount (offsetOf s.yard.frequency.ncount s.store.c0 f.count) e.slot = d)
    (hd : d ≠ .taken) :
    placeSample i e f s = { s with streams := s.streams.set i (some { e with counters := e.counters.count d }) } := by
  unfold placeSample
  dsimp only
  rw [h]
  cases d with
  | taken => exact absurd rfl hd
  | _ => rfl

/-- Within the eight open sets a sample is taken where its cell is empty, else it is a duplicate. -/
theorem placement_open {cells : Table 8 (Table 26 (Option Sample))} {n offset : Nat} (h : offset < 8) (b : Slot) :
    placement cells n offset b = if (cells.get ⟨offset, h⟩).get b = none then .taken else .duplicate := by
  unfold placement
  rw [dif_pos h]
  cases (cells.get ⟨offset, h⟩).get b <;> rfl

/-- Outside the open sets a sample is late from half the sample counts on, and early before. -/
theorem placement_closed {cells : Table 8 (Table 26 (Option Sample))} {n offset : Nat} (h : 8 ≤ offset) (b : Slot) :
    placement cells n offset b = if n / 2 ≤ offset then .late else .early := by
  unfold placement
  rw [dif_neg (Nat.not_lt.mpr h)]

/-- A sample within the open sets takes its cell where it is empty. -/
theorem placeSample_taken {i : Fin 26} {e : StreamEntry} {f : BayFrame} {s : State}
    (h : offsetOf s.yard.frequency.ncount s.store.c0 f.count < 8) (hc : (s.store.cells.get ⟨_, h⟩).get e.slot = none) :
    placeSample i e f s =
      { s with
        streams := s.streams.set i (some { e with counters := e.counters.count .taken })
        store :=
          { s.store with
            cells := s.store.cells.set ⟨_, h⟩ ((s.store.cells.get ⟨_, h⟩).set e.slot (some (sampleOf f))) } } := by
  unfold placeSample
  dsimp only
  rw [(placement_open h e.slot).trans (if_pos hc)]
  exact congrArg
    (fun x => { s with
      streams := s.streams.set i (some { e with counters := e.counters.count .taken }), store := { s.store with cells := x } })
    (dif_pos h)

theorem Frequency.half_ncount (f : Frequency) : 8 ≤ f.ncount / 2 := by
  cases f <;> decide

/-! ### The end of a trip frame (R21) -/

/-- A change of one port is known by what it makes of that port as it stands. -/
theorem Ports.modify_congr {ps : Ports} {p : Port} {f g : PortState → PortState} (h : f (ps.get p) = g (ps.get p)) :
    ps.modify p f = ps.modify p g := by
  cases p
  · exact congrArg (fun q => { ps with x := q }) h
  · exact congrArg (fun q => { ps with y := q }) h

theorem PortState.sent_last {q : PortState} {bytes : List Byte} (h : q.fibre = some bytes) (hw : q.waiting = none) :
    q.sent = { q with fibre := none } := by
  cases q
  cases h
  cases hw
  rfl

theorem PortState.sent_next {q : PortState} {bytes : List Byte} {g : TripFrame} (h : q.fibre = some bytes)
    (hw : q.waiting = some g) : q.sent = { q with fibre := some g.bytes, waiting := none } := by
  cases q
  cases h
  cases hw
  rfl

theorem exec_tripFrameSent {s : State} {p : Port} {g : PortState → PortState} (h : (s.ports.get p).sent = g (s.ports.get p)) :
    exec (.tripFrameSent p) s = .next (s.onPort p g) := by
  unfold State.onPort
  rw [← Ports.modify_congr h]
  rfl

end Sys2Proof.Machine

open Sys2Proof Sys2Proof.Machine

/-- Settles O9: the receiver's tests in their order, then those of the stream table. -/
theorem portDisposesOfUnwantedFrames : Obligations.PortDisposesOfUnwantedFrames := by
  refine ⟨fun s p body crc => ⟨fun h => ?_, fun h => ?_, fun f hf hn => ?_⟩,
    fun s p f hn => ⟨fun hm => ?_, fun hm hid => ?_, fun i e hs hm he hen hid => ?_⟩⟩
  · rw [exec_portFrameReceived, receiveFrame_badCrc h]
    rfl
  · rw [exec_portFrameReceived, receiveFrame_badFormat]
    · rfl
    · unfold validBayFrame
      rw [readBayFrame_eq_none]
      cases body with
      | nil => exact .inl (by simp [u32_length])
      | cons b body => exact h.imp (fun hl h19 => hl (by simpa [u32_length] using h19)) id
  · rw [exec_portFrameReceived]
    exact congrArg Host.Outcome.next (receiveFrame_badFormat (validBayFrame_outside hf hn) p)
  · rw [exec_portFrameReceived, receiveFrame_valid hn, if_pos hm]
    rfl
  · rw [exec_portFrameReceived, receiveFrame_valid hn, if_neg hm,
      streamFrame_unknown (s := hearValid p s) (lookupStream_eq_none hid), hearValid, State.onPort_onPort]
    rfl
  · have hr := receiveFrame_found hn hs hm he hen hid p
    refine ⟨fun ha => ?_, fun ha hq => ?_⟩
    · rw [exec_portFrameReceived, hr, if_pos (Admit.accepts_eq_false.mpr ha), hearValid, State.onPort_onPort]
      rfl
    · rw [exec_portFrameReceived, hr, if_neg (by rw [Admit.accepts_iff.mpr ha]; nofun), if_pos hq, hearValid,
        State.onPort_onPort]
      rfl

/-- Settles O10, by the offset from c0 and, within the open sets, by whether the cell is empty. -/
theorem acceptedFrameIsPlacedByOffset : Obligations.AcceptedFrameIsPlacedByOffset := by
  intro s p f i e hs hm _ hn he hen hid ha hq offset sample heard
  have hr : exec (.portFrameReceived p (bayFrameBytes f)) s = .next (placeSample i e f (hearValid p s)) := by
    rw [exec_portFrameReceived, receiveFrame_found hn hs hm he hen hid p, if_neg (by rw [Admit.accepts_iff.mpr ha]; nofun),
      if_neg (by rw [hq]; exact Bool.false_ne_true)]
  rw [hr]
  refine ⟨fun h => ⟨fun hc => ?_, fun hc => ?_⟩, fun h => ?_, fun h8 h => ?_⟩
  · rw [placeSample_taken (s := hearValid p s) h hc]
    rfl
  · rw [placeSample_discarded (s := hearValid p s) ((placement_open h e.slot).trans (if_neg hc)) nofun]
    rfl
  · have h8 := s.yard.frequency.half_ncount
    rw [placeSample_discarded (s := hearValid p s) ((placement_closed (h8.trans h) e.slot).trans (if_pos h)) nofun]
    rfl
  · rw [placeSample_discarded (s := hearValid p s) ((placement_closed h8 e.slot).trans (if_neg (Nat.not_le.mpr h))) nofun]
    rfl

/-- Settles O11, by whether a frame waits. -/
theorem sentTripFrameMakesRoomForTheNext : Obligations.SentTripFrameMakesRoomForTheNext := by
  intro s p sent hf
  exact ⟨fun hw => exec_tripFrameSent (PortState.sent_last hf hw), fun g hw => exec_tripFrameSent (PortState.sent_next hf hw)⟩
end

section
/-! PROOF. The scaling of a sample, and the close of a set slot by slot. -/

namespace Sys2Proof.Machine

open Sys2Proof

/-! ### Scaling (R35, R80) -/

/-- The rounded quotient is nearest to the product, and of two nearest it is the one away from zero. -/
theorem roundScaled_nearest (x : Int) :
    (2 * (16384 * roundScaled x - x)).natAbs ≤ 16384 ∧ (2 * (16384 * roundScaled x - x) = 16384 → 0 < x) ∧
      (2 * (16384 * roundScaled x - x) = -16384 → x < 0) := by
  unfold roundScaled
  dsimp only
  split_ifs <;> omega

theorem roundScaled_neg (x : Int) : roundScaled (-x) = -roundScaled x := by
  unfold roundScaled
  dsimp only
  rw [Int.natAbs_neg]
  split_ifs <;> omega

theorem clampRaw_eq (raw : BitVec 16) : clampRaw raw = if raw.toInt = -32768 then -32767 else raw.toInt := by
  have := raw.le_toInt
  unfold clampRaw
  split_ifs <;> omega

theorem Polarity.sign_eq (p : Polarity) : p.sign = if p = .plus then 1 else -1 := by
  cases p <;> rfl

/-- The clamp acts on the lowest raw value alone. -/
theorem clamped_iff {raw : BitVec 16} : clamped raw = true ↔ raw = 0x8000 := by
  unfold clamped
  rw [decide_eq_true_iff]
  constructor
  · intro h
    have := raw.le_toInt
    exact BitVec.eq_of_toInt_eq (show raw.toInt = -32768 by omega)
  · rintro rfl
    decide

/-- The polarity turns the sign of a scaled current (R5, R80). -/
theorem scaleRaw_minus (r : BayRecord) (raw : BitVec 16) :
    scaleRaw { r with polarity := .minus } raw = -scaleRaw { r with polarity := .plus } raw := by
  refine Eq.trans (congrArg roundScaled ?_) (roundScaled_neg _)
  simp [Polarity.sign]

/-- How many phases of a sample the clamp acts on, phase by phase. -/
theorem clampCount_eq (smp : Sample) :
    clampCount smp =
      (if smp.currents.get 0 = 0x8000 then 1 else 0) + (if smp.currents.get 1 = 0x8000 then 1 else 0)
        + (if smp.currents.get 2 = 0x8000 then 1 else 0) := by
  unfold clampCount
  rw [Table.cells_eq]
  show List.countP clamped [smp.currents.get 0, smp.currents.get 1, smp.currents.get 2] = _
  simp only [List.countP_cons, List.countP_nil, clamped_iff]
  omega

/-! ### What the close decides for a slot (R35 to R41) -/

/-- What the close of c0 decides for a slot. -/
def slotClose (s : State) (b : Slot) : SlotClose :=
  closeSlot (s.bays.get b) ((s.store.cells.get 0).get b) (s.store.slots.get b)

theorem slotCloses_get (s : State) (b : Slot) : (slotCloses s).get b = slotClose s b := by
  unfold slotCloses
  rw [Table.get_build]
  rfl

/-- The request in flight changes nothing that the close decides on. -/
theorem slotCloses_closeFlight (s : State) : slotCloses (closeFlight s) = slotCloses s := by
  unfold slotCloses
  rw [closeFlight_bays, closeFlight_store]

theorem stampOfC0_closeFlight (s : State) : stampOfC0 (closeFlight s) = stampOfC0 s := by
  unfold stampOfC0
  rw [closeFlight_timer, closeFlight_store]

/-- Contact pairs are published for the slots in use that held a sample (R40). -/
theorem closeSlot_contacts {r : BayRecord} {cell : Option Sample} {b : BayStore} {c : Contacts} :
    (closeSlot r cell b).contacts = some c ↔ r.kind ≠ .unused ∧ ∃ smp, cell = some smp ∧ smp.contacts = c := by
  rw [← BayKind.used_iff]
  unfold closeSlot
  cases r.kind.used with
  | false => simp [closeUnused]
  | true =>
    cases cell with
    | none => simp only [if_true]; split_ifs <;> simp [closeStillLost, closeSubstituted, closeLost]
    | some smp => simp only [if_true]; split_ifs <;> simp [closeRecovering, closeReceived]

/-- A received sample of a slot in use, LOST or not: the clamps count and nothing is substituted. -/
theorem closeSlot_counts {r : BayRecord} {smp : Sample} {b : BayStore} (h : r.kind ≠ .unused) :
    (closeSlot r (some smp) b).clamps = clampCount smp ∧ (closeSlot r (some smp) b).substituted = false := by
  cases hl : b.lost with
  | false => rw [closeSlot_received (BayKind.used_iff.mpr h) hl]; exact ⟨rfl, rfl⟩
  | true => rw [closeSlot_recovering (BayKind.used_iff.mpr h) hl]; exact ⟨rfl, rfl⟩

/-- A received sample enters the ring scaled and PRESENT (R36, R80). -/
theorem push_presentEntry (ring : Table 32 RingEntry) (r : BayRecord) (smp : Sample) :
    ((ring.push (presentEntry r smp)).get 0).mark = .present ∧ ((ring.push (presentEntry r smp)).get 0).mismatch = false ∧
      ∀ ph, ((ring.push (presentEntry r smp)).get 0).currents.get ph = scaleRaw r (smp.currents.get ph) := by
  rw [Table.get_push_zero (n := 31)]
  exact ⟨rfl, rfl, fun ph => Table.get_map _ _ ph⟩

/-- A substitution from a sound entry copies it and restarts the count of sets since substitution (R37, R41). -/
theorem closeSubstituted_sound {b : BayStore} (h : (b.ring.get 23).mismatch = false) :
    (closeSubstituted b).store =
      { b with ring := b.ring.push { b.ring.get 23 with mark := .substituted }, gap := b.gap + 1, sinceSub := 0 } := by
  unfold closeSubstituted substituteSource
  simp only [h, Bool.false_eq_true, if_false]

/-- Where the source is in parity mismatch zeros take the copy's place (R154). -/
theorem closeSubstituted_mismatch {b : BayStore} (h : (b.ring.get 23).mismatch = true) :
    (closeSubstituted b).store.ring = b.ring.push RingEntry.zero := by
  unfold closeSubstituted substituteSource
  simp only [h, if_true]

theorem slotClose_unused {s : State} {b : Slot} (h : (s.bays.get b).kind = .unused) :
    slotClose s b = closeUnused (s.store.slots.get b) :=
  closeSlot_unused (by rw [h]; rfl)

/-! ### The close of the set -/

theorem closedSet_slotClose (s : State) (b : Slot) :
    (closedSet (closeFlight s)).store.slots.get b = (slotClose s b).store := by
  show ((slotCloses (closeFlight s)).map SlotClose.store).get b = _
  rw [Table.get_map, slotCloses_closeFlight, slotCloses_get]

theorem publication_contacts (s : State) (b : Slot) :
    (publication (closeFlight s)).contacts.get b = (slotClose s b).contacts := by
  show ((slotCloses (closeFlight s)).map SlotClose.contacts).get b = _
  rw [Table.get_map, slotCloses_closeFlight, slotCloses_get]

theorem publication_bfStart (s : State) (b : Slot) :
    (publication (closeFlight s)).bfStart.get b = (slotClose s b).bfStart := by
  show ((slotCloses (closeFlight s)).map SlotClose.bfStart).get b = _
  rw [Table.get_map, slotCloses_closeFlight, slotCloses_get]

/-- What a close that publishes leaves of a slot, and publishes of it. -/
theorem setClose_slot {s : State} (hd : s.Due) (hs : s.SoundSources) {b : Slot} {c : SlotClose} (hc : slotClose s b = c) :
    ∃ t p, exec (.setClose []) s = .next t ∧ t.published = some p ∧ t.store.slots.get b = c.store ∧
      p.contacts.get b = c.contacts ∧ p.bfStart.get b = c.bfStart ∧ t.streams = (writeClose (closeFlight s)).streams :=
  ⟨_, _, execSetClose_due hd hs, rfl, hc ▸ closedSet_slotClose s b, hc ▸ publication_contacts s b, hc ▸ publication_bfStart s b,
    rfl⟩

/-- A close that R33 allows writes the stream table, whether it publishes or leads to HALTED. -/
theorem setClose_streams {s : State} (hd : s.Due) :
    ∃ t, exec (.setClose []) s = .next t ∧ t.streams = (writeClose (closeFlight s)).streams := by
  have he : exec (.setClose []) s = .next (closeStore (closeFlight s)) :=
    congrArg Host.Outcome.next (if_pos (closeDue_iff.mpr hd))
  refine ⟨_, he, ?_⟩
  unfold closeStore
  split
  · exact reportCheck_streams _ _
  · rfl

/-- An entry of the stream table at a close: SUBSTITUTED and OVERRANGE count what was decided for its slot (R35, R37, R42). -/
theorem writeClose_entry {s : State} {i : Fin 26} {e : StreamEntry} (he : s.streams.get i = some e) :
    (writeClose (closeFlight s)).streams.get i =
      some
        { e with
          counters :=
            { e.counters with
              substituted := min (e.counters.substituted + (slotClose s e.slot).substituted.toNat) 65535
              overrange := min (e.counters.overrange + (slotClose s e.slot).clamps) 65535 } } := by
  show ((closeFlight s).streams.map (Option.map (StreamEntry.countClose (slotCloses (closeFlight s))))).get i = _
  rw [Table.get_map, closeFlight_streams, he, slotCloses_closeFlight]
  unfold StreamEntry.countClose
  simp only [Option.map_some, slotCloses_get]
  rfl

theorem closeFlight_idle {s : State} (h : s.link.flight = none) : closeFlight s = s := by
  unfold closeFlight
  rw [h]

end Sys2Proof.Machine

open Sys2Proof Sys2Proof.Machine

/-- Settles O18, from the rounded quotient and the sign of a polarity. -/
theorem scalingRoundsHalfAwayFromZero : Obligations.ScalingRoundsHalfAwayFromZero := by
  intro r raw hr
  dsimp only
  rw [← clampRaw_eq, ← Polarity.sign_eq]
  obtain ⟨hn, hpos, hneg⟩ := roundScaled_nearest (clampRaw raw * r.polarity.sign * (r.ratio : Int))
  exact ⟨hn, hpos, hneg, scaleRaw_minus r raw, scaleRaw_natAbs_le hr raw⟩

/-- Settles O12, from what the close decides for every slot and from what it leaves alone. -/
theorem closeAdvancesAndPublishes : Obligations.CloseAdvancesAndPublishes := by
  intro s
  refine ⟨execSetClose_not_due, fun hd hs =>
    ⟨closedSet (closeFlight s), publication (closeFlight s), execSetClose_due hd hs, ?_⟩⟩
  refine ⟨?_, fun i => ?_, fun b => ?_, rfl, rfl, ?_, ?_, decide_eq_true_iff, fun b c => ?_,
    fun b hu => ⟨?_, ?_, fun hp i e he hb => ?_⟩,
    closeFlight_timer s, closeFlight_ports s, closeFlight_yard s, closeFlight_bays s, closeFlight_edit s, closeFlight_replica s,
    closeFlight_topology s, closeFlight_supervision s, closeFlight_records s, fun hf => ?_⟩
  · show ((closeFlight s).store.c0 + 1) % (closeFlight s).yard.frequency.ncount = _
    rw [closeFlight_store, closeFlight_yard]
  · show ((closeFlight s).store.cells.shift (Table.fill 26 none)).get i.castSucc = _
    rw [closeFlight_store, Table.get_shift_castSucc]
  · show (((closeFlight s).store.cells.shift (Table.fill 26 none)).get (Fin.last 7)).get b = none
    rw [Table.get_shift_last, Table.get_fill]
  · exact congrArg Stamp.count (stampOfC0_closeFlight s)
  · exact congrArg Stamp.second (stampOfC0_closeFlight s)
  · rw [publication_contacts]
    exact closeSlot_contacts
  · rw [closedSet_slotClose, slotClose_unused hu]
    rfl
  · rw [publication_bfStart, slotClose_unused hu]
    rfl
  · subst hb
    obtain ⟨-, -, -, -, hsub, hover⟩ := hp.counters i e he
    refine (writeClose_entry he).trans ?_
    rw [slotClose_unused hu]
    simp only [closeUnused, Bool.toNat_false, Nat.add_zero, Nat.min_eq_left hsub, Nat.min_eq_left hover]
  · show (closeFlight s).link = s.link ∧ (closeFlight s).mode = s.mode ∧ (closeFlight s).active = s.active ∧
      (closeFlight s).evaluator = s.evaluator ∧ (closeFlight s).detectors = s.detectors ∧ (closeFlight s).trip = s.trip ∧
      (closeFlight s).bf = s.bf ∧ (closeFlight s).lines = s.lines
    rw [closeFlight_idle hf]
    exact ⟨rfl, rfl, rfl, rfl, rfl, rfl, rfl, rfl⟩

/-- Settles O13, by whether the slot is LOST for the ring, and for any such slot for the entry that names it. -/
theorem closeStoresReceivedSample : Obligations.CloseStoresReceivedSample := by
  refine ⟨fun s b smp hd hs hu hl hc => ?_, fun s b smp hd hp hu hc => ?_⟩
  · have hclose : slotClose s b = closeReceived (s.bays.get b) (s.store.slots.get b) smp := by
      rw [slotClose, hc]
      exact closeSlot_received (BayKind.used_iff.mpr hu) hl
    obtain ⟨t, p, ht, htp, hslot, -, hbf, -⟩ := setClose_slot hd hs hclose
    obtain ⟨hmark, hsound, hcur⟩ := push_presentEntry (s.store.slots.get b).ring (s.bays.get b) smp
    refine ⟨t, p, ht, htp, ?_⟩
    rw [hslot, hbf]
    exact ⟨hmark, hsound, hcur, Table.get_push_succ (n := 31) _ _, rfl, hl, rfl, rfl,
    rfl, rfl⟩
  · obtain ⟨t, ht, hst⟩ := setClose_streams hd
    refine ⟨t, ht, fun i e he hb => ?_⟩
    subst hb
    obtain ⟨hclamps, hsub⟩ := closeSlot_counts (smp := smp) (b := s.store.slots.get e.slot) hu
    obtain ⟨-, -, -, -, hbound, -⟩ := hp.counters i e he
    rw [hst, writeClose_entry he, slotClose, hc, hclamps, hsub, clampCount_eq]
    simp only [Bool.toNat_false, Nat.add_zero, Nat.min_eq_left hbound]

/-- Settles O14: the source is sound, so the substitution copies it. -/
theorem closeSubstitutesAMissingSample : Obligations.CloseSubstitutesAMissingSample := by
  intro s b hd hs hu hl hc hg
  have hclose : slotClose s b = closeSubstituted (s.store.slots.get b) := by
    rw [slotClose, hc]
    exact closeSlot_substituted (BayKind.used_iff.mpr hu) hl hg
  obtain ⟨t, p, ht, htp, hslot, hcon, hbf, hst⟩ := setClose_slot hd hs hclose
  rw [closeSubstituted_sound (hs b)] at hslot
  refine ⟨t, p, ht, htp, ?_⟩
  rw [hslot, hcon, hbf, hst]
  have h0 := Table.get_push_zero (n := 31) (s.store.slots.get b).ring
    { (s.store.slots.get b).ring.get 23 with mark := .substituted }
  refine ⟨(congrArg RingEntry.mark h0 :), (congrArg RingEntry.currents h0 :), Table.get_push_succ (n := 31) _ _, rfl, hl, rfl, rfl,
    rfl,
    rfl, fun hp i e he hb => ?_⟩
  subst hb
  obtain ⟨-, -, -, -, -, hbound⟩ := hp.counters i e he
  rw [writeClose_entry he, hclose]
  simp only [closeSubstituted, Bool.toNat_true, Nat.add_zero, Nat.min_eq_left hbound]

/-- Settles O15, by whether a sample is received and whether the slot was LOST before. -/
theorem closeLosesAndRecoversABay : Obligations.CloseLosesAndRecoversABay := by
  intro s b hd hs hu
  have hused := BayKind.used_iff.mpr hu
  refine ⟨fun hc hcase => ?_, fun smp hl hc => ?_⟩
  · cases hl : (s.store.slots.get b).lost with
    | true =>
      have hclose : slotClose s b = closeStillLost (s.store.slots.get b) := by
        rw [slotClose, hc]
        exact closeSlot_still_lost hused hl
      obtain ⟨t, p, ht, htp, hslot, hcon, hbf, -⟩ := setClose_slot hd hs hclose
      refine ⟨t, p, ht, htp, ?_⟩
      rw [hslot, hcon, hbf]
      exact ⟨Table.get_push_zero (n := 31) _ _, Table.get_push_succ (n := 31) _ _, rfl, rfl, hl, rfl, rfl, rfl, nofun⟩
    | false =>
      have hgap : (s.store.slots.get b).gap = 2 := hcase.resolve_left (by rw [hl]; nofun)
      have hclose : slotClose s b = closeLost (s.store.slots.get b) := by
        rw [slotClose, hc]
        exact closeSlot_lost hused hl (by omega)
      obtain ⟨t, p, ht, htp, hslot, hcon, hbf, -⟩ := setClose_slot hd hs hclose
      refine ⟨t, p, ht, htp, ?_⟩
      rw [hslot, hcon, hbf]
      exact ⟨Table.get_push_zero (n := 31) _ _, Table.get_push_succ (n := 31) _ _, rfl, rfl, rfl, rfl, rfl, rfl, fun _ => rfl⟩
  · have hclose : slotClose s b = closeRecovering (s.bays.get b) (s.store.slots.get b) smp := by
      rw [slotClose, hc]
      exact closeSlot_recovering hused hl
    obtain ⟨t, p, ht, htp, hslot, hcon, hbf, -⟩ := setClose_slot hd hs hclose
    obtain ⟨hmark, hsound, hcur⟩ := push_presentEntry (s.store.slots.get b).ring (s.bays.get b) smp
    refine ⟨t, p, ht, htp, ?_⟩
    rw [hslot, hcon, hbf]
    exact ⟨hmark, hsound, hcur, Table.get_push_succ (n := 31) _ _, rfl, rfl, rfl, fun h => Nat.min_eq_left h, decide_eq_true_iff,
      rfl, rfl⟩

end

section
/-! PROOF. COUNTERS, RESTART and its restart, STREAM-SET and STREAM-DROP. -/

namespace Sys2Proof.Machine

open Sys2Proof

/-! ### COUNTERS (R42, R184) -/

/-- Blocks of one length laid end to end are read back block by block. -/
theorem flatMap_block {α β : Type} {f : α → List β} {k : Nat} (hf : ∀ a, (f a).length = k) :
    ∀ (l : List α) (i : Nat) (h : i < l.length), ((l.flatMap f).drop (k * i)).take k = f l[i]
  | a :: l, 0, _ => by
    rw [List.flatMap_cons, Nat.mul_zero, List.drop_zero]
    exact List.take_left' (hf a)
  | a :: l, i + 1, h => by
    rw [List.flatMap_cons, Nat.mul_succ, Nat.add_comm, ← List.drop_drop, List.drop_left' (hf a)]
    exact flatMap_block hf l i (Nat.lt_of_succ_lt_succ h)

theorem streamCounterBytes_length (o : Option StreamEntry) : (streamCounterBytes o).length = 12 := by
  cases o <;> rfl

/-- The counters of the ports and of the link, the first 30 bytes of COUNTERS. -/
def linkCounterBytes (s : State) : List Byte :=
  portCounters s.ports.x ++ portCounters s.ports.y ++ u16 s.link.crcErrors ++ u16 s.link.framing ++ u16 s.link.overrun

theorem countersBytes_eq (s : State) : countersBytes s = linkCounterBytes s ++ s.streams.cells.flatMap streamCounterBytes := rfl

theorem linkCounterBytes_length (s : State) : (linkCounterBytes s).length = 30 := rfl

theorem countersBytes_length (s : State) : (countersBytes s).length = 342 := by
  have hblocks : (s.streams.cells.flatMap streamCounterBytes).length = 26 * 12 := by
    rw [List.length_flatMap, List.map_congr_left (fun o _ => streamCounterBytes_length o), List.map_const', List.sum_replicate,
      s.streams.size, smul_eq_mul]
  rw [countersBytes_eq, List.length_append, hblocks, linkCounterBytes_length]

theorem countersBytes_take (s : State) : (countersBytes s).take 30 = linkCounterBytes s :=
  List.take_left' (linkCounterBytes_length s)

theorem countersBytes_block (s : State) (i : Fin 26) :
    ((countersBytes s).drop (30 + 12 * i.val)).take 12 = streamCounterBytes (s.streams.get i) := by
  rw [countersBytes_eq, ← List.drop_drop, List.drop_left' (linkCounterBytes_length s)]
  exact flatMap_block streamCounterBytes_length _ _ _

theorem clearStreamCounters_get (streams : Table 26 (Option StreamEntry)) (i : Fin 26) :
    (clearStreamCounters streams).get i = (streams.get i).map (fun e => { e with counters := ⟨0, 0, 0, 0, 0, 0⟩ }) :=
  Table.get_map _ _ i

theorem ruleCounters_refused {clear : Byte} (h : 2 ≤ clear.toNat) (s : State) :
    ruleCounters [clear] s = .refuse .outOfRange [] := by
  unfold ruleCounters
  dsimp only
  rw [readFlag_eq_none.mpr h]

theorem ruleCounters_done {clear : Byte} {f : Bool} (h : clear.toNat = f.toNat) (s : State) :
    ruleCounters [clear] s = .done (if f then clearCounters s else s) (countersBytes s) := by
  unfold ruleCounters
  dsimp only
  rw [readFlag_eq_some.mpr h]

/-- COUNTERS served: the counters as they were, and the state with all of them cleared where the flag says so. -/
theorem exec_counters {tag clear : Byte} {f : Bool} {s : State} {rest : List Request}
    (hs : s.Served ⟨0x34, tag, [clear]⟩ rest) (h : clear.toNat = f.toNat) :
    exec (.counters tag [clear]) s =
      .next ((if f then clearCounters s else s).replied ⟨0x34, tag, [clear]⟩ rest 0 (countersBytes s)) := by
  have hrule := ruleCounters_done h (s.fronted ⟨0x34, tag, [clear]⟩ rest)
  cases f with
  | false => exact congrArg _ (serve_own_read ⟨0x34, 1, true⟩ hs rfl rfl (.inr rfl) hrule)
  | true =>
    have hc := (commonChecks_pass (s := s.fronted ⟨0x34, tag, [clear]⟩ rest) (req := ⟨0x34, tag, [clear]⟩)
      ⟨0x34, 1, true⟩ ruleCounters rfl rfl (.inr rfl)).trans hrule
    exact congrArg _ (serve_done hs hc hs.1 rfl)

/-! ### RESTART (R177) -/

/-- Any reply, placed on a settled link, takes the free line or waits behind the others. -/
theorem ControlLink.placeReply_places {l : ControlLink} (h : l.Settled) (r : Reply) :
    l.placeReply r =
      { l with
        line := if l.line = none then some r.frame else l.line
        replies := if l.line = none then l.replies else l.replies ++ [r] } := by
  obtain ⟨kind, tag, payload, ofRestart⟩ := r
  obtain ⟨fr, rq, fl, rs, ln, e1, e2, e3, sl, al, tp⟩ := l
  cases ln with
  | some f => rfl
  | none =>
    obtain ⟨hrs, hsl⟩ := h rfl
    simp only at hrs hsl
    subst hrs hsl
    cases ofRestart <;> rfl

theorem ControlLink.restartReplyLeft_iff {l : ControlLink} :
    l.restartReplyLeft = true ↔ (∀ r ∈ l.replies, r.ofRestart = false) ∧ ∀ f, l.line = some f → f.ofRestart = false := by
  unfold ControlLink.restartReplyLeft
  cases l.line <;> simp

theorem restartDue_iff {s : State} :
    restartDue s = true ↔
      s.link.flight = some .restart ∧ s.link.restartReplyLeft = true ∧ s.published = none ∧ s.mode ≠ .halted := by
  unfold restartDue
  simp only [Bool.and_eq_true, decide_eq_true_iff, Option.isNone_iff_eq_none, and_assoc]

theorem Table.get_fill_fill {α : Type} {m n : Nat} (a : α) (i : Fin m) (j : Fin n) :
    ((Table.fill m (Table.fill n a)).get i).get j = a := by
  rw [Table.get_fill, Table.get_fill]

theorem Store.emptyCells_get (i : Fin 8) (b : Slot) : (Store.emptyCells.get i).get b = none :=
  Table.get_fill_fill none i b

/-- Outside RUN the trip lines are released (R126). -/
theorem driveLines_released {s : State} (h : s.mode ≠ .run) (k : Bus) : (driveLines s).lines.trip.get k = false := by
  simp [driveLines, h]

theorem exec_restartMade (s : State) : exec .restartMade s = .next (if restartDue s then makeRestart s else s) := rfl

/-! ### STREAM-SET and STREAM-DROP (R23, R24) -/

/-- The operands that are read are those of the bytes. -/
theorem readStream_eq_some {x b a e : Byte} {n : Nat} {o : StreamOperands} :
    readStream x n b a e = some o ↔
      x.toNat = o.index.val ∧ b.toNat = o.slot.val ∧ a.toNat = o.admitted.code ∧ e.toNat = o.enabled.toNat ∧ n ≠ 0 ∧
        o.identifier = BitVec.ofNat 32 n := by
  rw [← readSlot_eq_some, ← readSlot_eq_some, ← readAdmit_eq_some, ← readFlag_eq_some]
  unfold readStream
  constructor
  · intro h
    repeat' split at h
    all_goals cases h
    next hi hb ha he hn => exact ⟨hi, hb, ha, he, hn, rfl⟩
  · rintro ⟨hi, hb, ha, he, hn, hid⟩
    rw [hi, hb, ha, he]
    dsimp only
    rw [if_neg hn, ← hid]

/-- Bytes outside the ranges of R23 are not read. -/
theorem readStream_eq_none {x i3 i2 i1 i0 b a e : Byte}
    (h : 26 ≤ x.toNat ∨ (i3 = 0 ∧ i2 = 0 ∧ i1 = 0 ∧ i0 = 0) ∨ 26 ≤ b.toNat ∨ 3 ≤ a.toNat ∨ 2 ≤ e.toNat) :
    readStream x (natOfBytes [i3, i2, i1, i0]) b a e = none := by
  rw [Option.eq_none_iff_forall_ne_some]
  intro o ho
  obtain ⟨hi, hb, ha, he, hn, -⟩ := readStream_eq_some.mp ho
  have hadmit : o.admitted.code < 3 := by cases o.admitted <;> decide
  have hflag := o.enabled.toNat_lt
  rcases h with h | ⟨rfl, rfl, rfl, rfl⟩ | h | h | h
  · omega
  · exact hn rfl
  · omega
  · omega
  · omega

theorem StreamOperands.duplicates_iff {o : StreamOperands} {streams : Table 26 (Option StreamEntry)} :
    o.duplicates streams = true ↔
      ∃ j e, j ≠ o.index ∧ streams.get j = some e ∧ (e.identifier = o.identifier ∨ e.slot = o.slot) := by
  have hclash (x : Option StreamEntry) :
      o.clashes x = true ↔ ∃ e, x = some e ∧ (e.identifier = o.identifier ∨ e.slot = o.slot) := by
    cases x <;> simp [StreamOperands.clashes]
  simp [StreamOperands.duplicates, hclash]

theorem ruleStreamSet_run {s : State} (h : s.mode = .run) {payload : List Byte} (hlen : payload.length = 8) :
    ruleStreamSet payload s = .refuse .wrongMode [] := by
  obtain ⟨x, i3, i2, i1, i0, b, a, e, rfl⟩ := payload_eight hlen
  exact if_pos h

theorem ruleStreamSet_refused {s : State} (h : s.mode ≠ .run) {x i3 i2 i1 i0 b a e : Byte}
    (hr : readStream x (natOfBytes [i3, i2, i1, i0]) b a e = none) :
    ruleStreamSet [x, i3, i2, i1, i0, b, a, e] s = .refuse .outOfRange [] := by
  unfold ruleStreamSet
  dsimp only
  rw [if_neg h, hr]

theorem ruleStreamSet_read {s : State} (h : s.mode ≠ .run) {x i3 i2 i1 i0 b a e : Byte} {o : StreamOperands}
    (hr : readStream x (natOfBytes [i3, i2, i1, i0]) b a e = some o) :
    ruleStreamSet [x, i3, i2, i1, i0, b, a, e] s =
      if o.duplicates s.streams then .refuse .duplicate []
      else .done { s with streams := s.streams.set o.index (some (o.entry (s.streams.get o.index))) } [] := by
  unfold ruleStreamSet
  dsimp only
  rw [if_neg h, hr]

/-- The rule of STREAM-SET for bytes that spell operands. -/
theorem ruleStreamSet_spelled {s : State} (h : s.mode ≠ .run) {o : StreamOperands} (hid : o.identifier ≠ 0) :
    ruleStreamSet
        (u8 o.index.val ++ u32 o.identifier.toNat ++ u8 o.slot.val ++ u8 o.admitted.code ++ flagByte o.enabled) s =
      if o.duplicates s.streams then .refuse .duplicate []
      else .done { s with streams := s.streams.set o.index (some (o.entry (s.streams.get o.index))) } [] := by
  have hn := natOfBytes_u32 o.identifier.isLt
  have hread : readStream (BitVec.ofNat 8 o.index.val) (natOfBytes (u32 o.identifier.toNat)) (BitVec.ofNat 8 o.slot.val)
      (BitVec.ofNat 8 o.admitted.code) (BitVec.ofNat 8 o.enabled.toNat) = some o := by
    refine readStream_eq_some.mpr ⟨?_, ?_, ?_, ?_, ?_, ?_⟩
    · exact readSlot_eq_some.mp (readSlot_ofNat _)
    · exact readSlot_eq_some.mp (readSlot_ofNat _)
    · cases o.admitted <;> rfl
    · cases o.enabled <;> rfl
    · rw [hn]
      exact fun h0 => hid (BitVec.eq_of_toNat_eq h0)
    · rw [hn]
      simp
  exact ruleStreamSet_read h hread

/-- The counters of the entry written: kept where identifier and slot are those held, else at 0 (R23). -/
theorem StreamOperands.entry_counters (o : StreamOperands) (old : Option StreamEntry) :
    (∀ e, old = some e → e.identifier = o.identifier → e.slot = o.slot → (o.entry old).counters = e.counters) ∧
      ((∀ e, old = some e → e.identifier ≠ o.identifier ∨ e.slot ≠ o.slot) →
        (o.entry old).counters = StreamCounters.zero) := by
  cases old with
  | none => exact ⟨nofun, fun _ => rfl⟩
  | some e =>
    refine ⟨fun g hg hid hb => ?_, fun h => if_neg fun hk => ?_⟩
    · cases hg
      exact if_pos ⟨hid, hb⟩
    · exact (h e rfl).elim (absurd hk.1) (absurd hk.2)

theorem ruleStreamDrop_run {s : State} (h : s.mode = .run) (x : Byte) : ruleStreamDrop [x] s = .refuse .wrongMode [] :=
  if_pos h

theorem ruleStreamDrop_refused {s : State} (h : s.mode ≠ .run) {x : Byte} (hx : 26 ≤ x.toNat) :
    ruleStreamDrop [x] s = .refuse .outOfRange [] := by
  unfold ruleStreamDrop
  dsimp only
  rw [if_neg h, readSlot_eq_none.mpr hx]

theorem ruleStreamDrop_done {s : State} (h : s.mode ≠ .run) {x : Byte} {i : Fin 26} (hx : x.toNat = i.val) :
    ruleStreamDrop [x] s = .done { s with streams := s.streams.set i none } [] := by
  unfold ruleStreamDrop
  dsimp only
  rw [if_neg h, readSlot_eq_some.mpr hx]

end Sys2Proof.Machine

open Sys2Proof Sys2Proof.Machine

/-- Settles O44, by the clear flag; the reply is laid out in a head of 30 bytes and a block of 12 for each entry. -/
theorem countersAreReturnedAndCleared : Obligations.CountersAreReturnedAndCleared := by
  intro tag clear s rest hs
  refine ⟨fun h => congrArg _ (serve_own_refuse ⟨0x34, 1, true⟩ hs rfl rfl (.inr rfl) (ruleCounters_refused h _)), fun h => ?_⟩
  obtain ⟨f, hf⟩ : ∃ f : Bool, clear.toNat = f.toNat := by
    obtain h0 | h1 : clear.toNat = 0 ∨ clear.toNat = 1 := by omega
    exacts [⟨false, h0⟩, ⟨true, h1⟩]
  refine ⟨_, _, exec_counters hs hf, countersBytes_length s, countersBytes_take s, fun i => (countersBytes_block s i).trans ?_,
    fun h0 => ?_, fun h1 => ?_⟩
  · cases s.streams.get i <;> rfl
  · subst h0
    cases f with
    | false => rfl
    | true => cases hf
  · subst h1
    cases f with
    | false => cases hf
    | true =>
      exact ⟨rfl, fun p => Ports.get_map _ _ p, clearStreamCounters_get _⟩

/-- Settles O47, from the reply placed and from the reset value of each block at the restart. -/
theorem restartIsMadeOnceItsReplyHasLeft : Obligations.RestartIsMadeOnceItsReplyHasLeft := by
  refine ⟨fun tag s rest hm hs => ?_, fun s => ⟨fun h => ?_, fun hf hl hp hm => ⟨makeRestart s, ?_, ?_⟩⟩⟩
  · refine congrArg _ ((serve_own ⟨0x03, 0, false⟩ (fun _ _ => Service.restart) hs rfl rfl (.inl hm)).trans ?_)
    exact congrArg (fun l : ControlLink => { s with link := l })
      (ControlLink.placeReply_places (l := s.link.inFlight ⟨0x03, tag, []⟩ rest .restart) hs.1 ⟨0x83, tag, [0], true⟩)
  · rw [exec_restartMade, if_neg]
    rw [restartDue_iff, ControlLink.restartReplyLeft_iff]
    exact h
  · rw [exec_restartMade, if_pos (restartDue_iff.mpr ⟨hf, ControlLink.restartReplyLeft_iff.mpr hl, hp, hm⟩)]
  refine ⟨rfl, rfl, rfl, fun k => ⟨driveLines_released (by nofun) k, Table.get_fill _ k, Table.get_fill _ k, Table.get_fill _ k⟩,
    rfl, fun b => Table.get_fill _ b, rfl, rfl, Store.emptyCells_get,
    fun b => ⟨Table.get_fill _ b, Table.get_fill _ b⟩, rfl, rfl, rfl,
    fun p => ⟨Table.get_fill _ p, Table.get_fill _ p, Table.get_fill _ p,
      fun k => ⟨Table.get_fill_fill _ k p, Table.get_fill_fill _ k p, Table.get_fill_fill _ k p⟩⟩,
    rfl, rfl, rfl, fun k => ⟨Table.get_fill _ k, Table.get_fill _ k⟩,
    fun p => Ports.get_map _ _ p, clearStreamCounters_get _, ?_⟩
  exact ⟨rfl, rfl, rfl, rfl, rfl, rfl, rfl, rfl, hp, rfl⟩

/-- Settles O49, by the mode, the ranges of the bytes and the entries at other indices. -/
theorem streamTableIsWritten : Obligations.StreamTableIsWritten := by
  intro tag s rest hm
  refine ⟨fun payload hlen hs => ⟨fun hrun => ?_, fun hsetup => ?_⟩,
    fun x hs => ⟨fun hrun => ?_, fun hsetup => ?_, fun hsetup i hx => ?_⟩⟩
  · exact congrArg _ (serve_own_refuse ⟨0x10, 8, false⟩ hs rfl hlen (.inl hm)
      (ruleStreamSet_run (s := s.fronted _ rest) hrun hlen))
  · have hrun : s.mode ≠ .run := by rw [hsetup]; nofun
    refine ⟨fun x i3 i2 i1 i0 b a e hp h => ?_, fun i id b a e hid hp => ?_⟩
    · subst hp
      exact congrArg _ (serve_own_refuse ⟨0x10, 8, false⟩ hs rfl hlen (.inl hm)
        (ruleStreamSet_refused (s := s.fronted _ rest) hrun (readStream_eq_none h)))
    · have hbytes : payload = u8 i.val ++ u32 id.toNat ++ u8 b.val ++ u8 a.code ++ flagByte e :=
        hp.trans (by cases a <;> cases e <;> rfl)
      have hrule := ruleStreamSet_spelled (s := s.fronted ⟨0x10, tag, payload⟩ rest) hrun (o := ⟨i, id, b, a, e⟩) hid
      rw [← hbytes] at hrule
      have hdup := StreamOperands.duplicates_iff (o := ⟨i, id, b, a, e⟩) (streams := s.streams)
      refine ⟨fun h => ?_, fun h => ⟨_, ?_, StreamOperands.entry_counters ⟨i, id, b, a, e⟩ (s.streams.get i)⟩⟩
      · exact congrArg _ (serve_own_refuse ⟨0x10, 8, false⟩ hs rfl hlen (.inl hm) (hrule.trans (if_pos (hdup.mpr h))))
      · have hfree : ¬ StreamOperands.duplicates ⟨i, id, b, a, e⟩ s.streams = true := fun hd =>
          have ⟨j, g, hj, hg, hclash⟩ := hdup.mp hd
          hclash.elim (h j g hj hg).1 (h j g hj hg).2
        exact congrArg _ (serve_own_write ⟨0x10, 8, false⟩ hs rfl hlen (.inl hm) (hrule.trans (if_neg hfree)) rfl)
  · exact congrArg _ (serve_own_refuse ⟨0x11, 1, false⟩ hs rfl rfl (.inl hm)
      (ruleStreamDrop_run (s := s.fronted _ rest) hrun x))
  · intro hx
    exact congrArg _ (serve_own_refuse ⟨0x11, 1, false⟩ hs rfl rfl (.inl hm)
      (ruleStreamDrop_refused (s := s.fronted _ rest) (by rw [State.fronted_mode, hsetup]; nofun) hx))
  · exact congrArg _ (serve_own_write ⟨0x11, 1, false⟩ hs rfl rfl (.inl hm)
      (ruleStreamDrop_done (s := s.fronted _ rest) (by rw [State.fronted_mode, hsetup]; nofun) hx) rfl)

end

section
/-! PROOF. What a HALTED device holds, and what any command but a hard reset leaves of it. -/

namespace Sys2Proof.Machine

open Sys2Proof

/-! ### What stands -/

/-- A stored slot stands but for the mismatch marks of its ring. -/
structure BayStore.Stands (b c : BayStore) : Prop where
  gap : c.gap = b.gap
  recovery : c.recovery = b.recovery
  lost : c.lost = b.lost
  bfStart : c.bfStart = b.bfStart
  sinceSub : c.sinceSub = b.sinceSub
  entry : ∀ i, (c.ring.get i).currents = (b.ring.get i).currents ∧ (c.ring.get i).mark = (b.ring.get i).mark

theorem BayStore.Stands.refl (b : BayStore) : b.Stands b :=
  ⟨rfl, rfl, rfl, rfl, rfl, fun _ => ⟨rfl, rfl⟩⟩

/-- An upset changes nothing but the mismatch mark of an entry (log 6). -/
theorem BayStore.Stands.upset {b c : BayStore} (d : Fin 32) (h : b.Stands c) : b.Stands (c.upset d) := by
  refine ⟨h.gap, h.recovery, h.lost, h.bfStart, h.sinceSub, fun i => ?_⟩
  simp only [BayStore.upset, Table.get_modify]
  split
  next hi => exact hi ▸ h.entry d
  next => exact h.entry i

/-- What the stream table holds of an entry besides its counters (R22). -/
def StreamEntry.written (e : StreamEntry) : BitVec 32 × Slot × Admit × Bool :=
  (e.identifier, e.slot, e.admitted, e.enabled)

/-- What a HALTED device holds: everything stands but the ports, the counters of the stream table, the mismatch marks, the checks
recorded, the record stack and the control link (R34, R153, R175). -/
structure HaltedStands (s t : State) : Prop where
  frame : t =
    { s with
      ports := t.ports
      streams := t.streams
      store := { s.store with slots := t.store.slots }
      supervision :=
        { s.supervision with storeParity := t.supervision.storeParity, timerFault := t.supervision.timerFault }
      records := t.records
      link := t.link }
  slots : ∀ b, (s.store.slots.get b).Stands (t.store.slots.get b)
  streams : ∀ i, (t.streams.get i).map StreamEntry.written = (s.streams.get i).map StreamEntry.written

theorem HaltedStands.refl (s : State) : HaltedStands s s :=
  ⟨rfl, fun _ => .refl _, fun _ => rfl⟩

/-- The ports, the record stack and the control link are free to change. -/
theorem HaltedStands.aside {s t : State} (h : HaltedStands s t) (ports : Ports) (records : RecordStack) (link : ControlLink) :
    HaltedStands s { t with ports := ports, records := records, link := link } :=
  ⟨by rw [h.frame], h.slots, h.streams⟩

theorem HaltedStands.link {s t : State} (h : HaltedStands s t) (l : ControlLink) : HaltedStands s { t with link := l } :=
  h.aside t.ports t.records l

/-- A check recorded leaves what stands (R153). -/
theorem recordCheck_stands (c : IntegrityCheck) (s : State) :
    HaltedStands s { s with supervision := s.supervision.recordCheck c } := by
  refine ⟨?_, fun _ => .refl _, fun _ => rfl⟩
  cases c <;> rfl

theorem applyUpsets_stands (us : List Upset) (s : State) : HaltedStands s (applyUpsets us s) :=
  ⟨rfl, applyUpsets_slots (P := fun b x => (s.store.slots.get b).Stands x) (fun _ d _ h => h.upset d) us fun _ => .refl _,
    fun _ => rfl⟩

/-- The counters of the ports, of the stream table and of the link are cleared, and what else the entries hold stands (R42). -/
theorem clearCounters_stands (s : State) : HaltedStands s (clearCounters s) := by
  refine ⟨rfl, fun _ => .refl _, fun i => ?_⟩
  show ((s.streams.map (Option.map StreamEntry.clearCounters)).get i).map StreamEntry.written = _
  rw [Table.get_map, Option.map_map]
  rfl

/-- In HALTED a frame received changes nothing but the port (R26). -/
theorem receiveFrame_stands {s : State} (h : s.mode = .halted) (port : Port) (frame : List Byte) :
    HaltedStands s (receiveFrame port frame s) := by
  unfold receiveFrame
  dsimp only
  split
  · split
    · exact (HaltedStands.refl s).aside _ _ _
    · split
      next => exact (HaltedStands.refl s).aside _ _ _
      all_goals next hm => cases h.symm.trans hm
  · exact (HaltedStands.refl s).aside _ _ _

/-! ### Requests -/

/-- A served request leaves what stands when what its rule does leaves it. -/
theorem finishService_stands {s r : State} {req : Request} {sv : Service} (hr : HaltedStands s r)
    (h : ∀ t data, sv = .done t data → HaltedStands s t) : HaltedStands s (finishService req r sv) := by
  cases sv with
  | done t data => exact (h t data rfl).link _
  | refuse st detail => exact hr.link _
  | hold f => exact hr.link _
  | restart => exact hr.link _

theorem serve_stands {s : State} {req : Request} {own : List Byte → State → Service}
    (h : ∀ rest t data, commonChecks req own (s.fronted req rest) = .done t data → HaltedStands s t) :
    HaltedStands s (serve req own s) := by
  by_cases ht : ∃ rest, s.Turn req rest
  · obtain ⟨rest, ht⟩ := ht
    have hr : HaltedStands s (s.fronted req rest) := (HaltedStands.refl s).link _
    rw [serve_turn ht]
    split
    · exact finishService_stands hr (h rest)
    · exact hr
  · rw [serve_out_of_turn fun q hq => ht ⟨q, hq⟩]
    exact .refl s

/-- A request that is not served in HALTED is refused there, whatever its rule (R169). -/
theorem serve_not_in_halted {s : State} (h : s.mode = .halted) {req : Request} (own : List Byte → State → Service)
    (hrow : ∀ row, requestRow req.kind = some row → row.inHalted = false) : HaltedStands s (serve req own s) := by
  refine serve_stands fun rest t data hd => ?_
  unfold commonChecks at hd
  split at hd
  · cases hd
  next row hk =>
    split at hd
    · cases hd
    · rw [if_pos ⟨h, hrow row hk⟩] at hd
      cases hd

/-- A request that is served in HALTED leaves what stands when its own rule does. -/
theorem serve_in_halted {s : State} {req : Request} {own : List Byte → State → Service}
    (h : ∀ r t data, HaltedStands s r → own req.payload r = .done t data → HaltedStands s t) :
    HaltedStands s (serve req own s) := by
  refine serve_stands fun rest t data hd => ?_
  unfold commonChecks at hd
  split at hd
  · cases hd
  · split at hd
    · cases hd
    · split at hd
      · cases hd
      · exact h _ t data ((HaltedStands.refl s).link _) hd

/-! ### Every command -/

/-- In HALTED no close is due: the timer is STOPPED (R33, R153). -/
theorem closeDue_stopped {s : State} (h : s.timer.running = false) : closeDue s = false :=
  Bool.eq_false_iff.mpr fun hd => absurd ((closeDue_iff.mp hd).1.symm.trans h) nofun

/-- While no set is in evaluation there is nothing to evaluate (log 2). -/
theorem evaluateSet_idle {s : State} (h : s.published = none) : evaluateSet s = s := by
  unfold evaluateSet
  rw [h]

theorem ruleStatus_reads {payload : List Byte} {r t : State} {data : List Byte} (h : ruleStatus payload r = .done t data) :
    t = r := by
  unfold ruleStatus at h
  repeat' split at h
  all_goals cases h
  all_goals rfl

theorem ruleRecordRead_reads {payload : List Byte} {r t : State} {data : List Byte} (h : ruleRecordRead payload r = .done t data) :
    t = r := by
  unfold ruleRecordRead at h
  repeat' split at h
  all_goals cases h
  rfl

/-- RECORD-DISCARD changes the record stack alone (R163). -/
theorem ruleRecordDiscard_frame {payload : List Byte} {r t : State} {data : List Byte}
    (h : ruleRecordDiscard payload r = .done t data) : t = { r with records := t.records } := by
  unfold ruleRecordDiscard at h
  split at h
  all_goals cases h
  rfl

theorem HaltedStands.clear {s r : State} (h : HaltedStands s r) : HaltedStands s (clearCounters r) :=
  ⟨by rw [clearCounters, h.frame], h.slots, fun i => ((clearCounters_stands r).streams i).trans (h.streams i)⟩

/-- COUNTERS changes nothing or clears every counter (R42). -/
theorem ruleCounters_stands {s r t : State} {payload data : List Byte} (hr : HaltedStands s r)
    (h : ruleCounters payload r = .done t data) : HaltedStands s t := by
  unfold ruleCounters at h
  split at h
  · split at h
    · cases h
    next f _ =>
      cases h
      cases f
      exacts [hr, hr.clear]
  · cases h

theorem exec_in_halted {c : Instr} {s t : State} (hs : s.Driven) (hm : s.mode = .halted) (hc : ∀ r1 r0, c ≠ .hardReset r1 r0)
    (ht : exec c s = .next t) : HaltedStands s t := by
  have hclock : s.timer.running = false := by rw [hs.clock, hm]; rfl
  have hidle : s.published = none := hs.evaluation hm
  have hdue : closeDue s = false := closeDue_stopped hclock
  have hnominal : nominalInstant s = s := nominalInstant_stopped hclock
  have heval : evaluateSet s = s := evaluateSet_idle hidle
  cases c <;> cases ht
  case hardReset r1 r0 => exact absurd rfl (hc r1 r0)
  case refclkAbsent m =>
    have hreport : reportAbsent m.clockFirst (cutShort m s) = reportCheck .timerFault s :=
      Host.Outcome.next.inj (execRefclkAbsent_idle hidle (.inr (.inl fun hd => by
        rw [closeDue_iff.mpr hd] at hdue
        cases hdue)))
    rw [hreport, reportCheck_in_halted _ hm]
    exact recordCheck_stands _ s
  case setInstant => rw [hnominal]; exact .refl s
  case sampleCountWrap => rw [hnominal, ite_self]; exact .refl s
  case linkDown => rw [hnominal, ite_self]; exact .refl s
  case moderationTimerExpiry => rw [hnominal, ite_self]; exact .refl s
  case portFrameReceived => exact receiveFrame_stands hm _ _
  case setClose u => rw [hdue]; exact applyUpsets_stands u s
  case evaluateSet u => rw [evaluateSet_idle (s := applyUpsets u s) hidle]; exact applyUpsets_stands u s
  case externalHoldExpiry => rw [heval, ite_self]; exact .refl s
  case bfTimerExpiry => rw [heval, ite_self]; exact .refl s
  case unknownKindRequest kind _ _ =>
    split
    next hk => exact serve_not_in_halted hm _ fun row hr => absurd (hk.symm.trans hr) nofun
    next => exact .refl s
  case restartMade => rw [if_neg fun h => (restartDue_iff.mp h).2.2.2 hm]; exact .refl s
  case tripFrameSent => exact (HaltedStands.refl s).aside _ _ _
  case controlByteReceived => exact (HaltedStands.refl s).link _
  case gapTimeout => exact (HaltedStands.refl s).link _
  case frameTransmitted => exact (HaltedStands.refl s).link _
  case ident => exact serve_in_halted fun r t data hr h => by cases h; exact hr
  case status => exact serve_in_halted fun r t data hr h => ruleStatus_reads h ▸ hr
  case counters => exact serve_in_halted fun r t data hr h => ruleCounters_stands hr h
  case recordRead => exact serve_in_halted fun r t data hr h => ruleRecordRead_reads h ▸ hr
  case recordDiscard => exact serve_in_halted fun r t data hr h => ruleRecordDiscard_frame h ▸ hr.aside _ _ _
  all_goals exact serve_not_in_halted hm _ fun row hr => by cases hr; rfl

end Sys2Proof.Machine

open Sys2Proof Sys2Proof.Machine

/-- Settles O5, command by command: no close, evaluation, restart or nominal instant is due in HALTED, and the five requests served
there write nothing but counters and the record stack. -/
theorem haltedIsLeftByHardResetAlone : Obligations.HaltedIsLeftByHardResetAlone := by
  intro c s t hs hm hc ht
  obtain ⟨hframe, hslots, hstreams⟩ := exec_in_halted hs hm hc ht
  rw [hframe]
  refine ⟨hm, rfl, rfl, rfl, rfl, rfl, rfl, rfl, rfl, rfl, rfl, rfl, rfl, rfl, rfl, rfl, rfl, rfl, rfl, rfl, rfl, rfl, rfl, rfl, rfl,
    rfl, fun b => ?_, hstreams⟩
  obtain ⟨hgap, hrecovery, hlost, hstart, hsince, hentry⟩ := hslots b
  exact ⟨hgap, hrecovery, hlost, hstart, hsince, hentry⟩

end

section
/-! PROOF. A parity mismatch at a close and in an evaluation. -/

namespace Sys2Proof.Machine

open Sys2Proof

/-! ### The entry to HALTED on a parity mismatch -/

/-- The device has entered HALTED on a parity mismatch, from the state in which it was read (R153, R154, R175). -/
structure ParityHalts (c t : State) : Prop where
  mode : t.mode = .halted
  haltCode : t.supervision.haltCode = some .storeParity
  storeParity : t.supervision.storeParity = true
  running : t.timer.running = false
  healthy : t.lines.healthy = false
  published : t.published = none
  ports : ∀ q, (t.ports.get q).fibre = (c.ports.get q).fibre ∧ (t.ports.get q).waiting = none
  released : ∀ k, t.trip.tripLatch.get k = false ∧ t.trip.backtripLatch.get k = false ∧ t.lines.trip.get k = false
  timers : ∀ x, t.bf.get x = ⟨.idle, 0, 0, 0⟩
  records : t.records = c.records
  stands : SupervisionStands c t

theorem reportCheck_parity {c : State} (h : c.mode ≠ .halted) : ParityHalts c (reportCheck .storeParity c) := by
  have hstands := reportCheck_supervision .storeParity c
  rw [reportCheck_enters _ h] at hstands ⊢
  refine ⟨rfl, rfl, rfl, rfl, rfl, rfl, fun q => ?_,
    fun k => ⟨Table.get_fill _ k, Table.get_fill _ k, driveLines_released (by nofun) k⟩,
    fun x => Table.get_fill _ x, rfl, hstands⟩
  show ((c.ports.map (fun p => { p with waiting := none })).get q).fibre = _ ∧
    ((c.ports.map (fun p => { p with waiting := none })).get q).waiting = none
  rw [Ports.get_map]
  exact ⟨rfl, rfl⟩

/-! ### One entry upset -/

theorem applyUpsets_one (b : Slot) (i : Fin 32) (s : State) (x : Slot) :
    (applyUpsets [⟨b, i⟩] s).store.slots.get x =
      if x = b then (s.store.slots.get b).upset i else s.store.slots.get x :=
  Table.get_modify _ _ _ _

theorem BayStore.upset_entry (d i : Fin 32) (b : BayStore) :
    (b.upset d).ring.get i = if i = d then { b.ring.get d with mismatch := true } else b.ring.get i :=
  Table.get_modify _ _ _ _

/-- The entry upset is in mismatch, and every other one is as it was (log 6). -/
theorem upset_mismatch_iff {b x : Slot} {i j : Fin 32} {s : State} :
    (((applyUpsets [⟨b, i⟩] s).store.slots.get x).ring.get j).mismatch = true ↔
      (x = b ∧ j = i) ∨ ((s.store.slots.get x).ring.get j).mismatch = true := by
  rw [applyUpsets_one]
  split
  next hx =>
    subst hx
    rw [BayStore.upset_entry]
    split
    next hj => simp [hj]
    next hj => simp [hj]
  next hx => simp [hx]

/-- Upsets change no current. -/
theorem current_applyUpsets (us : List Upset) (s : State) : current (applyUpsets us s).store.slots = current s.store.slots := by
  funext x i p
  exact congrArg (fun c : Table 3 Int => c.get p) (((applyUpsets_stands us s).slots x).entry i).1

/-! ### The close (R37) -/

/-- A close whose substitution reads the upset entry leads to HALTED. -/
theorem setClose_upset {s : State} {b : Slot} (hd : s.Due) (hk : (s.bays.get b).kind ≠ .unused)
    (hl : (s.store.slots.get b).lost = false) (hc : (s.store.cells.get 0).get b = none) (hg : (s.store.slots.get b).gap ≤ 1) :
    exec (.setClose [⟨b, 23⟩]) s =
      .next (reportCheck .storeParity (writeClose (closeFlight (applyUpsets [⟨b, 23⟩] s)))) := by
  have hb := (applyUpsets_stands [⟨b, 23⟩] s).slots b
  have hm : closeMismatch (closeFlight (applyUpsets [⟨b, 23⟩] s)) = true := by
    refine closeMismatch_of_substituted (b := b) ?_ ?_ ?_ ?_ ?_
    · rw [closeFlight_bays]
      exact hk
    · rw [closeFlight_store]
      exact hb.lost.trans hl
    · rw [closeFlight_store]
      exact hc
    · rw [closeFlight_store]
      exact hb.gap.symm ▸ hg
    · rw [closeFlight_store]
      exact upset_mismatch_iff.mpr (.inl ⟨rfl, rfl⟩)
  show Host.Outcome.next (if closeDue s then closeStore _ else _) = _
  rw [if_pos (closeDue_iff.mpr hd), closeStore, if_pos hm]

/-! ### The evaluation (R87, R115) -/

theorem newestMismatch_iff {slots : Table 26 BayStore} {t : Topology} :
    newestMismatch slots t = true ↔
      (∃ z ∈ t.zones, ∃ m ∈ z.members, (ringEntry slots m.slot 0).mismatch = true) ∨
        ∃ m ∈ t.checkMembers, (ringEntry slots m.slot 0).mismatch = true := by
  simp only [newestMismatch, Bool.or_eq_true, List.any_eq_true]

/-- The detectors read nothing of the store but its currents. -/
theorem Detectors.act_congr {slots slots' : Table 26 BayStore} (h : current slots = current slots') (bank : Bank) (t : Topology)
    (d : Detectors) : d.act bank slots t = d.act bank slots' t := by
  unfold Detectors.act sumD sumR
  rw [h]

/-- What stage 3 leaves when it abandons a set: the change marks have acted, and the detectors too unless the mismatch lies in a
newest entry (R87, R115). -/
def abandonedFrom (t : Topology) (s : State) : State :=
  { s with
    evaluator := s.evaluator.restart t
    detectors := if newestMismatch s.store.slots t then s.detectors else s.detectors.act s.active s.store.slots t }

theorem measureSet_abandoned {t : Topology} {s : State} (h : newestMismatch s.store.slots t = true ∨ ¬ s.SoundWindow) :
    measureSet t s = .abandoned (abandonedFrom t s) := by
  unfold measureSet abandonedFrom
  dsimp only
  split
  next => rfl
  next hn => rw [if_pos (windowMismatch_iff.mpr (h.resolve_left hn))]

/-- The set abandoned, after the stages of the replica and of the assembler. -/
def abandonedSet (p : Published) (s : State) : State :=
  abandonedFrom (setTopology p s) (assembledSet p s)

theorem assembledSet_frame (p : Published) (s : State) : StageFrame s (assembledSet p s) :=
  (deriveReplica_frame p s).trans (assembleZones_frame p.stamp (deriveReplica p s))

theorem assembledSet_evaluator (p : Published) (s : State) : (assembledSet p s).evaluator = s.evaluator :=
  assembleZones_evaluator _ _

theorem assembledSet_detectors (p : Published) (s : State) : (assembledSet p s).detectors = s.detectors :=
  assembleZones_detectors _ _

theorem assembledSet_supervision (p : Published) (s : State) : (assembledSet p s).supervision = s.supervision :=
  assembleZones_supervision _ _

theorem abandonedSet_supervision (p : Published) (s : State) : (abandonedSet p s).supervision = s.supervision :=
  assembledSet_supervision p s

theorem abandonedSet_frame (p : Published) (s : State) : StageFrame s (abandonedSet p s) :=
  (assembledSet_frame p s).trans ⟨rfl, rfl, rfl, rfl, rfl, rfl, rfl, rfl, rfl, rfl, rfl⟩

theorem abandonedSet_evaluator (p : Published) (s : State) :
    (abandonedSet p s).evaluator = s.evaluator.restart (setTopology p s) :=
  congrArg (Evaluator.restart (setTopology p s)) (assembledSet_evaluator p s)

theorem abandonedSet_detectors (p : Published) (s : State) :
    (abandonedSet p s).detectors =
      if newestMismatch s.store.slots (setTopology p s) then s.detectors
      else s.detectors.act s.active s.store.slots (setTopology p s) := by
  have hf := assembledSet_frame p s
  rw [← assembledSet_detectors p s, ← hf.store, ← hf.active]
  rfl

/-- A set with a mismatch among the entries that the evaluator reads is abandoned, and the device is HALTED. -/
theorem evaluateSet_unsound {p : Published} {s : State} (hp : s.published = some p)
    (h : newestMismatch s.store.slots (setTopology p s) = true ∨ ¬ s.SoundWindow) :
    evaluateSet s = reportCheck .storeParity (abandonedSet p s) := by
  have hf := assembledSet_frame p s
  refine evaluateSet_abandoned hp (measureSet_abandoned (h.imp (fun hn => ?_) fun hw => ?_))
  · exact hf.store.symm ▸ hn
  · unfold State.SoundWindow at hw ⊢
    rwa [← hf.store, ← hf.bays] at hw

theorem evaluateSet_parity {p : Published} {s : State} (hm : s.mode ≠ .halted) (hp : s.published = some p)
    (h : newestMismatch s.store.slots (setTopology p s) = true ∨ ¬ s.SoundWindow) :
    ParityHalts (abandonedSet p s) (evaluateSet s) := by
  rw [evaluateSet_unsound hp h]
  exact reportCheck_parity ((assembledSet_frame p s).mode.symm ▸ hm)

/-- Where every window is sound the detectors act (R106). -/
theorem evaluateSet_detectors {p : Published} {s : State} (hp : s.published = some p) (hw : s.SoundWindow) :
    (evaluateSet s).detectors = s.detectors.act s.active s.store.slots (setTopology p s) := by
  have hf := assembledSet_frame p s
  have hsound : (assembledSet p s).SoundWindow := by
    unfold State.SoundWindow
    rwa [hf.store, hf.bays]
  have hnewest : newestMismatch (assembledSet p s).store.slots (setTopology p s) = false := by
    rw [← Bool.not_eq_true, hf.store]
    exact fun hn => newestMismatch_unsound (s := deriveReplica p s) hn hw
  rw [(evaluateSet_supervision hp).detectors]
  refine (measurePart_measured true (setTopology p s) (assembledSet p s)).2.trans ?_
  rw [measureSet_whole hnewest hsound]
  show (assembledSet p s).detectors.act (assembledSet p s).active (assembledSet p s).store.slots (setTopology p s) = _
  rw [assembledSet_detectors, hf.active, hf.store]

/-! ### The effect of the change marks (R70) -/

theorem restart_operate {t : Topology} {e : Evaluator} {k : Bus} (h : ∀ z, t.zoneOf k = some z → z.changed = false) :
    (e.restart t).operate.get k = e.operate.get k := by
  refine (Table.get_build _ k).trans ?_
  split
  next => rfl
  next z hz => rw [h z hz]; rfl

theorem restart_operate_changed {t : Topology} {e : Evaluator} {k : Bus} {z : Zone} (hz : t.zoneOf k = some z)
    (hc : z.changed = true) (ph : Phase) : ((e.restart t).operate.get k).get ph = 0 := by
  have h : (e.restart t).operate.get k = Table.fill 3 0 := by
    refine (Table.get_build _ k).trans ?_
    rw [hz]
    exact if_pos hc
  rw [h, Table.get_fill]

theorem zoneOf_holds {t : Topology} {k : Bus} {z : Zone} (h : t.zoneOf k = some z) : z ∈ t.zones ∧ z.Holds k :=
  ⟨List.mem_of_find?_eq_some h, List.find?_some (p := fun z : Zone => z.buses.getLsbD k.val) h⟩

theorem restart_results (t : Topology) (e : Evaluator) : (e.restart t).results = e.results := rfl

theorem restart_checkOperate (t : Topology) (e : Evaluator) :
    (e.restart t).checkOperate = if t.checkChanged then Table.fill 3 0 else e.checkOperate := rfl

/-- The zone of a set in evaluation that holds a section is the one that is found. -/
theorem setTopology_zoneOf {p : Published} {s : State} {k : Bus} {z : Zone} (hz : z ∈ (setTopology p s).zones) (hk : z.Holds k) :
    (setTopology p s).zoneOf k = some z := by
  cases hf : (setTopology p s).zoneOf k with
  | none => exact absurd hk (List.find?_eq_none.mp hf z hz)
  | some y =>
    obtain ⟨hy, hyk⟩ := zoneOf_holds hf
    rw [(ZoneInput.zone_of_holds hy hyk).2, (ZoneInput.zone_of_holds hz hk).2]

/-! ### An upset entry in an evaluation -/

/-- Whether the newest entry of a member of the set is the one upset, where every window was sound before. -/
theorem newestMismatch_upset {p : Published} {s : State} {b : Slot} {i : Fin 32} (hw : s.SoundWindow) :
    newestMismatch (applyUpsets [⟨b, i⟩] s).store.slots (setTopology p s) = true ↔
      i = 0 ∧ ((∃ z ∈ (setTopology p s).zones, ∃ m ∈ z.members, m.slot = b) ∨
        ∃ m ∈ (setTopology p s).checkMembers, m.slot = b) := by
  have hsound : newestMismatch s.store.slots (setTopology p s) ≠ true := fun h =>
    newestMismatch_unsound (s := deriveReplica p s) h hw
  rw [Ne, newestMismatch_iff, not_or] at hsound
  obtain ⟨hzones, hcheck⟩ := hsound
  have hentry (m : Member) : (ringEntry (applyUpsets [⟨b, i⟩] s).store.slots m.slot 0).mismatch = true ↔
      (m.slot = b ∧ 0 = i) ∨ (ringEntry s.store.slots m.slot 0).mismatch = true := upset_mismatch_iff
  rw [newestMismatch_iff]
  constructor
  · rintro (⟨z, hz, m, hm, h⟩ | ⟨m, hm, h⟩)
    · obtain ⟨hb, h0⟩ := ((hentry m).mp h).resolve_right fun hs => hzones ⟨z, hz, m, hm, hs⟩
      exact ⟨h0.symm, .inl ⟨z, hz, m, hm, hb⟩⟩
    · obtain ⟨hb, h0⟩ := ((hentry m).mp h).resolve_right fun hs => hcheck ⟨m, hm, hs⟩
      exact ⟨h0.symm, .inr ⟨m, hm, hb⟩⟩
  · rintro ⟨rfl, ⟨z, hz, m, hm, hb⟩ | ⟨m, hm, hb⟩⟩
    · exact .inl ⟨z, hz, m, hm, (hentry m).mpr (.inl ⟨hb, rfl⟩)⟩
    · exact .inr ⟨m, hm, (hentry m).mpr (.inl ⟨hb, rfl⟩)⟩

/-- A feeder is a member of the check zone, so that its upset newest entry is found (R66). -/
theorem newestMismatch_feeder {p : Published} {s : State} {b : Slot} {side : Side} (hk : (s.bays.get b).kind = .feeder side) :
    newestMismatch (applyUpsets [⟨b, 0⟩] s).store.slots (setTopology p s) = true :=
  newestMismatch_iff.mpr (.inr ⟨⟨b, false⟩, ZoneInput.mem_checkMembers.mpr ⟨rfl, side, hk⟩,
    upset_mismatch_iff.mpr (.inl ⟨rfl, rfl⟩)⟩)

theorem unsound_upset {s : State} {b : Slot} {i : Fin 32} (hk : (s.bays.get b).kind ≠ .unused) (hi : i.val < 12) :
    ¬ (applyUpsets [⟨b, i⟩] s).SoundWindow := fun hw =>
  Bool.false_ne_true ((hw b i hk hi).symm.trans (upset_mismatch_iff.mpr (.inl ⟨rfl, rfl⟩)))

theorem evaluateSet_replica {p : Published} {s : State} (hp : s.published = some p) :
    (evaluateSet s).replica = (deriveReplica p s).replica :=
  (evaluateSet_assembly hp).replica.trans (assembleZones_replica _ _)

end Sys2Proof.Machine

open Sys2Proof Sys2Proof.Machine

/-- Settles O37, from the report of the mismatch at the close, and from stage 3 of the evaluation that abandons the set. -/
theorem parityMismatchHalts : Obligations.ParityMismatchHalts := by
  intro s b hm
  refine ⟨fun hd hk hl hc hg => ?_, fun p i hp hk hi hw => ?_, fun p side hp hk => ?_⟩
  · let u := applyUpsets [⟨b, 23⟩] s
    have h := reportCheck_parity (c := writeClose (closeFlight u)) (((closeFlight_frame u).trans (writeClose_frame _)).mode hm)
    have hstored (x : Slot) : (reportCheck .storeParity (writeClose (closeFlight u))).store.slots.get x = (slotClose u x).store := by
      rw [reportCheck_store]
      exact closedSet_slotClose u x
    refine ⟨_, setClose_upset hd hk hl hc hg, h.published, h.mode, h.haltCode, h.storeParity, h.running, h.healthy, ?_,
      fun x hx smp hkx hlx hcx => ?_, h.records.trans (closeFlight_records u),
      (reportCheck_replica _ _).trans (closeFlight_replica u), (reportCheck_topology _ _).trans (closeFlight_topology u),
      closeFlight_ports u ▸ h.ports⟩
    · have hb := (applyUpsets_stands [⟨b, 23⟩] s).slots b
      have hclose : slotClose u b = closeSubstituted (u.store.slots.get b) := by
        rw [slotClose, show (u.store.cells.get 0).get b = none from hc]
        exact closeSlot_substituted (BayKind.used_iff.mpr hk) (hb.lost.trans hl) (hb.gap.symm ▸ hg)
      rw [hstored, hclose, closeSubstituted_mismatch (upset_mismatch_iff.mpr (.inl ⟨rfl, rfl⟩)), Table.get_push_zero (n := 31)]
      rfl
    · have hux : u.store.slots.get x = s.store.slots.get x := (applyUpsets_one b 23 s x).trans (if_neg hx)
      have hclose : slotClose u x = closeReceived (s.bays.get x) (s.store.slots.get x) smp := by
        rw [slotClose, hux, show (u.store.cells.get 0).get x = some smp from hcx]
        exact closeSlot_received (BayKind.used_iff.mpr hkx) hlx
      rw [hstored, hclose]
      exact congrArg RingEntry.currents (Table.get_push_zero (n := 31) _ _)
  · let v := applyUpsets [⟨b, i⟩] s
    have hpv : v.published = some p := hp
    have h := evaluateSet_parity (s := v) hm hpv (.inr (unsound_upset hk hi))
    have hf := abandonedSet_frame p v
    have hv : (abandonedSet p v).supervision = s.supervision := abandonedSet_supervision p v
    have hev : (evaluateSet v).evaluator = s.evaluator.restart (setTopology p s) :=
      h.stands.evaluator.trans (abandonedSet_evaluator p v)
    have hdet := h.stands.detectors.trans (abandonedSet_detectors p v)
    refine ⟨evaluateSet v, evaluateSet s, setTopology p s, rfl, exec_evaluateSet s, h.mode, h.haltCode, h.storeParity, h.published,
      (evaluateSet_replica hpv).trans (evaluateSet_replica hp).symm, evaluateSet_topology hpv, evaluateSet_topology hp,
      ⟨fun hn => ?_, fun hn => ?_⟩, fun k => ⟨?_, fun hz => ?_⟩, fun hc ph => ?_, fun hc => ?_,
      (congrArg Evaluator.results hev).trans (restart_results _ _),
      h.stands.conditions.trans (congrArg Supervision.conditions hv), h.stands.ctCounts.trans (congrArg Supervision.ctCounts hv),
      h.stands.checkCt.trans (congrArg Supervision.checkCt hv), h.stands.blockFlags.trans (congrArg Supervision.blockFlags hv),
      h.stands.checkBlocked.trans (congrArg Supervision.checkBlocked hv), h.records.trans hf.records, hf.ports ▸ h.ports⟩
    · exact hdet.trans (if_pos ((newestMismatch_upset hw).mpr hn))
    · refine (hdet.trans (if_neg fun h => hn ((newestMismatch_upset hw).mp h))).trans ?_
      exact (Detectors.act_congr (current_applyUpsets _ s) _ _ _).trans (evaluateSet_detectors hp hw).symm
    · rintro ⟨z, hz, hzk, hc⟩ ph
      rw [hev]
      exact restart_operate_changed (setTopology_zoneOf hz hzk) hc ph
    · rw [hev]
      refine restart_operate fun z hzk => Bool.eq_false_iff.mpr fun hc => ?_
      obtain ⟨hmem, hholds⟩ := zoneOf_holds hzk
      exact hz ⟨z, hmem, hholds, hc⟩
    · rw [hev, restart_checkOperate, if_pos hc, Table.get_fill]
    · rw [hev, restart_checkOperate, if_neg (Bool.eq_false_iff.mp hc)]
  · let v := applyUpsets [⟨b, 0⟩] s
    have hnewest := newestMismatch_feeder (p := p) hk
    have h := evaluateSet_parity (s := v) hm (p := p) hp (.inl hnewest)
    have hf := abandonedSet_frame p v
    have hv : (abandonedSet p v).supervision = s.supervision := abandonedSet_supervision p v
    have hev : (evaluateSet v).evaluator = s.evaluator.restart (setTopology p s) :=
      h.stands.evaluator.trans (abandonedSet_evaluator p v)
    exact ⟨evaluateSet v, rfl, h.mode, h.haltCode, h.storeParity, h.running, h.healthy, h.published,
      (h.stands.detectors.trans (abandonedSet_detectors p v)).trans (if_pos hnewest),
      (congrArg Evaluator.results hev).trans (restart_results _ _),
      h.stands.conditions.trans (congrArg Supervision.conditions hv), h.stands.blockFlags.trans (congrArg Supervision.blockFlags hv),
      h.records.trans hf.records, hf.ports ▸ h.ports, h.released, h.timers⟩

end

section
/-! PROOF. The position replica's work on a set, and the requests ZONE-BLOCK and FORCE. -/

namespace Sys2Proof.Machine

open Sys2Proof

/-! ### Contacts and zoning positions (R44, R48, R50) -/

theorem ContactPair.decode_eq (c o : Bool) :
    (⟨c, o⟩ : ContactPair).decode =
      (if c = true ∧ o = false then .closed else if c = false ∧ o = true then .opened
       else if c = false ∧ o = false then .travel else .invalid) := by
  cases c <;> cases o <;> rfl

/-- A forced value decides; else every state but OPEN counts as closed. -/
theorem zoningClosed_iff {f : Forced} {x : Position} :
    zoningClosed f x = true ↔ f = .closed ∨ (f = .none ∧ x ≠ .opened) := by
  cases f <;> simp [zoningClosed]

theorem countWhile_decide (holds : Prop) [Decidable holds] (stop n : Nat) :
    countWhile (decide holds) stop n = if holds then min (n + 1) stop else 0 := by
  simp [countWhile]

/-! ### What observing a set leaves of a slot (R46) -/

@[simp] theorem SlotPositions.observe_forcedA (c : Option Contacts) (q : SlotPositions) : (q.observe c).forcedA = q.forcedA := by
  cases c <;> rfl
@[simp] theorem SlotPositions.observe_forcedB (c : Option Contacts) (q : SlotPositions) : (q.observe c).forcedB = q.forcedB := by
  cases c <;> rfl
@[simp] theorem SlotPositions.observe_travelA (c : Option Contacts) (q : SlotPositions) : (q.observe c).travelA = q.travelA := by
  cases c <;> rfl
@[simp] theorem SlotPositions.observe_travelB (c : Option Contacts) (q : SlotPositions) : (q.observe c).travelB = q.travelB := by
  cases c <;> rfl
@[simp] theorem SlotPositions.observe_invalidA (c : Option Contacts) (q : SlotPositions) :
    (q.observe c).invalidA = q.invalidA := by
  cases c <;> rfl
@[simp] theorem SlotPositions.observe_invalidB (c : Option Contacts) (q : SlotPositions) :
    (q.observe c).invalidB = q.invalidB := by
  cases c <;> rfl
@[simp] theorem SlotPositions.observe_openSettle (c : Option Contacts) (q : SlotPositions) :
    (q.observe c).openSettle = q.openSettle := by
  cases c <;> rfl
@[simp] theorem SlotPositions.observe_invalidBreaker (c : Option Contacts) (q : SlotPositions) :
    (q.observe c).invalidBreaker = q.invalidBreaker := by
  cases c <;> rfl

/-! ### Counts and causes of a feeder (R51, R52) and of a junction (R53, R54) -/

theorem SlotPositions.feeder_travelA (bank : Bank) (q : SlotPositions) :
    (q.feeder bank).travelA = if q.isoA = .travel then min (q.travelA + 1) 24000 else 0 :=
  countWhile_decide _ _ _

theorem SlotPositions.feeder_travelB (bank : Bank) (q : SlotPositions) :
    (q.feeder bank).travelB = if q.isoB = .travel then min (q.travelB + 1) 24000 else 0 :=
  countWhile_decide _ _ _

theorem SlotPositions.feeder_invalidA (bank : Bank) (q : SlotPositions) :
    (q.feeder bank).invalidA = if q.isoA = .invalid then min (q.invalidA + 1) 3 else 0 :=
  countWhile_decide _ _ _

theorem SlotPositions.feeder_invalidB (bank : Bank) (q : SlotPositions) :
    (q.feeder bank).invalidB = if q.isoB = .invalid then min (q.invalidB + 1) 3 else 0 :=
  countWhile_decide _ _ _

theorem SlotPositions.feeder_causeTravel {bank : Bank} {q : SlotPositions} :
    (q.feeder bank).causeTravel = true ↔
      bank.travelSets ≤ (q.feeder bank).travelA ∨ bank.travelSets ≤ (q.feeder bank).travelB :=
  Bool.or_eq_true_iff.trans (or_congr decide_eq_true_iff decide_eq_true_iff)

theorem SlotPositions.feeder_causeInvalid {bank : Bank} {q : SlotPositions} :
    (q.feeder bank).causeInvalid = true ↔ (q.feeder bank).invalidA = 3 ∨ (q.feeder bank).invalidB = 3 :=
  Bool.or_eq_true_iff.trans (or_congr decide_eq_true_iff decide_eq_true_iff)

theorem SlotPositions.feeder_causeForced {bank : Bank} {q : SlotPositions} :
    (q.feeder bank).causeForced = true ↔ q.forcedA ≠ .none ∨ q.forcedB ≠ .none :=
  Bool.or_eq_true_iff.trans (or_congr decide_eq_true_iff decide_eq_true_iff)

theorem SlotPositions.junction_openSettle (bank : Bank) (q : SlotPositions) :
    (q.junction bank).openSettle = if q.breaker = .opened then min (q.openSettle + 1) 48 else 0 :=
  countWhile_decide _ _ _

theorem SlotPositions.junction_invalidBreaker (bank : Bank) (q : SlotPositions) :
    (q.junction bank).invalidBreaker = if q.breaker = .invalid then min (q.invalidBreaker + 1) 3 else 0 :=
  countWhile_decide _ _ _

theorem SlotPositions.junction_excluded {bank : Bank} {q : SlotPositions} :
    (q.junction bank).excluded = true ↔ q.breaker = .opened ∧ bank.openSettleSets ≤ (q.junction bank).openSettle :=
  Bool.and_eq_true_iff.trans (and_congr decide_eq_true_iff decide_eq_true_iff)

theorem SlotPositions.junction_causeBreaker {bank : Bank} {q : SlotPositions} :
    (q.junction bank).causeBreaker = true ↔ (q.junction bank).invalidBreaker = 3 :=
  decide_eq_true_iff

/-! ### The replica of a slot for a set -/

/-- A used slot without contact pairs holds its positions. -/
theorem SlotPositions.derive_held (bank : Bank) {k : BayKind} (hk : k ≠ .unused) (q : SlotPositions) :
    let r := q.derive bank k none
    r.received = false ∧ r.isoA = q.isoA ∧ r.isoB = q.isoB ∧ r.breaker = q.breaker := by
  cases k with
  | unused => exact absurd rfl hk
  | feeder side => exact ⟨rfl, rfl, rfl, rfl⟩
  | junction j ct => exact ⟨rfl, rfl, rfl, rfl⟩

/-- A used slot with contact pairs takes their decoded positions. -/
theorem SlotPositions.derive_received (bank : Bank) {k : BayKind} (hk : k ≠ .unused) (c : Contacts) (q : SlotPositions) :
    let r := q.derive bank k (some c)
    r.received = true ∧ r.isoA = c.isoA.decode ∧ r.isoB = c.isoB.decode ∧ r.breaker = c.breaker.decode := by
  cases k with
  | unused => exact absurd rfl hk
  | feeder side => exact ⟨rfl, rfl, rfl, rfl⟩
  | junction j ct => exact ⟨rfl, rfl, rfl, rfl⟩

/-- The replica of a slot after an evaluation. -/
theorem evaluateSet_replica_slot {s : State} {p : Published} (hp : s.published = some p) (b : Slot) :
    (evaluateSet s).replica.slots.get b =
      (s.replica.slots.get b).derive s.active (s.bays.get b).kind (p.contacts.get b) := by
  rw [evaluateSet_replica hp, deriveReplica_slot]

/-! ### ZONE-BLOCK (R150) -/

theorem ruleZoneBlock_refused {s : State} {sel value : Byte} (h : (4 ≤ sel.toNat ∧ sel ≠ 0xFF) ∨ 2 ≤ value.toNat) :
    ruleZoneBlock [sel, value] s = .refuse .outOfRange [] := by
  unfold ruleZoneBlock
  dsimp only
  split
  next x v hx hv =>
    rcases h with h | h
    · rw [readSelector_eq_none.mpr h] at hx; cases hx
    · rw [readFlag_eq_none.mpr h] at hv; cases hv
  next => rfl

/-- The host blocks after a ZONE-BLOCK. -/
def hostBlocksWith (x : Selector) (v : Bool) (s : State) : Table 4 Bool :=
  Table.build (fun k => if x.names k then v else s.supervision.hostBlocks.get k)

theorem ruleZoneBlock_done {s : State} {sel value : Byte} {x : Selector} {v : Bool} (hx : readSelector sel = some x)
    (hv : value.toNat = v.toNat) :
    ruleZoneBlock [sel, value] s =
      .done { s with supervision := { s.supervision with hostBlocks := hostBlocksWith x v s } } [] := by
  unfold ruleZoneBlock
  dsimp only
  rw [hx, readFlag_eq_some.mpr hv]
  rfl

/-- A byte below 2 is that of a flag (R183). -/
theorem flag_of_lt_two {b : Byte} (h : b.toNat < 2) : ∃ f : Bool, b.toNat = f.toNat ∧ f = decide (b = 1) := by
  obtain h0 | h1 : b.toNat = 0 ∨ b.toNat = 1 := by omega
  · exact ⟨false, h0, by rw [byte_of_toNat h0]; rfl⟩
  · exact ⟨true, h1, by rw [byte_of_toNat h1]; rfl⟩

/-! ### FORCE (R49) -/

theorem ruleForce_refused {s : State} {slot isolator value : Byte}
    (h : 26 ≤ slot.toNat ∨ 2 ≤ isolator.toNat ∨ 3 ≤ value.toNat) :
    ruleForce [slot, isolator, value] s = .refuse .outOfRange [] := by
  unfold ruleForce
  dsimp only
  split
  next b i v hb hi hv =>
    rcases h with h | h | h
    · rw [readSlot_eq_none.mpr h] at hb; cases hb
    · rw [readIsolator, readFlag_eq_none.mpr h] at hi; cases hi
    · rw [readForced_eq_none.mpr h] at hv; cases hv
  next => rfl

theorem ruleForce_notFeeder {s : State} {slot isolator value : Byte} {b : Slot} (hb : slot.toNat = b.val)
    (hk : ∀ side, (s.bays.get b).kind ≠ .feeder side) :
    ruleForce [slot, isolator, value] s = .refuse .outOfRange [] := by
  have hf : ¬ (s.bays.get b).kind.isFeeder = true := fun h =>
    have ⟨side, hside⟩ := BayKind.isFeeder_iff.mp h
    hk side hside
  unfold ruleForce
  dsimp only
  split
  next b' i v hb' hi hv =>
    obtain rfl : b = b' := Option.some.inj ((readSlot_eq_some.mpr hb).symm.trans hb')
    exact if_neg hf
  next => rfl

theorem ruleForce_done {s : State} {slot isolator value : Byte} {b : Slot} {i : Bool} {v : Forced} (hb : slot.toNat = b.val)
    (hk : (s.bays.get b).kind.isFeeder = true) (hi : isolator.toNat = i.toNat) (hv : value.toNat = v.code) :
    ruleForce [slot, isolator, value] s =
      .done
        { s with
          replica :=
            { s.replica with slots := s.replica.slots.set b (SlotPositions.store i v (s.replica.slots.get b)) } } [] := by
  unfold ruleForce
  dsimp only
  rw [readSlot_eq_some.mpr hb, readIsolator, readFlag_eq_some.mpr hi, readForced_eq_some.mpr hv]
  exact if_pos hk

/-- The byte of an isolator names A by 0 and B by 1. -/
theorem SlotPositions.store_isolator {isolator : Byte} {i : Bool} (hi : isolator.toNat = i.toNat) (v : Forced) (q : SlotPositions) :
    q.store i v = if isolator = 0 then { q with forcedA := v } else { q with forcedB := v } := by
  obtain rfl := byte_of_toNat hi
  cases i <;> rfl

end Sys2Proof.Machine

open Sys2Proof Sys2Proof.Machine

/-- Settles O19: what the later stages leave of the replica is its work on the set, slot kind by slot kind. -/
theorem evaluationDerivesPositions : Obligations.EvaluationDerivesPositions := by
  refine ⟨ContactPair.decode_eq, fun s p hp => ⟨evaluateSet s, exec_evaluateSet s, ?_, fun b => ?_⟩⟩
  · rw [evaluateSet_replica hp]
    rfl
  rw [evaluateSet_replica_slot hp b]
  refine ⟨fun hk => ?_, fun hk => ?_, fun side hk => ?_, fun j c hk => ?_⟩
  · rw [hk]
    rfl
  · obtain ⟨hforcedA, hforcedB⟩ := SlotPositions.derive_forced s.active (s.bays.get b).kind (p.contacts.get b)
      (s.replica.slots.get b)
    refine ⟨hforcedA, hforcedB, fun hc => ?_, fun c hc => ?_⟩
    · rw [hc]
      exact SlotPositions.derive_held s.active hk _
    · rw [hc]
      exact SlotPositions.derive_received s.active hk c _
  · rw [hk]
    refine ⟨zoningClosed_iff, zoningClosed_iff, (SlotPositions.feeder_travelA _ _).trans ?_,
      (SlotPositions.feeder_travelB _ _).trans ?_, (SlotPositions.feeder_invalidA _ _).trans ?_,
      (SlotPositions.feeder_invalidB _ _).trans ?_, SlotPositions.feeder_causeTravel, SlotPositions.feeder_causeInvalid,
      SlotPositions.feeder_causeForced.trans ?_⟩
    · rw [SlotPositions.observe_travelA]; rfl
    · rw [SlotPositions.observe_travelB]; rfl
    · rw [SlotPositions.observe_invalidA]; rfl
    · rw [SlotPositions.observe_invalidB]; rfl
    · rw [SlotPositions.observe_forcedA, SlotPositions.observe_forcedB]
  · rw [hk]
    refine ⟨(SlotPositions.junction_openSettle _ _).trans ?_, (SlotPositions.junction_invalidBreaker _ _).trans ?_,
      SlotPositions.junction_excluded, SlotPositions.junction_causeBreaker⟩
    · rw [SlotPositions.observe_openSettle]; rfl
    · rw [SlotPositions.observe_invalidBreaker]; rfl

/-- Settles O54: the ranges of the bytes, the kind of the slot, then the block or the forced value written. -/
theorem hostBlocksAndForcedValuesAreWritten : Obligations.HostBlocksAndForcedValuesAreWritten := by
  intro tag s rest hm
  refine ⟨fun sel value hs => ⟨fun h => ?_, fun hsel hvalue => ?_⟩,
    fun slot isolator value hs => ⟨fun h => ?_, fun b hb => ⟨fun hk => ?_, fun side v hk hi hv => ?_⟩⟩⟩
  · exact congrArg _ (serve_own_refuse ⟨0x42, 2, false⟩ hs rfl rfl (.inl hm) (ruleZoneBlock_refused h))
  · obtain ⟨x, hx, -, hnames⟩ := readSelector_some hsel
    obtain ⟨v, hv, hdec⟩ := flag_of_lt_two hvalue
    refine ⟨hostBlocksWith x v s, ?_, fun k => ?_⟩
    · exact congrArg _ (serve_own_write ⟨0x42, 2, false⟩ hs rfl rfl (.inl hm) (ruleZoneBlock_done hx hv) rfl)
    · rw [hostBlocksWith, Table.get_build, ← hdec]
      exact if_congr (hnames k) rfl rfl
  · exact congrArg _ (serve_own_refuse ⟨0x44, 3, false⟩ hs rfl rfl (.inl hm) (ruleForce_refused h))
  · exact congrArg _ (serve_own_refuse ⟨0x44, 3, false⟩ hs rfl rfl (.inl hm)
      (ruleForce_notFeeder (s := s.fronted _ rest) hb hk))
  · obtain ⟨i, hi, -⟩ := flag_of_lt_two hi
    have hcode : value.toNat = v.code := by
      rw [hv]
      cases v <;> rfl
    rw [← SlotPositions.store_isolator hi]
    exact congrArg _ (serve_own_write ⟨0x44, 3, false⟩ hs rfl rfl (.inl hm)
      (ruleForce_done (s := s.fronted _ rest) hb (BayKind.isFeeder_iff.mpr ⟨side, hk⟩) hi hcode) rfl)

end

section
/-! PROOF. STATUS, TOPOLOGY, MEASURE and POSITIONS: what is held, byte for byte. -/

namespace Sys2Proof.Machine

open Sys2Proof

/-! ### Bytes and fields (R183) -/

theorem append_congr {α : Type} {a b c d : List α} (h : a = b) (k : c = d) : a ++ c = b ++ d :=
  congrArg₂ HAppend.hAppend h k

theorem flagByte_eq (b : Bool) : flagByte b = [if b = true then 1 else 0] := by
  cases b <;> rfl

theorem bitsByte_two (a b : Bool) : bitsByte [a, b] = [(if a = true then 1 else 0) + (if b = true then 2 else 0)] := by
  cases a <;> cases b <;> rfl

/-- Bit 2 alone. -/
theorem bitsByte_third (c : Bool) : bitsByte [false, false, c] = [if c = true then 4 else 0] := by
  cases c <;> rfl

theorem bitsByte_four (a b c d : Bool) :
    bitsByte [a, b, c, d] =
      [(if a = true then 1 else 0) + (if b = true then 2 else 0) + (if c = true then 4 else 0) + (if d = true then 8 else 0)] := by
  revert a b c d
  decide

/-- A weighted flag as a byte. -/
theorem ofNat_mul_toNat (n : Nat) (b : Bool) : BitVec.ofNat 8 (n * b.toNat) = if b = true then BitVec.ofNat 8 n else 0 := by
  cases b
  · rfl
  · rw [Bool.toNat_true, Nat.mul_one, if_pos rfl]

theorem stampBytes_eq (o : Option Stamp) :
    stampBytes o = match o with | none => [1, 0, 0, 0, 0] | some x => 0 :: (u16 x.second ++ u16 x.count) := by
  cases o <;> rfl

theorem stampBytes_length (o : Option Stamp) : (stampBytes o).length = 5 := by
  cases o <;> rfl

theorem SectionCount.number_byte (c : SectionCount) : BitVec.ofNat 8 c.number = if c = .two then 2 else 4 := by
  cases c <;> rfl

theorem Mode.code_byte (m : Mode) : u8 m.code = [match m with | .setup => 0 | .run => 1 | .halted => 2] := by
  cases m <;> rfl

theorem haltCodeByte_byte (o : Option IntegrityCheck) :
    u8 (haltCodeByte o) = [match o with | none => 0 | some .storeParity => 1 | some .timerFault => 2] := by
  rcases o with _ | ⟨_ | _⟩ <;> rfl

theorem Position.code_byte (x : Position) :
    BitVec.ofNat 8 x.code = match x with | .closed => 0 | .opened => 1 | .travel => 2 | .invalid => 3 | .noData => 4 := by
  cases x <;> rfl

theorem Forced.code_byte (x : Forced) : BitVec.ofNat 8 x.code = match x with | .none => 0 | .closed => 1 | .opened => 2 := by
  cases x <;> rfl

/-! ### Tables and rows -/

theorem Table.flatMap_three {α β : Type} (t : Table 3 α) (f : α → List β) :
    t.cells.flatMap f = f (t.get 0) ++ f (t.get 1) ++ f (t.get 2) := by
  rw [Table.flatMap_cells, List.append_assoc, ← List.append_nil (f (t.get 2))]
  rfl

theorem Table.flatMap_four {α β : Type} (t : Table 4 α) (f : α → List β) :
    t.cells.flatMap f = f (t.get 0) ++ f (t.get 1) ++ f (t.get 2) ++ f (t.get 3) := by
  rw [Table.flatMap_cells, List.append_assoc, List.append_assoc, ← List.append_nil (f (t.get 3))]
  rfl

/-- The rows of those that have one, laid end to end. -/
theorem flatten_filterMap {α β : Type} (f : α → Option (List β)) :
    ∀ l : List α, (l.filterMap f).flatten = l.flatMap (fun a => (f a).getD [])
  | [] => rfl
  | a :: l => by
    rw [List.filterMap_cons, List.flatMap_cons, ← flatten_filterMap f l]
    cases f a <;> rfl

/-- The rows of a table's entries are as many as the entries. -/
theorem rows_length {n : Nat} {α β : Type} (t : Table n (Option α)) (g : Fin n → α → List β) (l : List (Fin n)) :
    (l.filterMap (fun i => (t.get i).map (g i))).length = (l.filter (fun i => (t.get i).isSome)).length := by
  rw [List.length_filterMap_eq_countP, List.countP_eq_length_filter]
  simp only [Option.isSome_map]

/-- The rows of the things chosen, laid end to end. -/
theorem flatten_map_filter {α β : Type} (p : α → Bool) (f : α → List β) :
    ∀ l : List α, ((l.filter p).map f).flatten = l.flatMap (fun a => if p a = true then f a else [])
  | [] => rfl
  | a :: l => by
    rw [List.filter_cons, List.flatMap_cons, ← flatten_map_filter p f l]
    split <;> rfl

/-- A stretch of blocks of one length within the data is read block by block. -/
theorem take_drop_block {α β : Type} {f : α → List β} {k : Nat} (hf : ∀ a, (f a).length = k) {l : List α} {data : List β} {n : Nat}
    (hd : (data.drop n).take (k * l.length) = l.flatMap f) (i : Nat) (h : i < l.length) :
    (data.drop (n + k * i)).take k = f l[i] := by
  have hblock := flatMap_block hf l i h
  have hroom : k ≤ k * l.length - k * i := by
    rw [← Nat.mul_sub]
    exact Nat.le_mul_of_pos_right k (Nat.sub_pos_of_lt h)
  rwa [← hd, List.drop_take, List.drop_drop, List.take_take, Nat.min_eq_left hroom] at hblock

/-! ### STATUS part 1 (R185) -/

theorem conditionFlags_eq (c : Condition) :
    conditionFlags c =
      [(if c.active = true then 1 else 0) +
        (match c.latched with
          | none => 0
          | some r => 2 + BitVec.ofNat 8 (4 * r.buses.toNat) + (if r.check = true then 64 else 0))] := by
  unfold conditionFlags
  cases c.latched with
  | none => cases c.active <;> rfl
  | some r =>
    have hactive := ofNat_mul_toNat 1 c.active
    rw [Nat.one_mul] at hactive
    simp only [u8, BitVec.ofNat_add, ofNat_mul_toNat, hactive, BitVec.add_assoc]
    rfl

theorem conditionBytes_eq (cs : List Condition) :
    conditionBytes cs = BitVec.ofNat 8 cs.length :: cs.flatMap conditionFields := rfl

theorem ruleStatus_refused {part : Byte} (h : 2 ≤ part.toNat) (s : State) : ruleStatus [part] s = .refuse .outOfRange [] := by
  unfold ruleStatus
  dsimp only
  rw [if_neg (by omega), if_neg (by omega)]

/-! ### STATUS part 0 (R184) -/

/-- The 3 bytes of a breaker failure timer. -/
def timerFields (t : BfTimer) : List Byte :=
  u8 t.state.code ++ u16 t.countdown

theorem timerFields_eq (t : BfTimer) :
    timerFields t = [(match t.state with | .idle => 0 | .timing => 1 | .expired => 2 : Byte)] ++ u16 t.countdown := by
  rw [timerFields]
  cases t.state <;> rfl

/-- The fields of STATUS part 0, those of one kind together. -/
def statusFields (s : State) : List (List Byte) :=
  [u8 s.mode.code ++ u8 (haltCodeByte s.supervision.haltCode) ++ bitsByte [s.supervision.storeParity, s.supervision.timerFault]
      ++ flagByte (!s.timer.running),
    stampBytes s.store.lastClosed,
    bitsByte [decide (s.ports.x.link = .up), decide (s.ports.y.link = .up)],
    bitmapBytes (lostSlots s),
    allBuses.flatMap (busStatus s),
    flagByte s.supervision.checkBlocked ++ s.supervision.checkCt.cells.flatMap u16,
    bitmapBytes s.trip.bitmap,
    s.bf.cells.flatMap timerFields,
    u8 s.records.stack.length ++ u8 s.records.overwrites ++ flagByte s.link.alarm.enabled ++ u16 s.link.alarm.interval
      ++ flagByte s.link.topology.enabled ++ u16 s.link.topology.interval]

/-- How long they are. -/
def statusLengths : List Nat := [4, 5, 1, 4, 44, 7, 4, 78, 8]

theorem statusGeneral_eq (s : State) : statusGeneral s = (statusFields s).flatten := by
  simp only [statusGeneral, statusFields, List.flatten_cons, List.flatten_nil, List.append_nil, List.append_assoc]
  rfl

theorem busStatus_eq (s : State) (k : Bus) :
    busStatus s k =
      [(if s.supervision.hostBlocks.get k = true then 1 else 0) + (if s.supervision.blockFlags.get k = true then 2 else 0)
        + (if s.trip.tripLatch.get k = true then 4 else 0) + (if s.trip.backtripLatch.get k = true then 8 else 0)]
      ++ u32 (s.trip.captured.get k).toNat ++ u16 ((s.supervision.ctCounts.get k).get 0)
      ++ u16 ((s.supervision.ctCounts.get k).get 1) ++ u16 ((s.supervision.ctCounts.get k).get 2) := by
  rw [busStatus, bitsByte_four, Table.flatMap_three]
  rfl

theorem busStatus_length (s : State) (k : Bus) : (busStatus s k).length = 11 := by
  rw [busStatus_eq]
  rfl

theorem statusFields_length (s : State) : (statusFields s).map List.length = statusLengths := by
  have hbuses : (allBuses.flatMap (busStatus s)).length = 44 := by
    rw [List.length_flatMap, List.map_congr_left (fun k _ => busStatus_length s k)]
    rfl
  have htimers : (s.bf.cells.flatMap timerFields).length = 78 := by
    rw [Table.flatMap_cells]
    rfl
  simp only [statusFields, List.map_cons, List.map_nil, stampBytes_length, hbuses, htimers, Table.flatMap_three]
  rfl

theorem statusGeneral_length (s : State) : (statusGeneral s).length = 155 := by
  rw [statusGeneral_eq, List.length_flatten, statusFields_length]
  rfl

/-- Each field stands after those before it. -/
theorem statusGeneral_field (s : State) (i : Nat) (h : i < (statusFields s).length) :
    ((statusGeneral s).drop (statusLengths.take i).sum).take (statusLengths.getD i 0) = (statusFields s)[i] := by
  have hlen : statusLengths.getD i 0 = (statusFields s)[i].length := by
    rw [← statusFields_length s, List.getD_eq_getElem _ _ (by rwa [List.length_map]), List.getElem_map]
  rw [statusGeneral_eq, hlen, ← statusFields_length s, List.drop_sum_flatten, List.drop_eq_getElem_cons h, List.flatten_cons,
    List.take_left]

theorem statusGeneral_bus (s : State) (k : Bus) : ((statusGeneral s).drop (14 + 11 * k.val)).take 11 = busStatus s k := by
  have hfield : ((statusGeneral s).drop 14).take (11 * allBuses.length) = allBuses.flatMap (busStatus s) :=
    statusGeneral_field s 4 (by decide : 4 < 9)
  have hbus : allBuses[k.val]'(by rw [allBuses, List.length_finRange]; exact k.isLt) = k := List.getElem_finRange _
  rw [take_drop_block (busStatus_length s) hfield k.val (by rw [allBuses, List.length_finRange]; exact k.isLt), hbus]

theorem statusGeneral_timer (s : State) (b : Slot) :
    ((statusGeneral s).drop (69 + 3 * b.val)).take 3 = timerFields (s.bf.get b) := by
  have hfield : ((statusGeneral s).drop 69).take (3 * s.bf.cells.length) = s.bf.cells.flatMap timerFields := by
    rw [s.bf.size]
    exact statusGeneral_field s 7 (by decide : 7 < 9)
  exact take_drop_block (f := timerFields) (fun _ => rfl) hfield b.val (s.bf.size.symm ▸ b.isLt)

theorem lostSlots_getLsbD (s : State) (b : Slot) :
    (lostSlots s).getLsbD b.val = true ↔ (s.bays.get b).kind ≠ .unused ∧ (s.store.slots.get b).lost = true := by
  rw [lostSlots, BitVec.getLsbD_ofFnLE, dif_pos b.isLt, Bool.and_eq_true, BayKind.used_iff]

/-! ### TOPOLOGY (R75, R184) -/

theorem memberByte_eq (m : Member) : memberByte m = [BitVec.ofNat 8 m.slot.val + (if m.minus = true then 128 else 0)] := by
  rw [memberByte, u8, BitVec.ofNat_add, ofNat_mul_toNat]
  rfl

theorem membersBytes_eq (ms : List Member) :
    membersBytes ms =
      BitVec.ofNat 8 ms.length :: ms.map (fun m => BitVec.ofNat 8 m.slot.val + (if m.minus = true then 128 else 0)) := by
  rw [membersBytes, funext memberByte_eq, ← List.map_eq_flatMap]
  rfl

theorem zoneFields_eq (z : Zone) :
    zoneFields z =
      [BitVec.ofNat 8 z.name.val, BitVec.ofNat 8 z.buses.toNat, if z.changed = true then 1 else 0, BitVec.ofNat 8 z.members.length]
      ++ z.members.map (fun m => BitVec.ofNat 8 m.slot.val + (if m.minus = true then 128 else 0)) := by
  rw [zoneFields, flagByte_eq, membersBytes_eq]
  rfl

/-- The role rows of TOPOLOGY. -/
def roleRows (t : Topology) : List (List Byte) :=
  allSlots.filterMap (fun b => (t.roles.get b).map (fun r => u8 b.val ++ u8 r.code))

theorem roleRows_length (t : Topology) :
    (roleRows t).length = ((List.finRange 26).filter (fun b => (t.roles.get b).isSome)).length :=
  rows_length _ _ _

theorem topologyBytes_some (held : SectionCount) (t : Topology) :
    topologyBytes held (some t) =
      stampBytes (some t.stamp) ++ [if t.sections = .two then 2 else 4, BitVec.ofNat 8 t.zones.length]
        ++ t.zones.flatMap zoneFields ++ [if t.checkChanged = true then 1 else 0, BitVec.ofNat 8 t.checkMembers.length]
        ++ t.checkMembers.map (fun m => BitVec.ofNat 8 m.slot.val + (if m.minus = true then 128 else 0))
        ++ (u32 (t.scopes.get 0).toNat ++ u32 (t.scopes.get 1).toNat ++ u32 (t.scopes.get 2).toNat ++ u32 (t.scopes.get 3).toNat)
        ++ u8 (roleRows t).length ++ (roleRows t).flatten := by
  rw [topologyBytes, topologyHead, flagByte_eq, membersBytes_eq, u8, t.sections.number_byte]
  simp only [Table.flatMap_four, bitmapBytes, roleFields, roleRows, u8, List.append_assoc, List.cons_append, List.nil_append]

theorem topologyBytes_none (held : SectionCount) :
    topologyBytes held none = [1, 0, 0, 0, 0, if held = .two then 2 else 4, 0, 0, 0] ++ List.replicate 16 0 ++ [0] := by
  cases held <;> rfl

/-! ### MEASURE (R103, R184) -/

theorem phaseFields_eq (q : PhaseResult) (counter : Nat) :
    phaseFields q counter =
      u32 q.diff ++ u32 q.restraint ++
        [(if q.held = true then 1 else 0) + (if q.highSlope = true then 2 else 0) + (if q.operates = true then 4 else 0)
          + (if q.suspect = true then 8 else 0),
          match q.detector with | .quiet => 0 | .watch => 1 | .external => 2 | .settle => 3, BitVec.ofNat 8 counter] := by
  rw [phaseFields, bitsByte_four]
  cases q.detector <;> rfl

theorem phaseBlocks_eq (rs : Table 3 PhaseResult) (counters : Table 3 Nat) :
    phaseBlocks rs counters =
      phaseFields (rs.get 0) (counters.get 0) ++ phaseFields (rs.get 1) (counters.get 1) ++ phaseFields (rs.get 2) (counters.get 2) := by
  rw [List.append_assoc, ← List.append_nil (phaseFields (rs.get 2) (counters.get 2))]
  rfl

/-- The bay rows of MEASURE. -/
def bayRows (r : Results) : List (List Byte) :=
  allSlots.filterMap (fun b => (r.bays.get b).map (bayFields b))

theorem bayRows_length (r : Results) :
    (bayRows r).length = ((List.finRange 26).filter (fun b => (r.bays.get b).isSome)).length :=
  rows_length _ _ _

theorem bayFields_eq (b : Slot) (y : BayResult) :
    bayFields b y =
      [BitVec.ofNat 8 b.val] ++ u32 (BitVec.ofInt 32 (y.currents.get 0)).toNat
      ++ u32 (BitVec.ofInt 32 (y.currents.get 1)).toNat ++ u32 (BitVec.ofInt 32 (y.currents.get 2)).toNat
      ++ [(match y.mark with | .present => 0 | .substituted => 1 | .zero => 2 : Byte)] ++ u32 y.current
      ++ [if y.present = true then 1 else 0] := by
  rw [bayFields, flagByte_eq, Table.flatMap_three]
  cases y.mark <;> rfl

theorem measureBytes_some {e : Evaluator} {r : Results} (h : e.results = some r) :
    measureBytes e =
      stampBytes (some r.stamp) ++ u8 r.zones.length
        ++ r.zones.flatMap (fun z => u8 z.name.val ++ busSetByte z.buses ++ phaseBlocks z.phases (e.operate.get z.name))
        ++ phaseBlocks r.check e.checkOperate ++ u8 (bayRows r).length ++ (bayRows r).flatten := by
  rw [measureBytes, h]
  rfl

/-! ### POSITIONS (R58, R184) -/

/-- The slot rows of POSITIONS. -/
def positionRows (s : State) : List (List Byte) :=
  (allSlots.filter (fun b => (s.bays.get b).kind.used)).map
    (fun b => positionFields b (s.bays.get b).kind (s.replica.slots.get b))

theorem positionRows_length (s : State) :
    (positionRows s).length = ((List.finRange 26).filter (fun b => (s.bays.get b).kind ≠ .unused)).length := by
  rw [positionRows, List.length_map]
  refine congrArg (fun p => (List.filter p allSlots).length) (funext fun b => ?_)
  rw [Bool.eq_iff_iff, BayKind.used_iff, decide_eq_true_iff]

theorem positionRows_flatten (s : State) :
    (positionRows s).flatten = (List.finRange 26).flatMap (fun b =>
      if (s.bays.get b).kind.used = true then positionFields b (s.bays.get b).kind (s.replica.slots.get b) else []) :=
  flatten_map_filter _ _ _

end Sys2Proof.Machine

open Sys2Proof Sys2Proof.Machine

/-- Settles O43, request by request: each reply is laid out as R184 says, and its rule leaves the state alone. -/
theorem stateReadsReturnWhatIsHeld : Obligations.StateReadsReturnWhatIsHeld := by
  intro tag s rest
  refine ⟨fun part hs => ⟨fun h => ?_, fun h => ?_, fun h => ?_⟩, fun hm => ⟨fun hs => ?_, fun hs => ?_, fun hs => ?_⟩⟩
  · exact congrArg _ (serve_own_refuse ⟨0x30, 1, true⟩ hs rfl rfl (.inr rfl) (ruleStatus_refused h _))
  · subst h
    refine read_replies (serve_own_read ⟨0x30, 1, true⟩ hs rfl rfl (.inr rfl) rfl) ((conditionBytes_eq _).trans ?_)
    refine congrArg (List.cons _ <| s.supervision.conditions.flatMap ·) (funext fun e => ?_)
    rw [conditionFields, conditionFlags_eq]
    rfl
  · subst h
    refine ⟨statusGeneral s, congrArg _ (serve_own_read ⟨0x30, 1, true⟩ hs rfl rfl (.inr rfl) rfl), statusGeneral_length s,
      (statusGeneral_field s 0 (by decide : 0 < 9)).trans ?_,
      (statusGeneral_field s 1 (by decide : 1 < 9)).trans (stampBytes_eq _),
      (statusGeneral_field s 2 (by decide : 2 < 9)).trans ?_,
      ⟨lostSlots s, statusGeneral_field s 3 (by decide : 3 < 9), lostSlots_getLsbD s⟩,
      fun k => (statusGeneral_bus s k).trans (busStatus_eq s k),
      (statusGeneral_field s 5 (by decide : 5 < 9)).trans ?_, statusGeneral_field s 6 (by decide : 6 < 9),
      fun b => (statusGeneral_timer s b).trans (timerFields_eq _), ?_⟩
    · refine (append_congr (append_congr (append_congr (Mode.code_byte s.mode) (haltCodeByte_byte s.supervision.haltCode))
        (bitsByte_two _ _)) (flagByte_eq _)).trans ?_
      cases s.timer.running <;> rfl
    · refine (bitsByte_two _ _).trans ?_
      simp only [decide_eq_true_iff]
    · refine (append_congr (flagByte_eq _) (Table.flatMap_three _ _)).trans ?_
      rw [← List.append_assoc, ← List.append_assoc]
    · refine (List.take_of_length_le (i := 8) ?_).symm.trans ((statusGeneral_field s 8 (by decide : 8 < 9)).trans ?_)
      · rw [List.length_drop, statusGeneral_length]
      show u8 _ ++ u8 _ ++ flagByte _ ++ u16 _ ++ flagByte _ ++ u16 _ = _
      rw [flagByte_eq, flagByte_eq]
      rfl
  · refine read_replies (data := topologyBytes s.yard.sections s.topology)
      (serve_own_read ⟨0x31, 0, false⟩ hs rfl rfl (.inl hm) rfl) ?_
    cases s.topology with
    | none => exact topologyBytes_none _
    | some tp =>
      rw [topologyBytes_some, roleRows_length, funext zoneFields_eq]
      refine append_congr rfl ((flatten_filterMap _ _).trans (congrArg ((List.finRange 26).flatMap ·) (funext fun b => ?_)))
      cases tp.roles.get b with
      | none => rfl
      | some r => cases r <;> rfl
  · intro block
    have hblocks (rs : Table 3 PhaseResult) (counters : Table 3 Nat) : phaseBlocks rs counters =
        block (rs.get 0) (counters.get 0) ++ block (rs.get 1) (counters.get 1) ++ block (rs.get 2) (counters.get 2) :=
      (phaseBlocks_eq _ _).trans (append_congr (append_congr (phaseFields_eq _ _) (phaseFields_eq _ _)) (phaseFields_eq _ _))
    clear_value block
    refine read_replies (data := measureBytes s.evaluator) (serve_own_read ⟨0x32, 0, false⟩ hs rfl rfl (.inl hm) rfl) ?_
    cases hr : s.evaluator.results with
    | none =>
      rw [measureBytes, hr]
      rfl
    | some r =>
      rw [measureBytes_some hr, bayRows_length, hblocks r.check, ← List.append_assoc, ← List.append_assoc]
      refine append_congr (append_congr (append_congr (append_congr (append_congr (append_congr rfl ?_) rfl) rfl) rfl) rfl)
        ((flatten_filterMap _ _).trans (congrArg ((List.finRange 26).flatMap ·) (funext fun b => ?_)))
      · refine congrArg (r.zones.flatMap ·) (funext fun z => ?_)
        rw [hblocks, ← List.append_assoc, ← List.append_assoc]
        rfl
      · cases r.bays.get b with
        | none => rfl
        | some y => exact bayFields_eq b y
  · intro position forced
    have hposition (x : Position) : BitVec.ofNat 8 x.code = position x := Position.code_byte x
    have hforced (x : Forced) : BitVec.ofNat 8 x.code = forced x := Forced.code_byte x
    clear_value position forced
    refine read_replies (data := positionsBytes s) (serve_own_read ⟨0x33, 0, false⟩ hs rfl rfl (.inl hm) rfl) ?_
    refine append_congr (append_congr (stampBytes_eq _) (congrArg u8 (positionRows_length s)))
      ((positionRows_flatten s).trans (congrArg ((List.finRange 26).flatMap ·) (funext fun b => ?_)))
    cases (s.bays.get b).kind with
    | unused => rfl
    | feeder side =>
      refine (if_pos rfl).trans ?_
      simp only [positionFields, u8, flagByte_eq, bitsByte_two, BitVec.ofNat_add, BitVec.ofNat_mul, hposition, hforced]
      rfl
    | junction j c =>
      refine (if_pos rfl).trans ?_
      simp only [positionFields, u8, flagByte_eq, bitsByte_third, hposition]
      rfl

end

section
/-! PROOF. The trip scopes and the connected sections of a set. -/

namespace Sys2Proof.Machine

open Sys2Proof

/-- A slot stands in a section's trip scope, by its bit (R71). -/
theorem ZoneInput.scope_getLsbD (z : ZoneInput) (k : Bus) (b : Slot) : (z.scope k).getLsbD b.val = z.inScope k b := by
  rw [ZoneInput.scope, BitVec.getLsbD_ofFnLE, dif_pos b.isLt]

/-- The connected sections of a slot are those whose scope names it, kind by kind (R72). -/
theorem ZoneInput.connectedTo_getLsbD (z : ZoneInput) (k : Bus) (b : Slot) :
    (z.connectedTo b).getLsbD k.val = z.inScope k b := by
  unfold ZoneInput.connectedTo ZoneInput.inScope
  cases (z.bays.get b).kind with
  | unused => exact BitVec.getLsbD_zero.trans (Bool.and_false _).symm
  | feeder side => exact (BitVec.getLsbD_ofFnLE _ _).trans (dif_pos k.isLt)
  | junction j c => exact (BitVec.getLsbD_ofFnLE _ _).trans (dif_pos k.isLt)

theorem ZoneInput.inScope_unused {z : ZoneInput} {k : Bus} {b : Slot} (h : (z.bays.get b).kind = .unused) :
    z.inScope k b = false := by
  rw [ZoneInput.inScope, h, Bool.and_false]

/-- A feeder's breaker stands in the scope of the section that an isolator counted as closed leads to. -/
theorem ZoneInput.inScope_feeder {z : ZoneInput} {k : Bus} {b : Slot} {side : Side} (h : (z.bays.get b).kind = .feeder side) :
    z.inScope k b = true ↔
      z.sections.inUse k = true ∧
        ((k = side.busA ∧ (z.positions.get b).closedA = true) ∨ (k = side.busB ∧ (z.positions.get b).closedB = true)) := by
  simp only [ZoneInput.inScope, h, Bool.and_eq_true, Bool.or_eq_true, decide_eq_true_iff]

/-- A junction's breaker stands in the scopes of both sections that it touches, whatever its position. -/
theorem ZoneInput.inScope_junction {z : ZoneInput} {k : Bus} {b : Slot} {j : Junction} {c : Bool}
    (h : (z.bays.get b).kind = .junction j c) :
    z.inScope k b = true ↔ z.sections.inUse k = true ∧ (k = j.first ∨ k = j.second) := by
  simp only [ZoneInput.inScope, h, Bool.and_eq_true, Bool.or_eq_true, decide_eq_true_iff]

theorem setTopology_scope (p : Published) (s : State) (k : Bus) (b : Slot) :
    ((setTopology p s).scopes.get k).getLsbD b.val = (setInput p s).inScope k b := by
  show ((Table.build (setInput p s).scope).get k).getLsbD b.val = _
  rw [Table.get_build, ZoneInput.scope_getLsbD]

theorem setTopology_connected (p : Published) (s : State) (k : Bus) (b : Slot) :
    ((setTopology p s).connected.get b).getLsbD k.val = (setInput p s).inScope k b := by
  show ((Table.build (setInput p s).connectedTo).get b).getLsbD k.val = _
  rw [Table.get_build, ZoneInput.connectedTo_getLsbD]

end Sys2Proof.Machine

open Sys2Proof Sys2Proof.Machine

/-- Settles O22, slot kind by slot kind: scope and connected sections hold one and the same test. -/
theorem connectedSectionsAreThoseWhoseScopeNamesTheBay : Obligations.ConnectedSectionsAreThoseWhoseScopeNamesTheBay := by
  intro s p hp
  have hin (k : Bus) : (setInput p s).sections.inUse k = true ↔ s.InUse k := inUse_iff
  rw [exec_evaluateSet]
  refine ⟨_, setTopology p s, rfl, evaluateSet_topology hp,
    fun k b => (setTopology_connected p s k b).trans (setTopology_scope p s k b).symm, fun k b => ?_⟩
  rw [setTopology_scope, evaluateSet_positions hp, ← hin k]
  cases hb : (s.bays.get b).kind with
  | unused => simp [ZoneInput.inScope_unused (z := setInput p s) hb]
  | feeder side =>
    rw [ZoneInput.inScope_feeder (z := setInput p s) hb]
    cases side <;> simp [Side.busA, Side.busB]
  | junction j c => simp [ZoneInput.inScope_junction (z := setInput p s) hb]

end

section
/-! PROOF. The operate counters of a set and the results of the set in force. -/

namespace Sys2Proof.Machine

open Sys2Proof

/-! ### Sums of the statements (R82, R98) -/

theorem sumD_newest (s : State) (ms : List Member) (p : Phase) : sumD s.store.slots ms p 0 = newestD s ms p := by
  simp only [sumD, newestD, signedCurrent_eq]

theorem sumR_newest (s : State) (ms : List Member) (p : Phase) : sumR s.store.slots ms p 0 = newestR s ms p := by
  simp only [sumR, newestR, natAbs_signedCurrent]

theorem phaseCurrent_eq (s : State) (b : Slot) (p : Phase) : phaseCurrent s.store.slots b p = windowedPhase s b p := by
  unfold phaseCurrent windowedPhase windowDepths
  rw [List.map_map, Fin.sum_univ_def]
  rfl

theorem bayCurrent_eq (s : State) (b : Slot) : bayCurrent s.store.slots b = windowedBay s b := by
  simp only [bayCurrent, windowedBay, phaseCurrent_eq]

theorem windowedBay_congr {s t : State} (h : t.store = s.store) (b : Slot) : windowedBay t b = windowedBay s b := by
  simp only [windowedBay, windowedPhase, h]

/-! ### Comparison and counter (R88, R90, R95) -/

/-- A detector in EXTERNAL selects the high slope. -/
theorem Comparison.holds_iff {c : Comparison} {s : State} {ms : List Member} {p : Phase} {state : DetectorState} :
    c.holds s.store.slots ms p state = true ↔
      12 * c.idmin ≤ windowedD s ms p ∧
        (if state = .external then c.slopeHigh else c.slope) * windowedR s ms p ≤ 64 * windowedD s ms p := by
  rw [Comparison.holds, operateHolds, windowD_eq, windowR_eq, Bool.and_eq_true, decide_eq_true_iff, decide_eq_true_iff]
  rfl

theorem countOperate_holds (c : Comparison) (s : State) (ms : List Member) (p : Phase) (state : DetectorState) (n x : Nat) :
    countOperate (c.holds s.store.slots ms p state) n x =
      if 12 * c.idmin ≤ windowedD s ms p ∧
          (if state = .external then c.slopeHigh else c.slope) * windowedR s ms p ≤ 64 * windowedD s ms p
      then min (x + 1) n else 0 :=
  if_congr Comparison.holds_iff rfl rfl

/-- The results of one phase are the sums, the comparison and the counter of its member list (R102). -/
theorem Comparison.result_shows (c : Comparison) (s : State) (ms : List Member) (p : Phase) (state : DetectorState)
    (counter : Nat) :
    (c.result s.active.supIdmin s.store.slots ms p state counter).Shows s ms p state c.idmin
      (if state = .external then c.slopeHigh else c.slope) c.sets counter := by
  refine ⟨sumD_newest s ms p, sumR_newest s ms p, windowD_eq s ms p, windowR_eq s ms p, Comparison.holds_iff,
    decide_eq_true_iff, rfl, rfl, decide_eq_true_iff, ?_⟩
  show (decide (12 * s.active.supIdmin ≤ windowD s.store.slots ms p) && decide (counter < c.sets)) = true ↔ _
  rw [windowD_eq, Bool.and_eq_true, decide_eq_true_iff, decide_eq_true_iff]

/-! ### The counters of a section and of the check zone (R70, R90, R95) -/

/-- The counter of a section is that of the section naming its zone, set to 0 where the zone is changed, then counted. -/
theorem update_restart_operate {t : Topology} {e : Evaluator} {k : Bus} {z : Zone} (hk : t.zoneOf k = some z)
    (hn : t.zoneOf z.name = some z) (bank : Bank) (slots : Table 26 BayStore) (d : Detectors) (ph : Phase) :
    (((e.restart t).update bank slots t d).operate.get k).get ph =
      countOperate (bank.zoneComparison.holds slots z.members ph ((d.zones.get z.name).get ph).state) bank.zoneOperateSets
        (if z.changed = true then 0 else (e.operate.get z.name).get ph) := by
  have hbefore : ((e.restart t).operate.get z.name).get ph = if z.changed = true then 0 else (e.operate.get z.name).get ph := by
    split
    next hc => exact restart_operate_changed hn hc ph
    next hc =>
      refine congrArg (fun n : Table 3 Nat => n.get ph) (restart_operate fun y hy => ?_)
      cases hn.symm.trans hy
      exact Bool.eq_false_iff.mpr hc
  simp only [Evaluator.update, Table.get_build, hk, hbefore]

/-- A section that no zone holds keeps its counters (R93). -/
theorem update_restart_operate_unheld {t : Topology} {e : Evaluator} {k : Bus} (h : t.zoneOf k = none) (bank : Bank)
    (slots : Table 26 BayStore) (d : Detectors) :
    ((e.restart t).update bank slots t d).operate.get k = e.operate.get k := by
  have hbefore : (e.restart t).operate.get k = e.operate.get k :=
    restart_operate fun z hz => by rw [h] at hz; cases hz
  simp only [Evaluator.update, Table.get_build, h, hbefore]

theorem update_restart_checkOperate (bank : Bank) (slots : Table 26 BayStore) (t : Topology) (d : Detectors) (e : Evaluator)
    (ph : Phase) :
    ((e.restart t).update bank slots t d).checkOperate.get ph =
      countOperate (bank.checkComparison.holds slots t.checkMembers ph (d.check.get ph).state) bank.checkOperateSets
        (if t.checkChanged = true then 0 else e.checkOperate.get ph) := by
  simp only [Evaluator.update, Table.get_build, restart_checkOperate]
  split <;> simp

/-- No zone of a set in evaluation holds a section out of use. -/
theorem setTopology_zoneOf_none {p : Published} {s : State} {k : Bus} (h : ¬ s.InUse k) : (setTopology p s).zoneOf k = none := by
  cases hf : (setTopology p s).zoneOf k with
  | none => rfl
  | some z =>
    obtain ⟨hz, hk⟩ := zoneOf_holds hf
    exact absurd (inUse_iff.mp (ZoneInput.zone_of_holds hz hk).1) h

/-! ### The results of a bay slot (R98, R99) -/

theorem bayResult_unused {s : State} {b : Slot} (h : (s.bays.get b).kind = .unused) : bayResult s b = none := by
  rw [bayResult, h]
  rfl

theorem bayResult_used {s : State} {b : Slot} (h : (s.bays.get b).kind ≠ .unused) :
    bayResult s b = some
      { currents := ((s.store.slots.get b).ring.get 0).currents
        mark := ((s.store.slots.get b).ring.get 0).mark
        current := windowedBay s b
        present :=
          currentPresent (s.bays.get b).kind (s.store.slots.get b).lost (s.replica.slots.get b).breaker (windowedBay s b)
            (s.active.bfCurrent.get b) } := by
  rw [bayResult, if_pos (BayKind.used_iff.mpr h), bayCurrent_eq]
  rfl

/-- The judgement of a bay's current: by b_cur, or for a LOST bay by its kind and its breaker (R99). -/
theorem currentPresent_iff {s t : State} {b : Slot} :
    currentPresent (s.bays.get b).kind (s.store.slots.get b).lost (t.replica.slots.get b).breaker (windowedBay s b)
        (s.active.bfCurrent.get b) = true ↔ s.CurrentPresent t b := by
  unfold currentPresent State.CurrentPresent
  cases (s.store.slots.get b).lost with
  | false => simp
  | true => cases (s.bays.get b).kind <;> simp

/-! ### The evaluator of a set evaluated whole -/

/-- The results read nothing but the topology, ACTIVE, the bay table, the rings, the positions, the detectors and the counters. -/
theorem resultsOf_congr {t : Topology} {s u : State} (ha : s.active = u.active) (hb : s.bays = u.bays) (hs : s.store = u.store)
    (hr : s.replica = u.replica) (hd : s.detectors = u.detectors) (ho : s.evaluator.operate = u.evaluator.operate)
    (hc : s.evaluator.checkOperate = u.evaluator.checkOperate) : resultsOf t s = resultsOf t u := by
  have hbay : bayResult s = bayResult u := by
    funext b
    simp only [bayResult, ha, hb, hs, hr]
  simp only [resultsOf, ha, hs, hd, ho, hc, hbay]

theorem evaluateFrom_store (p : Published) (t : Topology) (s : State) : (evaluateFrom p t s).store = s.store := by
  have h := (measureSet_stageFrame t s).store
  unfold evaluateFrom
  cases hm : measureSet t s with
  | abandoned s1 => rw [hm] at h; exact (reportCheck_store _ _).trans h
  | whole s1 r => rw [hm] at h; simpa [finishSet, Measured.state] using h

/-- Neither the evaluation nor the entry to HALTED writes the alignment store. -/
theorem evaluateSet_store (s : State) : (evaluateSet s).store = s.store := by
  unfold evaluateSet
  split
  next => rfl
  next p _ => exact (evaluateFrom_store _ _ _).trans (assembledSet_frame p s).store

/-- The counters are restarted by the change marks and counted on the detectors' new states, and the results held are those of the
evaluated state (R70, R90, R102). -/
theorem evaluateSet_evaluator {p : Published} {s : State} (hp : s.published = some p) (hw : s.SoundWindow) :
    (evaluateSet s).evaluator =
      { (s.evaluator.restart (setTopology p s)).update s.active s.store.slots (setTopology p s) (evaluateSet s).detectors with
        results := some (resultsOf (setTopology p s) (evaluateSet s)) } := by
  have hf := assembledSet_frame p s
  have hsound : (assembledSet p s).SoundWindow := by
    unfold State.SoundWindow
    rwa [hf.store, hf.bays]
  have hnewest : newestMismatch (assembledSet p s).store.slots (setTopology p s) = false := by
    rw [← Bool.not_eq_true, hf.store]
    exact fun hn => newestMismatch_unsound (s := deriveReplica p s) hn hw
  have he := (evaluateSet_supervision hp).evaluator.trans (measurePart_measured true (setTopology p s) (assembledSet p s)).1
  rw [measureSet_whole hnewest hsound] at he
  dsimp only [Measured.state] at he
  have hd : (assembledSet p s).detectors.act (assembledSet p s).active (assembledSet p s).store.slots (setTopology p s) =
      (evaluateSet s).detectors := by
    rw [evaluateSet_detectors hp hw, assembledSet_detectors, hf.active, hf.store]
  have hset := evaluateSet_settings s
  refine he.trans ?_
  rw [← assembledSet_evaluator p s, ← hd, ← hf.active, ← hf.store]
  refine congrArg (fun r : Results => Evaluator.mk _ _ (some r)) (resultsOf_congr ?_ ?_ ?_ ?_ hd ?_ ?_)
  · exact hf.active.trans hset.active.symm
  · exact hf.bays.trans hset.bays.symm
  · exact hf.store.trans (evaluateSet_store s).symm
  · exact (evaluateSet_assembly hp).replica.symm
  · rw [he]
  · rw [he]

end Sys2Proof.Machine

open Sys2Proof Sys2Proof.Machine

/-- Settles O25, from the counters that the change marks restart and the results that the evaluator holds of the evaluated state. -/
theorem evaluationCountsOperation : Obligations.EvaluationCountsOperation := by
  intro s p hp hw
  have he := evaluateSet_evaluator hp hw
  have hzone {z : Zone} (hz : z ∈ (setTopology p s).zones) {k : Bus} (hk : z.Holds k) := setTopology_zoneOf hz hk
  have hset := evaluateSet_settings s
  have hactive := hset.active
  have hstore := evaluateSet_store s
  rw [exec_evaluateSet]
  refine ⟨_, setTopology p s, resultsOf (setTopology p s) (evaluateSet s), rfl, evaluateSet_topology hp,
    congrArg Evaluator.results he, rfl, fun z hz ph k hk => ?_, fun k hk => ?_, List.map_map, fun z hz => ?_,
    fun ph => ⟨?_, ?_⟩, fun b => ⟨fun hb => ?_, fun hb => ?_⟩⟩
  · rw [he]
    exact (update_restart_operate (hzone hz hk) (hzone hz (ZoneInput.zone_name hz).1) _ _ _ ph).trans
      (countOperate_holds _ _ _ _ _ _ _)
  · rw [he]
    exact update_restart_operate_unheld (setTopology_zoneOf_none hk) _ _ _
  · refine ⟨_, List.mem_map.mpr ⟨z, hz, rfl⟩, rfl, rfl, fun ph => ?_⟩
    rw [Table.get_build, hactive, hstore]
    exact Comparison.result_shows _ _ _ _ _ _
  · rw [he]
    exact (update_restart_checkOperate _ _ _ _ _ ph).trans (countOperate_holds _ _ _ _ _ _ _)
  · rw [resultsOf, Table.get_build, hactive, hstore]
    exact Comparison.result_shows _ _ _ _ _ _
  · rw [resultsOf, Table.get_build]
    exact bayResult_unused (hset.bays.symm ▸ hb)
  · rw [resultsOf, Table.get_build, bayResult_used (hset.bays.symm ▸ hb)]
    rw [hset.bays, hactive, hstore, windowedBay_congr hstore]
    exact ⟨_, rfl, rfl, rfl, rfl, currentPresent_iff⟩

end

section
/-! PROOF. D and R within their bounds, and the operate comparison under a higher slope. -/

namespace Sys2Proof.Machine

open Sys2Proof

/-! ### D and R (R83, R85) -/

theorem natAbs_sum_le : ∀ cs : List Int, cs.sum.natAbs ≤ (cs.map Int.natAbs).sum
  | [] => Nat.le_refl 0
  | c :: cs => by
    rw [List.sum_cons, List.map_cons, List.sum_cons]
    exact (Int.natAbs_add_le c cs.sum).trans (Nat.add_le_add_left (natAbs_sum_le cs) _)

@[simp] theorem Member.natAbs_signed (m : Member) (c : Int) : (m.signed c).natAbs = c.natAbs := by
  unfold Member.signed
  split
  next => exact Int.natAbs_neg c
  next => rfl

/-- The magnitude of d is at most r, set by set. -/
theorem sumD_natAbs_le (slots : Table 26 BayStore) (ms : List Member) (p : Phase) (i : Fin 32) :
    (sumD slots ms p i).natAbs ≤ sumR slots ms p i := by
  refine (natAbs_sum_le _).trans (Nat.le_of_eq ?_)
  rw [List.map_map]
  exact congrArg List.sum (List.map_congr_left fun m _ => m.natAbs_signed _)

theorem windowD_le_windowR (slots : Table 26 BayStore) (ms : List Member) (p : Phase) :
    windowD slots ms p ≤ windowR slots ms p :=
  List.sum_le_sum fun i _ => sumD_natAbs_le slots ms p i

/-- The restraint of one set keeps within its bound where every current does (R81, R83). -/
theorem sumR_le {slots : Table 26 BayStore} {ms : List Member} {bound : Nat}
    (h : ∀ b i p, (current slots b i p).natAbs ≤ bound) (p : Phase) (i : Fin 32) : sumR slots ms p i ≤ ms.length * bound := by
  have hsum := List.sum_le_card_nsmul (ms.map fun m => (current slots m.slot i p).natAbs) bound fun n hn => by
    obtain ⟨m, -, rfl⟩ := List.mem_map.mp hn
    exact h m.slot i p
  rwa [List.length_map] at hsum

/-- The windowed restraint keeps within twelve times the bound of one set. -/
theorem windowR_le {slots : Table 26 BayStore} {ms : List Member} {p : Phase} {bound : Nat}
    (h : ∀ i, sumR slots ms p i ≤ bound) : windowR slots ms p ≤ 12 * bound :=
  List.sum_le_card_nsmul (windowDepths.map (sumR slots ms p)) bound fun n hn => by
    obtain ⟨i, -, rfl⟩ := List.mem_map.mp hn
    exact h i

/-! ### The comparison (R88) -/

theorem operateHolds_iff {idmin slope d r : Nat} :
    operateHolds idmin slope d r = true ↔ 12 * idmin ≤ d ∧ slope * r ≤ 64 * d := by
  rw [operateHolds, Bool.and_eq_true, decide_eq_true_iff, decide_eq_true_iff]

/-- A comparison that holds with a slope holds with every lower one. -/
theorem operateHolds_anti {idmin slope high d r : Nat} (hle : slope ≤ high) (h : operateHolds idmin high d r = true) :
    operateHolds idmin slope d r = true := by
  obtain ⟨hpick, hslope⟩ := operateHolds_iff.mp h
  exact operateHolds_iff.mpr ⟨hpick, (Nat.mul_le_mul_right r hle).trans hslope⟩

end Sys2Proof.Machine

open Sys2Proof Sys2Proof.Machine

/-- Settles O23: a sum's magnitude is at most the sum of magnitudes, and each magnitude is within the bound of R81. -/
theorem differentialIsAtMostRestraint : Obligations.DifferentialIsAtMostRestraint := by
  intro slots ms p
  refine ⟨windowD_le_windowR slots ms p, sumD_natAbs_le slots ms p, fun hcur hlen => ?_⟩
  have hset (i : Fin 32) : sumR slots ms p i ≤ 3407716 := by
    have h : sumR slots ms p i ≤ ms.length * 131066 := sumR_le hcur p i
    omega
  exact ⟨hset, windowR_le hset⟩

/-- Settles O24: a higher slope asks for more of the same D, and where D equals R a slope up to 64 asks for no more than D. -/
theorem higherSlopeNeverCausesOperation : Obligations.HigherSlopeNeverCausesOperation := by
  intro idmin slope high d r
  refine ⟨fun hle hfail => ?_, fun h64 => operateHolds_iff.trans ⟨And.left, fun hpick => ⟨hpick, Nat.mul_le_mul_right d h64⟩⟩,
    fun hpos => ?_⟩
  · rw [← Bool.not_eq_true] at hfail ⊢
    exact fun h => hfail (operateHolds_anti hle h)
  · rw [← Bool.not_eq_true, operateHolds_iff]
    omega

end

section
/-! PROOF. The MODE in flight at a close: entry to RUN and return to SETUP. -/

namespace Sys2Proof.Machine

open Sys2Proof

/-- The state after the change of a MODE in flight (R174). -/
def changeMode (toRun : Bool) (s : State) : State :=
  if toRun then enterRun s else returnToSetup s

/-- The close handles a MODE in flight (R173). -/
theorem closeFlight_mode {s : State} {req : Request} {rest : List Request} {toRun : Bool} (hl : s.link.Settled)
    (hf : s.link.flight = some (.mode toRun)) (hq : s.link.requests = req :: rest) :
    closeFlight s = { changeMode toRun s with link := s.link.answered req rest 0 [] } := by
  have hlink : (changeMode toRun s).link = s.link := by cases toRun <;> rfl
  unfold closeFlight
  rw [hf]
  show { changeMode toRun s with link := (changeMode toRun s).link.answerHead .done [] } = _
  rw [hlink, ControlLink.answerHead_settled hl hq]
  rfl

theorem changeMode_mode (toRun : Bool) (s : State) : (changeMode toRun s).mode = if toRun then .run else .setup := by
  cases toRun <;> rfl

theorem changeMode_run_iff (toRun : Bool) (s : State) : (changeMode toRun s).mode = .run ↔ toRun = true := by
  rw [changeMode_mode]
  cases toRun <;> decide

/-- Entry to RUN and return to SETUP alike clear the latches and the timers and release the trip lines (R130, R137, R174). -/
theorem changeMode_clears (toRun : Bool) (s : State) (k : Bus) :
    (changeMode toRun s).trip.tripLatch.get k = false ∧ (changeMode toRun s).trip.backtripLatch.get k = false ∧
      (changeMode toRun s).trip.captured.get k = 0 ∧ (changeMode toRun s).lines.trip.get k = false := by
  cases toRun <;> simp [changeMode, enterRun, returnToSetup, driveLines, TripLogic.clearLatches]

theorem changeMode_idles (toRun : Bool) (s : State) (b : Slot) : (changeMode toRun s).bf.get b = BfTimer.reset := by
  cases toRun <;> exact idleTimers_get b

/-- Entry to RUN zeroes the operate counters and the detectors (R92, R117). -/
theorem enterRun_zeroes (s : State) (p : Phase) :
    (∀ k, ((enterRun s).evaluator.operate.get k).get p = 0 ∧ ((enterRun s).detectors.zones.get k).get p = Detector.reset) ∧
      (enterRun s).evaluator.checkOperate.get p = 0 ∧ (enterRun s).detectors.check.get p = Detector.reset :=
  ⟨fun k => ⟨Table.get_fill_fill 0 k p, Table.get_fill_fill Detector.reset k p⟩, Table.get_fill 0 p,
    Table.get_fill Detector.reset p⟩

end Sys2Proof.Machine

open Sys2Proof Sys2Proof.Machine

/-- Settles O17: the change is made before the set is closed, and the close itself touches none of these blocks. -/
theorem closeMakesTheModeInFlight : Obligations.CloseMakesTheModeInFlight := by
  intro s req rest toRun hd hs hl hf hq
  refine ⟨_, _, execSetClose_due hd hs, rfl, ?_⟩
  rw [closeFlight_mode hl hf hq]
  refine ⟨rfl, changeMode_mode toRun s, decide_eq_true_iff.trans (changeMode_run_iff toRun s), changeMode_clears toRun s, ?_,
    changeMode_idles toRun s, ?_, ?_, ?_⟩
  · cases toRun <;> rfl
  · rintro rfl
    exact enterRun_zeroes s
  · rintro rfl
    exact ⟨rfl, rfl⟩
  · cases toRun <;> exact ⟨rfl, rfl, rfl, rfl, rfl, rfl, rfl⟩

end

section
/-! PROOF. The detectors of a set evaluated whole, and the expiry of a hold count. -/

namespace Sys2Proof.Machine

open Sys2Proof

/-! ### The act of the detectors (R106) -/

/-- Every section of a zone holds the transition of the zone's detector. -/
theorem Detectors.act_zone {t : Topology} {k : Bus} {z : Zone} (hk : t.zoneOf k = some z) (bank : Bank)
    (slots : Table 26 BayStore) (d : Detectors) (ph : Phase) :
    ((d.act bank slots t).zones.get k).get ph =
      (zoneDetector d z ph).transition bank (sumD slots z.members ph 0) (sumR slots z.members ph 0) := by
  simp only [Detectors.act, Table.get_build, hk]

/-- A section that no zone holds keeps its detectors. -/
theorem Detectors.act_unheld {t : Topology} {k : Bus} (hk : t.zoneOf k = none) (bank : Bank) (slots : Table 26 BayStore)
    (d : Detectors) : (d.act bank slots t).zones.get k = d.zones.get k := by
  simp only [Detectors.act, Table.get_build, hk]

theorem Detectors.act_check (bank : Bank) (slots : Table 26 BayStore) (t : Topology) (d : Detectors) (ph : Phase) :
    (d.act bank slots t).check.get ph =
      (checkDetector d t.checkChanged ph).transition bank (sumD slots t.checkMembers ph 0) (sumR slots t.checkMembers ph 0) :=
  Table.get_build _ ph

/-! ### A hold count that ends (R110, R113) -/

theorem Zone.mem_list {z : Zone} {k : Bus} : k ∈ z.list ↔ z.Holds k := by
  simp only [Zone.list, allBuses, List.mem_filter, List.mem_finRange, true_and, Zone.Holds]

/-- Detectors that are all in EXTERNAL with one hold count merge to that very detector. -/
theorem mergeDetectors_external {n : Nat} (hn : 1 ≤ n) {ds : List Detector} (hne : ds ≠ [])
    (h : ∀ x ∈ ds, x = ⟨.external, n⟩) : mergeDetectors ds = ⟨.external, n⟩ := by
  obtain ⟨x, hx⟩ := List.exists_mem_of_ne_nil ds hne
  have hmem : (⟨.external, n⟩ : Detector) ∈ ds := h x hx ▸ hx
  have hlargest : largestHold ds = n := by
    refine Nat.le_antisymm (largestHold_le fun y hy => ?_) (le_largestHold hmem rfl)
    rw [h y hy]
    exact ⟨Nat.le_refl n, fun _ => hn, nofun⟩
  unfold mergeDetectors
  rw [if_pos (List.any_eq_true.mpr ⟨_, hmem, rfl⟩), hlargest]

/-- A zone whose sections all hold EXTERNAL with one hold count holds it too, whether it is changed or not. -/
theorem zoneDetector_external {n : Nat} (hn : 1 ≤ n) {d : Detectors} {z : Zone} {ph : Phase} (hname : z.Holds z.name)
    (h : ∀ k, z.Holds k → (d.zones.get k).get ph = ⟨.external, n⟩) : zoneDetector d z ph = ⟨.external, n⟩ := by
  unfold zoneDetector
  split
  next =>
    refine mergeDetectors_external hn (List.ne_nil_of_mem (List.mem_map.mpr ⟨z.name, Zone.mem_list.mpr hname, rfl⟩)) fun x hx => ?_
    obtain ⟨k, hk, rfl⟩ := List.mem_map.mp hx
    exact h k (Zone.mem_list.mp hk)
  next => exact h z.name hname

theorem checkDetector_external {n : Nat} (hn : 1 ≤ n) {d : Detectors} {ph : Phase} (h : d.check.get ph = ⟨.external, n⟩)
    (changed : Bool) : checkDetector d changed ph = ⟨.external, n⟩ := by
  unfold checkDetector
  split
  next => exact mergeDetectors_external hn (List.cons_ne_nil _ _) fun x hx => (List.mem_singleton.mp hx).trans h
  next => exact h

theorem transition_external_one (bank : Bank) (d : Int) (r : Nat) :
    (⟨.external, 1⟩ : Detector).transition bank d r = ⟨.settle, 0⟩ := rfl

/-- The row is the whole evaluation in which the detector leaves EXTERNAL for SETTLE (log 3). -/
theorem exec_externalHoldExpiry {n : DetectorName} {s : State} (hs : (s.detectors.named n).state = .external)
    (ht : ((evaluateSet s).detectors.named n).state = .settle) :
    exec (.externalHoldExpiry n) s = .next (evaluateSet s) :=
  congrArg Host.Outcome.next (if_pos ⟨hs, ht⟩)

theorem zoneNameOf_side : ∀ (one two : Bool) (j k : Bus), zoneNameOf one two j = zoneNameOf one two k → j.val / 2 = k.val / 2 := by
  decide

/-- The sections of a zone lie on one side (R62). -/
theorem ZoneInput.zone_side {z : ZoneInput} {before : Option Topology} {y : Zone} (hy : y ∈ z.zones before) {j k : Bus}
    (hj : y.Holds j) (hk : y.Holds k) : j.val / 2 = k.val / 2 := by
  have hname : z.zoneName j = z.zoneName k := (ZoneInput.sharesZone_iff.mp ⟨y, hy, hj, hk⟩).2.2
  rw [ZoneInput.zoneName_eq, ZoneInput.zoneName_eq] at hname
  exact zoneNameOf_side _ _ j k hname

end Sys2Proof.Machine

open Sys2Proof Sys2Proof.Machine

/-- Settles O28, from the act of the detectors on the set's zones, and from the transition of a hold count of 1. -/
theorem holdExpirySettlesTheDetector : Obligations.HoldExpirySettlesTheDetector := by
  intro s p hp hw
  have hd := evaluateSet_detectors hp hw
  refine ⟨⟨_, setTopology p s, exec_evaluateSet s, evaluateSet_topology hp, fun z hz ph k hk => ?_, fun k hk => ?_, fun ph => ?_⟩,
    fun ph hx => ?_, fun k ph hk hx => ?_⟩
  · rw [hd, Detectors.act_zone (setTopology_zoneOf hz hk), sumD_newest, sumR_newest]
    rfl
  · rw [hd]
    exact Detectors.act_unheld (setTopology_zoneOf_none hk) _ _ _
  · rw [hd, Detectors.act_check, sumD_newest, sumR_newest]
    rfl
  · have hset : (evaluateSet s).detectors.check.get ph = ⟨.settle, 0⟩ := by
      rw [hd, Detectors.act_check, checkDetector_external (Nat.le_refl 1) hx, transition_external_one]
    exact ⟨_, exec_externalHoldExpiry (congrArg Detector.state hx) (congrArg Detector.state hset), exec_evaluateSet s, hset⟩
  · obtain ⟨z, hz, hzk⟩ := ZoneInput.inUse_iff_held (z := setInput p s) (before := s.topology).mp (inUse_iff.mpr hk)
    have hset : ((evaluateSet s).detectors.zones.get k).get ph = ⟨.settle, 0⟩ := by
      rw [hd, Detectors.act_zone (setTopology_zoneOf hz hzk),
        zoneDetector_external (Nat.le_refl 1) (ZoneInput.zone_name hz).1 fun j hj => hx j (ZoneInput.zone_side hz hj hzk),
        transition_external_one]
    exact ⟨_, exec_externalHoldExpiry (congrArg Detector.state (hx k rfl)) (congrArg Detector.state hset), exec_evaluateSet s, hset⟩

end

section
/-! PROOF. A set evaluated whole: what its stages hand to trip logic, and what trip logic and the trip frame leave. -/

namespace Sys2Proof.Machine

open Sys2Proof

/-! ### The set up to stage 4 (R89, R106, R152) -/

/-- A set in evaluation with sound windows, once the change marks, the detectors and the counters have acted. -/
def countedSet (p : Published) (s : State) : State :=
  let a := assembledSet p s
  let d := a.detectors.act a.active a.store.slots (setTopology p s)
  { a with
    detectors := d
    evaluator := (a.evaluator.restart (setTopology p s)).update a.active a.store.slots (setTopology p s) d }

/-- The results of a set in evaluation with sound windows. -/
def setResults (p : Published) (s : State) : Results :=
  resultsOf (setTopology p s) (countedSet p s)

/-- Stage 3 of a set with sound windows. -/
def heldSet (p : Published) (s : State) : State :=
  { countedSet p s with evaluator := { (countedSet p s).evaluator with results := some (setResults p s) } }

/-- Stage 4 of a set with sound windows. -/
def supervisedSet (p : Published) (s : State) : State :=
  superviseSet (setTopology p s) (setResults p s) (heldSet p s)

theorem measureSet_sound {p : Published} {s : State} (hw : s.SoundWindow) :
    measureSet (setTopology p s) (assembledSet p s) = .whole (heldSet p s) (setResults p s) := by
  have hf := assembledSet_frame p s
  refine measureSet_whole ?_ ?_
  · rw [← Bool.not_eq_true, hf.store]
    exact fun hn => newestMismatch_unsound (s := deriveReplica p s) hn hw
  · unfold State.SoundWindow
    rwa [hf.store, hf.bays]

/-- A set with sound windows is evaluated whole (R86). -/
theorem evaluateSet_sound {p : Published} {s : State} (hp : s.published = some p) (hw : s.SoundWindow) :
    evaluateSet s = finishSet p (setTopology p s) (setResults p s) (supervisedSet p s) :=
  evaluateSet_whole hp (measureSet_sound hw)

theorem heldSet_frame (p : Published) (s : State) : StageFrame s (heldSet p s) :=
  (assembledSet_frame p s).trans ⟨rfl, rfl, rfl, rfl, rfl, rfl, rfl, rfl, rfl, rfl, rfl⟩

theorem heldSet_supervision (p : Published) (s : State) : (heldSet p s).supervision = s.supervision :=
  assembledSet_supervision p s

theorem supervisedSet_frame (p : Published) (s : State) : StageFrame s (supervisedSet p s) :=
  (heldSet_frame p s).trans (superviseSet_frame _ _ _)

theorem supervisedSet_trip (p : Published) (s : State) : (supervisedSet p s).trip = s.trip :=
  (superviseSet_trip _ _ _).trans (assembleZones_trip _ _)

theorem supervisedSet_bf (p : Published) (s : State) : (supervisedSet p s).bf = s.bf :=
  (superviseSet_bf _ _ _).trans (assembleZones_bf _ _)

theorem supervisedSet_lines (p : Published) (s : State) : (supervisedSet p s).lines = s.lines :=
  (superviseSet_lines _ _ _).trans (assembleZones_lines _ _)

@[simp] theorem superviseSet_responses (t : Topology) (r : Results) (s : State) :
    (superviseSet t r s).supervision.responses = s.supervision.responses := by
  unfold superviseSet
  dsimp only
  split <;> rfl

@[simp] theorem superviseSet_hostBlocks (t : Topology) (r : Results) (s : State) :
    (superviseSet t r s).supervision.hostBlocks = s.supervision.hostBlocks := by
  unfold superviseSet
  dsimp only
  split <;> rfl

theorem supervisedSet_responses (p : Published) (s : State) :
    (supervisedSet p s).supervision.responses = s.supervision.responses :=
  (superviseSet_responses _ _ _).trans (congrArg Supervision.responses (heldSet_supervision p s))

theorem supervisedSet_hostBlocks (p : Published) (s : State) :
    (supervisedSet p s).supervision.hostBlocks = s.supervision.hostBlocks :=
  (superviseSet_hostBlocks _ _ _).trans (congrArg Supervision.hostBlocks (heldSet_supervision p s))

/-! ### The end of the set (R119, R125) -/

section
variable (p : Published) (t : Topology) (r : Results) (s : State)

@[simp] theorem finishSet_mode : (finishSet p t r s).mode = s.mode := by simp [finishSet]
@[simp] theorem finishSet_timer : (finishSet p t r s).timer = s.timer := by simp [finishSet]
@[simp] theorem finishSet_edit : (finishSet p t r s).edit = s.edit := by simp [finishSet]
@[simp] theorem finishSet_streams : (finishSet p t r s).streams = s.streams := by simp [finishSet]
@[simp] theorem finishSet_published : (finishSet p t r s).published = none := by simp [finishSet]
@[simp] theorem finishSet_supervision_eq : (finishSet p t r s).supervision = s.supervision := by simp [finishSet]
@[simp] theorem finishSet_trip : (finishSet p t r s).trip = (tripStage p t r s).trip := by simp [finishSet]
@[simp] theorem finishSet_bf : (finishSet p t r s).bf = (tripStage p t r s).bf := by simp [finishSet]
@[simp] theorem finishSet_lines : (finishSet p t r s).lines = (tripStage p t r s).lines := by simp [finishSet]
@[simp] theorem finishSet_records : (finishSet p t r s).records = (tripStage p t r s).records := by simp [finishSet]

/-- Both ports are handed the bitmap of the set under its count. -/
theorem finishSet_ports :
    (finishSet p t r s).ports =
      { x := s.ports.x.given ⟨p.stamp.count, (tripStage p t r s).trip.bitmap⟩
        y := s.ports.y.given ⟨p.stamp.count, (tripStage p t r s).trip.bitmap⟩ } := by
  have hports : (tripStage p t r s).ports = s.ports := by
    unfold tripStage
    split
    · rfl
    · rfl
  simp only [finishSet, answerSettle_ports, handTripFrame, hports, Ports.map, PortState.hand_eq_given]

end

/-- What a set evaluated whole leaves as it is. -/
structure WholeFrame (s t : State) : Prop where
  mode : t.mode = s.mode
  timer : t.timer = s.timer
  yard : t.yard = s.yard
  bays : t.bays = s.bays
  active : t.active = s.active
  edit : t.edit = s.edit
  streams : t.streams = s.streams
  store : t.store = s.store
  responses : t.supervision.responses = s.supervision.responses
  hostBlocks : t.supervision.hostBlocks = s.supervision.hostBlocks

theorem evaluateSet_frame {p : Published} {s : State} (hp : s.published = some p) (hw : s.SoundWindow) :
    WholeFrame s (evaluateSet s) := by
  have hset := evaluateSet_settings s
  have hf := supervisedSet_frame p s
  have hstore := evaluateSet_store s
  rw [evaluateSet_sound hp hw] at hset hstore ⊢
  exact ⟨(finishSet_mode _ _ _ _).trans hf.mode, (finishSet_timer _ _ _ _).trans hf.timer, hset.yard, hset.bays, hset.active,
    (finishSet_edit _ _ _ _).trans hf.edit, (finishSet_streams _ _ _ _).trans hf.streams, hstore,
    (congrArg Supervision.responses (finishSet_supervision_eq _ _ _ _)).trans (supervisedSet_responses p s),
    (congrArg Supervision.hostBlocks (finishSet_supervision_eq _ _ _ _)).trans (supervisedSet_hostBlocks p s)⟩

/-- The results of a set are those of the evaluated state. -/
theorem setResults_eq {p : Published} {s : State} (hp : s.published = some p) (hw : s.SoundWindow) :
    setResults p s = resultsOf (setTopology p s) (evaluateSet s) := by
  have he := congrArg Evaluator.results (evaluateSet_evaluator hp hw)
  have hheld : (evaluateSet s).evaluator = (heldSet p s).evaluator := by
    rw [evaluateSet_sound hp hw, (finishSet_supervision _ _ _ _).evaluator]
    exact superviseSet_evaluator _ _ _
  rw [hheld] at he
  exact Option.some.inj he

theorem actsInRun_iff {s : State} {p : Published} : actsInRun s p = true ↔ s.mode = .run ∧ p.runAtClose = true := by
  rw [actsInRun, Bool.and_eq_true, decide_eq_true_iff]

theorem tripStage_run {p : Published} {s : State} (hm : s.mode = .run) (hc : p.runAtClose = true) (t : Topology) (r : Results) :
    tripStage p t r s = tripSet p t r s :=
  if_pos (actsInRun_iff.mpr ⟨hm, hc⟩)

/-- Outside RUN nothing but the bitmap is written (R119, R174). -/
theorem tripStage_outside {p : Published} {s : State} (h : s.mode ≠ .run ∨ p.runAtClose = false) (t : Topology) (r : Results) :
    tripStage p t r s = { s with trip := { s.trip with bitmap := 0 } } := by
  refine if_neg fun ha => ?_
  obtain ⟨hm, hc⟩ := actsInRun_iff.mp ha
  rcases h with h | h
  · exact h hm
  · rw [h] at hc
    cases hc

/-! ### Notices that wait beside a stage's own (R182) -/

/-- The notices of a set beside TOPOLOGY. -/
inductive SetNotice where
  | trip
  | backtrip
  | alarm

/-- Where a notice waits (R179). -/
def SetNotice.slot : SetNotice → NoticeSlots → Option (List Byte)
  | .trip => NoticeSlots.trip
  | .backtrip => NoticeSlots.backtrip
  | .alarm => NoticeSlots.alarm

/-- The KIND of a notice (R179). -/
def SetNotice.kind : SetNotice → Byte
  | .trip => 0x60
  | .backtrip => 0x61
  | .alarm => 0x62

/-- A free transmitter leaves no such notice waiting (R182). -/
def ControlLink.Taken (n : SetNotice) (l : ControlLink) : Prop :=
  l.line = none → n.slot l.slots = none

theorem ControlLink.Settled.taken {l : ControlLink} (h : l.Settled) (n : SetNotice) : l.Taken n := fun hl => by
  rw [(h hl).2]
  cases n <;> rfl

/-- A notice that waits still waits, and a busy line stays as it is. -/
structure ControlLink.Keeps (n : SetNotice) (l m : ControlLink) : Prop where
  taken : l.Taken n → m.Taken n
  slot : l.Taken n → n.slot m.slots = n.slot l.slots
  line : l.line ≠ none → m.line = l.line

theorem ControlLink.Keeps.refl (n : SetNotice) (l : ControlLink) : l.Keeps n l := ⟨id, fun _ => rfl, fun _ => rfl⟩

theorem ControlLink.Keeps.trans {n : SetNotice} {l m k : ControlLink} (h : l.Keeps n m) (h' : m.Keeps n k) : l.Keeps n k :=
  ⟨fun hl => h'.taken (h.taken hl), fun hl => (h'.slot (h.taken hl)).trans (h.slot hl), fun hl =>
    (h'.line (by rw [h.line hl]; exact hl)).trans (h.line hl)⟩

/-- A notice that is carried is still carried. -/
theorem ControlLink.Keeps.carries {n : SetNotice} {l m : ControlLink} (h : l.Keeps n m) (hl : l.Taken n) {q : List Byte}
    (hc : l.Carries (n.slot l.slots) n.kind q) : m.Carries (n.slot m.slots) n.kind q := by
  rcases hc with hc | hc
  · exact .inl ((h.slot hl).trans hc)
  · exact .inr ((h.line (by rw [hc]; nofun)).trans hc)

/-- A transmitter that takes a frame takes the notice or leaves it waiting behind another frame. -/
theorem ControlLink.kick_takes (n : SetNotice) (l : ControlLink) :
    n.slot l.kick.slots = n.slot l.slots ∧ (l.kick.line = none → n.slot l.slots = none) ∨
      l.line = none ∧ n.slot l.kick.slots = none ∧
        ∃ q, n.slot l.slots = some q ∧ l.kick.line = some (noticeFrame n.kind q) := by
  cases hl : l.line with
  | some f =>
    rw [ControlLink.kick_busy (by rw [hl]; nofun), hl]
    exact .inl ⟨rfl, nofun⟩
  | none =>
    have hk : l.kick = l.takeNext := by
      unfold ControlLink.kick
      rw [hl]
    rw [hk]
    unfold ControlLink.takeNext
    split
    · cases n <;> exact .inl ⟨rfl, nofun⟩
    split
    next q hq =>
      cases n
      case trip => exact .inr ⟨rfl, rfl, q, hq, rfl⟩
      all_goals exact .inl ⟨rfl, nofun⟩
    next htrip =>
      split
      next q hq =>
        cases n
        case backtrip => exact .inr ⟨rfl, rfl, q, hq, rfl⟩
        all_goals exact .inl ⟨rfl, nofun⟩
      next hback =>
        split
        · exact .inl ⟨rfl, nofun⟩
        split
        · cases n <;> exact .inl ⟨rfl, nofun⟩
        split
        next q hq =>
          cases n
          case alarm => exact .inr ⟨rfl, rfl, q, hq, rfl⟩
          all_goals exact .inl ⟨rfl, nofun⟩
        next halarm =>
          cases n
          case trip => exact .inl ⟨rfl, fun _ => htrip⟩
          case backtrip => exact .inl ⟨rfl, fun _ => hback⟩
          case alarm => exact .inl ⟨rfl, fun _ => halarm⟩

theorem ControlLink.kick_taken (n : SetNotice) (l : ControlLink) : l.kick.Taken n := fun hk => by
  rcases l.kick_takes n with ⟨he, ht⟩ | ⟨-, he, -⟩
  · rw [he, ht hk]
  · exact he

theorem ControlLink.kick_keeps (n : SetNotice) (l : ControlLink) : l.Keeps n l.kick where
  taken := fun _ => l.kick_taken n
  slot := fun hl => by
    rcases l.kick_takes n with ⟨he, -⟩ | ⟨hn, -, q, hq, -⟩
    · exact he
    · rw [hl hn] at hq
      cases hq
  line := fun hl => by rw [ControlLink.kick_busy hl]

/-- The transmitter, after a change that leaves the notice and the line alone. -/
theorem ControlLink.Keeps.ofKick {n : SetNotice} {l m : ControlLink} (hs : n.slot m.slots = n.slot l.slots) (hl : m.line = l.line) :
    l.Keeps n m.kick :=
  ControlLink.Keeps.trans ⟨fun h hm => hs.trans (h (hl ▸ hm)), fun _ => hs, fun _ => hl⟩ (m.kick_keeps n)

/-- A notice that is made is carried. -/
theorem ControlLink.kick_carries {n : SetNotice} {l : ControlLink} {q : List Byte} (h : n.slot l.slots = some q) :
    l.kick.Carries (n.slot l.kick.slots) n.kind q := by
  rcases l.kick_takes n with ⟨he, -⟩ | ⟨-, -, x, hx, ht⟩
  · exact .inl (he.trans h)
  · rw [h] at hx
    cases hx
    exact .inr ht

theorem causeTopology_keeps (n : SetNotice) (s : State) : s.link.Keeps n (causeTopology s).link := by
  refine .ofKick ?_ rfl
  dsimp only
  split
  · cases n <;> rfl
  · rfl

theorem assembledSet_keeps (n : SetNotice) (p : Published) (s : State) : s.link.Keeps n (assembledSet p s).link := by
  unfold assembledSet assembleZones
  dsimp only
  split
  · exact causeTopology_keeps n { deriveReplica p s with topology := some (newTopology p.stamp (deriveReplica p s)) }
  · exact .refl n s.link

theorem causeAlarm_keeps_other {n : SetNotice} (hn : n ≠ .alarm) (s : State) : s.link.Keeps n (causeAlarm s).link := by
  refine .ofKick ?_ rfl
  dsimp only
  split
  · cases n
    case alarm => exact absurd rfl hn
    all_goals rfl
  · rfl

/-- Stage 4 makes no notice but ALARM. -/
theorem superviseSet_keeps {n : SetNotice} (hn : n ≠ .alarm) (t : Topology) (r : Results) (s : State) :
    s.link.Keeps n (superviseSet t r s).link := by
  unfold superviseSet
  dsimp only
  split
  · let u : State := { s with supervision := s.supervision.countCt t r }
    exact causeAlarm_keeps_other hn { u with supervision := { u.supervision with conditions := nextConditions t u } }
  · exact .refl n s.link

theorem supervisedSet_keeps {n : SetNotice} (hn : n ≠ .alarm) (p : Published) (s : State) :
    s.link.Keeps n (supervisedSet p s).link :=
  (assembledSet_keeps n p s).trans (superviseSet_keeps hn (setTopology p s) (setResults p s) (heldSet p s))

theorem answerSettle_keeps (n : SetNotice) (s : State) : s.link.Keeps n (answerSettle s).link := by
  unfold answerSettle
  split
  · show s.link.Keeps n (s.link.answerHead .done [])
    unfold ControlLink.answerHead
    split
    · exact ⟨id, fun _ => rfl, fun _ => rfl⟩
    · exact .ofKick rfl rfl
  all_goals exact .refl n s.link

/-- The end of a set makes no notice beyond those of trip logic. -/
theorem finishSet_keeps (n : SetNotice) (p : Published) (t : Topology) (r : Results) (s : State) :
    (tripStage p t r s).link.Keeps n (finishSet p t r s).link :=
  answerSettle_keeps n { handTripFrame p.stamp (tripStage p t r s) with published := none }

/-- Outside RUN the TRIP and BACKTRIP notices stand. -/
theorem evaluateSet_keeps_outside {p : Published} {s : State} (hp : s.published = some p) (hw : s.SoundWindow)
    (h : s.mode ≠ .run ∨ p.runAtClose = false) {n : SetNotice} (hn : n ≠ .alarm) : s.link.Keeps n (evaluateSet s).link := by
  rw [evaluateSet_sound hp hw]
  have hfin := finishSet_keeps n p (setTopology p s) (setResults p s) (supervisedSet p s)
  rw [tripStage_outside ((supervisedSet_frame p s).mode.symm ▸ h)] at hfin
  exact (supervisedSet_keeps hn p s).trans hfin

end Sys2Proof.Machine

open Sys2Proof Sys2Proof.Machine

/-- Settles O29: outside RUN trip logic writes an empty bitmap and nothing else, and no stage makes a TRIP or BACKTRIP notice. -/
theorem evaluationOutsideRunReleasesNothing : Obligations.EvaluationOutsideRunReleasesNothing := by
  intro s p hp hw hout
  have hf := evaluateSet_frame hp hw
  have hstage := tripStage_outside (p := p) ((supervisedSet_frame p s).mode.symm ▸ hout) (setTopology p s) (setResults p s)
  have hports : (evaluateSet s).ports =
      { x := s.ports.x.given ⟨p.stamp.count, 0⟩, y := s.ports.y.given ⟨p.stamp.count, 0⟩ } := by
    rw [evaluateSet_sound hp hw, finishSet_ports, hstage, (supervisedSet_frame p s).ports]
  refine ⟨_, setTopology p s, resultsOf (setTopology p s) (evaluateSet s), exec_evaluateSet s, ?_, evaluateSet_topology hp, rfl,
    congrArg Evaluator.results (evaluateSet_evaluator hp hw), rfl, ?_, ?_, ?_, ?_, hports, hf.mode, hf.timer, hf.yard, hf.bays,
    hf.active, hf.edit, hf.streams, hf.store, hf.responses, hf.hostBlocks, fun hl => ⟨?_, ?_⟩⟩
  · rw [evaluateSet_sound hp hw, finishSet_published]
  · rw [evaluateSet_sound hp hw, finishSet_trip, hstage, supervisedSet_trip]
  · rw [evaluateSet_sound hp hw, finishSet_bf, hstage, supervisedSet_bf]
  · rw [evaluateSet_sound hp hw, finishSet_records, hstage, (supervisedSet_frame p s).records]
  · rw [evaluateSet_sound hp hw, finishSet_lines, hstage, supervisedSet_lines]
  · exact (evaluateSet_keeps_outside hp hw hout (n := .trip) nofun).slot (hl.taken .trip)
  · exact (evaluateSet_keeps_outside hp hw hout (n := .backtrip) nofun).slot (hl.taken .backtrip)

end

section
/-! PROOF. Latches, breaker failure timers and the trip bitmap of a set closed and evaluated whole in RUN. -/

namespace Sys2Proof.Machine

open Sys2Proof

/-! ### Unions of bitmaps -/

theorem getLsbD_foldl_or {α : Type} {w : Nat} (f : α → BitVec w) (i : Nat) (as : List α) (m : BitVec w) :
    (as.foldl (fun m a => m ||| f a) m).getLsbD i = true ↔ m.getLsbD i = true ∨ ∃ a ∈ as, (f a).getLsbD i = true := by
  induction as generalizing m with
  | nil => simp
  | cons a as ih => simp [ih, or_assoc]

theorem not_getLsbD_empty (i : Nat) : ¬ (0 : Bitmap).getLsbD i = true := by
  simp

theorem unionOver_getLsbD {scopes : Table 4 Bitmap} {ks : List Bus} {i : Nat} :
    (unionOver scopes ks).getLsbD i = true ↔ ∃ k ∈ ks, (scopes.get k).getLsbD i = true := by
  rw [unionOver, getLsbD_foldl_or scopes.get]
  exact or_iff_right (not_getLsbD_empty i)

/-- The tripped bays of a latched section are those of its scope and of its captured trip set (R124). -/
theorem trippedBays_getLsbD {x : TripLogic} {t : Topology} {k : Bus} {i : Nat} :
    (trippedBays x t k).getLsbD i = true ↔
      (x.tripLatch.get k = true ∨ x.backtripLatch.get k = true) ∧
        ((t.scopes.get k).getLsbD i = true ∨ (x.captured.get k).getLsbD i = true) := by
  rw [trippedBays, ← Bool.or_eq_true]
  split
  next h => rw [BitVec.getLsbD_or, Bool.or_eq_true, and_iff_right h]
  next h => exact iff_of_false (not_getLsbD_empty i) fun hx => h hx.1

theorem allTrippedBays_getLsbD {x : TripLogic} {t : Topology} {i : Nat} :
    (allTrippedBays x t).getLsbD i = true ↔
      ∃ k, (x.tripLatch.get k = true ∨ x.backtripLatch.get k = true) ∧
        ((t.scopes.get k).getLsbD i = true ∨ (x.captured.get k).getLsbD i = true) := by
  rw [allTrippedBays, getLsbD_foldl_or (trippedBays x t)]
  simp only [not_getLsbD_empty, Bool.false_eq_true, false_or, allBuses, List.mem_finRange, true_and, trippedBays_getLsbD]

theorem timingSlots_getLsbD {bf : Table 26 BfTimer} {b : Slot} :
    (timingSlots bf).getLsbD b.val = true ↔ (bf.get b).state = .timing := by
  rw [timingSlots, BitVec.getLsbD_ofFnLE, dif_pos b.isLt, decide_eq_true_iff]

/-- The trip bitmap names the tripped bays and the bays whose timer is in TIMING (R124). -/
theorem tripBitmap_getLsbD {x : TripLogic} {t : Topology} {bf : Table 26 BfTimer} {b : Slot} :
    (tripBitmap x t bf).getLsbD b.val = true ↔
      (bf.get b).state = .timing ∨
        ∃ k, (x.tripLatch.get k = true ∨ x.backtripLatch.get k = true) ∧
          ((t.scopes.get k).getLsbD b.val = true ∨ (x.captured.get k).getLsbD b.val = true) := by
  rw [tripBitmap, BitVec.getLsbD_or, Bool.or_eq_true, allTrippedBays_getLsbD, timingSlots_getLsbD, or_comm]

/-! ### The set in RUN, part by part (R121, R133, R135) -/

/-- The latches as the release of a set leaves them. -/
def setLatches (p : Published) (s : State) : TripLogic :=
  latchZones (supervisedSet p s) (setResults p s) (setTopology p s)

/-- The timers after their act on a set. -/
def setTimers (p : Published) (s : State) : Table 26 BfTimer :=
  actTimers (supervisedSet p s) p (setResults p s) (setLatches p s) (setTopology p s)

/-- The slots whose timers expire on a set. -/
def setExpired (p : Published) (s : State) : List Slot :=
  expiredNow s.bf (setTimers p s)

/-- The latches of a set with those of its backtrips. -/
def setTripped (p : Published) (s : State) : TripLogic :=
  backtripLatches (setLatches p s) (setTopology p s) (setExpired p s)

/-- The trip bitmap of a set. -/
def setBitmap (p : Published) (s : State) : Bitmap :=
  tripBitmap (setTripped p s) (setTopology p s) (setTimers p s)

section
variable {p : Published} {s : State}

theorem setLatches_backtripLatch : (setLatches p s).backtripLatch = s.trip.backtripLatch := by
  rw [← supervisedSet_trip p s]
  rfl

/-- The set in RUN is evaluated by `tripSet`. -/
theorem evaluateSet_run (hp : s.published = some p) (hw : s.SoundWindow) (hm : s.mode = .run) (hc : p.runAtClose = true) :
    (evaluateSet s).trip = { setTripped p s with bitmap := setBitmap p s } ∧ (evaluateSet s).bf = setTimers p s ∧
      ∀ k, (evaluateSet s).lines.trip.get k = ((setTripped p s).tripLatch.get k || (setTripped p s).backtripLatch.get k) := by
  have hmode : (supervisedSet p s).mode = .run := (supervisedSet_frame p s).mode.trans hm
  have hbf := supervisedSet_bf p s
  rw [evaluateSet_sound hp hw, finishSet_trip, finishSet_bf, finishSet_lines, tripStage_run hmode hc]
  refine ⟨?_, rfl, fun k => ?_⟩
  · simp only [setBitmap, setTripped, setExpired, ← hbf]
    rfl
  · simp only [setTripped, setExpired, ← hbf]
    refine (Table.get_build _ k).trans ?_
    show (decide ((supervisedSet p s).mode = .run) && _) = _
    rw [hmode]
    rfl

/-! ### New latches (R121) -/

/-- A section is newly latched exactly when the release latches it, since the backtrips set no trip latch. -/
theorem newlyLatched_iff {t : State} (ht : t.trip.tripLatch = (setLatches p s).tripLatch) (k : Bus) :
    NewlyLatched s t k ↔ newlyLatched (supervisedSet p s) (setResults p s) (setTopology p s) k = true := by
  have hlatch : t.trip.tripLatch.get k =
      (s.trip.tripLatch.get k || newlyLatched (supervisedSet p s) (setResults p s) (setTopology p s) k) := by
    rw [ht, ← supervisedSet_trip p s]
    exact Table.get_build _ k
  have hnew : newlyLatched (supervisedSet p s) (setResults p s) (setTopology p s) k = true → s.trip.tripLatch.get k = false := by
    unfold newlyLatched
    rw [supervisedSet_trip]
    split
    · nofun
    · exact fun h => (Bool.not_eq_true' _).mp (Bool.and_eq_true_iff.mp h).2
  unfold NewlyLatched
  rw [hlatch]
  exact ⟨fun ⟨h0, h1⟩ => by rwa [h0, Bool.false_or] at h1, fun h => ⟨hnew h, by rw [h, Bool.or_true]⟩⟩

/-- The scopes that a newly latched section captures are those of the newly latched sections of its zone. -/
theorem newScopes_getLsbD {u : State} {r : Results} {k : Bus} {i : Nat} :
    (newScopes u r (setTopology p s) k).getLsbD i = true ↔
      ∃ z ∈ (setTopology p s).zones, z.Holds k ∧
        ∃ j, z.Holds j ∧ newlyLatched u r (setTopology p s) j = true ∧ ((setTopology p s).scopes.get j).getLsbD i = true := by
  unfold newScopes
  cases hk : (setTopology p s).zoneOf k with
  | none =>
    refine ⟨fun h => absurd h (not_getLsbD_empty i), fun ⟨z, hz, hzk, _⟩ => ?_⟩
    rw [setTopology_zoneOf hz hzk] at hk
    cases hk
  | some y =>
    dsimp only
    simp only [unionOver_getLsbD, List.mem_filter, Zone.mem_list]
    constructor
    · rintro ⟨j, ⟨hj, hn⟩, hb⟩
      obtain ⟨hy, hyk⟩ := zoneOf_holds hk
      exact ⟨y, hy, hyk, j, hj, hn, hb⟩
    · rintro ⟨z, hz, hzk, j, hj, hn, hb⟩
      cases hk.symm.trans (setTopology_zoneOf hz hzk)
      exact ⟨j, ⟨hj, hn⟩, hb⟩

/-- The captured trip sets as the release leaves them. -/
theorem setLatches_captured {t : State} (ht : t.trip.tripLatch = (setLatches p s).tripLatch) (k : Bus) (b : Slot) :
    ((setLatches p s).captured.get k).getLsbD b.val = true ↔ CapturedAtRelease s t (setTopology p s) k b := by
  have hcap : (setLatches p s).captured.get k =
      if newlyLatched (supervisedSet p s) (setResults p s) (setTopology p s) k then
        s.trip.captured.get k ||| newScopes (supervisedSet p s) (setResults p s) (setTopology p s) k
      else s.trip.captured.get k := by
    rw [← supervisedSet_trip p s]
    exact Table.get_build _ k
  rw [hcap]
  unfold CapturedAtRelease
  simp only [newlyLatched_iff ht]
  split
  next hn => rw [BitVec.getLsbD_or, Bool.or_eq_true, newScopes_getLsbD, and_iff_right hn]
  next hn => simp only [hn, Bool.false_eq_true, false_and, or_false]

/-! ### The act of a timer (R132, R133) -/

/-- The initiation of a timer, from the latches as the release leaves them and the published BF-start. -/
theorem initiation_iff {t : State} (ht : t.trip.tripLatch = (setLatches p s).tripLatch) (b : Slot) :
    initiation (supervisedSet p s) p (setLatches p s) (setTopology p s) b = true ↔ Initiated s t p (setTopology p s) b := by
  simp only [initiation, Initiated, Bool.or_eq_true, Bool.and_eq_true, Bool.not_eq_true', allTrippedBays_getLsbD,
    setLatches_captured ht, setLatches_backtripLatch, ht, (supervisedSet_frame p s).store]

/-- The judgement of a bay's current in the results of a set (R98, R99). -/
theorem setResults_present (hp : s.published = some p) (hw : s.SoundWindow) {b : Slot} (hb : (s.bays.get b).kind ≠ .unused) :
    (setResults p s).present b = true ↔ s.CurrentPresent (evaluateSet s) b := by
  have hf := evaluateSet_frame hp hw
  have hbay : (setResults p s).bays.get b = bayResult (evaluateSet s) b := by
    rw [setResults_eq hp hw, resultsOf, Table.get_build]
  rw [Results.present, hbay, bayResult_used (hf.bays.symm ▸ hb)]
  dsimp only
  rw [hf.bays, hf.active, hf.store, windowedBay_congr hf.store]
  exact currentPresent_iff

theorem setTimers_unused {b : Slot} (hb : (s.bays.get b).kind = .unused) : (setTimers p s).get b = s.bf.get b := by
  refine (Table.get_build _ b).trans ?_
  rw [(supervisedSet_frame p s).bays, hb, supervisedSet_bf]
  rfl

theorem setTimers_used {b : Slot} (hb : (s.bays.get b).kind ≠ .unused) :
    (setTimers p s).get b =
      (s.bf.get b).act (s.active.bfSets.get b)
        (initiation (supervisedSet p s) p (setLatches p s) (setTopology p s) b) ((setResults p s).present b) := by
  refine (Table.get_build _ b).trans ?_
  rw [(supervisedSet_frame p s).bays, if_pos (BayKind.used_iff.mpr hb), supervisedSet_bf, (supervisedSet_frame p s).active]

end

end Sys2Proof.Machine

open Sys2Proof Sys2Proof.Machine

/-- Settles O31, from the parts of a set in RUN: the latches as released, the timers, the latches with the backtrips, the bitmap. -/
theorem evaluationInRunOrdersTheBitmap : Obligations.EvaluationInRunOrdersTheBitmap := by
  intro s p hp hw hm hc
  obtain ⟨htrip, hbf, hlines⟩ := evaluateSet_run hp hw hm hc
  have hlatch : (evaluateSet s).trip.tripLatch = (setLatches p s).tripLatch := by
    rw [htrip]
    rfl
  have hf := evaluateSet_frame hp hw
  refine ⟨_, setTopology p s, exec_evaluateSet s, evaluateSet_topology hp, fun b => ?_, ?_, fun k => ?_, fun b hb => ?_,
    fun b hb init present hinit hpresent => ?_, hf.yard, hf.bays, hf.active, hf.edit, hf.streams, hf.store, hf.timer,
    hf.hostBlocks⟩
  · rw [htrip, hbf]
    exact tripBitmap_getLsbD
  · rw [evaluateSet_sound hp hw, finishSet_ports, finishSet_trip, (supervisedSet_frame p s).ports]
  · rw [hlines, htrip]
  · rw [hbf, setTimers_unused hb]
  · rw [hbf, setTimers_used hb]
    have hi : initiation (supervisedSet p s) p (setLatches p s) (setTopology p s) b = init :=
      Bool.eq_iff_iff.mpr ((initiation_iff hlatch b).trans hinit.symm)
    have hc : (setResults p s).present b = present := Bool.eq_iff_iff.mpr ((setResults_present hp hw hb).trans hpresent.symm)
    rw [hi, hc]

end

section
/-! PROOF. The supervision unit on a set evaluated whole: CT supervision counts, causes, condition entries, the ALARM cause. -/

namespace Sys2Proof.Machine

open Sys2Proof

/-! ### The supervision unit's stage, field by field (R152) -/

/-- The state in which causes are judged: the counts of the set have acted. -/
def countedCt (t : Topology) (r : Results) (s : State) : State :=
  { s with supervision := s.supervision.countCt t r }

/-- The state in which an ALARM notice of the set is made: its entries are treated. -/
def treatedSet (t : Topology) (r : Results) (s : State) : State :=
  { s with
    supervision := { (countedCt t r s).supervision with conditions := nextConditions t (countedCt t r s) } }

section
variable (t : Topology) (r : Results) (s : State)

theorem superviseSet_ctCounts : (superviseSet t r s).supervision.ctCounts = (s.supervision.countCt t r).ctCounts := by
  unfold superviseSet
  dsimp only
  split <;> rfl

theorem superviseSet_checkCt : (superviseSet t r s).supervision.checkCt = (s.supervision.countCt t r).checkCt := by
  unfold superviseSet
  dsimp only
  split <;> rfl

theorem superviseSet_conditions : (superviseSet t r s).supervision.conditions = nextConditions t (countedCt t r s) := by
  unfold superviseSet
  dsimp only
  split <;> rfl

theorem superviseSet_link :
    (superviseSet t r s).link = if alarmCause (countedCt t r s) then (causeAlarm (treatedSet t r s)).link else s.link := by
  unfold superviseSet
  dsimp only
  split
  next h => rw [if_pos (show alarmCause (countedCt t r s) = true from h)]; rfl
  next h => rw [if_neg (show ¬ alarmCause (countedCt t r s) = true from h)]

end

/-! ### CT supervision counts (R141) -/

theorem countCt_zone {t : Topology} {k : Bus} {z : Zone} (hk : t.zoneOf k = some z) (r : Results) (v : Supervision) (p : Phase) :
    ((v.countCt t r).ctCounts.get k).get p =
      countSuspect (r.suspect z.name p) (if z.changed = true then 0 else (v.ctCounts.get k).get p) := by
  simp only [Supervision.countCt, Table.get_build, hk]

theorem countCt_unheld {t : Topology} {k : Bus} (hk : t.zoneOf k = none) (r : Results) (v : Supervision) :
    (v.countCt t r).ctCounts.get k = v.ctCounts.get k := by
  simp only [Supervision.countCt, Table.get_build, hk]

theorem countCt_check (t : Topology) (r : Results) (v : Supervision) (p : Phase) :
    (v.countCt t r).checkCt.get p =
      countSuspect (r.check.get p).suspect (if t.checkChanged = true then 0 else v.checkCt.get p) :=
  Table.get_build _ p

/-- A zone of a set is told from the others by its name (R62). -/
theorem ZoneInput.zone_eq_of_name {z : ZoneInput} {before : Option Topology} {x y : Zone} (hx : x ∈ z.zones before)
    (hy : y ∈ z.zones before) (h : x.name = y.name) : x = y := by
  obtain ⟨j, -, rfl⟩ := ZoneInput.mem_zones.mp hx
  obtain ⟨k, -, rfl⟩ := ZoneInput.mem_zones.mp hy
  exact congrArg (z.zone before) h

/-- The results of a zone are found by its name. -/
theorem resultsOf_zone {p : Published} {s u : State} {z : Zone} (hz : z ∈ (setTopology p s).zones) :
    (resultsOf (setTopology p s) u).zone z.name =
      some
        { name := z.name
          buses := z.buses
          phases :=
            Table.build (fun ph =>
              u.active.zoneComparison.result u.active.supIdmin u.store.slots z.members ph
                ((u.detectors.zones.get z.name).get ph).state ((u.evaluator.operate.get z.name).get ph)) } := by
  have hfind : (setTopology p s).zones.find? (fun y => decide (y.name = z.name)) = some z := by
    cases hf : (setTopology p s).zones.find? (fun y => decide (y.name = z.name)) with
    | none => exact absurd (decide_eq_true rfl) (List.find?_eq_none.mp hf z hz)
    | some y =>
      have hname : y.name = z.name := by simpa using List.find?_some hf
      rw [ZoneInput.zone_eq_of_name (List.mem_of_find?_eq_some hf) hz hname]
  rw [Results.zone, resultsOf, List.find?_map]
  exact congrArg (Option.map _) hfind

theorem PhaseResult.Shows.suspect_iff {q : PhaseResult} {s : State} {ms : List Member} {p : Phase} {state : DetectorState}
    {idmin slope sets counter : Nat} (h : q.Shows s ms p state idmin slope sets counter) :
    q.suspect = true ↔ 12 * s.active.supIdmin ≤ windowedD s ms p ∧ counter < sets := by
  obtain ⟨-, -, -, -, -, -, -, -, -, hsuspect⟩ := h
  exact hsuspect

/-- A zone's suspect flag, by its D and its counter (R100). -/
theorem setResults_suspect {p : Published} {s : State} (hp : s.published = some p) (hw : s.SoundWindow) {z : Zone}
    (hz : z ∈ (setTopology p s).zones) (ph : Phase) :
    (setResults p s).suspect z.name ph = true ↔
      12 * s.active.supIdmin ≤ windowedD s z.members ph ∧
        ((evaluateSet s).evaluator.operate.get z.name).get ph < s.active.zoneOperateSets := by
  have hf := evaluateSet_frame hp hw
  have hzone := resultsOf_zone (u := evaluateSet s) hz
  unfold Results.suspect
  rw [setResults_eq hp hw]
  unfold Results.zone at hzone
  rw [hzone]
  dsimp only
  rw [Table.get_build, hf.active, hf.store]
  exact (Comparison.result_shows _ s _ _ _ _).suspect_iff

/-- The check zone's suspect flag (R101). -/
theorem setResults_checkSuspect {p : Published} {s : State} (hp : s.published = some p) (hw : s.SoundWindow) (ph : Phase) :
    ((setResults p s).check.get ph).suspect = true ↔
      12 * s.active.supIdmin ≤ windowedD s (setTopology p s).checkMembers ph ∧
        (evaluateSet s).evaluator.checkOperate.get ph < s.active.checkOperateSets := by
  have hf := evaluateSet_frame hp hw
  rw [setResults_eq hp hw, resultsOf, Table.get_build, hf.active, hf.store]
  exact (Comparison.result_shows _ s _ _ _ _).suspect_iff

theorem countSuspect_iff {suspect : Bool} {c : Prop} [Decidable c] (h : suspect = true ↔ c) (n : Nat) :
    countSuspect suspect n = if c then min (n + 1) 12000 else 0 :=
  if_congr h rfl rfl

/-! ### Causes (R140, R142) -/

theorem anyPhaseReaches_iff {counts : Table 3 Nat} {n : Nat} : anyPhaseReaches counts n = true ↔ ∃ p, n ≤ counts.get p := by
  simp only [anyPhaseReaches, Table.any_cells, decide_eq_true_iff]

theorem portSilent_iff {s : State} {p : Port} :
    portSilent s p = true ↔ (s.ports.get p).link = .down ∧
      ∃ i e, s.streams.get i = some e ∧ e.enabled = true ∧
        (e.admitted = .either ∨ (e.admitted = .x ∧ p = .x) ∨ (e.admitted = .y ∧ p = .y)) := by
  rw [portSilent, Bool.and_eq_true, decide_eq_true_iff, anyAdmits, Table.any_cells]
  refine and_congr_right' (exists_congr fun i => ?_)
  cases s.streams.get i with
  | none => simp
  | some e => simp [Admit.accepts_iff]

/-- The cause of a code at a scope is the word of the statements (R140). -/
theorem causePresent_iff {s : State} {c : Code} {sc : Scope} : causePresent s c sc = true ↔ Caused s s c sc := by
  unfold Caused
  cases sc with
  | bay b =>
    cases c
    case streamGap =>
      show decide ((s.store.slots.get b).sinceSub < 24) = true ↔ _
      simp
    all_goals simp [causePresent]
  | bus k => cases c <;> simp [causePresent, anyPhaseReaches_iff]
  | check => cases c <;> simp [causePresent, anyPhaseReaches_iff]
  | port q => cases c <;> simp [causePresent, portSilent_iff]

/-! ### The captured scope (R144) -/

theorem reachOf_captures (s : State) (t : Topology) (c : Code) (sc : Scope) : Captures s t c sc (reachOf s.bays t c sc) := by
  cases sc with
  | bay b =>
    by_cases hc : c = .positionForced
    · subst hc
      exact ⟨fun k => by simp [reachOf, Reach.empty], by simp [reachOf, Reach.empty]⟩
    · exact ⟨fun k => by simp [reachOf, hc], by simp [reachOf, hc, BayKind.isFeeder_iff]⟩
  | bus j =>
    refine ⟨fun k => ?_, by simp [reachOf]⟩
    show (BitVec.ofFnLE fun i => decide (i = j)).getLsbD k.val = true ↔ _
    rw [BitVec.getLsbD_ofFnLE, dif_pos k.isLt, decide_eq_true_iff, eq_comm]
    simp
  | check => exact ⟨fun k => by simp [reachOf], by simp [reachOf]⟩
  | port q => exact ⟨fun k => by simp [reachOf, Reach.empty], by simp [reachOf, Reach.empty]⟩

/-! ### The entries (R139, R143) -/

theorem State.entryOf_eq (s : State) (key : Code × Scope) :
    s.entryOf key = findEntry s.supervision.conditions key.1 key.2 := by
  simp only [State.entryOf, findEntry, Bool.decide_and]

theorem Code.scopes_nodup (c : Code) : c.scopes.Nodup := by
  have hbay : (allSlots.map Scope.bay).Nodup := (List.nodup_finRange 26).map fun _ _ h => Scope.bay.inj h
  cases c
  case zoneCtSuspect => exact (List.nodup_finRange 4).map fun _ _ h => Scope.bus.inj h
  case checkCtSuspect => decide
  case portSilent => decide
  all_goals exact hbay

theorem conditionKeys_nodup : conditionKeys.Nodup := by
  unfold conditionKeys
  rw [List.nodup_flatMap]
  refine ⟨fun c _ => c.scopes_nodup.map fun _ _ h => (Prod.mk.inj h).2, ?_⟩
  have hcodes : allCodes.Nodup := by decide
  refine hcodes.imp fun {c d} hcd key hc hd => hcd ?_
  obtain ⟨_, -, rfl⟩ := List.mem_map.mp hc
  obtain ⟨_, -, h⟩ := List.mem_map.mp hd
  exact (congrArg Prod.fst h).symm

theorem Condition.key_eq_iff {e : Condition} {key : Code × Scope} :
    (decide (e.code = key.1) && decide (e.scope = key.2)) = true ↔ e.key = key := by
  simp [Condition.key, Prod.ext_iff]

/-- Among entries made each for its own pair, the entry of a pair is the one made for it. -/
theorem findEntry_filterMap {f : Code × Scope → Option Condition} (hf : ∀ key e, f key = some e → e.key = key) :
    ∀ {keys : List (Code × Scope)}, keys.Nodup → ∀ key ∈ keys, findEntry (keys.filterMap f) key.1 key.2 = f key
  | [], _, _, hmem => nomatch hmem
  | x :: keys, hnd, key, hmem => by
    obtain ⟨hx, hnd⟩ := List.nodup_cons.mp hnd
    rcases List.mem_cons.mp hmem with rfl | hmem
    · cases he : f key with
      | none =>
        rw [List.filterMap_cons_none he]
        refine List.find?_eq_none.mpr fun e hmem' => ?_
        obtain ⟨y, hy, hfy⟩ := List.mem_filterMap.mp hmem'
        rw [Condition.key_eq_iff, hf y e hfy]
        exact fun h => hx (h ▸ hy)
      | some e =>
        rw [List.filterMap_cons_some he]
        exact List.find?_cons_of_pos (Condition.key_eq_iff.mpr (hf key e he))
    · rw [← findEntry_filterMap hf hnd key hmem]
      cases he : f x with
      | none => rw [List.filterMap_cons_none he]
      | some e =>
        rw [List.filterMap_cons_some he]
        refine List.find?_cons_of_neg ?_
        rw [Condition.key_eq_iff, hf x e he]
        exact fun h => hx (h ▸ hmem)

/-- The treatment of an entry changes it exactly when it raises an ALARM cause (R143), where an entry that is not active is
latched. -/
theorem treatEntry_ne_iff {stamp : Stamp} {latch present : Bool} {reach : Reach} {c : Code} {sc : Scope} {old : Option Condition}
    (hold : ∀ e, old = some e → e.active = false → e.latched ≠ none) :
    treatEntry stamp latch reach c sc present old ≠ old ↔ entryChanged present old = true := by
  cases old with
  | none => cases present <;> simp [treatEntry, entryChanged]
  | some e =>
    have hlatched := hold e rfl
    obtain ⟨code, scope, active, latched, onset⟩ := e
    cases present with
    | true => cases active <;> simp [treatEntry, entryChanged]
    | false =>
      cases latched with
      | none =>
        cases active with
        | false => exact absurd rfl (hlatched rfl)
        | true => simp [treatEntry, entryChanged]
      | some reach => cases active <;> simp [treatEntry, entryChanged]

/-- The state in which the causes of a set in evaluation are judged. -/
def causeSet (p : Published) (s : State) : State :=
  countedCt (setTopology p s) (setResults p s) (heldSet p s)

section
variable {p : Published} {s : State}

theorem supervisedSet_counts :
    (supervisedSet p s).supervision.ctCounts = (s.supervision.countCt (setTopology p s) (setResults p s)).ctCounts ∧
      (supervisedSet p s).supervision.checkCt = (s.supervision.countCt (setTopology p s) (setResults p s)).checkCt := by
  rw [← heldSet_supervision p s]
  exact ⟨superviseSet_ctCounts _ _ _, superviseSet_checkCt _ _ _⟩

theorem evaluateSet_sound_supervision (hp : s.published = some p) (hw : s.SoundWindow) :
    (evaluateSet s).supervision = (supervisedSet p s).supervision := by
  rw [evaluateSet_sound hp hw, finishSet_supervision_eq]

theorem evaluateSet_conditions (hp : s.published = some p) (hw : s.SoundWindow) :
    (evaluateSet s).supervision.conditions = nextConditions (setTopology p s) (causeSet p s) := by
  rw [evaluateSet_sound_supervision hp hw]
  exact superviseSet_conditions _ _ _

theorem evaluateSet_ctCounts (hp : s.published = some p) (hw : s.SoundWindow) :
    (evaluateSet s).supervision.ctCounts = (s.supervision.countCt (setTopology p s) (setResults p s)).ctCounts := by
  rw [evaluateSet_sound_supervision hp hw, supervisedSet_counts.1]

theorem evaluateSet_checkCt (hp : s.published = some p) (hw : s.SoundWindow) :
    (evaluateSet s).supervision.checkCt = (s.supervision.countCt (setTopology p s) (setResults p s)).checkCt := by
  rw [evaluateSet_sound_supervision hp hw, supervisedSet_counts.2]

/-- Causes are judged on the evaluated state's counts and positions. -/
theorem causeSet_present (hp : s.published = some p) (hw : s.SoundWindow) (c : Code) (sc : Scope) :
    causePresent (causeSet p s) c sc = true ↔ Caused s (evaluateSet s) c sc := by
  have hf := heldSet_frame p s
  have hstore : (causeSet p s).store = s.store := hf.store
  have hactive : (causeSet p s).active = s.active := hf.active
  have hports : (causeSet p s).ports = s.ports := hf.ports
  have hstreams : (causeSet p s).streams = s.streams := hf.streams
  have hreplica : (causeSet p s).replica = (evaluateSet s).replica := (evaluateSet_assembly hp).replica.symm
  have hsup : (causeSet p s).supervision = s.supervision.countCt (setTopology p s) (setResults p s) :=
    congrArg (Supervision.countCt _ _) (heldSet_supervision p s)
  simp only [causePresent_iff, Caused, hstore, hactive, hports, hstreams, hreplica, evaluateSet_ctCounts hp hw,
    evaluateSet_checkCt hp hw, hsup]

theorem causeSet_conditions : (causeSet p s).supervision.conditions = s.supervision.conditions := by
  show (heldSet p s).supervision.conditions = _
  rw [heldSet_supervision]

theorem causeSet_response (c : Code) : (causeSet p s).supervision.response c = s.supervision.response c := by
  show (heldSet p s).supervision.response c = _
  rw [heldSet_supervision]

theorem causeSet_bays : (causeSet p s).bays = s.bays :=
  (heldSet_frame p s).bays

theorem causeSet_pairExists (c : Code) (sc : Scope) : pairExists (causeSet p s) c sc = pairExists s c sc := by
  have hyard : (causeSet p s).yard = s.yard := (heldSet_frame p s).yard
  unfold pairExists
  rw [causeSet_bays, hyard]

theorem causeSet_tabled (h : s.Tabled) : (causeSet p s).Tabled where
  keys := by
    simp only [State.possibleKeys, causeSet_pairExists, causeSet_conditions]
    exact h.keys
  latched := by
    rw [causeSet_conditions]
    exact h.latched

/-- The entry of a possible pair after a set is the treatment of the entry before it (R143). -/
theorem evaluateSet_entryOf (hp : s.published = some p) (hw : s.SoundWindow) (h : s.Tabled) {key : Code × Scope}
    (hkey : key ∈ s.possibleKeys) :
    (evaluateSet s).entryOf key =
      treatEntry p.stamp (s.supervision.response key.1).latch (reachOf s.bays (setTopology p s) key.1 key.2) key.1 key.2
        (causePresent (causeSet p s) key.1 key.2) (s.entryOf key) := by
  obtain ⟨hmem, hpair⟩ := List.mem_filter.mp hkey
  rw [State.entryOf_eq, evaluateSet_conditions hp hw, nextConditions,
    findEntry_filterMap (fun key e he => (nextEntry_eq_some (causeSet_tabled h) he).1) conditionKeys_nodup key hmem, nextEntry]
  rw [causeSet_pairExists, if_pos hpair, causeSet_conditions, causeSet_response, causeSet_bays, ← State.entryOf_eq]
  rfl

theorem evaluateSet_tabled (h : s.Tabled) : (evaluateSet s).Tabled := by
  have hmoves := moves_evaluateSet s
  generalize evaluateSet s = t at hmoves ⊢
  induction hmoves with
  | refl => exact h
  | tail _ hmove ih => exact hmove.keeps_tabled ih

/-! ### The ALARM cause (R143, R180) -/

/-- An entry of the table that is not active is latched (R139). -/
theorem State.Tabled.latched_of_inactive (h : s.Tabled) {key : Code × Scope} {e : Condition} (he : s.entryOf key = some e)
    (ha : e.active = false) : e.latched ≠ none := by
  rw [State.entryOf_eq] at he
  exact h.latched e (findEntry_eq_some he).1 ha

/-- A set raises the ALARM cause exactly when it changes an entry whose code's level is not NONE. -/
theorem alarmCause_iff (hp : s.published = some p) (hw : s.SoundWindow) (h : s.Tabled) :
    alarmCause (causeSet p s) = true ↔
      ∃ key ∈ s.possibleKeys, (evaluateSet s).entryOf key ≠ s.entryOf key ∧ (s.supervision.response key.1).level ≠ .none := by
  have hchanged {key : Code × Scope} (hkey : key ∈ s.possibleKeys) : (evaluateSet s).entryOf key ≠ s.entryOf key ↔
      entryChanged (causePresent (causeSet p s) key.1 key.2) (s.entryOf key) = true := by
    rw [evaluateSet_entryOf hp hw h hkey]
    exact treatEntry_ne_iff fun e he => h.latched_of_inactive he
  simp only [alarmCause, List.any_eq_true, Bool.and_eq_true, decide_eq_true_iff, causeSet_pairExists, causeSet_response,
    causeSet_conditions, ← State.entryOf_eq]
  constructor
  · rintro ⟨key, hmem, ⟨hpair, hch⟩, hlevel⟩
    have hkey : key ∈ s.possibleKeys := List.mem_filter.mpr ⟨hmem, hpair⟩
    exact ⟨key, hkey, (hchanged hkey).mpr hch, hlevel⟩
  · rintro ⟨key, hkey, hch, hlevel⟩
    obtain ⟨hmem, hpair⟩ := List.mem_filter.mp hkey
    exact ⟨key, hmem, ⟨hpair, (hchanged hkey).mp hch⟩, hlevel⟩

/-- A cause that makes no notice leaves the one that waits. -/
theorem causeAlarm_keeps_idle (h : s.link.alarm.cause.2 = false) : s.link.Keeps .alarm (causeAlarm s).link := by
  refine .ofKick ?_ rfl
  dsimp only
  rw [h]
  rfl

/-- A cause that makes a notice shows the condition table at that moment. -/
theorem causeAlarm_carries (h : s.link.alarm.cause.2 = true) :
    (causeAlarm s).link.Carries (causeAlarm s).link.slots.alarm 0x62 (conditionBytes s.supervision.conditions) := by
  refine ControlLink.kick_carries (n := .alarm) ?_
  dsimp only
  rw [h]
  rfl

theorem causeAlarm_taken : (causeAlarm s).link.Taken .alarm :=
  ControlLink.kick_taken .alarm _

theorem causeAlarm_alarm : (causeAlarm s).link.alarm = s.link.alarm.cause.1 :=
  ControlLink.kick_alarm _

/-- Trip logic and the end of a set make no ALARM notice. -/
theorem finishSet_keeps_alarm (p : Published) (t : Topology) (r : Results) (s : State) :
    s.link.Keeps .alarm (finishSet p t r s).link := by
  refine ControlLink.Keeps.trans ?_ (finishSet_keeps .alarm p t r s)
  unfold tripStage
  split
  · exact .ofKick rfl rfl
  · exact .refl _ _

theorem heldSet_alarm : (heldSet p s).link.alarm = s.link.alarm :=
  assembleZones_alarm _ _

theorem supervisedSet_raised (h : alarmCause (causeSet p s) = true) :
    (supervisedSet p s).link = (causeAlarm (treatedSet (setTopology p s) (setResults p s) (heldSet p s))).link :=
  (superviseSet_link _ _ _).trans (if_pos h)

theorem supervisedSet_unraised (h : ¬ alarmCause (causeSet p s) = true) : (supervisedSet p s).link = (heldSet p s).link :=
  (superviseSet_link _ _ _).trans (if_neg h)

theorem evaluateSet_alarm (hp : s.published = some p) (hw : s.SoundWindow) :
    (evaluateSet s).link.alarm = (supervisedSet p s).link.alarm := by
  rw [evaluateSet_sound hp hw, (finishSet_supervision _ _ _ _).alarm]

theorem evaluateSet_keeps_alarm (hp : s.published = some p) (hw : s.SoundWindow) :
    (supervisedSet p s).link.Keeps .alarm (evaluateSet s).link := by
  rw [evaluateSet_sound hp hw]
  exact finishSet_keeps_alarm _ _ _ _

/-- A set that raises the ALARM cause, and the notice that it makes. -/
theorem evaluateSet_alarm_raised (hp : s.published = some p) (hw : s.SoundWindow) (h : alarmCause (causeSet p s) = true) :
    s.link.alarm.CausedTo (evaluateSet s).link.alarm
      ((evaluateSet s).link.Carries (evaluateSet s).link.slots.alarm 0x62
        (conditionBytes (evaluateSet s).supervision.conditions)) := by
  have hkeeps := evaluateSet_keeps_alarm hp hw
  obtain ⟨hoff, hrun, hmade⟩ := s.link.alarm.cause_causedTo
  rw [evaluateSet_alarm hp hw, evaluateSet_conditions hp hw]
  rw [supervisedSet_raised h] at hkeeps ⊢
  have hclass : (treatedSet (setTopology p s) (setResults p s) (heldSet p s)).link.alarm = s.link.alarm := heldSet_alarm
  rw [causeAlarm_alarm, hclass]
  refine ⟨hoff, hrun, fun he ht => ⟨(hmade he ht).1, hkeeps.carries causeAlarm_taken (causeAlarm_carries ?_)⟩⟩
  rw [hclass]
  exact (hmade he ht).2

theorem evaluateSet_alarm_unraised (hp : s.published = some p) (hw : s.SoundWindow) (h : ¬ alarmCause (causeSet p s) = true) :
    (evaluateSet s).link.alarm = s.link.alarm := by
  rw [evaluateSet_alarm hp hw, supervisedSet_unraised h, heldSet_alarm]

/-- Without a cause that makes a notice, the ALARM notice that waits is the one that waited. -/
theorem evaluateSet_alarm_slot (hp : s.published = some p) (hw : s.SoundWindow)
    (h : ¬ alarmCause (causeSet p s) = true ∨ s.link.alarm.enabled = false ∨ s.link.alarm.timer ≠ none) (hl : s.link.Settled) :
    (evaluateSet s).link.slots.alarm = s.link.slots.alarm := by
  have hheld : s.link.Keeps .alarm (heldSet p s).link := assembledSet_keeps .alarm p s
  have hstage : (heldSet p s).link.Keeps .alarm (supervisedSet p s).link := by
    by_cases hc : alarmCause (causeSet p s) = true
    · have hidle : (heldSet p s).link.alarm.cause.2 = false := by
        rw [heldSet_alarm]
        exact NoticeClass.cause_idle (h.resolve_left (not_not_intro hc))
      rw [supervisedSet_raised hc]
      exact causeAlarm_keeps_idle (s := treatedSet (setTopology p s) (setResults p s) (heldSet p s)) hidle
    · rw [supervisedSet_unraised hc]
      exact .refl _ _
  exact ((hheld.trans hstage).trans (evaluateSet_keeps_alarm hp hw)).slot (hl.taken .alarm)

end

end Sys2Proof.Machine

open Sys2Proof Sys2Proof.Machine

/-- Settles O34, from the counts of the set, the treatment of each possible pair's entry, and the changes that raise the cause. -/
theorem evaluationTreatsConditionEntries : Obligations.EvaluationTreatsConditionEntries := by
  intro s p hp hw htab
  refine ⟨_, setTopology p s, exec_evaluateSet s, evaluateSet_tabled htab, evaluateSet_topology hp, fun z hz ph k hk => ?_,
    fun k hk => ?_, fun ph => ?_, fun key hkey => ?_, ?_⟩
  · rw [evaluateSet_ctCounts hp hw, countCt_zone (setTopology_zoneOf hz hk)]
    exact countSuspect_iff (setResults_suspect hp hw hz ph) _
  · rw [evaluateSet_ctCounts hp hw]
    exact countCt_unheld (setTopology_zoneOf_none hk) _ _
  · rw [evaluateSet_checkCt hp hw, countCt_check]
    exact countSuspect_iff (setResults_checkSuspect hp hw ph) _
  · have hcause := causeSet_present hp hw key.1 key.2
    dsimp only
    rw [evaluateSet_entryOf hp hw htab hkey, ← hcause]
    refine ⟨fun hold hc => ?_, fun hold hc => ?_, fun e hold hc => ?_, fun e hold hc hl => ?_, fun e r hold hc hl => ?_⟩
    · rw [hold, treatEntry, if_neg hc]
    · rw [hold, treatEntry, if_pos hc]
      refine ⟨_, rfl, rfl, rfl, fun hlatch => ?_, fun hlatch => ⟨_, ?_, reachOf_captures s _ _ _⟩⟩
      · exact if_neg (Bool.eq_false_iff.mp hlatch)
      · exact if_pos hlatch
    · rw [hold, treatEntry, if_pos hc]
    · rw [hold, treatEntry, if_neg hc, hl]
      rfl
    · rw [hold, treatEntry, if_neg hc, hl]
      rfl
  · rw [← alarmCause_iff hp hw htab]
    exact ⟨evaluateSet_alarm_raised hp hw, evaluateSet_alarm_unraised hp hw, evaluateSet_alarm_slot hp hw⟩

end

section
/-! PROOF. The external fault detector on its own (R107 to R111, R113): each state's transition, a hold of h sets, and the merge. -/

namespace Sys2Proof.Machine

open Sys2Proof

/-! ### One transition, state by state -/

section

variable {bank : Bank} {d : Int} {r : Nat} {x : Detector}

theorem transition_quiet (hx : x.state = .quiet) : x.transition bank d r =
    if bank.extRestraint ≤ r then if 64 * d.natAbs < bank.extRatio * r then ⟨.watch, 0⟩ else ⟨.settle, 0⟩ else ⟨.quiet, 0⟩ := by
  simp only [Detector.transition, hx, restraintTest, ratioTest, decide_eq_true_eq]

theorem transition_watch (hx : x.state = .watch) : x.transition bank d r =
    if bank.extRestraint ≤ r ∧ 64 * d.natAbs < bank.extRatio * r then ⟨.external, bank.extHold⟩ else ⟨.settle, 0⟩ := by
  simp only [Detector.transition, hx, restraintTest, ratioTest, Bool.and_eq_true, decide_eq_true_eq]

theorem transition_external (hx : x.state = .external) : x.transition bank d r =
    if 1 < x.hold then ⟨.external, x.hold - 1⟩ else ⟨.settle, 0⟩ := by
  simp only [Detector.transition, hx]

theorem transition_settle (hx : x.state = .settle) : x.transition bank d r =
    if 2 * r < bank.extRestraint then ⟨.quiet, 0⟩ else ⟨.settle, 0⟩ := by
  simp only [Detector.transition, hx]

end

/-! ### A detector over many sets -/

/-- The detector after one transition on each d and r of a list, the first set first. -/
def Detector.after (bank : Bank) (currents : List (Int × Nat)) (x : Detector) : Detector :=
  currents.foldl (fun x c => x.transition bank c.1 c.2) x

theorem Detector.after_concat (bank : Bank) (currents : List (Int × Nat)) (c : Int × Nat) (x : Detector) :
    x.after bank (currents ++ [c]) = (x.after bank currents).transition bank c.1 c.2 :=
  List.foldl_concat ..

/-- Each set before the h-th takes one from the hold count and nothing else (R110). -/
theorem external_after_lt (bank : Bank) {h : Nat} (currents : List (Int × Nat)) (hlt : currents.length < h) :
    (⟨.external, h⟩ : Detector).after bank currents = ⟨.external, h - currents.length⟩ := by
  induction currents using List.reverseRecOn with
  | nil => rfl
  | append_singleton init c ih =>
    rw [List.length_append, List.length_singleton] at hlt ⊢
    have hone : 1 < h - init.length := by omega
    rw [Detector.after_concat, ih (by omega), transition_external rfl, if_pos hone, Nat.sub_sub]

/-- The set before the h-th leaves a hold count of 1, which the h-th set ends (R110). -/
theorem external_after_hold (bank : Bank) {h : Nat} (hpos : 1 ≤ h) {currents : List (Int × Nat)} (hlen : currents.length = h) :
    (⟨.external, h⟩ : Detector).after bank currents = ⟨.settle, 0⟩ := by
  rcases List.eq_nil_or_concat' currents with rfl | ⟨init, c, rfl⟩
  · exact absurd hlen (Nat.ne_of_lt hpos)
  · rw [List.length_append, List.length_singleton] at hlen
    have hleft : h - init.length = 1 := by omega
    rw [Detector.after_concat, external_after_lt bank init (by omega), hleft, transition_external_one]

/-! ### The merge of a changed zone -/

/-- The largest hold count is 0 where nothing raises it, else it is that of a detector in EXTERNAL. -/
theorem largestHold_zero_or_attained (ds : List Detector) :
    largestHold ds = 0 ∨ ∃ x ∈ ds, x.state = .external ∧ x.hold = largestHold ds := by
  induction ds with
  | nil => exact .inl rfl
  | cons y ds ih =>
    rw [largestHold_cons]
    rcases le_total (if y.state = .external then y.hold else 0) (largestHold ds) with hle | hle
    · rw [max_eq_right hle]
      exact ih.imp_right fun ⟨x, hx, h⟩ => ⟨x, List.mem_cons_of_mem y hx, h⟩
    · rw [max_eq_left hle]
      by_cases hy : y.state = .external
      · exact .inr ⟨y, List.mem_cons_self, hy, (if_pos hy).symm⟩
      · exact .inl (if_neg hy)

theorem largestHold_attained {ds : List Detector} (h : ∃ x ∈ ds, x.state = .external) :
    ∃ x ∈ ds, x.state = .external ∧ x.hold = largestHold ds := by
  obtain ⟨x, hx, he⟩ := h
  refine (largestHold_zero_or_attained ds).elim (fun hzero => ⟨x, hx, he, ?_⟩) id
  exact Nat.le_antisymm (le_largestHold hx he) (hzero ▸ Nat.zero_le _)

theorem any_state_iff {ds : List Detector} {q : DetectorState} :
    ds.any (fun x => decide (x.state = q)) = true ↔ ∃ x ∈ ds, x.state = q := by
  simp only [List.any_eq_true, decide_eq_true_eq]

theorem mergeDetectors_of_external {ds : List Detector} (h : ∃ x ∈ ds, x.state = .external) :
    mergeDetectors ds = ⟨.external, largestHold ds⟩ :=
  if_pos (any_state_iff.mpr h)

/-- Without a section in EXTERNAL, one in SETTLE or in WATCH makes the zone's state SETTLE (R113). -/
theorem mergeDetectors_of_settle_or_watch {ds : List Detector} (hne : ∀ x ∈ ds, x.state ≠ .external)
    (h : ∃ x ∈ ds, x.state = .settle ∨ x.state = .watch) : mergeDetectors ds = ⟨.settle, 0⟩ := by
  obtain ⟨x, hx, hs⟩ := h
  rw [mergeDetectors, if_neg fun he => absurd (any_state_iff.mp he) fun ⟨y, hy, hey⟩ => hne y hy hey]
  split_ifs with hsettle hwatch
  · rfl
  · rfl
  · exact hs.elim (fun hq => absurd (any_state_iff.mpr ⟨x, hx, hq⟩) hsettle) fun hq => absurd (any_state_iff.mpr ⟨x, hx, hq⟩) hwatch

theorem mergeDetectors_of_quiet {ds : List Detector} (h : ∀ x ∈ ds, x.state = .quiet) : mergeDetectors ds = ⟨.quiet, 0⟩ := by
  have hnone : ∀ q : DetectorState, q ≠ .quiet → ¬ ds.any (fun x => decide (x.state = q)) = true := fun q hq hany => by
    obtain ⟨x, hx, hxq⟩ := any_state_iff.mp hany
    exact hq (hxq.symm.trans (h x hx))
  rw [mergeDetectors, if_neg (hnone .external nofun), if_neg (hnone .settle nofun), if_neg (hnone .watch nofun)]

end Sys2Proof.Machine

open Sys2Proof Sys2Proof.Machine

/-- Settles O26: each row of the table is one state's transition, and the hold is counted down by induction on the sets. -/
theorem detectorFollowsItsTable : Obligations.DetectorFollowsItsTable := by
  refine ⟨fun bank d r x => ⟨fun hx hq => ?_, fun hx hr hq => ?_, fun hx hr => ?_, fun hx hq => ?_, fun hx hq => ?_,
    fun hx hone => ?_, fun hx hone => ?_, fun hx hlow => ?_, fun hx hhigh => ?_⟩,
    fun bank currents h hpos => ⟨external_after_lt bank currents, external_after_hold bank hpos⟩⟩
  · rw [transition_quiet hx, if_pos hq.1, if_pos hq.2]
  · rw [transition_quiet hx, if_pos hr, if_neg fun hratio => hq ⟨hr, hratio⟩]
  · rw [transition_quiet hx, if_neg hr]
  · rw [transition_watch hx, if_pos hq]
  · rw [transition_watch hx, if_neg hq]
  · rw [transition_external hx, if_pos hone]
  · rw [transition_external hx, if_neg (Nat.not_lt.mpr hone.le)]
  · rw [transition_settle hx, if_pos hlow]
  · rw [transition_settle hx, if_neg (Nat.not_lt.mpr hhigh)]

/-- Settles O27, from the merge's three answers: the largest hold count in EXTERNAL is a bound and is attained. -/
theorem mergeTakesTheStrongestDetector : Obligations.MergeTakesTheStrongestDetector := by
  refine fun ds _ => ⟨fun he => ?_, mergeDetectors_of_settle_or_watch, mergeDetectors_of_quiet⟩
  rw [mergeDetectors_of_external he]
  exact ⟨rfl, fun x hx hxe => le_largestHold hx hxe, largestHold_attained he⟩

end

section
/-! PROOF. What every step does to the lines, the latches, the timers and the sample timer that the mode drives: each command keeps
them as the mode has them, and no command but an evaluation in RUN sets a latch. -/

namespace Sys2Proof.Machine

open Sys2Proof

/-! ### What State.Driven reads -/

/-- The two states agree in all that State.Driven reads. -/
structure DriveFrame (s t : State) : Prop where
  mode : t.mode = s.mode
  healthy : t.lines.healthy = s.lines.healthy
  tripLines : t.lines.trip = s.lines.trip
  tripLatch : t.trip.tripLatch = s.trip.tripLatch
  backtripLatch : t.trip.backtripLatch = s.trip.backtripLatch
  captured : t.trip.captured = s.trip.captured
  bf : t.bf = s.bf
  running : t.timer.running = s.timer.running
  haltCode : t.supervision.haltCode = s.supervision.haltCode
  published : t.published = s.published
  waitingX : t.ports.x.waiting = s.ports.x.waiting
  waitingY : t.ports.y.waiting = s.ports.y.waiting

theorem DriveFrame.refl (s : State) : DriveFrame s s := by
  constructor <;> rfl

theorem DriveFrame.trans {s t u : State} (h : DriveFrame s t) (k : DriveFrame t u) : DriveFrame s u :=
  ⟨k.mode.trans h.mode, k.healthy.trans h.healthy, k.tripLines.trans h.tripLines, k.tripLatch.trans h.tripLatch,
    k.backtripLatch.trans h.backtripLatch, k.captured.trans h.captured, k.bf.trans h.bf, k.running.trans h.running,
    k.haltCode.trans h.haltCode, k.published.trans h.published, k.waitingX.trans h.waitingX, k.waitingY.trans h.waitingY⟩

theorem DriveFrame.driven {s t : State} (h : DriveFrame s t) (hs : s.Driven) : t.Driven where
  healthy := by rw [h.healthy, h.mode, hs.healthy]
  trip k := by rw [h.tripLines, h.mode, h.tripLatch, h.backtripLatch, hs.trip]
  latches hm := by rw [h.tripLatch, h.backtripLatch]; exact hs.latches (h.mode ▸ hm)
  timers hm := by rw [h.bf]; exact hs.timers (h.mode ▸ hm)
  captured := by rw [h.tripLatch, h.backtripLatch, h.captured]; exact hs.captured
  clock := by rw [h.running, h.mode, hs.clock]
  haltCode := by rw [h.haltCode, h.mode, hs.haltCode]
  evaluation hm := by rw [h.published]; exact hs.evaluation (h.mode ▸ hm)
  waiting hm := by rw [h.waitingX, h.waitingY]; exact hs.waiting (h.mode ▸ hm)

/-- The link drives nothing. -/
theorem DriveFrame.ofLink (s : State) (l : ControlLink) : DriveFrame s { s with link := l } := by
  constructor <;> rfl

/-- What the mode drives is kept, and no latch is set. -/
structure KeepsDrive (s t : State) : Prop where
  driven : s.Driven → t.Driven
  tripLatch : ∀ k, t.trip.tripLatch.get k = true → s.trip.tripLatch.get k = true
  backtripLatch : ∀ k, t.trip.backtripLatch.get k = true → s.trip.backtripLatch.get k = true

theorem KeepsDrive.refl (s : State) : KeepsDrive s s := ⟨id, fun _ => id, fun _ => id⟩

theorem KeepsDrive.trans {s t u : State} (h : KeepsDrive s t) (k : KeepsDrive t u) : KeepsDrive s u :=
  ⟨fun hs => k.driven (h.driven hs), fun b hb => h.tripLatch b (k.tripLatch b hb), fun b hb =>
    h.backtripLatch b (k.backtripLatch b hb)⟩

theorem DriveFrame.keeps {s t : State} (h : DriveFrame s t) : KeepsDrive s t :=
  ⟨h.driven, fun _ hb => h.tripLatch ▸ hb, fun _ hb => h.backtripLatch ▸ hb⟩

/-- A latch table with no latch set has none that was clear before. -/
theorem KeepsDrive.ofClear {s t : State} (h : s.Driven → t.Driven) (ht : t.trip.tripLatch = Table.fill 4 false)
    (hb : t.trip.backtripLatch = Table.fill 4 false) : KeepsDrive s t :=
  ⟨h, fun k hk => by simp [ht] at hk, fun k hk => by simp [hb] at hk⟩

/-- The clock runs in SETUP and RUN alone (R29, R153). -/
theorem State.Driven.running_iff {s : State} (h : s.Driven) : s.timer.running = true ↔ s.mode ≠ .halted := by
  rw [h.clock, decide_eq_true_iff]

/-- A set is in evaluation in SETUP and RUN alone (R153). -/
theorem State.Driven.not_halted {s : State} (h : s.Driven) (hp : s.published ≠ none) : s.mode ≠ .halted :=
  fun hm => hp (h.evaluation hm)

/-- State.Driven but for the lines. -/
structure State.Moded (s : State) : Prop where
  latches : s.mode ≠ .run → ∀ k, s.trip.tripLatch.get k = false ∧ s.trip.backtripLatch.get k = false
  timers : s.mode ≠ .run → ∀ b, s.bf.get b = BfTimer.reset
  captured : ∀ k, s.trip.tripLatch.get k = false → s.trip.backtripLatch.get k = false → s.trip.captured.get k = 0
  clock : s.timer.running = decide (s.mode ≠ .halted)
  haltCode : s.mode = .halted ↔ s.supervision.haltCode ≠ none
  evaluation : s.mode = .halted → s.published = none
  waiting : s.mode = .halted → s.ports.x.waiting = none ∧ s.ports.y.waiting = none

/-- The lines are driven (R126, R172). -/
theorem State.Moded.driveLines {s : State} (h : s.Moded) : (driveLines s).Driven where
  healthy := rfl
  trip k := Table.get_build _ k
  latches := h.latches
  timers := h.timers
  captured := h.captured
  clock := h.clock
  haltCode := h.haltCode
  evaluation := h.evaluation
  waiting := h.waiting

/-! ### The shared operations -/

theorem keepsDrive_reportCheck (c : IntegrityCheck) (s : State) : KeepsDrive s (reportCheck c s) := by
  by_cases hm : s.mode = .halted
  · rw [reportCheck_in_halted c hm]
    cases c <;> exact DriveFrame.keeps (by constructor <;> rfl)
  · rw [reportCheck_enters c hm]
    refine .ofClear (fun _ => State.Moded.driveLines ?_) rfl rfl
    exact ⟨fun _ k => ⟨Table.get_fill _ k, Table.get_fill _ k⟩, fun _ => idleTimers_get, fun k _ _ => Table.get_fill _ k, rfl,
      iff_of_true rfl nofun, fun _ => rfl, fun _ => ⟨rfl, rfl⟩⟩

/-- RUN and SETUP are entered with every latch clear and every timer in IDLE (R174, R177). -/
theorem cleared_moded {s t : State} (hs : s.Driven) (hm : s.mode ≠ .halted) (ht : t.mode ≠ .halted)
    (htrip : t.trip.tripLatch = Table.fill 4 false) (hback : t.trip.backtripLatch = Table.fill 4 false)
    (hcap : t.trip.captured = Table.fill 4 0) (hbf : t.bf = idleTimers) (hrun : t.timer.running = s.timer.running)
    (hcode : t.supervision.haltCode = s.supervision.haltCode) : t.Moded where
  latches _ k := by simp [htrip, hback]
  timers _ b := by rw [hbf, idleTimers_get]
  captured k _ _ := by rw [hcap, Table.get_fill]
  clock := by rw [hrun, hs.running_iff.mpr hm, decide_eq_true ht]
  haltCode := by rw [hcode, ← hs.haltCode]; exact iff_of_false ht hm
  evaluation h := absurd h ht
  waiting h := absurd h ht

theorem keepsDrive_enterRun {s : State} (hrun : s.timer.running = true) : KeepsDrive s (enterRun s) :=
  .ofClear (fun hs => State.Moded.driveLines
    (cleared_moded hs (hs.running_iff.mp hrun) nofun rfl rfl rfl rfl rfl rfl)) rfl rfl

theorem keepsDrive_returnToSetup {s : State} (hrun : s.timer.running = true) : KeepsDrive s (returnToSetup s) :=
  .ofClear (fun hs => State.Moded.driveLines
    (cleared_moded hs (hs.running_iff.mp hrun) nofun rfl rfl rfl rfl rfl rfl)) rfl rfl

theorem keepsDrive_makeRestart {s : State} (hm : s.mode ≠ .halted) : KeepsDrive s (makeRestart s) :=
  .ofClear (fun hs => State.Moded.driveLines (cleared_moded hs hm nofun rfl rfl rfl rfl rfl rfl)) rfl rfl

/-- A nominal instant counts silence and steps the timer's counts alone. -/
theorem nominalInstant_drive (s : State) : DriveFrame s (nominalInstant s) := by
  have hadvance : (s.timer.advance s.yard.frequency).running = s.timer.running := by
    unfold SampleTimer.advance
    split <;> rfl
  unfold nominalInstant
  split
  · exact ⟨rfl, rfl, rfl, rfl, rfl, rfl, rfl, hadvance, rfl, rfl, rfl, rfl⟩
  · exact .refl s

/-! ### Frames on the ports -/

/-- A port changes beside its trip frames. -/
theorem DriveFrame.onPort {f : PortState → PortState} (hf : ∀ q, (f q).waiting = q.waiting) (p : Port) (s : State) :
    DriveFrame s { s with ports := s.ports.modify p f } := by
  cases p
  · exact ⟨rfl, rfl, rfl, rfl, rfl, rfl, rfl, rfl, rfl, rfl, hf _, rfl⟩
  · exact ⟨rfl, rfl, rfl, rfl, rfl, rfl, rfl, rfl, rfl, rfl, rfl, hf _⟩

theorem streamFrame_drive (port : Port) (f : BayFrame) (s : State) : DriveFrame s (streamFrame port f s) := by
  unfold streamFrame
  repeat' split
  · exact .onPort (by intro q; rfl) port s
  · exact .refl s
  · exact .onPort (by intro q; rfl) port s
  · exact .onPort (by intro q; rfl) port s
  · constructor <;> rfl

theorem receiveFrame_drive (port : Port) (frame : List Byte) (s : State) : DriveFrame s (receiveFrame port frame s) := by
  have hvalid := DriveFrame.onPort
    (f := fun q => { { q with link := .up, silence := 0 } with valid := bump q.valid }) (fun _ => rfl) port s
  unfold receiveFrame
  dsimp only
  repeat' split
  · exact .onPort (by intro q; rfl) port s
  · exact hvalid
  · exact hvalid.trans (streamFrame_drive port _ _)
  · exact hvalid.trans (streamFrame_drive port _ _)
  · exact .onPort (by intro q; rfl) port s

/-- A trip frame that starts leaves none waiting (R21). -/
theorem keepsDrive_tripFrameSent (p : Port) (s : State) : KeepsDrive s { s with ports := s.ports.modify p PortState.sent } := by
  have hsent : ∀ q : PortState, q.waiting = none → q.sent.waiting = none := by
    intro q hq
    unfold PortState.sent
    split
    · exact hq
    · rfl
  refine ⟨fun h => { h with waiting := fun hm => ?_ }, fun _ => id, fun _ => id⟩
  obtain ⟨hx, hy⟩ := h.waiting hm
  cases p
  · exact ⟨hsent _ hx, hy⟩
  · exact ⟨hx, hsent _ hy⟩

/-! ### The close -/

theorem keepsDrive_closeFlight {s : State} (hrun : s.timer.running = true) : KeepsDrive s (closeFlight s) := by
  unfold closeFlight
  split
  · exact DriveFrame.keeps (by constructor <;> rfl)
  next toRun _ =>
    cases toRun
    · exact (keepsDrive_returnToSetup hrun).trans (DriveFrame.ofLink _ _).keeps
    · exact (keepsDrive_enterRun hrun).trans (DriveFrame.ofLink _ _).keeps
  · exact (DriveFrame.ofLink _ _).keeps
  · exact .refl s
  · exact .refl s

theorem writeClose_drive (s : State) : DriveFrame s (writeClose s) := by
  constructor <;> rfl

/-- A set is published while the clock runs alone (R33). -/
theorem keepsDrive_publish {s : State} (hrun : s.timer.running = true) (p : Published) :
    KeepsDrive s { s with published := some p } :=
  ⟨fun h => { h with evaluation := fun hm => absurd hm (h.running_iff.mp hrun) }, fun _ => id, fun _ => id⟩

theorem keepsDrive_closeSet {s : State} (hrun : s.timer.running = true) : KeepsDrive s (closeSet s) := by
  have hflight := keepsDrive_closeFlight hrun
  have hwrite := (writeClose_drive (closeFlight s)).keeps
  have hrun' : (writeClose (closeFlight s)).timer.running = true := by rw [writeClose_timer, closeFlight_timer, hrun]
  unfold closeSet closeStore
  refine hflight.trans (hwrite.trans ?_)
  split
  · exact keepsDrive_reportCheck _ _
  · exact keepsDrive_publish hrun' _

theorem applyUpsets_drive (u : List Upset) (s : State) : DriveFrame s (applyUpsets u s) := by
  constructor <;> rfl

theorem closeDue_running {s : State} (h : closeDue s = true) : s.timer.running = true :=
  (closeDue_iff.mp h).1

/-! ### The stages of an evaluation -/

theorem deriveReplica_drive (p : Published) (s : State) : DriveFrame s (deriveReplica p s) := by
  constructor <;> rfl

theorem assembleZones_drive (st : Stamp) (s : State) : DriveFrame s (assembleZones st s) := by
  constructor <;> simp

theorem measureSet_drive (t : Topology) (s : State) : DriveFrame s (measureSet t s).state := by
  obtain ⟨e, d, h⟩ := measureSet_frame t s
  rw [h]
  constructor <;> rfl

@[simp] theorem superviseSet_haltCode (t : Topology) (r : Results) (s : State) :
    (superviseSet t r s).supervision.haltCode = s.supervision.haltCode := by
  unfold superviseSet
  dsimp only
  split <;> rfl

theorem superviseSet_drive (t : Topology) (r : Results) (s : State) : DriveFrame s (superviseSet t r s) := by
  constructor <;> simp

theorem answerSettle_drive (s : State) : DriveFrame s (answerSettle s) := by
  constructor <;> simp

theorem measurePart_drive (supervised : Bool) (t : Topology) (s : State) :
    DriveFrame s (measurePart supervised t s).state := by
  have h := measureSet_drive t s
  unfold measurePart
  cases hm : measureSet t s with
  | abandoned s1 => rw [hm] at h; exact h
  | whole s1 r =>
    rw [hm] at h
    cases supervised
    · exact h
    · exact h.trans (superviseSet_drive t r s1)

theorem assembledSet_drive (p : Published) (s : State) : DriveFrame s (assembledSet p s) :=
  (deriveReplica_drive p s).trans (assembleZones_drive p.stamp _)

/-- The stages that act before trip logic leave what the mode drives. -/
theorem evaluatePart_drive (n : Nat) (p : Published) (s : State) : DriveFrame s (evaluatePart n p s).state := by
  unfold evaluatePart
  dsimp only
  repeat' split
  · exact .refl s
  · exact deriveReplica_drive p s
  · exact assembledSet_drive p s
  · exact (assembledSet_drive p s).trans (measurePart_drive _ _ _)

theorem keepsDrive_cutShort (m : ClockReport) (s : State) : KeepsDrive s (cutShort m s).state := by
  unfold cutShort
  split
  · exact (evaluatePart_drive _ _ _).keeps
  · dsimp only
    split
    next h =>
      simp only [Bool.and_eq_true] at h
      obtain ⟨⟨-, hdue⟩, -⟩ := h
      exact (keepsDrive_closeFlight (closeDue_running hdue)).trans (writeClose_drive _).keeps
    · exact .refl s

theorem keepsDrive_reportAbsent (clockFirst : Bool) (c : CutShort) : KeepsDrive c.state (reportAbsent clockFirst c) := by
  unfold reportAbsent
  repeat' split
  · exact (keepsDrive_reportCheck _ _).trans (keepsDrive_reportCheck _ _)
  · exact (keepsDrive_reportCheck _ _).trans (keepsDrive_reportCheck _ _)
  · exact keepsDrive_reportCheck _ _

/-! ### Trip logic in RUN (R121, R135) -/

/-- In RUN a section that is left without a latch captures nothing, and the lines show the latches. -/
theorem tripSet_driven {p : Published} {t : Topology} {r : Results} {s : State} (hm : s.mode = .run) (h : s.Driven) :
    (tripSet p t r s).Driven := by
  refine (DriveFrame.ofLink _ _).driven (State.Moded.driveLines
    ⟨fun hn => absurd hm hn, fun hn => absurd hm hn, fun k htrip hback => ?_, h.clock, h.haltCode, h.evaluation, h.waiting⟩)
  simp only [backtripLatches, latchZones, Table.get_build, Bool.or_eq_false_iff] at htrip hback ⊢
  obtain ⟨htrip, hnew⟩ := htrip
  obtain ⟨hback, hnone⟩ := hback
  rw [hnone, hnew]
  exact h.captured k htrip hback

theorem tripStage_driven {p : Published} {t : Topology} {r : Results} {s : State} (h : s.Driven) :
    (tripStage p t r s).Driven := by
  by_cases ha : s.mode = .run ∧ p.runAtClose = true
  · rw [tripStage_run ha.1 ha.2]
    exact tripSet_driven ha.1 h
  · unfold tripStage
    rw [if_neg (mt actsInRun_iff.mp ha)]
    exact { h with }

/-- What follows trip logic sets no latch and leaves the lines. -/
theorem keepsDrive_finish (st : Stamp) {s : State} (hp : s.published ≠ none) :
    KeepsDrive s (answerSettle { handTripFrame st s with published := none }) := by
  have hend : KeepsDrive s { handTripFrame st s with published := none } :=
    ⟨fun h => { h with evaluation := fun _ => rfl, waiting := fun hm => absurd hm (h.not_halted hp) }, fun _ => id, fun _ => id⟩
  exact hend.trans (answerSettle_drive _).keeps

/-- An evaluation leads to HALTED or to trip logic, with what the mode drives as the evaluation found it. -/
theorem evaluateSet_cases {s : State} {p : Published} (hp : s.published = some p) :
    ∃ u, DriveFrame s u ∧ (evaluateSet s = reportCheck .storeParity u ∨
      ∃ t r, evaluateSet s = finishSet p t r u) := by
  have hm := measureSet_drive (newTopology p.stamp (deriveReplica p s)) (assembledSet p s)
  have hs := (assembledSet_drive p s).trans hm
  cases hmeas : measureSet (newTopology p.stamp (deriveReplica p s)) (assembledSet p s) with
  | abandoned u => rw [hmeas] at hs; exact ⟨u, hs, .inl (evaluateSet_abandoned hp hmeas)⟩
  | whole u r =>
    rw [hmeas] at hs
    exact ⟨_, hs.trans (superviseSet_drive _ r u), .inr ⟨_, r, evaluateSet_whole hp hmeas⟩⟩

theorem evaluateSet_driven {s : State} (h : s.Driven) : (evaluateSet s).Driven := by
  cases hp : s.published with
  | none => rw [evaluateSet_idle hp]; exact h
  | some p =>
    obtain ⟨u, hu, he | ⟨t, r, he⟩⟩ := evaluateSet_cases hp
    · rw [he]
      exact (keepsDrive_reportCheck _ u).driven (hu.driven h)
    · have hpub : (tripStage p t r u).published ≠ none := by rw [tripStage_published, hu.published, hp]; nofun
      rw [he]
      exact (keepsDrive_finish p.stamp hpub).driven (tripStage_driven (hu.driven h))

/-- An evaluation outside RUN, or of a set not closed in RUN, sets no latch (R174). -/
theorem keepsDrive_evaluateSet {s : State}
    (hout : ∀ p, s.published = some p → s.mode ≠ .run ∨ p.runAtClose = false) : KeepsDrive s (evaluateSet s) := by
  cases hp : s.published with
  | none => rw [evaluateSet_idle hp]; exact .refl s
  | some p =>
    obtain ⟨u, hu, he | ⟨t, r, he⟩⟩ := evaluateSet_cases hp
    · rw [he]
      exact hu.keeps.trans (keepsDrive_reportCheck _ u)
    · have hstage := tripStage_outside (p := p) (s := u) (hu.mode.symm ▸ hout p hp) t r
      have hu' : DriveFrame u (tripStage p t r u) := by rw [hstage]; constructor <;> rfl
      rw [he]
      exact (hu.trans hu').keeps.trans (keepsDrive_finish p.stamp (by rw [tripStage_published, hu.published, hp]; nofun))

/-! ### The service of a request -/

/-- What a request's own rule answers keeps what the mode drives. -/
def Service.KeepsDrive (s : State) : Service → Prop
  | .done t _ => Machine.KeepsDrive s t
  | .refuse _ _ => True
  | .hold _ => True
  | .restart => True

/-- The service of a request, from what its own rule does: in HALTED a rule acts for the requests served there alone. -/
theorem keepsDrive_serve {req : Request} {own : List Byte → State → Service}
    (h : ∀ s : State, (s.mode = .halted → ∃ row, requestRow req.kind = some row ∧ row.inHalted = true) →
      (own req.payload s).KeepsDrive s) (s : State) : KeepsDrive s (serve req own s) := by
  have hown : ∀ t : State, (commonChecks req own t).KeepsDrive t := by
    intro t
    unfold commonChecks
    split
    · trivial
    next row hrow =>
      split_ifs with hlen hhalt
      · trivial
      · trivial
      · exact h t fun hm => ⟨row, hrow, by simpa [hm] using hhalt⟩
  have hfin : ∀ t : State, KeepsDrive t (finishService req t (commonChecks req own t)) := by
    intro t
    have ht := hown t
    cases hc : commonChecks req own t with
    | done u data => rw [hc] at ht; exact KeepsDrive.trans ht (DriveFrame.ofLink u _).keeps
    | refuse st detail => exact (DriveFrame.ofLink t _).keeps
    | hold f => exact (DriveFrame.ofLink t _).keeps
    | restart => exact (DriveFrame.ofLink t _).keeps
  have hhead : ∀ t, s.atHead req = some t → KeepsDrive s t := by
    intro t ht
    unfold State.atHead at ht
    repeat' split at ht
    all_goals cases ht
    · exact .refl _
    · exact (DriveFrame.ofLink s _).keeps
  unfold serve
  split
  · exact .refl s
  next t ht =>
    split
    · exact (hhead t ht).trans (hfin t)
    · exact hhead t ht

theorem keepsDrive_serve_read {req : Request} (data : State → List Byte) (s : State) :
    KeepsDrive s (serve req (fun _ s => .done s (data s)) s) :=
  keepsDrive_serve (own := fun _ s => .done s (data s)) (fun _ _ => KeepsDrive.refl _) s

/-- The rules that touch nothing of what the mode drives: they read, or write settings, streams, records, blocks or notices. -/
def undrivingRules : List (List Byte → State → Service) :=
  [ruleMode, ruleStreamSet, ruleStreamDrop, ruleBayGet, ruleBankWrite, ruleBankRead, ruleBankApply, ruleResponseSet,
    ruleResponseGet, ruleStatus, ruleCounters, ruleRecordRead, ruleRecordDiscard, ruleZoneBlock, ruleForce, ruleNoticeSet]

theorem undrivingRules_keepDrive {rule : List Byte → State → Service} (h : rule ∈ undrivingRules) (payload : List Byte)
    (s : State) : (rule payload s).KeepsDrive s := by
  have hdone : ∀ (t : State) (data : List Byte), DriveFrame s t → (Service.done t data).KeepsDrive s := fun _ _ ht => ht.keeps
  simp only [undrivingRules, List.mem_cons, List.not_mem_nil, or_false] at h
  rcases h with rfl | rfl | rfl | rfl | rfl | rfl | rfl | rfl | rfl | rfl | rfl | rfl | rfl | rfl | rfl | rfl
  all_goals
    simp only [ruleMode, ruleStreamSet, ruleStreamDrop, ruleBayGet, ruleBankWrite, ruleBankRead, ruleBankApply, ruleResponseSet,
      ruleResponseGet, ruleStatus, ruleCounters, ruleRecordRead, ruleRecordDiscard, ruleZoneBlock, ruleForce, ruleNoticeSet]
    repeat' split
  any_goals exact trivial
  all_goals exact hdone _ _ (by constructor <;> rfl)

theorem keepsDrive_serve_undriving {req : Request} {rule : List Byte → State → Service} (h : rule ∈ undrivingRules)
    (s : State) : KeepsDrive s (serve req rule s) :=
  keepsDrive_serve (fun t _ => undrivingRules_keepDrive h _ t) s

/-- TRIP-CLEAR leaves a captured trip set to latched sections alone, and drives the lines again (R128). -/
theorem ruleTripClear_keepsDrive (payload : List Byte) (s : State) : (ruleTripClear payload s).KeepsDrive s := by
  unfold ruleTripClear
  repeat' split
  any_goals exact trivial
  next x _ _ =>
    refine ⟨fun h => State.Moded.driveLines
      ⟨fun hm k => ?_, h.timers, fun k htrip hback => ?_, h.clock, h.haltCode, h.evaluation, h.waiting⟩, fun k hk => ?_,
      fun k hk => ?_⟩
    · obtain ⟨ht, hb⟩ := h.latches hm k
      simp [TripLogic.clear, ht, hb]
    · cases hx : x.names k with
      | true => simp [TripLogic.clear, hx]
      | false =>
        simp only [TripLogic.clear, Table.get_build, hx, Bool.not_false, Bool.and_true] at htrip hback ⊢
        exact h.captured k htrip hback
    all_goals
      simp only [driveLines_trip, TripLogic.clear, Table.get_build, Bool.and_eq_true] at hk
      exact hk.1

theorem ruleAlarmClear_keepsDrive (payload : List Byte) (s : State) : (ruleAlarmClear payload s).KeepsDrive s := by
  have hremove : ∀ f, DriveFrame s (removeEntries f s) := by
    intro f
    unfold removeEntries
    dsimp only
    split <;> constructor <;> rfl
  unfold ruleAlarmClear clearEntry
  repeat' split
  any_goals exact trivial
  all_goals exact (hremove _).keeps

/-- BAY-SET, refused in RUN, makes a timer idle that is idle already (R7, R137). -/
theorem ruleBaySet_keepsDrive (payload : List Byte) (s : State) : (ruleBaySet payload s).KeepsDrive s := by
  unfold ruleBaySet
  repeat' split
  any_goals exact trivial
  · exact KeepsDrive.refl s
  next b r _ _ _ =>
    refine ⟨fun h => { h with timers := fun hm x => ?_ }, fun _ => id, fun _ => id⟩
    rw [replaceRecord]
    dsimp only
    rw [Table.get_set, h.timers hm, ite_self]

/-- A frequency restart starts a clock that runs already (R30). -/
theorem frequencyRestart_drive {s : State} (hrun : s.timer.running = true) : DriveFrame s (frequencyRestart s) :=
  ⟨rfl, rfl, rfl, rfl, rfl, rfl, rfl, hrun.symm, rfl, rfl, rfl, rfl⟩

theorem writeYard_drive {s : State} (y : Yard) (hrun : s.timer.running = true) : DriveFrame s (writeYard y s) := by
  have hyard : DriveFrame s { s with yard := y } := by constructor <;> rfl
  have houter : ∀ u : State, DriveFrame u (resetOuter u) := fun u => by constructor <;> rfl
  have hrestart := hyard.trans (frequencyRestart_drive (s := { s with yard := y }) hrun)
  unfold writeYard
  dsimp only
  split_ifs
  · exact hyard
  · exact hrestart
  · exact hyard.trans (houter _)
  · exact hrestart.trans (houter _)

theorem writeYard_latches (y : Yard) (s : State) :
    (writeYard y s).trip.tripLatch = s.trip.tripLatch ∧ (writeYard y s).trip.backtripLatch = s.trip.backtripLatch := by
  unfold writeYard
  dsimp only
  split_ifs <;> exact ⟨rfl, rfl⟩

/-- YARD-SET is not served in HALTED, where the clock stands (R2, R169). -/
theorem ruleYardSet_keepsDrive (payload : List Byte) {s : State} (hm : s.mode ≠ .halted) :
    (ruleYardSet payload s).KeepsDrive s := by
  have hwrite : ∀ y, KeepsDrive s (writeYard y s) := fun y =>
    ⟨fun h => (writeYard_drive y (h.running_iff.mpr hm)).driven h, fun _ hk => (writeYard_latches y s).1 ▸ hk, fun _ hk =>
      (writeYard_latches y s).2 ▸ hk⟩
  unfold ruleYardSet
  repeat' split
  any_goals exact trivial
  exact hwrite _

/-! ### Every command -/

/-- The rows of the table that evaluate a set (log 3). -/
inductive Evaluates : Instr → Prop
  | set (upsets : List Upset) : Evaluates (.evaluateSet upsets)
  | holdExpiry (detector : DetectorName) : Evaluates (.externalHoldExpiry detector)
  | timerExpiry (slot : Slot) : Evaluates (.bfTimerExpiry slot)

/-- A command that evaluates no set keeps what the mode drives and sets no latch. -/
theorem exec_keepsDrive {c : Instr} {s t : State} (h : exec c s = .next t) (hc : ¬ Evaluates c) : KeepsDrive s t := by
  cases c <;> cases h
  case evaluateSet u => exact absurd (.set u) hc
  case externalHoldExpiry d => exact absurd (.holdExpiry d) hc
  case bfTimerExpiry b => exact absurd (.timerExpiry b) hc
  case hardReset r1 r0 =>
    have hreset : ∀ q r, DriveFrame State.reset { State.reset with pending := q, rate := r } := fun q r => by constructor <;> rfl
    exact .ofClear (fun _ => (hreset _ _).driven reset_driven) rfl rfl
  case refclkAbsent m => exact (keepsDrive_cutShort m s).trans (keepsDrive_reportAbsent _ _)
  case setInstant => exact (nominalInstant_drive s).keeps
  case sampleCountWrap => split; exacts [(nominalInstant_drive s).keeps, .refl s]
  case linkDown => split; exacts [(nominalInstant_drive s).keeps, .refl s]
  case moderationTimerExpiry => split; exacts [(nominalInstant_drive s).keeps, .refl s]
  case portFrameReceived => exact (receiveFrame_drive _ _ s).keeps
  case tripFrameSent p => exact keepsDrive_tripFrameSent p s
  case setClose u =>
    refine (applyUpsets_drive u s).keeps.trans ?_
    split
    next hdue => exact keepsDrive_closeSet (closeDue_running hdue)
    next => exact .refl _
  case controlByteReceived => exact (DriveFrame.ofLink s _).keeps
  case gapTimeout => exact (DriveFrame.ofLink s _).keeps
  case frameTransmitted => exact (DriveFrame.ofLink s _).keeps
  case restartMade =>
    split
    next hdue => exact keepsDrive_makeRestart (restartDue_iff.mp hdue).2.2.2
    next => exact .refl s
  case unknownKindRequest =>
    split
    · exact keepsDrive_serve (own := fun _ _ => .refuse .unknownKind []) (fun _ _ => trivial) s
    · exact .refl s
  case ident => exact keepsDrive_serve_read _ s
  case streamList => exact keepsDrive_serve_read _ s
  case yardGet => exact keepsDrive_serve_read _ s
  case topology => exact keepsDrive_serve_read _ s
  case measure => exact keepsDrive_serve_read _ s
  case positions => exact keepsDrive_serve_read _ s
  case restart => exact keepsDrive_serve (own := fun _ _ => .restart) (fun _ _ => trivial) s
  case settle => exact keepsDrive_serve (own := fun _ _ => .hold (.settle false)) (fun _ _ => trivial) s
  case tripClear => exact keepsDrive_serve (fun t _ => ruleTripClear_keepsDrive _ t) s
  case alarmClear => exact keepsDrive_serve (fun t _ => ruleAlarmClear_keepsDrive _ t) s
  case baySet => exact keepsDrive_serve (fun t _ => ruleBaySet_keepsDrive _ t) s
  case yardSet =>
    refine keepsDrive_serve (fun t ht => ruleYardSet_keepsDrive _ fun hm => ?_) s
    obtain ⟨row, hrow, hrun⟩ := ht hm
    cases hrow
    cases hrun
  all_goals exact keepsDrive_serve_undriving (by simp [undrivingRules]) s

/-- A command that evaluates a set does nothing else, or is no event (log 3). -/
theorem exec_evaluates {c : Instr} {s t : State} (h : exec c s = .next t) (hc : Evaluates c) :
    ∃ u, DriveFrame s u ∧ (t = evaluateSet u ∨ t = u) := by
  have hif : ∀ {p : Prop} [Decidable p], (if p then evaluateSet s else s) = evaluateSet s ∨
      (if p then evaluateSet s else s) = s := fun {p} _ => (ite_eq_or_eq p _ _)
  cases hc <;> cases h
  · exact ⟨_, applyUpsets_drive _ s, .inl rfl⟩
  · exact ⟨s, .refl s, hif⟩
  · exact ⟨s, .refl s, hif⟩

/-- Every command keeps what the mode drives. -/
theorem exec_driven {c : Instr} {s t : State} (h : exec c s = .next t) (hs : s.Driven) : t.Driven := by
  by_cases hc : Evaluates c
  · obtain ⟨u, hu, rfl | rfl⟩ := exec_evaluates h hc
    · exact evaluateSet_driven (hu.driven hs)
    · exact hu.driven hs
  · exact (exec_keepsDrive h hc).driven hs

/-- A command sets no latch but by an evaluation in RUN of a set closed in RUN (R122, R174). -/
theorem exec_keepsDrive_outside {c : Instr} {s t : State} (h : exec c s = .next t)
    (hout : ∀ p, s.published = some p → s.mode ≠ .run ∨ p.runAtClose = false) : KeepsDrive s t := by
  by_cases hc : Evaluates c
  · obtain ⟨u, hu, rfl | rfl⟩ := exec_evaluates h hc
    · refine hu.keeps.trans (keepsDrive_evaluateSet ?_)
      rwa [hu.published, hu.mode]
    · exact hu.keeps
  · exact exec_keepsDrive h hc

/-- A latch that rises does not stand where none is set. -/
theorem KeepsDrive.no_rise {s t : State} (h : KeepsDrive s t) {k : Bus} :
    ¬ ((s.trip.tripLatch.get k = false ∧ t.trip.tripLatch.get k = true) ∨
      (s.trip.backtripLatch.get k = false ∧ t.trip.backtripLatch.get k = true)) := by
  rintro (⟨hs, ht⟩ | ⟨hs, ht⟩)
  · rw [h.tripLatch k ht] at hs; cases hs
  · rw [h.backtripLatch k ht] at hs; cases hs

end Sys2Proof.Machine

open Sys2Proof Sys2Proof.Machine

/-- Settles O58: the front command keeps what the mode drives, and the queue drives nothing. -/
theorem stepKeepsWhatTheModeDrives : Obligations.StepKeepsWhatTheModeDrives := by
  intro s t hs h
  unfold step at h
  split at h
  · cases h; exact hs
  next rest _ =>
    have hrest : DriveFrame s { s with pending := rest } := by constructor <;> rfl
    exact exec_driven h (hrest.driven hs)

/-- Settles O6: outside an evaluation, and in one that is not in RUN of a set closed in RUN, no latch rises. -/
theorem latchesRiseInEvaluationInRunOnly : Obligations.LatchesRiseInEvaluationInRunOnly := by
  intro c s t k h hrise
  have hset : s.mode = .run ∧ ∃ p, s.published = some p ∧ p.runAtClose = true := by
    by_contra hno
    refine (exec_keepsDrive_outside h fun p hp => ?_).no_rise hrise
    by_contra hin
    rw [not_or, not_not, Bool.not_eq_false] at hin
    exact hno ⟨hin.1, p, hp, hin.2⟩
  have hc : Evaluates c := by
    by_contra hc
    exact (exec_keepsDrive h hc).no_rise hrise
  refine ⟨hset.1, hset.2, ?_⟩
  cases hc
  · exact .inl ⟨_, rfl⟩
  · exact .inr (.inl ⟨_, rfl⟩)
  · exact .inr (.inr ⟨_, rfl⟩)

end

section
/-! PROOF. TRIP-CLEAR: the sections it names, and its refusal while one of them operates. -/

namespace Sys2Proof.Machine

open Sys2Proof

/-- A section still operates: it lies in a zone in force one of whose operate counters stands at ZONE_OPERATE_SETS
(R127; log 23). -/
def State.Operating (s : State) (k : Bus) : Prop :=
  ∃ tp z p, s.topology = some tp ∧ tp.zoneOf k = some z ∧ (s.evaluator.operate.get z.name).get p = s.active.zoneOperateSets

theorem stillOperating_iff {s : State} {k : Bus} : stillOperating s k = true ↔ s.Operating k := by
  unfold stillOperating State.Operating
  cases htp : s.topology with
  | none => simp
  | some tp =>
    cases hz : tp.zoneOf k with
    | none => simp [hz]
    | some z => simp [hz, Table.mem_cells]

/-- TRIP-CLEAR is refused for a section named that still operates, ALL naming those in use (R127). -/
theorem clearRefused_iff {s : State} {x : Selector} :
    clearRefused s x = true ↔ ∃ k, x.names k = true ∧ s.Operating k ∧ (x = .all → s.InUse k) := by
  cases x with
  | one j => simp [clearRefused, Selector.names, stillOperating_iff]
  | all => simp [clearRefused, Selector.names, allBuses, stillOperating_iff, inUse_iff, and_comm]

theorem ruleTripClear_outOfRange {sel : Byte} (h : 4 ≤ sel.toNat ∧ sel ≠ 0xFF) (s : State) :
    ruleTripClear [sel] s = .refuse .outOfRange [] := by
  unfold ruleTripClear
  dsimp only
  rw [readSelector_eq_none.mpr h]

theorem ruleTripClear_read {sel : Byte} {x : Selector} (h : readSelector sel = some x) (s : State) :
    ruleTripClear [sel] s =
      if clearRefused s x then .refuse .stillOperating [] else .done (driveLines { s with trip := s.trip.clear x }) [] := by
  unfold ruleTripClear
  dsimp only
  rw [h]

/-- A section named is left without latch and without captured trip set; any other stands (R128). -/
theorem TripLogic.clear_get (sel : Selector) (x : TripLogic) (k : Bus) :
    (sel.names k = true → (x.clear sel).tripLatch.get k = false ∧ (x.clear sel).backtripLatch.get k = false ∧
      (x.clear sel).captured.get k = 0) ∧
    (sel.names k = false → (x.clear sel).tripLatch.get k = x.tripLatch.get k ∧
      (x.clear sel).backtripLatch.get k = x.backtripLatch.get k ∧ (x.clear sel).captured.get k = x.captured.get k) := by
  constructor <;> intro h <;> simp [TripLogic.clear, h]

/-- The trip lines as the mode and these latches have them (R126). -/
def tripLines (m : Mode) (x : TripLogic) : Table 4 Bool :=
  Table.build (fun k => decide (m = .run) && (x.tripLatch.get k || x.backtripLatch.get k))

/-- Where HEALTHY shows the mode the trip lines alone are driven. -/
theorem driveLines_eq {s : State} (h : s.lines.healthy = decide (s.mode ≠ .halted)) :
    driveLines s = { s with lines := { s.lines with trip := tripLines s.mode s.trip } } :=
  congrArg (fun b => { s with lines := { s.lines with healthy := b, trip := tripLines s.mode s.trip } }) h.symm

/-- TRIP-CLEAR touches the latches, the captured trip sets and the trip lines alone (R128). -/
theorem exec_tripClear_done {tag sel : Byte} {s : State} {rest : List Request} {x : Selector} (hm : s.mode ≠ .halted)
    (hd : s.Driven) (hs : s.Served ⟨0x40, tag, [sel]⟩ rest) (hx : readSelector sel = some x) (hr : ¬ clearRefused s x = true) :
    exec (.tripClear tag [sel]) s =
      .next
        { s with
          trip := s.trip.clear x
          lines := { s.lines with trip := tripLines s.mode (s.trip.clear x) }
          link := s.link.answered ⟨0x40, tag, [sel]⟩ rest 0 [] } := by
  let u : State := s.fronted ⟨0x40, tag, [sel]⟩ rest
  have hdrive : driveLines { u with trip := u.trip.clear x } =
      { u with trip := u.trip.clear x, lines := { u.lines with trip := tripLines u.mode (u.trip.clear x) } } :=
    driveLines_eq (s := { u with trip := u.trip.clear x }) hd.healthy
  have hrule := (ruleTripClear_read hx u).trans (if_neg hr)
  rw [hdrive] at hrule
  exact congrArg _ (serve_own_write ⟨0x40, 1, false⟩ hs rfl rfl (.inl hm) hrule rfl)

end Sys2Proof.Machine

open Sys2Proof Sys2Proof.Machine

/-- Settles O55: the selector's range, the sections that still operate, then the latches of the sections named. -/
theorem tripClearClearsTheSectionsNamed : Obligations.TripClearClearsTheSectionsNamed := by
  intro tag sel s rest hm hd hs
  dsimp only
  have hrefused : ∀ {x}, (x = .all ↔ sel = 0xFF) →
      (∀ k : Bus, x.names k = true ↔ (sel = 0xFF ∨ sel.toNat = k.val)) →
      (clearRefused s x = true ↔
        ∃ k : Bus, (sel = 0xFF ∨ sel.toNat = k.val) ∧ s.Operating k ∧ (sel = 0xFF → s.InUse k)) := by
    intro x hall hnames
    simp only [clearRefused_iff, hnames, hall]
  refine ⟨fun h4 hff => ?_, fun href => ?_, fun hsel href => ?_⟩
  · exact congrArg _ (serve_own_refuse ⟨0x40, 1, false⟩ hs rfl rfl (.inl hm) (ruleTripClear_outOfRange ⟨h4, hff⟩ _))
  · have hsel : sel.toNat < 4 ∨ sel = 0xFF := by
      obtain ⟨k, hk | hk, -⟩ := href
      · exact .inr hk
      · exact .inl (hk ▸ k.isLt)
    obtain ⟨x, hx, hall, hnames⟩ := readSelector_some hsel
    have hr := (hrefused hall hnames).mpr href
    exact congrArg _ (serve_own_refuse ⟨0x40, 1, false⟩ hs rfl rfl (.inl hm)
      ((ruleTripClear_read hx _).trans (if_pos hr)))
  · obtain ⟨x, hx, hall, hnames⟩ := readSelector_some hsel
    have hr := mt (hrefused hall hnames).mp href
    refine ⟨_, exec_tripClear_done hm hd hs hx hr, fun k hk => ?_, fun k hk => ?_, rfl, rfl⟩
    all_goals
      have hline : (tripLines s.mode (s.trip.clear x)).get k = _ := Table.get_build _ k
    · obtain ⟨ht, hb, hc⟩ := (TripLogic.clear_get x s.trip k).1 ((hnames k).mpr hk)
      rw [ht, hb, Bool.or_false, Bool.and_false] at hline
      exact ⟨ht, hb, hc, hline⟩
    · obtain ⟨ht, hb, hc⟩ := (TripLogic.clear_get x s.trip k).2 (Bool.eq_false_iff.mpr (mt (hnames k).mp hk))
      rw [ht, hb, ← hd.trip] at hline
      exact ⟨ht, hb, hc, hline⟩

end

section
/-! PROOF. The breaker failure timer: the rows of its table, and a timer's way to its expiry. -/

namespace Sys2Proof.Machine

open Sys2Proof

/-! ### One action (R133, R136) -/

section
variable {sets : Nat} {init present : Bool} {x : BfTimer}

theorem act_idle (hx : x.state = .idle) :
    x.act sets init present = if init && present then ⟨.timing, sets, 0, 0⟩ else ⟨.idle, 0, 0, 0⟩ := by
  rw [BfTimer.act, hx]

theorem act_timing (hx : x.state = .timing) :
    x.act sets init present =
      if countAbsent present x.currentAbsent = 2 ∨ countAbsent init x.initAbsent = 2 then ⟨.idle, 0, 0, 0⟩
      else if x.countdown ≤ 1 then ⟨.expired, 0, countAbsent present x.currentAbsent, countAbsent init x.initAbsent⟩
      else ⟨.timing, x.countdown - 1, countAbsent present x.currentAbsent, countAbsent init x.initAbsent⟩ := by
  rw [BfTimer.act, hx]

theorem act_expired (hx : x.state = .expired) :
    x.act sets init present =
      if countAbsent present x.currentAbsent = 2 ∧ countAbsent init x.initAbsent = 2 then ⟨.idle, 0, 0, 0⟩
      else ⟨.expired, 0, countAbsent present x.currentAbsent, countAbsent init x.initAbsent⟩ := by
  rw [BfTimer.act, hx]

end

/-! ### A run without two absences in a row -/

/-- Neither the initiation nor the current is absent at both of two sets. -/
def NoneTwice (a b : Bool × Bool) : Prop :=
  (a.1 = true ∨ b.1 = true) ∧ (a.2 = true ∨ b.2 = true)

/-- A timer after its acts on sets with this initiation and current. -/
def BfTimer.after (sets : Nat) (acts : List (Bool × Bool)) (x : BfTimer) : BfTimer :=
  acts.foldl (fun x a => x.act sets a.1 a.2) x

theorem BfTimer.after_concat (sets : Nat) (acts : List (Bool × Bool)) (a : Bool × Bool) (x : BfTimer) :
    x.after sets (acts ++ [a]) = (x.after sets acts).act sets a.1 a.2 :=
  List.foldl_concat ..

/-- The absences in a row after these sets, where no two come together: one where the last set was absent. -/
def lastAbsence (flag : Bool × Bool → Bool) (acts : List (Bool × Bool)) : Nat :=
  if acts.getLast?.map flag = some false then 1 else 0

theorem lastAbsence_ne_two (flag : Bool × Bool → Bool) (acts : List (Bool × Bool)) : lastAbsence flag acts ≠ 2 := by
  unfold lastAbsence
  split <;> decide

/-- A single absence is counted, and the presence before it has the count start anew. -/
theorem countAbsent_lastAbsence {flag : Bool × Bool → Bool} {acts : List (Bool × Bool)} {a : Bool × Bool}
    (h : ∀ b ∈ acts.getLast?, flag b = true ∨ flag a = true) :
    countAbsent (flag a) (lastAbsence flag acts) = lastAbsence flag (acts ++ [a]) := by
  have hlast : lastAbsence flag (acts ++ [a]) = if flag a = false then 1 else 0 := by simp [lastAbsence]
  cases ha : flag a with
  | true => simp [hlast, ha, countAbsent]
  | false =>
    have hzero : lastAbsence flag acts = 0 := by
      refine if_neg fun hb => ?_
      obtain ⟨b, hb, hf⟩ := Option.map_eq_some_iff.mp hb
      rcases h b hb with hb | hb
      · rw [hf] at hb; cases hb
      · rw [ha] at hb; cases hb
    simp [hlast, ha, hzero, countAbsent]

/-- A timer in TIMING acts on one more set without two absences in a row: it counts down, or at 1 expires. -/
theorem act_steady {acts : List (Bool × Bool)} {a : Bool × Bool} (h : ∀ b ∈ acts.getLast?, NoneTwice b a) (sets k : Nat) :
    (⟨.timing, k, lastAbsence Prod.snd acts, lastAbsence Prod.fst acts⟩ : BfTimer).act sets a.1 a.2 =
      if k ≤ 1 then ⟨.expired, 0, lastAbsence Prod.snd (acts ++ [a]), lastAbsence Prod.fst (acts ++ [a])⟩
      else ⟨.timing, k - 1, lastAbsence Prod.snd (acts ++ [a]), lastAbsence Prod.fst (acts ++ [a])⟩ := by
  rw [act_timing rfl, countAbsent_lastAbsence (flag := Prod.snd) fun b hb => (h b hb).2,
    countAbsent_lastAbsence (flag := Prod.fst) fun b hb => (h b hb).1,
    if_neg (not_or.mpr ⟨lastAbsence_ne_two _ _, lastAbsence_ne_two _ _⟩)]

/-- While fewer sets than its countdown have passed the timer is in TIMING. -/
theorem timing_after (sets : Nat) (acts : List (Bool × Bool)) (h : acts.IsChain NoneTwice) (hlt : acts.length < sets) :
    (⟨.timing, sets, 0, 0⟩ : BfTimer).after sets acts =
      ⟨.timing, sets - acts.length, lastAbsence Prod.snd acts, lastAbsence Prod.fst acts⟩ := by
  induction acts using List.reverseRecOn with
  | nil => rfl
  | append_singleton acts a ih =>
    rw [List.length_append, List.length_singleton] at hlt ⊢
    obtain ⟨hacts, -, hlast⟩ := List.isChain_append.mp h
    rw [BfTimer.after_concat, ih hacts (by omega), act_steady fun b hb => hlast b hb a rfl, if_neg (by omega), Nat.sub_sub]

/-- At the set of its countdown the timer expires. -/
theorem expired_after {sets : Nat} (hpos : 1 ≤ sets) {acts : List (Bool × Bool)} (h : acts.IsChain NoneTwice)
    (hlen : acts.length = sets) :
    (⟨.timing, sets, 0, 0⟩ : BfTimer).after sets acts =
      ⟨.expired, 0, lastAbsence Prod.snd acts, lastAbsence Prod.fst acts⟩ := by
  rcases List.eq_nil_or_concat acts with rfl | ⟨acts, a, rfl⟩
  · rw [List.length_nil] at hlen
    omega
  · rw [List.concat_eq_append] at h hlen ⊢
    rw [List.length_append, List.length_singleton] at hlen
    obtain ⟨hacts, -, hlast⟩ := List.isChain_append.mp h
    rw [BfTimer.after_concat, timing_after sets acts hacts (by omega), act_steady fun b hb => hlast b hb a rfl,
      if_pos (by omega)]

end Sys2Proof.Machine

open Sys2Proof Sys2Proof.Machine

/-- Settles O32: each row of the table is one action, and the countdown is followed by induction on the sets. -/
theorem breakerFailureTimerFollowsItsTable : Obligations.BreakerFailureTimerFollowsItsTable := by
  refine ⟨fun sets init present x => ⟨fun hx hi hc => ?_, fun hx hno => ?_, fun hx htwo => ?_, fun hx hc hi hk => ?_,
    fun hx hc hi hk => ?_, fun hx hc hi => ?_, fun hx hno => ?_⟩, fun sets acts hpos hacts => ?_⟩
  · rw [act_idle hx, hi, hc]; rfl
  · rw [act_idle hx, if_neg]
    rcases hno with h | h <;> simp [h]
  · exact (act_timing hx).trans (if_pos htwo)
  · exact (act_timing hx).trans ((if_neg (not_or.mpr ⟨hc, hi⟩)).trans (if_neg (Nat.not_le.mpr hk)))
  · exact (act_timing hx).trans ((if_neg (not_or.mpr ⟨hc, hi⟩)).trans (if_pos hk.le))
  · exact (act_expired hx).trans (if_pos ⟨hc, hi⟩)
  · exact (act_expired hx).trans (if_neg (not_and_or.mpr hno))
  · have hchain : acts.IsChain NoneTwice := by
      rw [List.isChain_iff_getElem]
      intro i hi
      simpa [NoneTwice, List.getElem?_eq_getElem hi, List.getElem?_eq_getElem (Nat.lt_of_succ_lt hi)] using hacts i hi
    have hafter : acts.foldl (fun x a => x.act sets a.1 a.2) ((⟨.idle, 0, 0, 0⟩ : BfTimer).act sets true true) =
      (⟨.timing, sets, 0, 0⟩ : BfTimer).after sets acts := rfl
    dsimp only
    rw [hafter]
    refine ⟨fun hlt => ?_, fun hlen => ?_⟩
    · rw [timing_after sets acts hchain hlt]
      exact ⟨rfl, rfl⟩
    · rw [expired_after hpos hchain hlen]
      exact ⟨rfl, rfl⟩

end

section
/-! PROOF. A set closed and evaluated whole in RUN: the zones released, the latches with their captured trip sets, the records pushed
and the notices made; and the evaluation in which a breaker failure timer expires. -/

namespace Sys2Proof.Machine

open Sys2Proof

/-! ### The notices of trip logic (R138, R179) -/

/-- The byte of a table of flags (R183). -/
theorem busSetByte_flags (f : Table 4 Bool) : busSetByte (busFlags f) = [flaggedBuses f] := by
  have hbits : ∀ a b c d : Bool, BitVec.ofNat 8 (BitVec.ofFnLE (n := 4) ![a, b, c, d]).toNat =
      (if a = true then 1 else 0) + (if b = true then 2 else 0) + (if c = true then 4 else 0) + (if d = true then 8 else 0) := by
    decide
  have hf : (fun k => f.get k) = ![f.get 0, f.get 1, f.get 2, f.get 3] := by
    funext k
    fin_cases k <;> rfl
  rw [busSetByte, busFlags, hf]
  exact congrArg (fun x => [x]) (hbits _ _ _ _)

theorem tripNotice_eq (st : Stamp) (x : TripLogic) : tripNotice st x = latchSnapshot st x := by
  rw [tripNotice, latchSnapshot, busSetByte_flags, busSetByte_flags]
  rfl

/-- Whether trip logic makes a notice, from whether it latches a section anew and whether a timer expires. -/
def SetNotice.raised (trip backtrip : Bool) : SetNotice → Bool
  | .trip => trip
  | .backtrip => backtrip
  | .alarm => false

theorem causeTrips_carries {n : SetNotice} {trip backtrip : Bool} (h : n.raised trip backtrip = true) (st : Stamp) (s : State) :
    (causeTrips st trip backtrip s).link.Carries (n.slot (causeTrips st trip backtrip s).link.slots) n.kind
      (tripNotice st s.trip) := by
  refine ControlLink.kick_carries ?_
  cases n
  case alarm => cases h
  all_goals exact if_pos h

theorem causeTrips_keeps {n : SetNotice} {trip backtrip : Bool} (h : n.raised trip backtrip = false) (st : Stamp) (s : State) :
    s.link.Keeps n (causeTrips st trip backtrip s).link := by
  refine .ofKick ?_ rfl
  cases n
  case alarm => rfl
  all_goals exact if_neg (Bool.eq_false_iff.mp h)

/-! ### Release (R120) -/

theorem releaseMode_unchecked {bank : Bank} {z : Zone} :
    releaseMode bank z = .unchecked ↔ ∀ k, z.Holds k → bank.releaseMode.get k = .unchecked := by
  have hall : z.list.all (fun k => decide (bank.releaseMode.get k = .unchecked)) = true ↔
      ∀ k, z.Holds k → bank.releaseMode.get k = .unchecked := by
    simp only [List.all_eq_true, Zone.mem_list, decide_eq_true_iff]
  rw [← hall, releaseMode]
  split
  next h => exact iff_of_true rfl h
  next h => exact iff_of_false nofun h

section
variable {p : Published} {s : State}

theorem setResults_zone (hp : s.published = some p) (hw : s.SoundWindow) {z : Zone} (hz : z ∈ (setTopology p s).zones) :
    (setResults p s).zone z.name =
      some
        { name := z.name
          buses := z.buses
          phases :=
            Table.build (fun ph =>
              s.active.zoneComparison.result s.active.supIdmin s.store.slots z.members ph
                (((evaluateSet s).detectors.zones.get z.name).get ph).state
                (((evaluateSet s).evaluator.operate.get z.name).get ph)) } := by
  have hf := evaluateSet_frame hp hw
  rw [setResults_eq hp hw, resultsOf_zone hz, hf.active, hf.store]

theorem setResults_check (hp : s.published = some p) (hw : s.SoundWindow) :
    (setResults p s).check =
      Table.build (fun ph =>
        s.active.checkComparison.result s.active.supIdmin s.store.slots (setTopology p s).checkMembers ph
          ((evaluateSet s).detectors.check.get ph).state ((evaluateSet s).evaluator.checkOperate.get ph)) := by
  have hf := evaluateSet_frame hp hw
  rw [setResults_eq hp hw, resultsOf, hf.active, hf.store]

theorem evaluateSet_supervision_eq (hp : s.published = some p) (hw : s.SoundWindow) :
    (evaluateSet s).supervision = (supervisedSet p s).supervision := by
  rw [evaluateSet_sound hp hw, finishSet_supervision_eq]

/-- The phases released, by the counters, the release modes and the check zone of the evaluated state. -/
theorem phaseReleased_iff (hp : s.published = some p) (hw : s.SoundWindow) {z : Zone} (hz : z ∈ (setTopology p s).zones)
    (ph : Phase) :
    phaseReleased (supervisedSet p s) (setResults p s) z ph = true ↔ (evaluateSet s).Releases z ph := by
  have hactive := (supervisedSet_frame p s).active
  unfold phaseReleased Results.operates
  rw [setResults_zone hp hw hz, setResults_check hp hw, hactive, ← evaluateSet_supervision_eq hp hw]
  simp only [State.Releases, (evaluateSet_frame hp hw).active, Table.get_build, Comparison.result, Bool.and_eq_true, Bool.or_eq_true,
    Bool.not_eq_true', decide_eq_true_iff, releaseMode_unchecked]
  rfl

theorem zoneTrips_iff (hp : s.published = some p) (hw : s.SoundWindow) {z : Zone} (hz : z ∈ (setTopology p s).zones) :
    zoneTrips (supervisedSet p s) (setResults p s) z = true ↔ (evaluateSet s).Trips z := by
  have hreleased : (releasedPhases (supervisedSet p s) (setResults p s) z).cells.any id = true ↔
      ∃ ph, (evaluateSet s).Releases z ph := by
    simp only [Table.any_cells, releasedPhases, Table.get_build, id, phaseReleased_iff hp hw hz]
  have hblocked : zoneBlocked (supervisedSet p s) z = false ↔
      ∀ k, z.Holds k → (evaluateSet s).supervision.blockFlags.get k = false := by
    simp only [zoneBlocked, evaluateSet_supervision_eq hp hw, List.any_eq_false, Zone.mem_list, Bool.not_eq_true]
  rw [zoneTrips, Bool.and_eq_true, Bool.not_eq_true', hreleased, hblocked]
  rfl

/-- A section is latched anew when its zone trips and it was clear (R121). -/
theorem newlyLatched_trips (hp : s.published = some p) (hw : s.SoundWindow) {z : Zone} (hz : z ∈ (setTopology p s).zones)
    {k : Bus} (hk : z.Holds k) :
    newlyLatched (supervisedSet p s) (setResults p s) (setTopology p s) k = true ↔
      (evaluateSet s).Trips z ∧ s.trip.tripLatch.get k = false := by
  unfold newlyLatched
  rw [setTopology_zoneOf hz hk, supervisedSet_trip]
  dsimp only
  rw [Bool.and_eq_true, Bool.not_eq_true', zoneTrips_iff hp hw hz]

/-! ### Latches, timers and captured trip sets (R121, R133, R135) -/

theorem setLatches_tripLatch (k : Bus) :
    (setLatches p s).tripLatch.get k =
      (s.trip.tripLatch.get k || newlyLatched (supervisedSet p s) (setResults p s) (setTopology p s) k) := by
  rw [← supervisedSet_trip p s]
  exact Table.get_build _ k

/-- A section that no zone holds is not latched. -/
theorem setLatches_unheld {k : Bus} (hk : ¬ s.InUse k) : (setLatches p s).tripLatch.get k = s.trip.tripLatch.get k := by
  rw [setLatches_tripLatch, newlyLatched, setTopology_zoneOf_none hk, Bool.or_false]

theorem mem_setExpired {t : State} (ht : t.bf = setTimers p s) {b : Slot} : b ∈ setExpired p s ↔ Expires s t b := by
  simp only [setExpired, expiredNow, allSlots, List.mem_filter, List.mem_finRange, true_and, Bool.and_eq_true, decide_eq_true_iff,
    Expires, ht]

/-- The timers that expire stand in ascending order of slot (R135). -/
theorem setExpired_pairwise : (setExpired p s).Pairwise (fun a b => a < b) := by
  unfold setExpired expiredNow
  exact (List.pairwise_lt_finRange 26).filter _

theorem backtripped_iff {t : State} (ht : t.bf = setTimers p s) {k : Bus} :
    backtripped (setTopology p s) (setExpired p s) k = true ↔ BacktripsOn s t (setTopology p s) k := by
  simp only [backtripped, List.any_eq_true, mem_setExpired ht, BacktripsOn]

theorem setTripped_backtripLatch {t : State} (ht : t.bf = setTimers p s) (k : Bus) :
    (setTripped p s).backtripLatch.get k = true ↔
      s.trip.backtripLatch.get k = true ∨ BacktripsOn s t (setTopology p s) k := by
  rw [← backtripped_iff ht, setTripped, backtripLatches, Table.get_build, setLatches_backtripLatch, Bool.or_eq_true]

/-- The captured trip sets of a set: a backtripped section takes its scope beside what the release has it capture. -/
theorem setTripped_captured {t : State} (hlatch : t.trip.tripLatch = (setLatches p s).tripLatch) (hbf : t.bf = setTimers p s)
    (k : Bus) (b : Slot) :
    ((setTripped p s).captured.get k).getLsbD b.val = true ↔
      CapturedAtRelease s t (setTopology p s) k b ∨
        (BacktripsOn s t (setTopology p s) k ∧ ((setTopology p s).scopes.get k).getLsbD b.val = true) := by
  rw [← backtripped_iff hbf, ← setLatches_captured hlatch, setTripped, backtripLatches, Table.get_build]
  split
  next h => rw [BitVec.getLsbD_or, Bool.or_eq_true, and_iff_right h]
  next h => exact (or_iff_left fun hx => h hx.1).symm

/-- What a newly latched section captures, by the zones that trip (R121). -/
theorem capturedAtRelease_iff (hp : s.published = some p) (hw : s.SoundWindow)
    (hlatch : (evaluateSet s).trip.tripLatch = (setLatches p s).tripLatch) (k : Bus) (b : Slot) :
    CapturedAtRelease s (evaluateSet s) (setTopology p s) k b ↔
      (s.trip.captured.get k).getLsbD b.val = true ∨
        ∃ z ∈ (setTopology p s).zones, z.Holds k ∧ (evaluateSet s).Trips z ∧ s.trip.tripLatch.get k = false ∧
          ∃ j, z.Holds j ∧ s.trip.tripLatch.get j = false ∧ ((setTopology p s).scopes.get j).getLsbD b.val = true := by
  have hnew {z : Zone} (hz : z ∈ (setTopology p s).zones) {j : Bus} (hj : z.Holds j) :
      NewlyLatched s (evaluateSet s) j ↔ (evaluateSet s).Trips z ∧ s.trip.tripLatch.get j = false :=
    (newlyLatched_iff hlatch j).trans (newlyLatched_trips hp hw hz hj)
  refine or_congr_right ⟨?_, ?_⟩
  · rintro ⟨hk, z, hz, hzk, j, hj, hjn, hb⟩
    obtain ⟨htrips, hclear⟩ := (hnew hz hzk).mp hk
    exact ⟨z, hz, hzk, htrips, hclear, j, hj, hjn.1, hb⟩
  · rintro ⟨z, hz, hzk, htrips, hclear, j, hj, hjc, hb⟩
    exact ⟨(hnew hz hzk).mpr ⟨htrips, hclear⟩, z, hz, hzk, j, hj, (hnew hz hj).mpr ⟨htrips, hjc⟩, hb⟩

/-! ### Records (R123, R135, R159 to R161) -/

/-- The record of a zone, by the evaluated state. -/
theorem zoneTripRecord_eq (hp : s.published = some p) (hw : s.SoundWindow) (hbm : (evaluateSet s).trip.bitmap = setBitmap p s)
    {z : Zone} (hz : z ∈ (setTopology p s).zones) :
    zoneTripRecord (supervisedSet p s) (setResults p s) p.stamp (setBitmap p s) z =
      zoneTripOf s (evaluateSet s) (setTopology p s) z := by
  have hreleased : releasedPhases (supervisedSet p s) (setResults p s) z =
      Table.build (fun ph => decide ((evaluateSet s).Releases z ph)) :=
    congrArg Table.build (funext fun ph => Bool.eq_iff_iff.mpr
      ((phaseReleased_iff hp hw hz ph).trans decide_eq_true_iff.symm))
  have hphases : phaseRecords (setResults p s) z.name =
      Table.build (fun ph => ⟨windowedD s z.members ph, windowedR s z.members ph,
        (((evaluateSet s).detectors.zones.get z.name).get ph).state⟩) := by
    unfold phaseRecords
    rw [setResults_zone hp hw hz]
    refine Table.ext_get fun ph => ?_
    simp only [Table.get_map, Table.get_build, Comparison.result, windowD_eq, windowR_eq]
  have hcheck : (setResults p s).check.map (fun q => (⟨q.diff, q.restraint⟩ : CheckRecord)) =
      Table.build (fun ph => ⟨windowedD s (setTopology p s).checkMembers ph, windowedR s (setTopology p s).checkMembers ph⟩) := by
    rw [setResults_check hp hw]
    refine Table.ext_get fun ph => ?_
    simp only [Table.get_map, Table.get_build, Comparison.result, windowD_eq, windowR_eq]
  have hmode := releaseMode_unchecked (bank := s.active) (z := z)
  unfold zoneTripRecord zoneTripOf
  rw [(supervisedSet_frame p s).active, hreleased, hphases, hcheck, hbm]
  by_cases hall : ∀ k, z.Holds k → s.active.releaseMode.get k = .unchecked
  · rw [hmode.mpr hall, if_pos hall, if_pos hall]
    rfl
  · have hchecked : releaseMode s.active z = .checked := by
      cases h : releaseMode s.active z with
      | checked => rfl
      | unchecked => exact absurd (hmode.mp h) hall
    rw [hchecked, if_neg hall, if_neg hall]
    rfl

/-- The timer of an UNUSED slot does not expire. -/
theorem expires_used {t : State} (ht : t.bf = setTimers p s) {b : Slot} (h : Expires s t b) : (s.bays.get b).kind ≠ .unused := by
  intro hb
  obtain ⟨hbefore, hafter⟩ := h
  rw [ht, setTimers_unused hb, hbefore] at hafter
  cases hafter

/-- The record of a timer, by the evaluated state. -/
theorem backtripRecord_eq (hp : s.published = some p) (hw : s.SoundWindow) (hbm : (evaluateSet s).trip.bitmap = setBitmap p s)
    {b : Slot} (hb : (s.bays.get b).kind ≠ .unused) :
    backtripRecord (setResults p s) (setTopology p s) p.stamp (setBitmap p s) b =
      backtripOf s (evaluateSet s) (setTopology p s) b := by
  have hf := evaluateSet_frame hp hw
  have hcurrent : (setResults p s).current b = windowedBay s b := by
    rw [setResults_eq hp hw, Results.current, resultsOf, Table.get_build, bayResult_used (hf.bays.symm ▸ hb)]
    exact windowedBay_congr hf.store b
  rw [backtripRecord, backtripOf, hcurrent, hbm]
  rfl

/-- The zones of a set stand in ascending order of name (R62). -/
theorem setTopology_zones_pairwise : (setTopology p s).zones.Pairwise (fun y z => y.name < z.name) := by
  refine List.pairwise_map.mpr ?_
  exact (List.pairwise_lt_finRange 4).filter _

/-! ### The set in RUN -/

/-- A set in RUN once its latches, timers, bitmap and records stand and the lines are driven. -/
def trippedSet (p : Published) (s : State) : State :=
  driveLines
    { supervisedSet p s with
      trip := { setTripped p s with bitmap := setBitmap p s }
      bf := setTimers p s
      records :=
        (setRecords (supervisedSet p s) (setResults p s) (setTopology p s) p.stamp (setBitmap p s) (setExpired p s)).foldl
          RecordStack.push s.records }

/-- Trip logic in RUN: the parts of the set, then its notices. -/
theorem tripStage_supervised (hm : s.mode = .run) (hc : p.runAtClose = true) :
    tripStage p (setTopology p s) (setResults p s) (supervisedSet p s) =
      causeTrips p.stamp (allBuses.any (newlyLatched (supervisedSet p s) (setResults p s) (setTopology p s)))
        (!(setExpired p s).isEmpty) (trippedSet p s) := by
  rw [tripStage_run ((supervisedSet_frame p s).mode.trans hm) hc]
  simp only [trippedSet, setBitmap, setTripped, setExpired, ← supervisedSet_bf p s, ← (supervisedSet_frame p s).records]
  rfl

variable (hp : s.published = some p) (hw : s.SoundWindow) (hm : s.mode = .run) (hc : p.runAtClose = true)
include hp hw hm hc

theorem evaluateSet_tripLatch : (evaluateSet s).trip.tripLatch = (setLatches p s).tripLatch := by
  rw [(evaluateSet_run hp hw hm hc).1]
  rfl

/-- What a set in RUN pushes. -/
theorem evaluateSet_pushes : ∃ zs bs, Pushes s (evaluateSet s) (setTopology p s) zs bs := by
  obtain ⟨htrip, hbf, -⟩ := evaluateSet_run hp hw hm hc
  have hlatch := evaluateSet_tripLatch hp hw hm hc
  have hbm : (evaluateSet s).trip.bitmap = setBitmap p s := by rw [htrip]
  refine ⟨latchingZones (supervisedSet p s) (setResults p s) (setTopology p s), setExpired p s,
    setTopology_zones_pairwise.filter _, fun z => ?_, setExpired_pairwise, fun b => mem_setExpired hbf, ?_⟩
  · simp only [latchingZones, List.mem_filter, List.any_eq_true, Zone.mem_list, newlyLatched_iff hlatch]
  · rw [evaluateSet_sound hp hw, finishSet_records, tripStage_supervised hm hc, causeTrips_records,
      ← evaluateSet_sound hp hw]
    refine congrArg (fun l => List.foldl RecordStack.push s.records l) (append_congr (List.map_congr_left fun z hz => ?_)
      (List.map_congr_left fun b hb => ?_))
    · exact congrArg _ (zoneTripRecord_eq hp hw hbm (List.mem_of_mem_filter hz))
    · exact congrArg _ (backtripRecord_eq hp hw hbm (expires_used hbf ((mem_setExpired hbf).mp hb)))

/-- The notice of a set in RUN that trip logic makes. -/
theorem evaluateSet_carries {n : SetNotice}
    (h : n.raised (allBuses.any (newlyLatched (supervisedSet p s) (setResults p s) (setTopology p s)))
      (!(setExpired p s).isEmpty) = true) :
    (evaluateSet s).link.Carries (n.slot (evaluateSet s).link.slots) n.kind (latchSnapshot p.stamp (evaluateSet s).trip) := by
  have hfin := finishSet_keeps n p (setTopology p s) (setResults p s) (supervisedSet p s)
  rw [tripStage_supervised hm hc, ← evaluateSet_sound hp hw] at hfin
  rw [(evaluateSet_run hp hw hm hc).1, ← tripNotice_eq]
  exact hfin.carries (ControlLink.kick_taken n _) (causeTrips_carries h p.stamp (trippedSet p s))

/-- A notice that trip logic does not make stands. -/
theorem evaluateSet_keeps {n : SetNotice} (hn : n ≠ .alarm)
    (h : n.raised (allBuses.any (newlyLatched (supervisedSet p s) (setResults p s) (setTopology p s)))
      (!(setExpired p s).isEmpty) = false) : s.link.Keeps n (evaluateSet s).link := by
  have hfin := finishSet_keeps n p (setTopology p s) (setResults p s) (supervisedSet p s)
  rw [tripStage_supervised hm hc, ← evaluateSet_sound hp hw] at hfin
  have hcause := causeTrips_keeps h p.stamp (trippedSet p s)
  exact ((supervisedSet_keeps hn p s).trans hcause).trans hfin

/-- Trip logic makes a TRIP notice for a newly latched section. -/
theorem raisedTrip_iff :
    allBuses.any (newlyLatched (supervisedSet p s) (setResults p s) (setTopology p s)) = true ↔
      ∃ k, NewlyLatched s (evaluateSet s) k := by
  simp only [newlyLatched_iff (evaluateSet_tripLatch hp hw hm hc), allBuses, List.any_eq_true, List.mem_finRange, true_and]

/-- Trip logic makes a BACKTRIP notice for an expired timer. -/
theorem raisedBacktrip_iff : (!(setExpired p s).isEmpty) = true ↔ ∃ b, Expires s (evaluateSet s) b := by
  simp only [← mem_setExpired (evaluateSet_run hp hw hm hc).2.1, Bool.not_eq_true', List.isEmpty_eq_false_iff_exists_mem]

end

theorem exec_bfTimerExpiry {b : Slot} {s : State} (hs : (s.bf.get b).state = .timing)
    (ht : ((evaluateSet s).bf.get b).state = .expired) : exec (.bfTimerExpiry b) s = .next (evaluateSet s) :=
  congrArg Host.Outcome.next (if_pos ⟨hs, ht⟩)

/-- A timer with countdown 1 and no absence counted expires at its next act. -/
theorem act_expires (sets : Nat) (init present : Bool) :
    ∃ c i, (⟨.timing, 1, 0, 0⟩ : BfTimer).act sets init present = ⟨.expired, 0, c, i⟩ := by
  have hone : ∀ held, countAbsent held 0 ≠ 2 := by decide
  rw [act_timing rfl, if_neg (not_or.mpr ⟨hone _, hone _⟩), if_pos le_rfl]
  exact ⟨_, _, rfl⟩

end Sys2Proof.Machine

open Sys2Proof Sys2Proof.Machine

/-- Settles O30, from the zones that the evaluated state releases, the parts of a set in RUN, its records and its notices. -/
theorem evaluationInRunLatchesReleasedZones : Obligations.EvaluationInRunLatchesReleasedZones := by
  intro s p hp hw hm hc
  obtain ⟨htrip, hbf, -⟩ := evaluateSet_run hp hw hm hc
  have hlatch := evaluateSet_tripLatch hp hw hm hc
  have hf := evaluateSet_frame hp hw
  have hpub : (evaluateSet s).published = none := by rw [evaluateSet_sound hp hw, finishSet_published]
  refine ⟨_, setTopology p s, exec_evaluateSet s, hpub, hf.mode.trans hm, evaluateSet_topology hp, rfl, fun z hz k hk => ?_,
    fun k hk => ?_, fun k => ?_, evaluateSet_pushes hp hw hm hc, fun hnew => ?_, fun hexp => ?_, fun hl hno => ?_,
    fun hl hno => ?_, fun k b => ?_⟩
  · rw [hlatch, setLatches_tripLatch, Bool.or_eq_true, newlyLatched_trips hp hw hz hk]
    cases s.trip.tripLatch.get k <;> simp
  · rw [hlatch, setLatches_unheld hk]
  · rw [htrip]
    exact setTripped_backtripLatch hbf k
  · exact evaluateSet_carries hp hw hm hc (n := .trip) ((raisedTrip_iff hp hw hm hc).mpr hnew)
  · exact evaluateSet_carries hp hw hm hc (n := .backtrip) ((raisedBacktrip_iff hp hw hm hc).mpr hexp)
  · exact (evaluateSet_keeps hp hw hm hc (n := .trip) nofun
      (Bool.eq_false_iff.mpr (mt (raisedTrip_iff hp hw hm hc).mp hno))).slot (hl.taken .trip)
  · exact (evaluateSet_keeps hp hw hm hc (n := .backtrip) nofun
      (Bool.eq_false_iff.mpr (mt (raisedBacktrip_iff hp hw hm hc).mp hno))).slot (hl.taken .backtrip)
  · have hcap := setTripped_captured hlatch hbf k b
    rw [capturedAtRelease_iff hp hw hlatch, or_assoc, or_comm (b := _ ∧ _)] at hcap
    rw [htrip]
    exact hcap

/-- Settles O33: the timer acts at countdown 1, so that the evaluation's expiries name its bay. -/
theorem timerExpiryBacktripsTheSections : Obligations.TimerExpiryBacktripsTheSections := by
  intro s p b hp hw hm hc hb hx
  obtain ⟨htrip, hbf, hlines⟩ := evaluateSet_run hp hw hm hc
  have hlatch := evaluateSet_tripLatch hp hw hm hc
  obtain ⟨c, i, hact⟩ : ∃ c i, (evaluateSet s).bf.get b = ⟨.expired, 0, c, i⟩ := by
    rw [hbf, setTimers_used hb, hx]
    exact act_expires _ _ _
  have htiming : (s.bf.get b).state = .timing := by rw [hx]
  have hexpired : ((evaluateSet s).bf.get b).state = .expired := by rw [hact]
  obtain ⟨zs, bs, hpush⟩ := evaluateSet_pushes hp hw hm hc
  refine ⟨_, setTopology p s, exec_bfTimerExpiry htiming hexpired, exec_evaluateSet s, evaluateSet_topology hp, hexpired,
    by rw [hact], ⟨zs, bs, hpush, (hpush.slots b).mpr ⟨htiming, hexpired⟩⟩,
    evaluateSet_carries hp hw hm hc (n := .backtrip) ((raisedBacktrip_iff hp hw hm hc).mpr ⟨b, htiming, hexpired⟩),
    fun k hk => ?_⟩
  have hon : BacktripsOn s (evaluateSet s) (setTopology p s) k := ⟨b, ⟨htiming, hexpired⟩, hk⟩
  have hback := (setTripped_backtripLatch hbf k).mpr (.inr hon)
  rw [hlines, htrip]
  exact ⟨hback, by rw [hback, Bool.or_true], fun x hscope =>
    (setTripped_captured hlatch hbf k x).mpr (.inr ⟨hon, hscope⟩)⟩

end

section
/-! PROOF. The block flags of a set evaluated whole: what an entry at BLOCK_ZONE reaches, and the flags that the table gives. -/

namespace Sys2Proof.Machine

open Sys2Proof

/-! ### What an entry reaches (R148) -/

/-- An entry reaches by the scope it captured and, while it is active, by its own pair of code and scope. -/
theorem Condition.reach_iff (bays : Table 26 BayRecord) (t : Topology) (e : Condition) (k : Bus) :
    ((e.reach bays t).buses.getLsbD k.val = true ↔
      (∃ r, e.latched = some r ∧ r.buses.getLsbD k.val = true) ∨
        (e.active = true ∧ (reachOf bays t e.code e.scope).buses.getLsbD k.val = true)) ∧
    ((e.reach bays t).check = true ↔
      (∃ r, e.latched = some r ∧ r.check = true) ∨ (e.active = true ∧ (reachOf bays t e.code e.scope).check = true)) := by
  obtain ⟨c, sc, active, latched, onset⟩ := e
  cases active <;> cases latched <;> simp [Condition.reach, Reach.join, Reach.empty, or_comm]

theorem Condition.reach_buses {s : State} {t : Topology} {e : Condition} {k : Bus} :
    (e.reach s.bays t).buses.getLsbD k.val = true ↔ e.Reaches t k := by
  rw [(e.reach_iff s.bays t k).1, (reachOf_captures s t e.code e.scope).1 k]
  rfl

/-- The check zone is reached by a captured scope that holds it, by an active CHECK_CT_SUSPECT, or by an active STREAM_LOST of a
feeder. -/
theorem Condition.reach_check {s : State} {t : Topology} {e : Condition} :
    (e.reach s.bays t).check = true ↔
      (∃ r, e.latched = some r ∧ r.check = true) ∨
        (e.active = true ∧ (e.scope = .check ∨
          (e.code = .streamLost ∧ ∃ b side, e.scope = .bay b ∧ (s.bays.get b).kind = .feeder side))) := by
  rw [(e.reach_iff s.bays t 0).2, (reachOf_captures s t e.code e.scope).2]

/-- No entry of the check zone stands at BLOCK_ZONE: its code is CHECK_CT_SUSPECT, to which R145 does not allow that level. -/
theorem checkScope_not_blockZone {s t : State} (ht : t.Tabled) (hr : s.Ranged) {e : Condition}
    (he : e ∈ t.supervision.conditions) (hlevel : (s.supervision.response e.code).level = .blockZone) : e.scope ≠ .check := by
  intro hsc
  obtain ⟨-, hpair, -⟩ := State.tabled_iff.mp ht
  have hp := hpair e he
  rw [hsc] at hp
  have hallowed := hr.levels e.code
  rw [hlevel, show e.code = .checkCtSuspect from of_decide_eq_true hp] at hallowed
  cases hallowed

/-! ### The flags (R149) -/

theorem blocksAll_iff {v : Supervision} :
    blocksAll v = true ↔ ∃ e ∈ v.conditions, (v.response e.code).level = .blockAll := by
  simp only [blocksAll, List.any_eq_true, decide_eq_true_iff]

theorem blocksZone_iff {bays : Table 26 BayRecord} {t : Topology} {v : Supervision} {picks : Reach → Bool} :
    blocksZone bays t v picks = true ↔
      ∃ e ∈ v.conditions, (v.response e.code).level = .blockZone ∧ picks (e.reach bays t) = true := by
  simp only [blocksZone, List.any_eq_true, Bool.and_eq_true, decide_eq_true_iff]

/-- The flags are formed from the table as stage 4 has treated it (R152). -/
theorem superviseSet_blocked (t : Topology) (r : Results) (s : State) :
    (superviseSet t r s).supervision = (treatedSet t r s).supervision.block s.bays t := by
  unfold superviseSet
  dsimp only
  split <;> rfl

/-- Forming the flags reads nothing that it writes. -/
theorem Supervision.block_block (bays : Table 26 BayRecord) (t : Topology) (v : Supervision) :
    (v.block bays t).block bays t = v.block bays t := rfl

section
variable {p : Published} {s : State}

/-- The supervision unit after a set shows the flags that its own table gives. -/
theorem evaluateSet_blocked (hp : s.published = some p) (hw : s.SoundWindow) :
    (evaluateSet s).supervision = (evaluateSet s).supervision.block s.bays (setTopology p s) := by
  rw [evaluateSet_sound_supervision hp hw, supervisedSet, superviseSet_blocked, (heldSet_frame p s).bays,
    Supervision.block_block]

theorem evaluateSet_response (hp : s.published = some p) (hw : s.SoundWindow) (c : Code) :
    (evaluateSet s).supervision.response c = s.supervision.response c :=
  congrArg (fun responses => responses.get c.index) (evaluateSet_frame hp hw).responses

end

end Sys2Proof.Machine

open Sys2Proof Sys2Proof.Machine

/-- Settles O35: the flags are those of the table after the set, and each entry's reach is read off its captured scope and pair. -/
theorem evaluationFormsBlockFlags : Obligations.EvaluationFormsBlockFlags := by
  intro s p hp hw htab hr
  have hblocked := evaluateSet_blocked hp hw
  refine ⟨_, setTopology p s, exec_evaluateSet s, evaluateSet_topology hp, fun k => ?_, ?_⟩
  · have hflag := congrArg (fun v => v.blockFlags.get k) hblocked
    simp only [Supervision.block, Table.get_build] at hflag
    rw [hflag, Bool.or_eq_true, Bool.or_eq_true, blocksZone_iff, blocksAll_iff, (evaluateSet_frame hp hw).hostBlocks]
    simp only [evaluateSet_response hp hw, Condition.reach_buses]
    exact or_assoc.trans (or_congr_right or_comm)
  · have hcheck := congrArg Supervision.checkBlocked hblocked
    simp only [Supervision.block] at hcheck
    rw [hcheck, Bool.or_eq_true, blocksZone_iff, blocksAll_iff, or_comm]
    simp only [evaluateSet_response hp hw, Condition.reach_check]
    refine or_congr_right (exists_congr fun e => and_congr_right fun he => and_congr_right fun hlevel => ?_)
    have hsc := checkScope_not_blockZone (evaluateSet_tabled htab) hr he hlevel
    simp only [hsc, false_or]

end

section
/-! PROOF. RESPONSE-SET and NOTICE-SET: the values that each takes, and what it writes. -/

namespace Sys2Proof.Machine

open Sys2Proof

/-! ### RESPONSE-SET (R145, R146) -/

theorem Code.number_eq (c : Code) : c.number = c.index.val + 1 := by
  cases c <;> rfl

/-- Every place of the response table is that of a code. -/
theorem Code.exists_index (i : Fin 9) : ∃ c : Code, c.index = i := by
  have h : ∀ i : Fin 9, ∃ c ∈ allCodes, c.index = i := by decide
  obtain ⟨c, -, hc⟩ := h i
  exact ⟨c, hc⟩

theorem Code.index_of_number {c : Code} {i : Fin 9} (h : c.number = i.val + 1) : c.index = i :=
  Fin.ext (by rw [c.number_eq] at h; omega)

theorem Level.code_lt (l : Level) : l.code < 4 := by
  cases l <;> decide

theorem Level.code_inj {l m : Level} (h : l.code = m.code) : l = m := by
  revert h
  cases l <;> cases m <;> decide

/-- The levels that R145 allows a code. -/
theorem Code.allows_iff {c : Code} {l : Level} :
    c.allows l = true ↔
      (c.number = 1 → 2 ≤ l.code) ∧ (c.number = 4 ∨ c.number = 9 → l.code ≠ 2) ∧ (c.number = 8 → l.code < 2) := by
  cases c <;> cases l <;> decide

theorem ruleResponseSet_read {code level latch : Byte} {c : Code} {l : Level} {f : Bool} (hc : code.toNat = c.number)
    (hl : level.toNat = l.code) (hf : latch.toNat = f.toNat) (s : State) :
    ruleResponseSet [code, level, latch] s =
      if c.allows l then
        .done { s with supervision := { s.supervision with responses := s.supervision.responses.set c.index ⟨l, f⟩ } } []
      else .refuse .outOfRange [] := by
  unfold ruleResponseSet
  dsimp only
  rw [readCode_eq_some.mpr hc, readLevel_eq_some.mpr hl, readFlag_eq_some.mpr hf]

/-- The bytes of RESPONSE-SET that are refused: a value out of its range, or a level that R145 does not allow the code. -/
theorem ruleResponseSet_refused {code level latch : Byte}
    (h : code = 0 ∨ 10 ≤ code.toNat ∨ 4 ≤ level.toNat ∨ 2 ≤ latch.toNat ∨ (code = 1 ∧ level.toNat < 2) ∨
      ((code = 4 ∨ code = 9) ∧ level = 2) ∨ (code = 8 ∧ 2 ≤ level.toNat)) (s : State) :
    ruleResponseSet [code, level, latch] s = .refuse .outOfRange [] := by
  cases hc : readCode code with
  | none => simp only [ruleResponseSet, hc]
  | some c =>
    cases hl : readLevel level with
    | none => simp only [ruleResponseSet, hc, hl]
    | some l =>
      cases hf : readFlag latch with
      | none => simp only [ruleResponseSet, hc, hl, hf]
      | some f =>
        have hcode := readCode_eq_some.mp hc
        have hlevel := readLevel_eq_some.mp hl
        have hlatch : ¬ 2 ≤ latch.toNat := fun h2 => by rw [readFlag_eq_none.mpr h2] at hf; cases hf
        rw [ruleResponseSet_read hcode hlevel (readFlag_eq_some.mp hf), if_neg]
        intro hallowed
        obtain ⟨h1, h4, h8⟩ := Code.allows_iff.mp hallowed
        have hnumber := c.number_eq
        have hcodeLevel := l.code_lt
        simp only [← BitVec.toNat_inj, hcode, hlevel, BitVec.ofNat_eq_ofNat, BitVec.toNat_ofNat, Nat.reducePow,
          Nat.reduceMod] at h
        omega

/-! ### NOTICE-SET (R181) -/

theorem readClass_eq_none {b : Byte} : readClass b = none ↔ b ≠ 0x62 ∧ b ≠ 0x63 := by
  unfold readClass
  simp only [← BitVec.toNat_inj, ne_eq]
  split_ifs <;> simp_all

theorem ruleNoticeSet_read {cls flag n1 n0 : Byte} {k : Moderated} {e : Bool} (hk : readClass cls = some k)
    (he : flag.toNat = e.toNat) (s : State) :
    ruleNoticeSet [cls, flag, n1, n0] s =
      if 2400 < n1.toNat * 256 + n0.toNat then .refuse .outOfRange []
      else .done { s with link := s.link.setClass k e (n1.toNat * 256 + n0.toNat) } [] := by
  unfold ruleNoticeSet
  dsimp only
  rw [hk, readFlag_eq_some.mpr he, natOfBytes_two]

theorem ruleNoticeSet_refused {cls flag n1 n0 : Byte}
    (h : (cls ≠ 0x62 ∧ cls ≠ 0x63) ∨ 2 ≤ flag.toNat ∨ 2400 < n1.toNat * 256 + n0.toNat) (s : State) :
    ruleNoticeSet [cls, flag, n1, n0] s = .refuse .outOfRange [] := by
  cases hk : readClass cls with
  | none => simp only [ruleNoticeSet, hk]
  | some k =>
    cases he : readFlag flag with
    | none => simp only [ruleNoticeSet, hk, he]
    | some e =>
      have hcls : ¬ (cls ≠ 0x62 ∧ cls ≠ 0x63) := fun hn => by rw [readClass_eq_none.mpr hn] at hk; cases hk
      have hflag : ¬ 2 ≤ flag.toNat := fun h2 => by rw [readFlag_eq_none.mpr h2] at he; cases he
      rw [ruleNoticeSet_read hk (readFlag_eq_some.mp he)]
      exact if_pos ((h.resolve_left hcls).resolve_left hflag)

/-- A class is written without a change of what the transmitter has or takes. -/
theorem ControlLink.setClass_settled {l : ControlLink} (h : l.Settled) (k : Moderated) (e : Bool) (n : Nat) :
    (l.setClass k e n).Settled := by
  have hline : (l.setClass k e n).line = l.line := by cases k <;> rfl
  intro hl
  obtain ⟨hr, hs⟩ := h (hline ▸ hl)
  cases k <;> cases e <;> simp [ControlLink.setClass, hr, hs, NoticeSlots.empty]

/-- NOTICE-SET writes the class named, and its reply is placed on the link so written. -/
theorem exec_noticeSet_done {tag cls flag n1 n0 : Byte} {s : State} {rest : List Request} {k : Moderated} {e : Bool}
    (hm : s.mode ≠ .halted) (hs : s.Served ⟨0x48, tag, [cls, flag, n1, n0]⟩ rest) (hk : readClass cls = some k)
    (he : flag.toNat = e.toNat) (hn : n1.toNat * 256 + n0.toNat ≤ 2400) :
    exec (.noticeSet tag [cls, flag, n1, n0]) s =
      .next
        { s with
          link :=
            (s.link.setClass k e (n1.toNat * 256 + n0.toNat)).answered ⟨0x48, tag, [cls, flag, n1, n0]⟩ rest 0 [] } := by
  let req : Request := ⟨0x48, tag, [cls, flag, n1, n0]⟩
  have hsettled : (s.fronted req rest).link.Settled := hs.1
  have hrule := (ruleNoticeSet_read hk he (s.fronted req rest)).trans (if_neg (Nat.not_lt.mpr hn))
  have hchecks := (commonChecks_pass (s := s.fronted req rest) (req := req) ⟨0x48, 4, false⟩ ruleNoticeSet rfl rfl
    (.inl hm)).trans hrule
  have hdone := serve_done hs hchecks (ControlLink.setClass_settled hsettled k e _) (by cases k <;> rfl)
  refine congrArg _ (hdone.trans ?_)
  cases k <;> rfl

end Sys2Proof.Machine

open Sys2Proof Sys2Proof.Machine

/-- Settles O53: the bytes refused, the response written at its code's place, and the class written by its flag. -/
theorem responsesAndNoticeClassesAreWritten : Obligations.ResponsesAndNoticeClassesAreWritten := by
  intro tag s rest hm
  refine ⟨fun code level latch hs => ⟨fun h => ?_, fun i l f hcode hlevel hlatch h0 h3 h7 => ?_⟩, fun cls flag n1 n0 hs => ?_⟩
  · exact congrArg _ (serve_own_refuse ⟨0x24, 3, false⟩ hs rfl rfl (.inl hm) (ruleResponseSet_refused h _))
  · obtain ⟨c, rfl⟩ := Code.exists_index i
    have hl : level.toNat = l.code := by rw [hlevel]; cases l <;> rfl
    have hf : latch.toNat = f.toNat := by rw [hlatch]; cases f <;> rfl
    have hrule := ruleResponseSet_read (hcode.trans c.number_eq.symm) hl hf
      (s.fronted ⟨0x24, tag, [code, level, latch]⟩ rest)
    have hallowed : c.allows l = true := Code.allows_iff.mpr
      ⟨fun hn => (h0 (Code.index_of_number (i := 0) hn)).elim (fun h => by rw [h]; decide) (fun h => by rw [h]; decide),
        fun hn hl => h3 (hn.imp Code.index_of_number Code.index_of_number) (Level.code_inj (m := .blockZone) hl),
        fun hn => (h7 (Code.index_of_number (i := 7) hn)).elim (fun h => by rw [h]; decide) (fun h => by rw [h]; decide)⟩
    rw [if_pos hallowed] at hrule
    exact congrArg _ (serve_own_write ⟨0x24, 3, false⟩ hs rfl rfl (.inl hm) hrule rfl)
  · refine ⟨fun h => ?_, fun hflag hn => ?_⟩
    · exact congrArg _ (serve_own_refuse ⟨0x48, 4, false⟩ hs rfl rfl (.inl hm) (ruleNoticeSet_refused h _))
    · obtain ⟨e, he, -⟩ := flag_of_lt_two hflag
      refine ⟨?_, ?_⟩ <;> rintro rfl
      all_goals
        rw [exec_noticeSet_done hm hs rfl he hn, byte_of_toNat he]
        cases e <;> rfl

end

section
/-! PROOF. ALARM-CLEAR: the pairs of code and scope that it takes, the entries that it removes, and the ALARM cause of a removal. -/

namespace Sys2Proof.Machine

open Sys2Proof

/-! ### A code and a scope (R139, R140, R183) -/

theorem readScope_eq_some {b : Byte} {sc : Scope} : readScope b = some sc ↔ b.toNat = sc.code := by
  unfold readScope
  cases sc with
  | bay x => have := x.isLt; split_ifs <;> simp [Scope.code, Fin.ext_iff] <;> omega
  | bus k => have := k.isLt; split_ifs <;> simp [Scope.code, Fin.ext_iff] <;> omega
  | check => split_ifs <;> simp [Scope.code] <;> omega
  | port p => cases p <;> split_ifs <;> simp [Scope.code] <;> omega

theorem Code.takes_iff {c : Code} {sc : Scope} : c.takes sc = true ↔ sc ∈ c.scopes := by
  cases sc with
  | port p => cases p <;> cases c <;> simp [Code.takes, Code.scopes]
  | _ => cases c <;> simp [Code.takes, Code.scopes, allSlots, allBuses]

/-- A byte spells a number below 256 exactly when it has its value. -/
theorem byte_eq_iff {b : Byte} {n : Nat} (hn : n < 256) : b = BitVec.ofNat 8 n ↔ b.toNat = n :=
  ⟨fun h => by rw [h, BitVec.toNat_ofNat]; exact Nat.mod_eq_of_lt hn, byte_of_toNat⟩

theorem Scope.code_lt (sc : Scope) : sc.code < 256 := by
  cases sc with
  | bay x => have := x.isLt; simp only [Scope.code]; omega
  | bus k => have := k.isLt; simp only [Scope.code]; omega
  | check => decide
  | port p => cases p <;> decide

/-- Two bytes name a pair exactly when both are read as it. -/
theorem readPair_iff {code scope : Byte} {c : Code} {sc : Scope} :
    [code, scope] = [BitVec.ofNat 8 c.number, BitVec.ofNat 8 sc.code] ↔ readCode code = some c ∧ readScope scope = some sc := by
  have hnumber : c.number < 256 := by rw [c.number_eq]; omega
  simp only [List.cons.injEq, and_true, byte_eq_iff hnumber, byte_eq_iff sc.code_lt, readCode_eq_some, readScope_eq_some]

/-! ### The rule of ALARM-CLEAR (R151) -/

theorem ruleAlarmClear_all (scope : Byte) (s : State) :
    ruleAlarmClear [0xFF, scope] s = .done (removeEntries (fun e => !e.active) s) [] := rfl

theorem ruleAlarmClear_read {code scope : Byte} {c : Code} {sc : Scope} (hc : readCode code = some c)
    (hsc : readScope scope = some sc) (s : State) : ruleAlarmClear [code, scope] s = clearEntry c sc s := by
  have hff : ¬ code.toNat = 0xFF := by
    rw [readCode_eq_some.mp hc, c.number_eq]
    omega
  unfold ruleAlarmClear
  dsimp only
  rw [if_neg hff, hc, hsc]

/-- Bytes that name no pair of the kind that R140 gives the code are refused. -/
theorem ruleAlarmClear_refused {code scope : Byte} (hff : code ≠ 0xFF)
    (h : ∀ (c : Code) (sc : Scope),
      [code, scope] ≠ [BitVec.ofNat 8 c.number, BitVec.ofNat 8 sc.code] ∨ sc ∉ c.scopes) (s : State) :
    ruleAlarmClear [code, scope] s = .refuse .outOfRange [] := by
  cases hc : readCode code with
  | none => simp only [ruleAlarmClear, hc, if_neg (mt byte_of_toNat hff)]
  | some c =>
    cases hsc : readScope scope with
    | none => simp only [ruleAlarmClear, hc, hsc, if_neg (mt byte_of_toNat hff)]
    | some sc =>
      have hforeign : sc ∉ c.scopes := (h c sc).resolve_left (not_not_intro (readPair_iff.mpr ⟨hc, hsc⟩))
      rw [ruleAlarmClear_read hc hsc, clearEntry]
      exact if_pos (Bool.eq_false_iff.mpr (mt Code.takes_iff.mp hforeign))

section
variable {c : Code} {sc : Scope} {s : State}

theorem Code.takes_of_mem (hsc : sc ∈ c.scopes) : ¬ c.takes sc = false := by
  rw [Code.takes_iff.mpr hsc]
  exact Bool.noConfusion

theorem clearEntry_notFound (hsc : sc ∈ c.scopes) (h : ∀ e ∈ s.supervision.conditions, ¬ (e.code = c ∧ e.scope = sc)) :
    clearEntry c sc s = .refuse .notFound [] := by
  have hnone : findEntry s.supervision.conditions c sc = none :=
    List.find?_eq_none.mpr fun e he => by simpa using h e he
  rw [clearEntry, if_neg (Code.takes_of_mem hsc), hnone]

/-- In a table the entry of a pair is the only one of that pair (R139). -/
theorem State.Tabled.findEntry (h : s.Tabled) {e : Condition} (he : e ∈ s.supervision.conditions) :
    findEntry s.supervision.conditions e.code e.scope = some e := by
  obtain ⟨hkeys, -, -⟩ := State.tabled_iff.mp h
  cases hf : Machine.findEntry s.supervision.conditions e.code e.scope with
  | none => exact absurd (Condition.key_eq_iff.mpr rfl) (List.find?_eq_none.mp hf e he)
  | some x =>
    obtain ⟨hx, hkey⟩ := findEntry_eq_some hf
    exact congrArg some (List.inj_on_of_nodup_map (conditionKeys_nodup.sublist hkeys) hx he hkey)

theorem clearEntry_stillActive (hsc : sc ∈ c.scopes) {e : Condition}
    (hf : findEntry s.supervision.conditions c sc = some e) (ha : e.active = true) :
    clearEntry c sc s = .refuse .stillActive [] := by
  rw [clearEntry, if_neg (Code.takes_of_mem hsc), hf]
  exact if_pos ha

theorem clearEntry_removes (hsc : sc ∈ c.scopes) {e : Condition}
    (hf : findEntry s.supervision.conditions c sc = some e) (ha : e.active = false) :
    clearEntry c sc s = .done (removeEntries (fun x => decide (x.code = c ∧ x.scope = sc)) s) [] := by
  rw [clearEntry, if_neg (Code.takes_of_mem hsc), hf]
  simp only [ha, Bool.false_eq_true, if_false, Bool.decide_and]

end

/-! ### A removal and its ALARM cause (R151, R180) -/

/-- The entries left when those picked are removed. -/
def withoutEntries (removed : Condition → Bool) (s : State) : State :=
  { s with
    supervision := { s.supervision with conditions := s.supervision.conditions.filter (fun e => removed e = false) } }

/-- An entry is removed whose code's level is not NONE. -/
def RemovalRaises (removed : Condition → Bool) (s : State) : Prop :=
  ∃ e ∈ s.supervision.conditions, removed e = true ∧ (s.supervision.response e.code).level ≠ .none

section
variable {removed : Condition → Bool} {s : State}

theorem removeEntries_raised (h : RemovalRaises removed s) :
    removeEntries removed s = causeAlarm (withoutEntries removed s) := by
  unfold removeEntries withoutEntries
  simp only [Bool.decide_eq_false]
  exact if_pos (by simpa [RemovalRaises] using h)

theorem removeEntries_unraised (h : ¬ RemovalRaises removed s) : removeEntries removed s = withoutEntries removed s := by
  unfold removeEntries withoutEntries
  simp only [Bool.decide_eq_false]
  exact if_neg (by simpa [RemovalRaises] using h)

end

section
variable {s : State}

/-- On a settled link the transmitter finds nothing to take. -/
theorem ControlLink.Settled.kick {l : ControlLink} (h : l.Settled) : l.kick = l := by
  cases hl : l.line with
  | some f => exact ControlLink.kick_busy (by rw [hl]; nofun)
  | none =>
    obtain ⟨hr, hs⟩ := h hl
    obtain ⟨fr, rq, fl, rs, ln, e1, e2, e3, sl, al, tp⟩ := l
    subst hl hr hs
    rfl

/-- A class that is disabled takes no cause. -/
theorem causeAlarm_disabled (hl : s.link.Settled) (he : s.link.alarm.enabled = false) : causeAlarm s = s := by
  have hc : s.link.alarm.cause = (s.link.alarm, false) := by simp [NoticeClass.cause, he]
  unfold causeAlarm
  rw [hc]
  exact congrArg (fun l => { s with link := l }) hl.kick

/-- A class whose timer runs keeps the cause as its mark. -/
theorem causeAlarm_marks (hl : s.link.Settled) (he : s.link.alarm.enabled = true) (ht : s.link.alarm.timer ≠ none) :
    causeAlarm s = { s with link := { s.link with alarm := { s.link.alarm with pending := true } } } := by
  have hc : s.link.alarm.cause = ({ s.link.alarm with pending := true }, false) := by
    obtain ⟨hclass, -⟩ := s.link.alarm.cause_causedTo.2
    exact Prod.ext (hclass he ht) (NoticeClass.cause_idle (.inr ht))
  have hmarked : ({ s.link with alarm := { s.link.alarm with pending := true } } : ControlLink).Settled := hl
  unfold causeAlarm
  rw [hc]
  exact congrArg (fun l => { s with link := l }) hmarked.kick

/-- The ALARM class once a notice is made. -/
def NoticeClass.started (c : NoticeClass) : NoticeClass :=
  { c with timer := if c.interval = 0 then none else some c.interval }

/-- The link once an ALARM notice is made: on the free line, or in its slot behind the frame on the line. -/
def ControlLink.withAlarm (payload : List Byte) (l : ControlLink) : ControlLink :=
  if l.line = none then { l with alarm := l.alarm.started, line := some (noticeFrame 0x62 payload) }
  else { l with alarm := l.alarm.started, slots := { l.slots with alarm := some payload } }

/-- An idle class makes its notice at once. -/
theorem causeAlarm_makes (hl : s.link.Settled) (he : s.link.alarm.enabled = true) (ht : s.link.alarm.timer = none) :
    causeAlarm s = { s with link := s.link.withAlarm (alarmNotice s) } := by
  have hc : s.link.alarm.cause = (s.link.alarm.started, true) := by
    obtain ⟨-, hmade⟩ := s.link.alarm.cause_causedTo.2
    obtain ⟨hclass, hnotice⟩ := hmade he ht
    exact Prod.ext hclass hnotice
  unfold causeAlarm
  rw [hc]
  refine congrArg (fun l => { s with link := l }) ?_
  dsimp only
  rw [if_pos rfl, ControlLink.withAlarm]
  split_ifs with hn
  · obtain ⟨hr, hs⟩ := hl hn
    simp [ControlLink.kick, ControlLink.takeNext, ControlLink.haltReady, hn, hr, hs, NoticeSlots.empty]
  · exact ControlLink.kick_busy hn

theorem ControlLink.withAlarm_settled (payload : List Byte) (l : ControlLink) : (l.withAlarm payload).Settled := by
  unfold ControlLink.withAlarm
  split_ifs with hn
  · nofun
  · exact fun h => absurd h hn

/-- A notice is made without regard to the requests that wait. -/
theorem ControlLink.withAlarm_fronted (payload : List Byte) (requests : List Request) (l : ControlLink) :
    ({ l with requests := requests } : ControlLink).withAlarm payload =
      { l.withAlarm payload with requests := requests } := by
  unfold ControlLink.withAlarm
  dsimp only
  split_ifs <;> rfl

end

/-! ### The reply (R151, R168; log 16) -/

/-- The request ALARM-CLEAR (R184). -/
abbrev alarmClearRequest (tag code scope : Byte) : Request := ⟨0x41, tag, [code, scope]⟩

section
variable {tag code scope : Byte} {s : State} {rest : List Request} {removed : Condition → Bool}
variable (hm : s.mode ≠ .halted) (hs : s.Served (alarmClearRequest tag code scope) rest)
variable (hrule : ruleAlarmClear [code, scope] (s.fronted (alarmClearRequest tag code scope) rest) =
  .done (removeEntries removed (s.fronted (alarmClearRequest tag code scope) rest)) [])
include hm hs hrule

/-- The reply is placed on the link as the removal leaves it. -/
theorem exec_alarmClear_done {l : ControlLink}
    (h : removeEntries removed (s.fronted (alarmClearRequest tag code scope) rest) =
      { withoutEntries removed s with link := l })
    (hl : l.Settled) (hq : l.requests = alarmClearRequest tag code scope :: rest) :
    exec (.alarmClear tag [code, scope]) s =
      .next { withoutEntries removed s with link := l.answered (alarmClearRequest tag code scope) rest 0 [] } := by
  rw [h] at hrule
  have hchecks := (commonChecks_pass (s := s.fronted (alarmClearRequest tag code scope) rest)
    (req := alarmClearRequest tag code scope) ⟨0x41, 2, false⟩
    ruleAlarmClear rfl rfl (.inl hm)).trans hrule
  exact congrArg _ (serve_done hs hchecks hl hq)

/-- A removal that raises no cause, or raises it for a class that is disabled, leaves the notices as they are. -/
theorem exec_alarmClear_silent (h : ¬ RemovalRaises removed s ∨ s.link.alarm.enabled = false) :
    exec (.alarmClear tag [code, scope]) s =
      .next ((withoutEntries removed s).replied (alarmClearRequest tag code scope) rest 0 []) := by
  let u : State := s.fronted (alarmClearRequest tag code scope) rest
  refine exec_alarmClear_done hm hs hrule (l := u.link) ?_ hs.1 rfl
  by_cases hr : RemovalRaises removed s
  · exact (removeEntries_raised (s := u) hr).trans
      (causeAlarm_disabled (s := withoutEntries removed u) hs.1 (h.resolve_left (not_not_intro hr)))
  · exact removeEntries_unraised (s := u) hr

/-- A cause that the running timer holds back is marked. -/
theorem exec_alarmClear_marks (hr : RemovalRaises removed s) (he : s.link.alarm.enabled = true)
    (ht : s.link.alarm.timer ≠ none) :
    exec (.alarmClear tag [code, scope]) s =
      .next
        { withoutEntries removed s with
          link :=
            { s.link with alarm := { s.link.alarm with pending := true } }.answered (alarmClearRequest tag code scope)
              rest 0 [] } :=
  let u : State := s.fronted (alarmClearRequest tag code scope) rest
  exec_alarmClear_done hm hs hrule
    (l := { u.link with alarm := { u.link.alarm with pending := true } })
    ((removeEntries_raised (s := u) hr).trans (causeAlarm_marks (s := withoutEntries removed u) hs.1 he ht)) hs.1 rfl

/-- A cause of the idle class makes the notice of the entries left, and the reply stands behind it. -/
theorem exec_alarmClear_makes (hr : RemovalRaises removed s) (he : s.link.alarm.enabled = true)
    (ht : s.link.alarm.timer = none) :
    exec (.alarmClear tag [code, scope]) s =
      .next
        { withoutEntries removed s with
          link :=
            (s.link.withAlarm (alarmNotice (withoutEntries removed s))).answered (alarmClearRequest tag code scope)
              rest 0 [] } := by
  let u : State := s.fronted (alarmClearRequest tag code scope) rest
  have hlink : u.link.withAlarm (alarmNotice (withoutEntries removed s)) =
      { s.link.withAlarm (alarmNotice (withoutEntries removed s)) with
        requests := alarmClearRequest tag code scope :: rest } :=
    ControlLink.withAlarm_fronted _ _ _
  have hcause := (removeEntries_raised (s := u) hr).trans (causeAlarm_makes (s := withoutEntries removed u) hs.1 he ht)
  have hdone := exec_alarmClear_done hm hs hrule hcause (ControlLink.withAlarm_settled _ _)
    (congrArg ControlLink.requests hlink)
  exact hdone.trans (congrArg (fun l : ControlLink => Host.Outcome.next
    { withoutEntries removed s with link := l.answered (alarmClearRequest tag code scope) rest 0 [] }) hlink)

end

end Sys2Proof.Machine

open Sys2Proof Sys2Proof.Machine

/-- Settles O56: the pair that the bytes name, its entry, and the three outcomes of the ALARM cause of a removal. -/
theorem alarmClearRemovesEndedConditions : Obligations.AlarmClearRemovesEndedConditions := by
  intro tag code scope s rest hm htab hs req removal
  have hremoval : ∀ removed, ruleAlarmClear [code, scope] (s.fronted req rest) =
      .done (removeEntries removed (s.fronted req rest)) [] → removal removed := fun removed hrule =>
    ⟨exec_alarmClear_silent hm hs hrule, exec_alarmClear_marks hm hs hrule, exec_alarmClear_makes hm hs hrule⟩
  have hrefused : ∀ {st : Status}, ruleAlarmClear [code, scope] (s.fronted req rest) = .refuse st [] →
      exec (.alarmClear tag [code, scope]) s = .next (s.replied req rest st.code []) := fun h =>
    congrArg _ (serve_own_refuse ⟨0x41, 2, false⟩ hs rfl rfl (.inl hm) h)
  refine ⟨fun hall => hremoval _ ?_, fun hff => ⟨fun h => hrefused (ruleAlarmClear_refused hff h _), fun c sc hpair hsc => ?_⟩⟩
  · subst hall
    exact ruleAlarmClear_all scope _
  · obtain ⟨hc, hscope⟩ := readPair_iff.mp hpair
    have hrule := ruleAlarmClear_read hc hscope (s.fronted req rest)
    refine ⟨fun hno => hrefused (hrule.trans (clearEntry_notFound hsc hno)), ?_⟩
    rintro e he rfl rfl
    have hfound := htab.findEntry he
    exact ⟨fun ha => hrefused (hrule.trans (clearEntry_stillActive (s := s.fronted req rest) hsc hfound ha)), fun ha =>
      hremoval _ (hrule.trans (clearEntry_removes (s := s.fronted req rest) hsc hfound ha))⟩

end

section
/-! PROOF. Every command answers next, and leaves the commands that wait. -/

namespace Sys2Proof.Machine

open Sys2Proof

/-! ### Evaluations, closes and reports -/

@[simp] theorem measureSet_pending (t : Topology) (s : State) : (measureSet t s).state.pending = s.pending := by
  obtain ⟨e, d, h⟩ := measureSet_frame t s
  rw [h]

@[simp] theorem finishSet_pending (p : Published) (t : Topology) (r : Results) (s : State) :
    (finishSet p t r s).pending = s.pending := by
  simp [finishSet]

@[simp] theorem evaluateFrom_pending (p : Published) (t : Topology) (s : State) :
    (evaluateFrom p t s).pending = s.pending := by
  have hmeasured := measureSet_pending t s
  unfold evaluateFrom
  cases hm : measureSet t s with
  | abandoned u => rw [hm] at hmeasured; exact (reportCheck_pending _ u).trans hmeasured
  | whole u r =>
    rw [hm] at hmeasured
    exact (finishSet_pending p t r _).trans ((superviseSet_pending t r u).trans hmeasured)

@[simp] theorem evaluateSet_pending (s : State) : (evaluateSet s).pending = s.pending := by
  unfold evaluateSet
  split
  · rfl
  · simp

@[simp] theorem measurePart_pending (supervised : Bool) (t : Topology) (s : State) :
    (measurePart supervised t s).state.pending = s.pending := by
  have hmeasured := measureSet_pending t s
  unfold measurePart
  cases hm : measureSet t s with
  | abandoned u => rw [hm] at hmeasured; exact hmeasured
  | whole u r =>
    rw [hm] at hmeasured
    cases supervised
    · exact hmeasured
    · exact (superviseSet_pending t r u).trans hmeasured

@[simp] theorem evaluatePart_pending (n : Nat) (p : Published) (s : State) :
    (evaluatePart n p s).state.pending = s.pending := by
  unfold evaluatePart
  dsimp only
  split_ifs <;> simp

@[simp] theorem cutShort_pending (m : ClockReport) (s : State) : (cutShort m s).state.pending = s.pending := by
  unfold cutShort
  split
  · simp
  · dsimp only
    split_ifs <;> simp

@[simp] theorem reportAbsent_pending (clockFirst : Bool) (c : CutShort) :
    (reportAbsent clockFirst c).pending = c.state.pending := by
  unfold reportAbsent
  split_ifs <;> simp

@[simp] theorem closeSet_pending (s : State) : (closeSet s).pending = s.pending := by
  unfold closeSet closeStore
  split_ifs <;> simp

@[simp] theorem receiveFrame_pending (port : Port) (frame : List Byte) (s : State) :
    (receiveFrame port frame s).pending = s.pending := by
  obtain ⟨x, y, z, h⟩ := receiveFrame_frame port frame s
  rw [h]

@[simp] theorem writeYard_pending (y : Yard) (s : State) : (writeYard y s).pending = s.pending := by
  unfold writeYard
  dsimp only
  split_ifs <;> rfl

/-! ### The service of a request -/

/-- What a request's own rule answers leaves the commands that wait. -/
def Service.KeepsPending (s : State) : Service → Prop
  | .done t _ => t.pending = s.pending
  | .refuse _ _ => True
  | .hold _ => True
  | .restart => True

theorem commonChecks_keepsPending {req : Request} {own : List Byte → State → Service} {s : State}
    (h : (own req.payload s).KeepsPending s) : (commonChecks req own s).KeepsPending s := by
  unfold commonChecks
  split
  · trivial
  · split_ifs
    · trivial
    · trivial
    · exact h

theorem finishService_pending {req : Request} {s : State} {answer : Service} (h : answer.KeepsPending s) :
    (finishService req s answer).pending = s.pending := by
  cases answer with
  | done t data => exact h
  | refuse st detail => rfl
  | hold f => rfl
  | restart => rfl

theorem atHead_pending {req : Request} {s t : State} (h : s.atHead req = some t) : t.pending = s.pending := by
  unfold State.atHead at h
  repeat' split at h
  all_goals cases h
  · rfl
  · rfl

theorem serve_pending {req : Request} {own : List Byte → State → Service}
    (h : ∀ s, (own req.payload s).KeepsPending s) (s : State) : (serve req own s).pending = s.pending := by
  unfold serve
  split
  · rfl
  next t ht =>
    split_ifs
    · exact (finishService_pending (commonChecks_keepsPending (h t))).trans (atHead_pending ht)
    · exact atHead_pending ht

theorem serve_read_pending {req : Request} (data : State → List Byte) (s : State) :
    (serve req (fun _ s => .done s (data s)) s).pending = s.pending :=
  serve_pending (own := fun _ s => .done s (data s)) (fun _ => rfl) s

/-- The rules of the requests that have one of their own. -/
def ownRules : List (List Byte → State → Service) :=
  [ruleMode, ruleStreamSet, ruleStreamDrop, ruleBaySet, ruleBayGet, ruleYardSet, ruleBankWrite, ruleBankRead, ruleBankApply,
    ruleResponseSet, ruleResponseGet, ruleStatus, ruleCounters, ruleRecordRead, ruleRecordDiscard, ruleTripClear,
    ruleAlarmClear, ruleZoneBlock, ruleForce, ruleNoticeSet]

theorem ownRules_keepPending {rule : List Byte → State → Service} (h : rule ∈ ownRules) (payload : List Byte) (s : State) :
    (rule payload s).KeepsPending s := by
  have hdone : ∀ (t : State) (data : List Byte), t.pending = s.pending → (Service.done t data).KeepsPending s :=
    fun _ _ ht => ht
  simp only [ownRules, List.mem_cons, List.not_mem_nil, or_false] at h
  rcases h with rfl | rfl | rfl | rfl | rfl | rfl | rfl | rfl | rfl | rfl | rfl | rfl | rfl | rfl | rfl | rfl | rfl | rfl |
    rfl | rfl
  all_goals
    simp only [ruleMode, ruleStreamSet, ruleStreamDrop, ruleBaySet, ruleBayGet, ruleYardSet, ruleBankWrite, ruleBankRead,
      ruleBankApply, ruleResponseSet, ruleResponseGet, ruleStatus, ruleCounters, ruleRecordRead, ruleRecordDiscard,
      ruleTripClear, ruleAlarmClear, clearEntry, ruleZoneBlock, ruleForce, ruleNoticeSet]
    repeat' split
  any_goals exact trivial
  all_goals exact hdone _ _ (by simp)

theorem serve_own_pending {req : Request} {rule : List Byte → State → Service} (h : rule ∈ ownRules) (s : State) :
    (serve req rule s).pending = s.pending :=
  serve_pending (ownRules_keepPending h _) s

/-! ### Every command -/

theorem exec_answers_next (c : Instr) (s : State) : ∃ t, exec c s = .next t := by
  cases c <;> exact ⟨_, rfl⟩

theorem exec_pending {c : Instr} {s t : State} (h : exec c s = .next t) : t.pending = s.pending := by
  cases c <;> cases h
  case hardReset => rfl
  case refclkAbsent => simp
  case setInstant => simp
  case sampleCountWrap => split <;> simp
  case linkDown => split <;> simp
  case moderationTimerExpiry => split <;> simp
  case portFrameReceived => simp
  case tripFrameSent => rfl
  case setClose => split <;> simp
  case evaluateSet => simp
  case externalHoldExpiry => split <;> simp
  case bfTimerExpiry => split <;> simp
  case controlByteReceived => rfl
  case gapTimeout => rfl
  case frameTransmitted => rfl
  case restartMade => split <;> simp
  case unknownKindRequest =>
    split
    · exact serve_pending (own := fun _ _ => .refuse .unknownKind []) (fun _ => trivial) s
    · rfl
  case ident => exact serve_read_pending _ s
  case streamList => exact serve_read_pending _ s
  case yardGet => exact serve_read_pending _ s
  case topology => exact serve_read_pending _ s
  case measure => exact serve_read_pending _ s
  case positions => exact serve_read_pending _ s
  case restart => exact serve_pending (own := fun _ _ => .restart) (fun _ => trivial) s
  case settle => exact serve_pending (own := fun _ _ => .hold (.settle false)) (fun _ => trivial) s
  all_goals exact serve_own_pending (by simp [ownRules]) s

end Sys2Proof.Machine

open Sys2Proof Sys2Proof.Machine

/-- Settles O2: every command has a meaning that answers next, and no part of any meaning writes the queue of commands. -/
theorem everyCommandAnswersNext : Obligations.EveryCommandAnswersNext := fun c s =>
  have ⟨t, ht⟩ := exec_answers_next c s
  ⟨t, ht, exec_pending ht⟩

end

section
/-! PROOF. The record stack: a push of several records, and the requests RECORD-READ and RECORD-DISCARD. -/

namespace Sys2Proof.Machine

open Sys2Proof

/-! ### A push (R161) -/

/-- The stack and its overwrite count within their sizes (R158). -/
abbrev RecordStack.Bounded (st : RecordStack) : Prop :=
  st.stack.length ≤ 8 ∧ st.overwrites ≤ 255

theorem RecordStack.push_stack (st : RecordStack) (r : TripRecord) : (st.push r).stack = (r :: st.stack).take 8 := rfl

theorem RecordStack.push_length (st : RecordStack) (r : TripRecord) :
    (st.push r).stack.length = min 8 (st.stack.length + 1) := by
  rw [push_stack, List.length_take, List.length_cons]

theorem RecordStack.push_overwrites (st : RecordStack) (r : TripRecord) :
    (st.push r).overwrites = if 8 ≤ st.stack.length then min (st.overwrites + 1) 255 else st.overwrites := rfl

theorem RecordStack.push_bounded {st : RecordStack} (h : st.Bounded) (r : TripRecord) : (st.push r).Bounded := by
  obtain ⟨hstack, hcount⟩ := h
  rw [RecordStack.Bounded, push_length, push_overwrites]
  refine ⟨Nat.min_le_left _ _, ?_⟩
  split_ifs <;> omega

/-- What stands behind the first n of a list's end is of no matter to its first n. -/
theorem take_append_take {α : Type} (n : Nat) (l m : List α) : (l ++ m.take n).take n = (l ++ m).take n := by
  rw [List.take_append, List.take_append, List.take_take, Nat.min_eq_left (Nat.sub_le _ _)]

/-- The newest of all that was pushed and of all that stood. -/
theorem RecordStack.pushes_stack (records : List TripRecord) (st : RecordStack) (h : st.stack.length ≤ 8) :
    (records.foldl RecordStack.push st).stack = (records.reverse ++ st.stack).take 8 := by
  induction records generalizing st with
  | nil => exact (List.take_of_length_le h).symm
  | cons r records ih =>
    have hpush : (st.push r).stack.length ≤ 8 := by
      rw [push_length]
      exact Nat.min_le_left _ _
    rw [List.foldl_cons, ih _ hpush, push_stack, take_append_take, List.reverse_cons, List.append_assoc]
    rfl

/-- A push discards a record exactly when the stack is full, and the count of them stops at 255. -/
theorem RecordStack.pushes_overwrites (records : List TripRecord) (st : RecordStack) (h : st.Bounded) :
    (records.foldl RecordStack.push st).overwrites =
      min (st.overwrites + (records.length + st.stack.length - 8)) 255 := by
  induction records generalizing st with
  | nil =>
    obtain ⟨hstack, hcount⟩ := h
    rw [List.foldl_nil, List.length_nil]
    omega
  | cons r records ih =>
    obtain ⟨hstack, hcount⟩ := h
    rw [List.foldl_cons, ih _ (push_bounded ⟨hstack, hcount⟩ r), push_length, push_overwrites, List.length_cons]
    split_ifs <;> omega

theorem RecordStack.pushes_bounded {st : RecordStack} (h : st.Bounded) (records : List TripRecord) :
    (records.foldl RecordStack.push st).Bounded := by
  rw [RecordStack.Bounded, pushes_stack records st h.1, pushes_overwrites records st h, List.length_take]
  exact ⟨Nat.min_le_left _ _, Nat.min_le_right _ _⟩

/-! ### A record, byte for byte (R185) -/

theorem BacktripRecord.bytes_eq (b : BacktripRecord) :
    (TripRecord.backtrip b).bytes =
      2 :: (u16 b.stamp.second ++ u16 b.stamp.count ++ [BitVec.ofNat 8 b.bay.val] ++ u32 b.current
        ++ [BitVec.ofNat 8 b.buses.toNat] ++ u32 b.bitmap.toNat) := rfl

theorem bitsByte_table (t : Table 3 Bool) :
    bitsByte t.cells =
      [(if t.get 0 = true then 1 else 0) + (if t.get 1 = true then 2 else 0) + (if t.get 2 = true then 4 else 0)] := by
  have hcells : t.cells = [t.get 0, t.get 1, t.get 2] := t.cells_eq
  rw [hcells]
  generalize t.get 0 = a, t.get 1 = b, t.get 2 = c
  cases a <;> cases b <;> cases c <;> rfl

/-- The 8 bytes of a ZONE_TRIP record before its phases. -/
def ZoneTripRecord.headBytes (z : ZoneTripRecord) : List Byte :=
  u8 1 ++ stampCounts z.stamp ++ busSetByte z.buses ++ u8 z.release.value ++ bitsByte z.released.cells

/-- The 9 bytes of a phase of the zone. -/
def PhaseRecord.bytes (q : PhaseRecord) : List Byte :=
  u32 q.diff ++ u32 q.restraint ++ u8 q.detector.code

/-- The 8 bytes of a phase of the check zone. -/
def CheckRecord.bytes (q : CheckRecord) : List Byte :=
  u32 q.diff ++ u32 q.restraint

/-- A ZONE_TRIP record's bytes up to the check zone. -/
def ZoneTripRecord.zoneBytes (z : ZoneTripRecord) : List Byte :=
  z.headBytes ++ z.phases.cells.flatMap PhaseRecord.bytes

theorem ZoneTripRecord.headBytes_eq (z : ZoneTripRecord) :
    z.headBytes =
      (1 : Byte) :: (u16 z.stamp.second ++ u16 z.stamp.count ++
        [BitVec.ofNat 8 z.buses.toNat, (match z.release with | .checked => 0 | .unchecked => 1 : Byte),
          (if z.released.get 0 = true then 1 else 0) + (if z.released.get 1 = true then 2 else 0)
            + (if z.released.get 2 = true then 4 else 0)]) := by
  rw [headBytes, bitsByte_table]
  cases z.release <;> rfl

theorem PhaseRecord.bytes_eq (q : PhaseRecord) :
    q.bytes =
      u32 q.diff ++ u32 q.restraint ++ [(match q.detector with | .quiet => 0 | .watch => 1 | .external => 2 | .settle => 3 : Byte)] := by
  rw [bytes]
  cases q.detector <;> rfl

theorem ZoneTripRecord.headBytes_length (z : ZoneTripRecord) : z.headBytes.length = 8 := by
  rw [headBytes_eq]
  rfl

/-- Blocks of one length, as many as the table's places. -/
theorem Table.flatMap_length {n k : Nat} {α β : Type} (t : Table n α) {f : α → List β} (hf : ∀ a, (f a).length = k) :
    (t.cells.flatMap f).length = n * k := by
  rw [List.length_flatMap, List.map_congr_left (fun a _ => hf a), List.map_const', List.sum_replicate, t.size, smul_eq_mul]

theorem ZoneTripRecord.zoneBytes_length (z : ZoneTripRecord) : z.zoneBytes.length = 35 := by
  rw [zoneBytes, List.length_append, headBytes_length, Table.flatMap_length z.phases (f := PhaseRecord.bytes) (k := 9) (fun _ => rfl)]

theorem ZoneTripRecord.bytes_unchecked {z : ZoneTripRecord} (h : z.check = none) :
    (TripRecord.zoneTrip z).bytes = z.zoneBytes ++ u32 z.bitmap.toNat := by
  rw [TripRecord.bytes, h, List.append_nil]
  rfl

theorem ZoneTripRecord.bytes_checked {z : ZoneTripRecord} {c : Table 3 CheckRecord} (h : z.check = some c) :
    (TripRecord.zoneTrip z).bytes = z.zoneBytes ++ (c.cells.flatMap CheckRecord.bytes ++ u32 z.bitmap.toNat) := by
  rw [TripRecord.bytes, h, ← List.append_assoc]
  rfl

/-- In every form a ZONE_TRIP record begins with its zone. -/
theorem ZoneTripRecord.bytes_zone (z : ZoneTripRecord) : ∃ tail, (TripRecord.zoneTrip z).bytes = z.zoneBytes ++ tail := by
  cases h : z.check with
  | none => exact ⟨_, bytes_unchecked h⟩
  | some c => exact ⟨_, bytes_checked h⟩

/-- The block of a table's entry, where the table is laid out after n bytes. -/
theorem Table.take_drop_block {m k n : Nat} {α β : Type} (t : Table m α) {f : α → List β} (hf : ∀ a, (f a).length = k)
    {before after : List β} (hn : before.length = n) (i : Fin m) :
    ((before ++ t.cells.flatMap f ++ after).drop (n + k * i.val)).take k = f (t.get i) := by
  have hlen : (t.cells.flatMap f).length = k * t.cells.length := by rw [Table.flatMap_length t hf, t.size, Nat.mul_comm]
  have hfield : ((before ++ t.cells.flatMap f ++ after).drop n).take (k * t.cells.length) = t.cells.flatMap f := by
    rw [List.append_assoc, List.drop_left' hn, List.take_left' hlen]
  exact Machine.take_drop_block hf hfield i.val (t.size.symm ▸ i.isLt)

theorem ZoneTripRecord.bytes_head (z : ZoneTripRecord) : (TripRecord.zoneTrip z).bytes.take 8 = z.headBytes := by
  obtain ⟨tail, h⟩ := z.bytes_zone
  rw [h, zoneBytes, List.append_assoc, List.take_left' z.headBytes_length]

theorem ZoneTripRecord.bytes_phase (z : ZoneTripRecord) (p : Phase) :
    ((TripRecord.zoneTrip z).bytes.drop (8 + 9 * p.val)).take 9 = (z.phases.get p).bytes := by
  obtain ⟨tail, h⟩ := z.bytes_zone
  rw [h, zoneBytes]
  exact Table.take_drop_block z.phases (f := PhaseRecord.bytes) (fun _ => rfl) z.headBytes_length p

theorem ZoneTripRecord.bytes_checkPhase {z : ZoneTripRecord} {c : Table 3 CheckRecord} (h : z.check = some c) (p : Phase) :
    ((TripRecord.zoneTrip z).bytes.drop (35 + 8 * p.val)).take 8 = (c.get p).bytes := by
  rw [bytes_checked h, ← List.append_assoc]
  exact Table.take_drop_block c (f := CheckRecord.bytes) (fun _ => rfl) z.zoneBytes_length p

/-- With the check zone: 63 bytes, the bitmap last. -/
theorem ZoneTripRecord.bytes_checked_end {z : ZoneTripRecord} {c : Table 3 CheckRecord} (h : z.check = some c) :
    (TripRecord.zoneTrip z).bytes.length = 63 ∧ (TripRecord.zoneTrip z).bytes.drop 59 = u32 z.bitmap.toNat := by
  have hlen : (z.zoneBytes ++ c.cells.flatMap CheckRecord.bytes).length = 59 := by
    rw [List.length_append, zoneBytes_length, Table.flatMap_length c (f := CheckRecord.bytes) (k := 8) (fun _ => rfl)]
  rw [bytes_checked h, ← List.append_assoc]
  exact ⟨by rw [List.length_append, hlen]; rfl, List.drop_left' hlen⟩

/-- Without it: 39 bytes, the bitmap last. -/
theorem ZoneTripRecord.bytes_unchecked_end {z : ZoneTripRecord} (h : z.check = none) :
    (TripRecord.zoneTrip z).bytes.length = 39 ∧ (TripRecord.zoneTrip z).bytes.drop 35 = u32 z.bitmap.toNat := by
  rw [bytes_unchecked h]
  exact ⟨by rw [List.length_append, z.zoneBytes_length]; rfl, List.drop_left' z.zoneBytes_length⟩

/-! ### RECORD-READ and RECORD-DISCARD (R162, R163) -/

theorem ruleRecordRead_tooDeep {depth : Byte} (h : 7 < depth.toNat) (s : State) :
    ruleRecordRead [depth] s = .refuse .outOfRange [] := if_pos h

theorem ruleRecordRead_absent {depth : Byte} {s : State} (h : depth.toNat ≤ 7) (hn : s.records.stack.length ≤ depth.toNat) :
    ruleRecordRead [depth] s = .refuse .notFound [] := by
  unfold ruleRecordRead
  dsimp only
  rw [if_neg (Nat.not_lt.mpr h), List.getElem?_eq_none hn]

theorem ruleRecordRead_held {depth : Byte} {s : State} {r : TripRecord} (h : depth.toNat ≤ 7)
    (hr : s.records.stack[depth.toNat]? = some r) :
    ruleRecordRead [depth] s =
      .done s (BitVec.ofNat 8 s.records.stack.length :: BitVec.ofNat 8 s.records.overwrites :: r.bytes) := by
  unfold ruleRecordRead
  dsimp only
  rw [if_neg (Nat.not_lt.mpr h), hr]
  rfl

theorem ruleRecordDiscard_empty {s : State} (h : s.records.stack = []) :
    ruleRecordDiscard [] s = .refuse .notFound [] := by
  unfold ruleRecordDiscard
  rw [h]

theorem ruleRecordDiscard_held {s : State} {r : TripRecord} {older : List TripRecord} (h : s.records.stack = r :: older) :
    ruleRecordDiscard [] s = .done { s with records := { s.records with stack := older } } [BitVec.ofNat 8 older.length] := by
  unfold ruleRecordDiscard
  rw [h]
  rfl

end Sys2Proof.Machine

open Sys2Proof Sys2Proof.Machine

/-- Settles O36, by induction on the records pushed. -/
theorem pushKeepsTheNewestEight : Obligations.PushKeepsTheNewestEight := fun records st hstack hcount =>
  ⟨RecordStack.pushes_stack records st hstack, RecordStack.pushes_overwrites records st ⟨hstack, hcount⟩⟩

/-- Settles O45: the rule of each request in each of its cases, and the layout of each kind of record. -/
theorem recordsAreReadAndDiscarded : Obligations.RecordsAreReadAndDiscarded := by
  refine ⟨fun tag depth s rest hs => ⟨fun h => ?_, fun h hn => ?_, fun h r hr => ⟨r.bytes, ?_, ?_, ?_⟩⟩,
    fun tag s rest hs => ⟨fun h => ?_, fun r older h => ?_⟩⟩
  · exact congrArg _ (serve_own_refuse ⟨0x38, 1, true⟩ hs rfl rfl (.inr rfl) (ruleRecordRead_tooDeep h _))
  · exact congrArg _ (serve_own_refuse ⟨0x38, 1, true⟩ hs rfl rfl (.inr rfl) (ruleRecordRead_absent h hn))
  · exact congrArg _ (serve_own_read ⟨0x38, 1, true⟩ hs rfl rfl (.inr rfl)
      (ruleRecordRead_held (s := s.fronted ⟨0x38, tag, [depth]⟩ rest) h hr))
  · rintro b rfl
    exact b.bytes_eq
  · rintro z rfl
    exact ⟨z.bytes_head.trans z.headBytes_eq, fun p => (z.bytes_phase p).trans (z.phases.get p).bytes_eq,
      fun c hc => ⟨(z.bytes_checked_end hc).1, (z.bytes_checked_end hc).2, z.bytes_checkPhase hc⟩,
      ZoneTripRecord.bytes_unchecked_end⟩
  · exact congrArg _ (serve_own_refuse ⟨0x39, 0, true⟩ hs rfl rfl (.inr rfl) (ruleRecordDiscard_empty h))
  · exact congrArg _ (serve_own_write ⟨0x39, 0, true⟩ hs rfl rfl (.inr rfl)
      (ruleRecordDiscard_held (s := s.fronted ⟨0x39, tag, []⟩ rest) h) rfl)

end

section
/-! PROOF. Every command keeps the queues, the framer, the notice classes and the record stack within their bounds, and leaves nothing
waiting for a free line. -/

namespace Sys2Proof.Machine

open Sys2Proof

/-! ### The bounds, block by block -/

/-- State.Queued of the link, but for what waits for a free line. -/
structure ControlLink.Bounded (l : ControlLink) : Prop where
  requests : l.requests.length ≤ 4
  replies : l.replies.length ≤ 4
  head : l.flight ≠ none → l.requests ≠ []
  room : l.flight ≠ none → l.flight ≠ some .restart → l.replies.length < 4
  framer : l.framer.Bounded
  alarm : l.alarm.Bounded l.slots.alarm
  topology : l.topology.Bounded l.slots.topology
  counters : l.crcErrors ≤ 65535 ∧ l.framing ≤ 65535 ∧ l.overrun ≤ 65535

/-- State.Queued of the link. -/
structure ControlLink.Queued (l : ControlLink) : Prop where
  bounded : l.Bounded
  settled : l.Settled

theorem State.queued_iff {s : State} : s.Queued ↔ s.link.Queued ∧ s.records.Bounded :=
  ⟨fun h => ⟨⟨⟨h.requests, h.replies, h.head, h.room, h.framer, h.alarm, h.topology, h.counters⟩, h.settled⟩, h.stack, h.overwrites⟩,
    fun ⟨⟨h, hs⟩, hst, ho⟩ =>
      ⟨h.requests, h.replies, h.head, h.room, hs, h.framer, h.alarm, h.topology, h.counters, hst, ho⟩⟩

/-! ### The transmitter (R182) -/

/-- Some of what waited has been taken away, and nothing but the line has changed beside. -/
structure ControlLink.Drained (l m : ControlLink) : Prop where
  others : m = { l with replies := m.replies, line := m.line, slots := m.slots }
  replies : m.replies.length ≤ l.replies.length
  alarm : l.slots.alarm = none → m.slots.alarm = none
  topology : l.slots.topology = none → m.slots.topology = none

theorem ControlLink.Drained.refl (l : ControlLink) : l.Drained l := ⟨rfl, Nat.le_refl _, id, id⟩

/-- A class that is disabled has its slot empty, whatever was taken. -/
theorem NoticeClass.Bounded.ofTaken {c : NoticeClass} {slot slot' : Option (List Byte)} (h : c.Bounded slot)
    (hs : slot = none → slot' = none) : c.Bounded slot' := by
  obtain ⟨hinterval, htimer, hpending, hdisabled⟩ := h
  exact ⟨hinterval, htimer, hpending, fun hn => (hdisabled hn).imp_right hs⟩

theorem ControlLink.Drained.bounded {l m : ControlLink} (h : l.Drained m) (hl : l.Bounded) : m.Bounded := by
  obtain ⟨hothers, hreplies, halarm, htopology⟩ := h
  rw [hothers]
  exact ⟨hl.requests, hreplies.trans hl.replies, hl.head, fun hf hn => hreplies.trans_lt (hl.room hf hn), hl.framer,
    hl.alarm.ofTaken halarm, hl.topology.ofTaken htopology, hl.counters⟩

/-- A transmitter that takes a frame removes it from where it waited. -/
theorem ControlLink.takeNext_drained (l : ControlLink) : l.Drained l.takeNext := by
  unfold ControlLink.takeNext
  split
  · exact ⟨rfl, Nat.le_refl _, id, id⟩
  split
  · exact ⟨rfl, Nat.le_refl _, id, id⟩
  split
  · exact ⟨rfl, Nat.le_refl _, id, id⟩
  split
  next r rest hr => exact ⟨rfl, by rw [hr]; exact Nat.le_succ _, id, id⟩
  split
  · exact ⟨rfl, Nat.le_refl _, id, fun _ => rfl⟩
  split
  · exact ⟨rfl, Nat.le_refl _, fun _ => rfl, id⟩
  · exact ⟨rfl, Nat.le_refl _, id, id⟩

/-- A transmitter that finds no frame to take leaves none waiting: with no reply left, a HALT notice waits for nothing (log 15). -/
theorem ControlLink.takeNext_settled (l : ControlLink) : l.takeNext.Settled := by
  unfold ControlLink.takeNext
  split
  · nofun
  next hhalt =>
    split
    · nofun
    next htrip =>
      split
      · nofun
      next hback =>
        split
        · nofun
        next hreplies =>
          split
          · nofun
          next htopology =>
            split
            · nofun
            next halarm =>
              have hnone : l.slots.halt = none := by simpa [ControlLink.haltReady, hreplies] using hhalt
              intro _
              refine ⟨hreplies, ?_⟩
              calc l.slots = ⟨l.slots.halt, l.slots.trip, l.slots.backtrip, l.slots.topology, l.slots.alarm⟩ := rfl
                _ = NoticeSlots.empty := by rw [hnone, htrip, hback, htopology, halarm, NoticeSlots.empty]

theorem ControlLink.kick_drained (l : ControlLink) : l.Drained l.kick := by
  unfold ControlLink.kick
  split
  · exact .refl l
  · exact l.takeNext_drained

theorem ControlLink.kick_settled (l : ControlLink) : l.kick.Settled := by
  cases hl : l.line with
  | some f =>
    rw [ControlLink.kick_busy (by rw [hl]; nofun)]
    exact fun hn => nomatch hl.symm.trans hn
  | none =>
    unfold ControlLink.kick
    rw [hl]
    exact l.takeNext_settled

/-- Whatever was placed, the transmitter leaves nothing waiting for a free line. -/
theorem ControlLink.Bounded.kick {l : ControlLink} (h : l.Bounded) : l.kick.Queued :=
  ⟨l.kick_drained.bounded h, l.kick_settled⟩

theorem ControlLink.Queued.transmitted {l : ControlLink} (h : l.Queued) : l.transmitted.Queued := by
  unfold ControlLink.transmitted
  split
  · exact h
  · have hidle : ({ l with line := none } : ControlLink).Bounded := { h.bounded with }
    exact hidle.kick

/-! ### The framer (R167) -/

theorem ControlLink.dropFrame_bounded {l : ControlLink} (h : l.Bounded) : l.dropFrame.Bounded :=
  have ⟨hcrc, _, hoverrun⟩ := h.counters
  { h with framer := trivial, counters := ⟨hcrc, bump_le _, hoverrun⟩ }

/-- LEN is in its first two bytes. -/
theorem lenOf_append {got : List Byte} (h : 2 ≤ got.length) (b : Byte) : lenOf (got ++ [b]) = lenOf got := by
  rw [lenOf, List.take_append_of_le_length h, lenOf]

theorem ControlLink.headerByte_bounded {l : ControlLink} (h : l.Bounded) {got : List Byte} (hgot : (Framer.header got).Bounded)
    (b : Byte) : (l.headerByte (got ++ [b])).Bounded := by
  obtain ⟨hlen, hpayload⟩ := hgot
  have hsucc : (got ++ [b]).length = got.length + 1 := List.length_append
  have hkept : 3 ≤ (got ++ [b]).length → lenOf (got ++ [b]) ≤ 1024 := fun h3 => by
    have h2 : 2 ≤ got.length := by omega
    rw [lenOf_append h2]
    exact hpayload h2
  unfold ControlLink.headerByte
  split_ifs with hlong hfull
  · exact ControlLink.dropFrame_bounded h
  · exact { h with framer := ⟨hfull.ge, hkept (by omega), by omega⟩ }
  · refine { h with framer := ⟨by omega, fun h2 => ?_⟩ }
    by_cases htwo : (got ++ [b]).length = 2
    · exact Nat.not_lt.mp fun hgt => hlong ⟨htwo, hgt⟩
    · exact hkept (by omega)

theorem ControlLink.offer_bounded {l : ControlLink} (h : l.Bounded) (req : Request) : (l.offer req).Bounded := by
  obtain ⟨hcrc, hframing, -⟩ := h.counters
  unfold ControlLink.offer
  split_ifs with hroom
  · exact { h with
      requests := by rw [List.length_append]; exact hroom
      head := fun _ => List.append_ne_nil_of_right_ne_nil _ (List.cons_ne_nil _ _) }
  · exact { h with counters := ⟨hcrc, hframing, bump_le _⟩ }

theorem ControlLink.bodyByte_bounded {l : ControlLink} (h : l.Bounded) {got : List Byte} (hgot : (Framer.body got).Bounded)
    (b : Byte) : (l.bodyByte (got ++ [b])).Bounded := by
  obtain ⟨hlen, hpayload, hrest⟩ := hgot
  obtain ⟨-, hframing, hoverrun⟩ := h.counters
  have hsame := lenOf_append (show 2 ≤ got.length by omega) b
  have hsucc : (got ++ [b]).length = got.length + 1 := List.length_append
  unfold ControlLink.bodyByte
  split_ifs with hwhole hcrc
  · exact ControlLink.offer_bounded (l := { l with framer := .hunt }) { h with framer := trivial } _
  · exact { h with framer := trivial, counters := ⟨bump_le _, hframing, hoverrun⟩ }
  · exact { h with framer := ⟨by omega, by omega, by omega⟩ }

theorem ControlLink.receive_bounded {l : ControlLink} (h : l.Bounded) (b : Byte) (inError : Bool) :
    (l.receive b inError).Bounded := by
  have hframer := h.framer
  unfold ControlLink.receive
  split
  · split_ifs
    · exact { h with framer := ⟨by decide, nofun⟩ }
    · exact h
  next got hgot =>
    rw [hgot] at hframer
    split_ifs
    · exact ControlLink.dropFrame_bounded h
    · exact ControlLink.headerByte_bounded h hframer b
  next got hgot =>
    rw [hgot] at hframer
    split_ifs
    · exact ControlLink.dropFrame_bounded h
    · exact ControlLink.bodyByte_bounded h hframer b

theorem ControlLink.gap_bounded {l : ControlLink} (h : l.Bounded) : l.gap.Bounded := by
  unfold ControlLink.gap
  split
  · exact h
  · exact ControlLink.dropFrame_bounded h
  · exact ControlLink.dropFrame_bounded h

/-- What comes in leaves what waits to go out, and the line, as they are. -/
theorem ControlLink.receive_settled {l : ControlLink} (h : l.Settled) (b : Byte) (inError : Bool) :
    (l.receive b inError).Settled := by
  unfold ControlLink.receive ControlLink.headerByte ControlLink.bodyByte ControlLink.offer
  repeat' split
  all_goals exact h

theorem ControlLink.gap_settled {l : ControlLink} (h : l.Settled) : l.gap.Settled := by
  unfold ControlLink.gap
  split <;> exact h

/-! ### The notice classes (R180, R181) -/

section
variable {c : NoticeClass} {slot : Option (List Byte)}

/-- A timer that is started runs for the interval. -/
theorem NoticeClass.started_timer (h : c.interval ≤ 2400) :
    ∀ k, c.started.timer = some k → 1 ≤ k ∧ k ≤ 2400 := by
  intro k hk
  unfold NoticeClass.started at hk
  dsimp only at hk
  split_ifs at hk
  cases hk
  omega

/-- A cause makes a notice in an enabled class with an idle timer alone, and marks one whose timer runs. -/
theorem NoticeClass.cause_bounded (h : c.Bounded slot) (notice : List Byte) :
    c.cause.1.Bounded (if c.cause.2 then some notice else slot) := by
  obtain ⟨hinterval, htimer, hpending, hdisabled⟩ := h
  obtain ⟨hoff, hrun, hmade⟩ := c.cause_causedTo
  cases he : c.enabled with
  | false =>
    rw [hoff he, NoticeClass.cause_idle (.inl he)]
    exact ⟨hinterval, htimer, hpending, hdisabled⟩
  | true =>
    by_cases ht : c.timer = none
    · rw [(hmade he ht).1]
      exact ⟨hinterval, NoticeClass.started_timer hinterval, fun hp => absurd ht (hpending hp), fun hd => nomatch he.symm.trans hd⟩
    · rw [hrun he ht]
      exact ⟨hinterval, htimer, fun _ => ht, fun hd => nomatch he.symm.trans hd⟩

/-- A nominal instant makes a notice in a class whose timer runs alone, so in one that is enabled. -/
theorem NoticeClass.instant_bounded (h : c.Bounded slot) (notice : List Byte) :
    c.instant.1.Bounded (if c.instant.2 then some notice else slot) := by
  obtain ⟨hinterval, htimer, hpending, hdisabled⟩ := h
  obtain ⟨hidle, hruns⟩ := c.instant_stepped
  cases ht : c.timer with
  | none =>
    have hnone : c.instant.2 = false := by simp [NoticeClass.instant, ht]
    rw [hidle ht, hnone]
    exact ⟨hinterval, htimer, hpending, hdisabled⟩
  | some k =>
    have he : c.enabled ≠ false := fun hd => nomatch ht.symm.trans (hdisabled hd).1
    obtain ⟨hcount, hends⟩ := hruns k ht
    by_cases hk : 1 < k
    · rw [hcount hk]
      have hle := (htimer k ht).2
      exact ⟨hinterval, fun t hs => by cases hs; omega, fun _ => nofun, fun hd => absurd hd he⟩
    · rw [hends (Nat.not_lt.mp hk)]
      refine ⟨hinterval, fun t hs => ?_, nofun, fun hd => absurd hd he⟩
      dsimp only at hs
      split_ifs at hs with hmark
      cases hs
      exact ⟨Nat.one_le_iff_ne_zero.mpr hmark.2, hinterval⟩

/-- A class as NOTICE-SET writes it: disabled, it has no timer and its slot is emptied (R181). -/
theorem NoticeClass.write_bounded (h : c.Bounded slot) (enabled : Bool) {interval : Nat} (hi : interval ≤ 2400) :
    (c.write enabled interval).Bounded (if enabled then slot else none) := by
  obtain ⟨hinterval, htimer, hpending, hdisabled⟩ := h
  cases enabled
  · exact ⟨hi, nofun, nofun, fun _ => ⟨rfl, rfl⟩⟩
  · exact ⟨hi, htimer, hpending, nofun⟩

/-- A restart leaves a class with no timer and no mark (R177). -/
theorem NoticeClass.quiet_bounded (h : c.Bounded slot) : c.quiet.Bounded none :=
  have ⟨hinterval, _⟩ := h
  ⟨hinterval, nofun, nofun, fun _ => ⟨rfl, rfl⟩⟩

end

theorem causeAlarm_queued {s : State} (h : s.link.Bounded) : (causeAlarm s).link.Queued := by
  have hplaced := NoticeClass.cause_bounded h.alarm (alarmNotice s)
  refine ControlLink.Bounded.kick { h with alarm := ?_, topology := ?_ }
  · dsimp only
    split_ifs at hplaced ⊢
    · exact hplaced
    · exact hplaced
  · dsimp only
    split_ifs
    · exact h.topology
    · exact h.topology

theorem causeTopology_queued {s : State} (h : s.link.Bounded) : (causeTopology s).link.Queued := by
  have hplaced := NoticeClass.cause_bounded h.topology (topologyNotice s)
  refine ControlLink.Bounded.kick { h with alarm := ?_, topology := ?_ }
  · dsimp only
    split_ifs
    · exact h.alarm
    · exact h.alarm
  · dsimp only
    split_ifs at hplaced ⊢
    · exact hplaced
    · exact hplaced

theorem causeTrips_queued {s : State} (h : s.link.Bounded) (st : Stamp) (a b : Bool) : (causeTrips st a b s).link.Queued :=
  ControlLink.Bounded.kick { h with }

theorem ControlLink.Bounded.moderate {l : ControlLink} (h : l.Bounded) (alarm topology : List Byte) :
    (l.moderate alarm topology).Queued :=
  ControlLink.Bounded.kick
    { h with
      alarm := NoticeClass.instant_bounded h.alarm alarm
      topology := NoticeClass.instant_bounded h.topology topology }

theorem ControlLink.Queued.setClass {l : ControlLink} (h : l.Queued) (k : Moderated) (e : Bool) {n : Nat} (hn : n ≤ 2400) :
    (l.setClass k e n).Queued := by
  refine ⟨?_, ControlLink.setClass_settled h.settled k e n⟩
  cases k
  · exact { h.bounded with alarm := NoticeClass.write_bounded h.bounded.alarm e hn }
  · exact { h.bounded with topology := NoticeClass.write_bounded h.bounded.topology e hn }

/-! ### Replies (R168) -/

/-- A reply is placed where there is room, while no request that reserves the room is in flight. -/
theorem ControlLink.Bounded.placeReply {l : ControlLink} (h : l.Bounded) (hroom : l.replies.length < 4)
    (hf : l.flight = none ∨ l.flight = some .restart) (r : Reply) : (l.placeReply r).Queued :=
  ControlLink.Bounded.kick
    { h with
      replies := by rw [List.length_append]; exact hroom
      room := fun hn hr => absurd (hf.resolve_left hn) hr }

/-- The request queue shortened, with nothing in flight. -/
theorem ControlLink.tail_bounded {l : ControlLink} (h : l.Bounded) {requests : List Request}
    (hq : requests.length ≤ l.requests.length) : ({ l with requests := requests, flight := none } : ControlLink).Bounded :=
  { h with requests := hq.trans h.requests, head := fun hn => absurd rfl hn, room := fun hn => absurd rfl hn }

theorem ControlLink.Queued.answerHead {l : ControlLink} (h : l.Queued) (hroom : l.replies.length < 4) (st : Status)
    (data : List Byte) : (l.answerHead st data).Queued := by
  unfold ControlLink.answerHead
  split
  · exact ⟨ControlLink.tail_bounded h.bounded (Nat.le_refl _), h.settled⟩
  next req rest hq =>
    have htail := ControlLink.tail_bounded h.bounded (requests := rest) (by rw [hq]; exact Nat.le_succ _)
    exact htail.placeReply hroom (.inl rfl) _

/-- The room for the reply of a request in flight is kept for it. -/
theorem ControlLink.Queued.answerFlight {l : ControlLink} (h : l.Queued) {f : Flight} (hf : l.flight = some f) (hr : f ≠ .restart)
    (st : Status) (data : List Byte) : (l.answerHead st data).Queued :=
  h.answerHead (h.bounded.room (by rw [hf]; nofun) (by rw [hf]; exact fun he => hr (Option.some.inj he))) st data

/-! ### The entry to HALTED and the restart (R175, R177) -/

theorem ControlLink.dropRestart_bounded {l : ControlLink} (h : l.Bounded) : l.dropRestart.Bounded := by
  have htail := ControlLink.tail_bounded h (requests := l.requests.tail) (by rw [List.length_tail]; exact Nat.sub_le _ _)
  exact { htail with replies := by rw [ControlLink.dropRestart, List.length_map]; exact h.replies, room := fun hn => absurd rfl hn }

theorem ControlLink.haltFlight_bounded {l : ControlLink} (h : l.Bounded) : l.haltFlight.Bounded := by
  unfold ControlLink.haltFlight
  split
  · exact h
  · exact ControlLink.dropRestart_bounded h
  next f hr hf =>
    split
    · exact ControlLink.tail_bounded h (Nat.le_refl _)
    next req rest hq =>
      have htail := ControlLink.tail_bounded h (requests := rest) (by rw [hq]; exact Nat.le_succ _)
      have hroom : l.replies.length < 4 := h.room (by rw [hf]; nofun) (by rw [hf]; exact fun he => hr (Option.some.inj he))
      exact { htail with
        replies := by rw [List.length_append]; exact hroom
        room := fun hn => absurd rfl hn }

theorem ControlLink.Bounded.halt {l : ControlLink} (h : l.Bounded) (c : IntegrityCheck) : (l.halt c).Queued :=
  ControlLink.Bounded.kick { ControlLink.haltFlight_bounded h with }

theorem ControlLink.Queued.restart {l : ControlLink} (h : l.Queued) : l.restart.Queued where
  bounded :=
    { h.bounded with
      requests := Nat.zero_le _
      head := fun hn => absurd rfl hn
      room := fun hn => absurd rfl hn
      alarm := NoticeClass.quiet_bounded h.bounded.alarm
      topology := NoticeClass.quiet_bounded h.bounded.topology
      counters := ⟨Nat.zero_le _, Nat.zero_le _, Nat.zero_le _⟩ }
  settled hl := ⟨(h.settled hl).1, rfl⟩

/-! ### What a command keeps -/

/-- The bounds of the link and of the record stack are kept. -/
structure KeepsQueues (s t : State) : Prop where
  link : s.link.Queued → t.link.Queued
  records : s.records.Bounded → t.records.Bounded

theorem KeepsQueues.refl (s : State) : KeepsQueues s s := ⟨id, id⟩

theorem KeepsQueues.trans {s t u : State} (h : KeepsQueues s t) (k : KeepsQueues t u) : KeepsQueues s u :=
  ⟨fun hl => k.link (h.link hl), fun hr => k.records (h.records hr)⟩

theorem KeepsQueues.queued {s t : State} (h : KeepsQueues s t) (hs : s.Queued) : t.Queued :=
  have ⟨hl, hr⟩ := State.queued_iff.mp hs
  State.queued_iff.mpr ⟨h.link hl, h.records hr⟩

/-- The record stack stands. -/
theorem KeepsQueues.ofLink {s t : State} (hl : s.link.Queued → t.link.Queued) (hr : t.records = s.records) : KeepsQueues s t :=
  ⟨hl, fun h => hr ▸ h⟩

/-- The link and the record stack stand. -/
theorem KeepsQueues.ofOthers {s t : State} (hl : t.link = s.link) (hr : t.records = s.records) : KeepsQueues s t :=
  .ofLink (fun h => hl ▸ h) hr

/-! ### The shared operations -/

theorem keepsQueues_causeAlarm (s : State) : KeepsQueues s (causeAlarm s) :=
  .ofLink (fun h => causeAlarm_queued h.bounded) rfl

theorem keepsQueues_causeTopology (s : State) : KeepsQueues s (causeTopology s) :=
  .ofLink (fun h => causeTopology_queued h.bounded) rfl

theorem keepsQueues_nominalInstant (s : State) : KeepsQueues s (nominalInstant s) := by
  unfold nominalInstant
  split
  · exact .ofLink (fun h => h.bounded.moderate _ _) rfl
  · exact .refl s

theorem keepsQueues_reportCheck (c : IntegrityCheck) (s : State) : KeepsQueues s (reportCheck c s) := by
  by_cases h : s.mode = .halted
  · rw [reportCheck_in_halted c h]
    exact .ofOthers rfl rfl
  · rw [reportCheck_enters c h]
    exact .ofLink (fun hl => hl.bounded.halt c) rfl

theorem keepsQueues_makeRestart (s : State) : KeepsQueues s (makeRestart s) :=
  .ofLink (fun h => h.restart) rfl

/-! ### The close -/

theorem keepsQueues_closeFlight (s : State) : KeepsQueues s (closeFlight s) := by
  refine .ofLink (fun h => ?_) (closeFlight_records s)
  unfold closeFlight
  split
  next hf => exact h.answerFlight hf nofun _ _
  next toRun hf =>
    cases toRun
    · exact h.answerFlight hf nofun _ _
    · exact h.answerFlight hf nofun _ _
  next closed hf =>
    have hflight : s.link.flight ≠ none := by rw [hf]; nofun
    have hheld : s.link.flight ≠ some .restart := by rw [hf]; nofun
    exact ⟨{ h.bounded with head := fun _ => h.bounded.head hflight, room := fun _ _ => h.bounded.room hflight hheld }, h.settled⟩
  · exact h
  · exact h

theorem keepsQueues_closeSet (s : State) : KeepsQueues s (closeSet s) := by
  have hwrite : KeepsQueues (closeFlight s) (writeClose (closeFlight s)) := .ofOthers rfl rfl
  unfold closeSet closeStore
  refine (keepsQueues_closeFlight s).trans (hwrite.trans ?_)
  split
  · exact keepsQueues_reportCheck _ _
  · exact .ofOthers rfl rfl

/-! ### The stages of an evaluation -/

theorem keepsQueues_deriveReplica (p : Published) (s : State) : KeepsQueues s (deriveReplica p s) := .ofOthers rfl rfl

theorem keepsQueues_assembleZones (st : Stamp) (s : State) : KeepsQueues s (assembleZones st s) := by
  have hheld : KeepsQueues s { s with topology := some (newTopology st s) } := .ofOthers rfl rfl
  unfold assembleZones
  dsimp only
  split
  · exact hheld.trans (keepsQueues_causeTopology _)
  · exact hheld

theorem keepsQueues_measureSet (t : Topology) (s : State) : KeepsQueues s (measureSet t s).state := by
  obtain ⟨e, d, h⟩ := measureSet_frame t s
  rw [h]
  exact .ofOthers rfl rfl

theorem keepsQueues_superviseSet (t : Topology) (r : Results) (s : State) : KeepsQueues s (superviseSet t r s) := by
  refine .ofLink (fun h => ?_) (superviseSet_records t r s)
  rw [superviseSet_link]
  split_ifs
  · exact (keepsQueues_causeAlarm (treatedSet t r s)).link h
  · exact h

/-- The records of a set are pushed one after the other, and its notices are placed (R138, R161). -/
theorem keepsQueues_tripStage (p : Published) (t : Topology) (r : Results) (s : State) : KeepsQueues s (tripStage p t r s) := by
  unfold tripStage
  split
  · refine ⟨fun h => ?_, fun h => RecordStack.pushes_bounded h _⟩
    refine causeTrips_queued ?_ _ _ _
    exact h.bounded
  · exact .ofOthers rfl rfl

theorem keepsQueues_answerSettle (s : State) : KeepsQueues s (answerSettle s) := by
  refine .ofLink (fun h => ?_) (answerSettle_records s)
  unfold answerSettle
  split
  next hf => exact h.answerFlight hf nofun _ _
  all_goals exact h

theorem keepsQueues_finishSet (p : Published) (t : Topology) (r : Results) (s : State) : KeepsQueues s (finishSet p t r s) := by
  have hend : KeepsQueues (tripStage p t r s) { handTripFrame p.stamp (tripStage p t r s) with published := none } :=
    .ofOthers rfl rfl
  exact (keepsQueues_tripStage p t r s).trans (hend.trans (keepsQueues_answerSettle _))

theorem keepsQueues_evaluateFrom (p : Published) (t : Topology) (s : State) : KeepsQueues s (evaluateFrom p t s) := by
  have h := keepsQueues_measureSet t s
  unfold evaluateFrom
  cases hm : measureSet t s with
  | abandoned u => rw [hm] at h; exact h.trans (keepsQueues_reportCheck _ _)
  | whole u r => rw [hm] at h; exact (h.trans (keepsQueues_superviseSet t r u)).trans (keepsQueues_finishSet _ _ _ _)

theorem keepsQueues_evaluateSet (s : State) : KeepsQueues s (evaluateSet s) := by
  unfold evaluateSet
  split
  · exact .refl s
  · exact ((keepsQueues_deriveReplica _ s).trans (keepsQueues_assembleZones _ _)).trans (keepsQueues_evaluateFrom _ _ _)

theorem keepsQueues_measurePart (supervised : Bool) (t : Topology) (s : State) :
    KeepsQueues s (measurePart supervised t s).state := by
  have h := keepsQueues_measureSet t s
  unfold measurePart
  cases hm : measureSet t s with
  | abandoned u => rw [hm] at h; exact h
  | whole u r =>
    rw [hm] at h
    cases supervised
    · exact h
    · exact h.trans (keepsQueues_superviseSet t r u)

theorem keepsQueues_evaluatePart (n : Nat) (p : Published) (s : State) : KeepsQueues s (evaluatePart n p s).state := by
  have hassembled := (keepsQueues_deriveReplica p s).trans (keepsQueues_assembleZones p.stamp _)
  unfold evaluatePart
  dsimp only
  split_ifs
  · exact .refl s
  · exact keepsQueues_deriveReplica p s
  · exact hassembled
  · exact hassembled.trans (keepsQueues_measurePart _ _ _)

theorem keepsQueues_cutShort (m : ClockReport) (s : State) : KeepsQueues s (cutShort m s).state := by
  unfold cutShort
  split
  · exact keepsQueues_evaluatePart _ _ _
  · dsimp only
    split
    · exact (keepsQueues_closeFlight s).trans (.ofOthers rfl rfl)
    · exact .refl s

theorem keepsQueues_reportAbsent (clockFirst : Bool) (c : CutShort) : KeepsQueues c.state (reportAbsent clockFirst c) := by
  unfold reportAbsent
  split_ifs
  · exact (keepsQueues_reportCheck _ _).trans (keepsQueues_reportCheck _ _)
  · exact (keepsQueues_reportCheck _ _).trans (keepsQueues_reportCheck _ _)
  · exact keepsQueues_reportCheck _ _

/-! ### The service of a request (R168) -/

/-- What a request's own rule answers keeps the bounds and takes no room of the reply queue. -/
def Service.KeepsQueues (s : State) : Service → Prop
  | .done t _ => Machine.KeepsQueues s t ∧ t.link.replies.length ≤ s.link.replies.length
  | .refuse _ _ => True
  | .hold _ => True
  | .restart => True

/-- A rule that leaves the link and the record stack. -/
theorem Service.keepsQueues_done {s t : State} (hl : t.link = s.link) (hr : t.records = s.records) (data : List Byte) :
    (Service.done t data).KeepsQueues s :=
  ⟨.ofOthers hl hr, (congrArg (fun l : ControlLink => l.replies.length) hl).le⟩

theorem commonChecks_keepsQueues {req : Request} {own : List Byte → State → Service} {s : State}
    (h : (own req.payload s).KeepsQueues s) : (commonChecks req own s).KeepsQueues s := by
  unfold commonChecks
  split
  · trivial
  · split_ifs
    · trivial
    · trivial
    · exact h

/-- The end of a service, of the request at the head: its reply finds room, or the request stays in flight. -/
theorem finishService_keepsQueues {req : Request} {s : State} (hfree : s.Free) (hhead : s.link.requests ≠ []) {answer : Service}
    (h : answer.KeepsQueues s) : KeepsQueues s (finishService req s answer) := by
  obtain ⟨hflight, hroom, -⟩ := hfree
  cases answer with
  | done t data =>
    obtain ⟨hkept, hreplies⟩ := h
    exact ⟨fun hl => (hkept.link hl).answerHead (hreplies.trans_lt hroom) _ _, hkept.records⟩
  | refuse st detail => exact .ofLink (fun hl => hl.answerHead hroom _ _) rfl
  | hold f =>
    exact .ofLink (fun hl => ⟨{ hl.bounded with head := fun _ => hhead, room := fun _ _ => hroom }, hl.settled⟩) rfl
  | restart =>
    refine .ofLink (fun hl => ?_) rfl
    have hheld : ({ s.link with flight := some .restart } : ControlLink).Bounded :=
      { hl.bounded with head := fun _ => hhead, room := fun _ hn => absurd rfl hn }
    exact hheld.placeReply hroom (.inr rfl) _

/-- A request whose turn it is stands at the head already, or takes a place in an empty queue. -/
theorem keepsQueues_fronted {s : State} {req : Request} {rest : List Request} (h : s.Turn req rest) :
    KeepsQueues s (s.fronted req rest) := by
  refine .ofLink (fun hl => ⟨{ hl.bounded with requests := ?_, head := fun _ => List.cons_ne_nil _ _ }, hl.settled⟩) rfl
  rcases h with hq | ⟨-, rfl, -⟩
  · exact (congrArg List.length hq).ge.trans hl.bounded.requests
  · exact Nat.succ_le_succ (Nat.zero_le 3)

/-- The service of a request, from what its own rule does. -/
theorem keepsQueues_serve {req : Request} {own : List Byte → State → Service} (h : ∀ s, (own req.payload s).KeepsQueues s)
    (s : State) : KeepsQueues s (serve req own s) := by
  by_cases hturn : ∃ rest, s.Turn req rest
  · obtain ⟨rest, hrest⟩ := hturn
    rw [serve_turn hrest]
    split_ifs with hfree
    · exact (keepsQueues_fronted hrest).trans
        (finishService_keepsQueues (State.canServe_iff.mp hfree) (List.cons_ne_nil _ _) (commonChecks_keepsQueues (h _)))
    · exact keepsQueues_fronted hrest
  · rw [serve_out_of_turn (not_exists.mp hturn)]
    exact .refl s

theorem keepsQueues_serve_read {req : Request} (data : State → List Byte) (s : State) :
    KeepsQueues s (serve req (fun _ s => .done s (data s)) s) :=
  keepsQueues_serve (own := fun _ s => .done s (data s)) (fun _ => Service.keepsQueues_done rfl rfl _) s

/-- The rules that touch neither the link nor the record stack. -/
def unqueuedRules : List (List Byte → State → Service) :=
  [ruleMode, ruleStreamSet, ruleStreamDrop, ruleBaySet, ruleBayGet, ruleBankWrite, ruleBankRead, ruleBankApply, ruleResponseSet,
    ruleResponseGet, ruleStatus, ruleRecordRead, ruleTripClear, ruleZoneBlock, ruleForce]

theorem unqueuedRules_keepQueues {rule : List Byte → State → Service} (h : rule ∈ unqueuedRules) (payload : List Byte)
    (s : State) : (rule payload s).KeepsQueues s := by
  simp only [unqueuedRules, List.mem_cons, List.not_mem_nil, or_false] at h
  rcases h with rfl | rfl | rfl | rfl | rfl | rfl | rfl | rfl | rfl | rfl | rfl | rfl | rfl | rfl | rfl
  all_goals
    simp only [ruleMode, ruleStreamSet, ruleStreamDrop, ruleBaySet, ruleBayGet, ruleBankWrite, ruleBankRead, ruleBankApply,
      ruleResponseSet, ruleResponseGet, ruleStatus, ruleRecordRead, ruleTripClear, ruleZoneBlock, ruleForce]
    repeat' split
  any_goals exact trivial
  all_goals exact Service.keepsQueues_done (by rfl) (by rfl) _

theorem keepsQueues_serve_unqueued {req : Request} {rule : List Byte → State → Service} (h : rule ∈ unqueuedRules) (s : State) :
    KeepsQueues s (serve req rule s) :=
  keepsQueues_serve (unqueuedRules_keepQueues h _) s

/-- YARD-SET steps both moderation timers where FREQUENCY changes (R30, R180). -/
theorem ruleYardSet_keepsQueues (payload : List Byte) (s : State) : (ruleYardSet payload s).KeepsQueues s := by
  have hwrite : ∀ y, Machine.KeepsQueues s (writeYard y s) ∧ (writeYard y s).link.replies.length ≤ s.link.replies.length := by
    intro y
    have hrecords : (writeYard y s).records = s.records := by
      unfold writeYard
      dsimp only
      split_ifs <;> rfl
    rw [writeYard_link, yardLink]
    refine ⟨.ofLink (fun h => ?_) hrecords, ?_⟩
    · rw [writeYard_link, yardLink]
      split_ifs
      · exact h
      · exact h.bounded.moderate _ _
    · split_ifs
      · exact Nat.le_refl _
      · exact (ControlLink.kick_drained _).replies
  unfold ruleYardSet
  repeat' split
  any_goals exact trivial
  exact hwrite _

theorem ruleCounters_keepsQueues (payload : List Byte) (s : State) : (ruleCounters payload s).KeepsQueues s := by
  have hclear : Machine.KeepsQueues s (clearCounters s) :=
    .ofLink (fun h => ⟨{ h.bounded with counters := ⟨Nat.zero_le _, Nat.zero_le _, Nat.zero_le _⟩ }, h.settled⟩) rfl
  unfold ruleCounters
  repeat' split
  any_goals exact trivial
  · exact ⟨hclear, Nat.le_refl _⟩
  · exact Service.keepsQueues_done rfl rfl _

/-- A discard leaves one record less (R163). -/
theorem ruleRecordDiscard_keepsQueues (payload : List Byte) (s : State) : (ruleRecordDiscard payload s).KeepsQueues s := by
  unfold ruleRecordDiscard
  split
  · trivial
  next rest hr =>
    refine ⟨⟨id, fun ⟨hstack, hcount⟩ => ⟨?_, hcount⟩⟩, Nat.le_refl _⟩
    rw [hr] at hstack
    exact (Nat.le_succ _).trans hstack

theorem ruleAlarmClear_keepsQueues (payload : List Byte) (s : State) : (ruleAlarmClear payload s).KeepsQueues s := by
  have hremove : ∀ f,
      Machine.KeepsQueues s (removeEntries f s) ∧ (removeEntries f s).link.replies.length ≤ s.link.replies.length := by
    intro f
    have hremoved : Machine.KeepsQueues s (withoutEntries f s) := .ofOthers rfl rfl
    by_cases h : RemovalRaises f s
    · rw [removeEntries_raised h]
      exact ⟨hremoved.trans (keepsQueues_causeAlarm _), (ControlLink.kick_drained _).replies⟩
    · rw [removeEntries_unraised h]
      exact ⟨hremoved, Nat.le_refl _⟩
  unfold ruleAlarmClear clearEntry
  repeat' split
  any_goals exact trivial
  all_goals exact hremove _

theorem ruleNoticeSet_keepsQueues (payload : List Byte) (s : State) : (ruleNoticeSet payload s).KeepsQueues s := by
  unfold ruleNoticeSet
  repeat' split
  any_goals exact trivial
  next k e _ _ hn =>
    refine ⟨.ofLink (fun h => h.setClass k e (Nat.not_lt.mp hn)) rfl, ?_⟩
    cases k <;> exact Nat.le_refl _

/-! ### Every command -/

theorem keepsQueues_hardReset (p : List Instr) (r : BitVec 2) (s : State) :
    KeepsQueues s { State.reset with pending := p, rate := r } :=
  have ⟨hl, hr⟩ := State.queued_iff.mp reset_queued
  ⟨fun _ => hl, fun _ => hr⟩

theorem exec_keepsQueues {c : Instr} {s t : State} (h : exec c s = .next t) : KeepsQueues s t := by
  have hupset : ∀ u, KeepsQueues s (applyUpsets u s) := fun _ => .ofOthers rfl rfl
  cases c <;> cases h
  case hardReset => exact keepsQueues_hardReset _ _ s
  case refclkAbsent m => exact (keepsQueues_cutShort m s).trans (keepsQueues_reportAbsent _ _)
  case setInstant => exact keepsQueues_nominalInstant s
  case sampleCountWrap => split; exacts [keepsQueues_nominalInstant s, .refl s]
  case linkDown => split; exacts [keepsQueues_nominalInstant s, .refl s]
  case moderationTimerExpiry => split; exacts [keepsQueues_nominalInstant s, .refl s]
  case portFrameReceived port frame =>
    obtain ⟨x, y, z, hframe⟩ := receiveFrame_frame port frame s
    rw [hframe]
    exact .ofOthers rfl rfl
  case tripFrameSent => exact .ofOthers rfl rfl
  case setClose u =>
    refine (hupset u).trans ?_
    split
    · exact keepsQueues_closeSet _
    · exact .refl _
  case evaluateSet u => exact (hupset u).trans (keepsQueues_evaluateSet _)
  case externalHoldExpiry => split; exacts [keepsQueues_evaluateSet s, .refl s]
  case bfTimerExpiry => split; exacts [keepsQueues_evaluateSet s, .refl s]
  case controlByteReceived b e =>
    exact .ofLink (fun h => ⟨ControlLink.receive_bounded h.bounded b e, ControlLink.receive_settled h.settled b e⟩) rfl
  case gapTimeout => exact .ofLink (fun h => ⟨ControlLink.gap_bounded h.bounded, ControlLink.gap_settled h.settled⟩) rfl
  case frameTransmitted => exact .ofLink (fun h => h.transmitted) rfl
  case restartMade => split; exacts [keepsQueues_makeRestart s, .refl s]
  case unknownKindRequest =>
    split
    · exact keepsQueues_serve (own := fun _ _ => .refuse .unknownKind []) (fun _ => trivial) s
    · exact .refl s
  case ident => exact keepsQueues_serve_read _ s
  case streamList => exact keepsQueues_serve_read _ s
  case yardGet => exact keepsQueues_serve_read _ s
  case topology => exact keepsQueues_serve_read _ s
  case measure => exact keepsQueues_serve_read _ s
  case positions => exact keepsQueues_serve_read _ s
  case restart => exact keepsQueues_serve (own := fun _ _ => .restart) (fun _ => trivial) s
  case settle => exact keepsQueues_serve (own := fun _ _ => .hold (.settle false)) (fun _ => trivial) s
  case yardSet => exact keepsQueues_serve (ruleYardSet_keepsQueues _) s
  case counters => exact keepsQueues_serve (ruleCounters_keepsQueues _) s
  case recordDiscard => exact keepsQueues_serve (ruleRecordDiscard_keepsQueues _) s
  case alarmClear => exact keepsQueues_serve (ruleAlarmClear_keepsQueues _) s
  case noticeSet => exact keepsQueues_serve (ruleNoticeSet_keepsQueues _) s
  all_goals exact keepsQueues_serve_unqueued (by simp [unqueuedRules]) s

end Sys2Proof.Machine

open Sys2Proof Sys2Proof.Machine

/-- Settles O59: the front command keeps the bounds of the link and of the record stack, and the queue of commands is neither. -/
theorem stepKeepsTheQueues : Obligations.StepKeepsTheQueues := by
  intro s t hs h
  unfold step at h
  split at h
  · cases h; exact hs
  next rest _ =>
    have hrest : KeepsQueues s { s with pending := rest } := .ofOthers rfl rfl
    exact (hrest.trans (exec_keepsQueues h)).queued hs

end

section
/-! PROOF. The receive framer: a control frame byte by byte, and each way in which one is given up. -/

namespace Sys2Proof.Machine

open Sys2Proof

/-! ### Bytes on the receive line (R167) -/

/-- The receive framer on bytes without error, one after the other. -/
def ControlLink.receiveAll (bs : List Byte) (l : ControlLink) : ControlLink :=
  bs.foldl (fun l b => l.receive b false) l

theorem exec_controlByteReceived (b : Byte) (e : Bool) (s : State) :
    exec (.controlByteReceived b e) s = .next { s with link := s.link.receive b e } := rfl

theorem exec_gapTimeout (s : State) : exec .gapTimeout s = .next { s with link := s.link.gap } := rfl

/-- Bytes received reach the framer alone. -/
theorem feed_eq_receiveAll (bs : List Byte) (s : State) : feed bs s = .next { s with link := s.link.receiveAll bs } := by
  induction bs generalizing s with
  | nil => rfl
  | cons b bs ih => exact ih { s with link := s.link.receive b false }

theorem ControlLink.receiveAll_cons (b : Byte) (bs : List Byte) (l : ControlLink) :
    l.receiveAll (b :: bs) = (l.receive b false).receiveAll bs := rfl

theorem ControlLink.receiveAll_append (as bs : List Byte) (l : ControlLink) :
    l.receiveAll (as ++ bs) = (l.receiveAll as).receiveAll bs :=
  List.foldl_append

section
variable {l : ControlLink}

/-- In HUNT only SYNC without error acts. -/
theorem ControlLink.receive_hunt (h : l.framer = .hunt) (b : Byte) (e : Bool) :
    l.receive b e = if e = false ∧ b = 0xC3 then { l with framer := .header [] } else l := by
  unfold ControlLink.receive
  rw [h]
  rfl

theorem ControlLink.receive_header {got : List Byte} (h : l.framer = .header got) (b : Byte) :
    l.receive b false = l.headerByte (got ++ [b]) := by
  unfold ControlLink.receive
  rw [h]
  rfl

theorem ControlLink.receive_body {got : List Byte} (h : l.framer = .body got) (b : Byte) :
    l.receive b false = l.bodyByte (got ++ [b]) := by
  unfold ControlLink.receive
  rw [h]
  rfl

/-- A byte in error gives a frame on its way in up. -/
theorem ControlLink.receive_error (h : l.framer ≠ .hunt) (b : Byte) : l.receive b true = l.dropFrame := by
  unfold ControlLink.receive
  split
  next hf => exact absurd hf h
  · rfl
  · rfl

theorem ControlLink.gap_hunt (h : l.framer = .hunt) : l.gap = l := by
  unfold ControlLink.gap
  rw [h]

theorem ControlLink.gap_framed (h : l.framer ≠ .hunt) : l.gap = l.dropFrame := by
  unfold ControlLink.gap
  split
  next hf => exact absurd hf h
  · rfl
  · rfl

/-- LEN above 1,024 gives the frame up at its second byte (R167). -/
theorem ControlLink.headerByte_long {got : List Byte} (hg : got.length = 2) (h : 1024 < lenOf got) :
    l.headerByte got = l.dropFrame :=
  if_pos ⟨hg, h⟩

end

/-! ### The header -/

theorem lenOf_pair (hi lo : Byte) : lenOf [hi, lo] = 256 * hi.toNat + lo.toNat :=
  (natOfBytes_two hi lo).trans (by omega)

/-- The two bytes of LEN, before anything that follows them (R183). -/
theorem lenOf_u16 {n : Nat} (h : n < 65536) (bs : List Byte) : lenOf (u16 n ++ bs) = n :=
  natOfBytes_u16 h

/-- From HUNT, SYNC and the four bytes of a header lead to BODY (R167). -/
theorem ControlLink.receiveAll_header {l : ControlLink} (h : l.framer = .hunt) {n : Nat} (hn : n ≤ 1024) (kind tag : Byte) :
    l.receiveAll (0xC3 :: (u16 n ++ [kind, tag])) = { l with framer := .body (u16 n ++ [kind, tag]) } := by
  have hlen : ¬ 1024 < lenOf (u16 n) := by rw [← List.append_nil (u16 n), lenOf_u16 (by omega)]; omega
  have hsync : l.receive 0xC3 false = { l with framer := .header [] } := (ControlLink.receive_hunt h _ _).trans (if_pos ⟨rfl, rfl⟩)
  have hsecond : ∀ m : ControlLink, m.headerByte (u16 n) = { m with framer := .header (u16 n) } := fun m =>
    (if_neg fun hl => hlen hl.2).trans (if_neg (by simp [u16]))
  rw [ControlLink.receiveAll_cons, hsync]
  show (({ l with framer := .header [BitVec.ofNat 8 (n / 256)] } : ControlLink).headerByte (u16 n)).receiveAll [kind, tag] = _
  rw [hsecond]
  rfl

/-! ### The body -/

/-- Bytes of the body before the last are kept (R167). -/
theorem ControlLink.receiveAll_body (bs : List Byte) {l : ControlLink} {got : List Byte} (hgot : 2 ≤ got.length)
    (h : got.length + bs.length < 6 + lenOf got) :
    ({ l with framer := .body got } : ControlLink).receiveAll bs = { l with framer := .body (got ++ bs) } := by
  induction bs generalizing got with
  | nil => rw [List.append_nil]; rfl
  | cons b bs ih =>
    have hsame := lenOf_append hgot b
    have hsucc : (got ++ [b]).length = got.length + 1 := List.length_append
    rw [List.length_cons] at h
    have hkept : ({ l with framer := .body got } : ControlLink).receive b false = { l with framer := .body (got ++ [b]) } :=
      (ControlLink.receive_body rfl b).trans (if_neg (by omega))
    rw [ControlLink.receiveAll_cons, hkept, ih (by omega) (by omega), List.append_assoc]
    rfl

/-- The bytes that the CRC of a control frame is computed over: LEN, KIND, TAG, payload (R183). -/
def frameContent (kind tag : Byte) (payload : List Byte) : List Byte :=
  u16 payload.length ++ [kind, tag] ++ payload

theorem controlFrame_eq (kind tag : Byte) (payload : List Byte) :
    controlFrame kind tag payload =
      0xC3 :: (frameContent kind tag payload ++ u16 (crc16 (frameContent kind tag payload)).toNat) := rfl

section
variable {kind tag : Byte} {payload : List Byte}

theorem frameContent_length : (frameContent kind tag payload).length = 4 + payload.length := by
  simp [frameContent, u16]
  omega

theorem lenOf_frame (h : payload.length ≤ 1024) (bs : List Byte) :
    lenOf (frameContent kind tag payload ++ bs) = payload.length := by
  rw [frameContent, List.append_assoc, List.append_assoc]
  exact lenOf_u16 (by omega) _

/-- A whole frame spells its KIND, TAG and payload. -/
theorem requestOf_frame (h : payload.length ≤ 1024) (bs : List Byte) :
    requestOf (frameContent kind tag payload ++ bs) = ⟨kind, tag, payload⟩ := by
  unfold requestOf
  rw [lenOf_frame h]
  exact congrArg (Request.mk kind tag) (List.take_left (l₂ := bs))

/-- The check of a whole frame compares its last two bytes with the CRC-16 of its content. -/
theorem crcAgrees_frame (h : payload.length ≤ 1024) (crc : BitVec 16) :
    crcAgrees (frameContent kind tag payload ++ u16 crc.toNat) = true ↔ crc = crc16 (frameContent kind tag payload) := by
  unfold crcAgrees
  rw [lenOf_frame h, ← frameContent_length (kind := kind) (tag := tag), List.drop_left, List.take_left, natOfBytes_u16 crc.isLt,
    decide_eq_true_iff, BitVec.toNat_eq]

/-- From HUNT, the bytes of a frame before its last are kept in BODY. -/
theorem ControlLink.receiveAll_content {l : ControlLink} (hl : l.framer = .hunt) (h : payload.length ≤ 1024) (c : Byte) :
    l.receiveAll (0xC3 :: (frameContent kind tag payload ++ [c])) =
      { l with framer := .body (frameContent kind tag payload ++ [c]) } := by
  have hparts : frameContent kind tag payload ++ [c] = (u16 payload.length ++ [kind, tag]) ++ (payload ++ [c]) :=
    List.append_assoc _ _ _
  have hlen : (payload ++ [c]).length = payload.length + 1 := List.length_append
  rw [hparts, ← List.cons_append, ControlLink.receiveAll_append, ControlLink.receiveAll_header hl h]
  refine ControlLink.receiveAll_body _ (Nat.le_add_left 2 2) ?_
  rw [lenOf_u16 (by omega), hlen]
  show 4 + (payload.length + 1) < _
  omega

/-- At its last byte a frame is offered to the request queue, or its CRC is counted (R167, R168). -/
theorem ControlLink.bodyByte_frame (l : ControlLink) (h : payload.length ≤ 1024) (crc : BitVec 16) :
    l.bodyByte (frameContent kind tag payload ++ u16 crc.toNat) =
      if crc = crc16 (frameContent kind tag payload) then ({ l with framer := .hunt } : ControlLink).offer ⟨kind, tag, payload⟩
      else { l with framer := .hunt, crcErrors := bump l.crcErrors } := by
  have hwhole : (frameContent kind tag payload ++ u16 crc.toNat).length = 6 + payload.length := by
    rw [List.length_append, frameContent_length]
    show 4 + payload.length + 2 = _
    omega
  rw [ControlLink.bodyByte, if_pos (by rw [hwhole, lenOf_frame h]), requestOf_frame h]
  simp only [crcAgrees_frame h]

/-- From HUNT a frame is offered to the request queue, or its CRC is counted, and the framer hunts again. -/
theorem ControlLink.receiveAll_frame {l : ControlLink} (hl : l.framer = .hunt) (h : payload.length ≤ 1024) (crc : BitVec 16) :
    l.receiveAll (0xC3 :: (frameContent kind tag payload ++ u16 crc.toNat)) =
      if crc = crc16 (frameContent kind tag payload) then l.offer ⟨kind, tag, payload⟩
      else { l with crcErrors := bump l.crcErrors } := by
  obtain ⟨c1, c0, hcrc⟩ : ∃ c1 c0, u16 crc.toNat = [c1] ++ [c0] := ⟨_, _, rfl⟩
  have hhunt : ({ l with framer := .hunt } : ControlLink) = l := by rw [← hl]
  have hlast := ControlLink.bodyByte_frame (kind := kind) (tag := tag)
    { l with framer := .body (frameContent kind tag payload ++ [c1]) } h crc
  rw [hcrc, ← List.append_assoc] at hlast ⊢
  rw [← List.cons_append, ControlLink.receiveAll_append, ControlLink.receiveAll_content hl h, ControlLink.receiveAll_cons,
    ControlLink.receive_body (l := { l with framer := .body (frameContent kind tag payload ++ [c1]) }) rfl, hlast]
  dsimp only
  rw [hhunt, hl]
  rfl

/-- The bytes of a frame, received from HUNT, change the control link alone. -/
theorem feed_frame {s : State} (hl : s.link.framer = .hunt) (h : payload.length ≤ 1024) (crc : BitVec 16) :
    feed (0xC3 :: (frameContent kind tag payload ++ u16 crc.toNat)) s =
      .next
        { s with
          link :=
            if crc = crc16 (frameContent kind tag payload) then s.link.offer ⟨kind, tag, payload⟩
            else { s.link with crcErrors := bump s.link.crcErrors } } := by
  rw [feed_eq_receiveAll, ControlLink.receiveAll_frame hl h]

end

end Sys2Proof.Machine

open Sys2Proof Sys2Proof.Machine

/-- Settles O39: a frame's bytes are a header, then bytes of the body that are kept, then the byte at which the frame is checked. -/
theorem framerReceivesFrames : Obligations.FramerReceivesFrames := by
  intro s
  refine ⟨fun hl kind tag payload hp => ⟨?_, fun crc hcrc => ?_⟩, fun hl => ⟨?_, ?_, fun b => ⟨?_, fun hb => ?_⟩⟩,
    fun hl b => ⟨?_, ?_⟩, fun hi lo hl hlong => ?_⟩
  · rw [controlFrame_eq, feed_frame hl hp, if_pos rfl]
    rfl
  · have hwrong : ¬ crc = crc16 (frameContent kind tag payload) := hcrc
    refine (feed_frame (kind := kind) (tag := tag) hl hp crc).trans ?_
    rw [if_neg hwrong]
    rfl
  · rw [exec_gapTimeout, ControlLink.gap_hunt hl]
  · rw [exec_controlByteReceived, ControlLink.receive_hunt hl, if_pos ⟨rfl, rfl⟩]
  · rw [exec_controlByteReceived, ControlLink.receive_hunt hl, if_neg (by nofun)]
  · rw [exec_controlByteReceived, ControlLink.receive_hunt hl, if_neg fun h => hb h.2]
  · rw [exec_gapTimeout, ControlLink.gap_framed hl]
    rfl
  · rw [exec_controlByteReceived, ControlLink.receive_error hl]
    rfl
  · rw [exec_controlByteReceived, ControlLink.receive_header hl, ControlLink.headerByte_long rfl (by rwa [← lenOf_pair] at hlong)]
    rfl

end

section
/-! PROOF. The order in which the transmitter takes what waits, and the expiry of a moderation timer. -/

namespace Sys2Proof.Machine

open Sys2Proof

/-! ### The transmitter's order (R182) -/

theorem exec_frameTransmitted (s : State) : exec .frameTransmitted s = .next { s with link := s.link.transmitted } := rfl

section
variable {l : ControlLink}

theorem ControlLink.transmitted_idle (h : l.line = none) : l.transmitted = l := by
  unfold ControlLink.transmitted
  rw [h]

/-- A transmitter that has finished its frame is free. -/
theorem ControlLink.transmitted_busy (h : l.line ≠ none) : l.transmitted = { l with line := none }.takeNext := by
  unfold ControlLink.transmitted
  split
  next hl => exact absurd hl h
  · rfl

/-- FRAME_TRANSMITTED on a busy line: the next frame is taken. -/
theorem exec_frameTransmitted_takes {s : State} {m : ControlLink} (hl : s.link.line ≠ none)
    (h : ({ s.link with line := none } : ControlLink).takeNext = m) : exec .frameTransmitted s = .next { s with link := m } := by
  rw [exec_frameTransmitted, ControlLink.transmitted_busy hl, h]

/-- With no reply of a RESTART waiting the HALT notice may be taken. -/
theorem ControlLink.haltReady_free (h : ∀ r ∈ l.replies, r.ofRestart = false) : l.haltReady = l.slots.halt :=
  if_neg (by simpa using h)

/-- The HALT notice waits behind the reply of a RESTART (R177; log 15). -/
theorem ControlLink.haltReady_behind (h : ∃ r ∈ l.replies, r.ofRestart = true) : l.haltReady = none :=
  if_pos (by simpa using h)

theorem ControlLink.takeNext_halt {p : List Byte} (h : l.haltReady = some p) :
    l.takeNext = { l with slots := { l.slots with halt := none }, line := some (noticeFrame 0x64 p) } := by
  rw [ControlLink.takeNext, h]

theorem ControlLink.takeNext_trip {p : List Byte} (hh : l.haltReady = none) (h : l.slots.trip = some p) :
    l.takeNext = { l with slots := { l.slots with trip := none }, line := some (noticeFrame 0x60 p) } := by
  rw [ControlLink.takeNext, hh, h]

theorem ControlLink.takeNext_backtrip {p : List Byte} (hh : l.haltReady = none) (ht : l.slots.trip = none)
    (h : l.slots.backtrip = some p) :
    l.takeNext = { l with slots := { l.slots with backtrip := none }, line := some (noticeFrame 0x61 p) } := by
  rw [ControlLink.takeNext, hh, ht, h]

theorem ControlLink.takeNext_reply {r : Reply} {rest : List Reply} (hh : l.haltReady = none) (ht : l.slots.trip = none)
    (hb : l.slots.backtrip = none) (h : l.replies = r :: rest) :
    l.takeNext = { l with replies := rest, line := some r.frame } := by
  rw [ControlLink.takeNext, hh, ht, hb, h]

theorem ControlLink.takeNext_topology {p : List Byte} (hh : l.haltReady = none) (ht : l.slots.trip = none)
    (hb : l.slots.backtrip = none) (hr : l.replies = []) (h : l.slots.topology = some p) :
    l.takeNext = { l with slots := { l.slots with topology := none }, line := some (noticeFrame 0x63 p) } := by
  rw [ControlLink.takeNext, hh, ht, hb, hr, h]

theorem ControlLink.takeNext_alarm {p : List Byte} (hh : l.haltReady = none) (ht : l.slots.trip = none)
    (hb : l.slots.backtrip = none) (hr : l.replies = []) (hp : l.slots.topology = none) (h : l.slots.alarm = some p) :
    l.takeNext = { l with slots := { l.slots with alarm := none }, line := some (noticeFrame 0x62 p) } := by
  rw [ControlLink.takeNext, hh, ht, hb, hr, hp, h]

theorem ControlLink.takeNext_idle (hh : l.haltReady = none) (ht : l.slots.trip = none) (hb : l.slots.backtrip = none)
    (hr : l.replies = []) (hp : l.slots.topology = none) (ha : l.slots.alarm = none) : l.takeNext = { l with line := none } := by
  rw [ControlLink.takeNext, hh, ht, hb, hr, hp, ha]

end

/-! ### The expiry of a moderation timer (R180) -/

theorem exec_setInstant (s : State) : exec .setInstant s = .next (nominalInstant s) := rfl

/-- At a timer that the next instant brings to 0 the row is that instant (log 3). -/
theorem exec_moderationTimerExpiry {cls : Moderated} {s : State} (h : (s.link.moderated cls).timer = some 1) :
    exec (.moderationTimerExpiry cls) s = .next (nominalInstant s) := by
  refine congrArg Host.Outcome.next (if_pos ?_)
  unfold NoticeClass.expiresNext
  rw [h]
  rfl

/-- A class at the instant at which its timer ends: the mark is gone, and the timer restarts where it stood. -/
theorem NoticeClass.SteppedTo.expired {c d : NoticeClass} (h : c.SteppedTo d) (ht : c.timer = some 1) :
    d.pending = false ∧ (c.pending = false → d.timer = none) ∧
      (c.pending = true → d.timer = if c.interval = 0 then none else some c.interval) := by
  obtain ⟨-, hruns⟩ := h
  rw [(hruns 1 ht).2 (Nat.le_refl 1)]
  refine ⟨rfl, fun hp => if_neg fun hm => Bool.false_ne_true (hp.symm.trans hm.1), fun hp => ?_⟩
  by_cases hi : c.interval = 0 <;> simp [hp, hi]

section
variable {l : ControlLink} (alarm topology : List Byte)

/-- An ALARM notice made at an instant waits, or a free transmitter has taken it. -/
theorem ControlLink.moderate_makes_alarm (h : l.alarm.Due) :
    (l.moderate alarm topology).slots.alarm = some alarm ∨
      l.line = none ∧ (l.moderate alarm topology).line = some (noticeFrame 0x62 alarm) := by
  have hmade := l.alarm.instant_made.mpr h
  unfold ControlLink.moderate
  simp only [hmade, if_true]
  rcases ControlLink.kick_takes .alarm _ with ⟨hslot, -⟩ | ⟨hfree, -, q, hq, hline⟩
  · exact .inl hslot
  · cases hq
    exact .inr ⟨hfree, hline⟩

/-- A TOPOLOGY notice made at an instant waits, or a free transmitter has taken it. -/
theorem ControlLink.moderate_makes_topology (h : l.topology.Due) :
    (l.moderate alarm topology).slots.topology = some topology ∨
      l.line = none ∧ (l.moderate alarm topology).line = some (noticeFrame 0x63 topology) := by
  have hmade := l.topology.instant_made.mpr h
  unfold ControlLink.moderate
  simp only [hmade, if_true]
  rcases ControlLink.kick_takes_topology _ with ⟨hslot, -⟩ | ⟨hfree, -, q, hq, hline⟩
  · exact .inl hslot
  · cases hq
    exact .inr ⟨hfree, hline⟩

end

end Sys2Proof.Machine

open Sys2Proof Sys2Proof.Machine

/-- Settles O8: the row is the instant at which the timer reaches 0, at which a class that is due makes its notice. -/
theorem moderationExpiryMakesPendingNotice : Obligations.ModerationExpiryMakesPendingNotice := by
  intro s hrun
  have hlink : (nominalInstant s).link = s.link.moderate (alarmNotice s) (topologyNotice s) := by
    rw [nominalInstant_running hrun]
  obtain ⟨halarm, htopology⟩ := s.link.moderate_classes (alarmNotice s) (topologyNotice s)
  refine ⟨fun ht => ?_, fun ht => ?_⟩
  · obtain ⟨hpending, hidle, hrestarts⟩ := halarm.expired ht
    refine ⟨nominalInstant s, exec_moderationTimerExpiry (cls := .alarm) ht, exec_setInstant s, ?_⟩
    rw [hlink]
    exact ⟨hpending, hidle, fun hp =>
      ⟨hrestarts hp, ControlLink.moderate_makes_alarm _ _ ⟨hp, 1, ht, Nat.le_refl 1⟩⟩⟩
  · obtain ⟨hpending, hidle, hrestarts⟩ := htopology.expired ht
    refine ⟨nominalInstant s, exec_moderationTimerExpiry (cls := .topology) ht, exec_setInstant s, ?_⟩
    rw [hlink]
    exact ⟨hpending, hidle, fun hp =>
      ⟨hrestarts hp, ControlLink.moderate_makes_topology _ _ ⟨hp, 1, ht, Nat.le_refl 1⟩⟩⟩

/-- Settles O40, slot by slot in the order in which the transmitter looks. -/
theorem transmitterTakesByPriority : Obligations.TransmitterTakesByPriority := by
  intro s
  refine ⟨fun hl => ?_, fun hl hfree => ?_, fun r rest hl ht hb hr hrestart => ?_⟩
  · rw [exec_frameTransmitted, ControlLink.transmitted_idle hl]
  · have hready : ({ s.link with line := none } : ControlLink).haltReady = s.link.slots.halt := ControlLink.haltReady_free hfree
    refine ⟨fun p hp => exec_frameTransmitted_takes hl (ControlLink.takeNext_halt (hready.trans hp)), fun hhalt => ?_⟩
    have hh := hready.trans hhalt
    refine ⟨fun p hp => exec_frameTransmitted_takes hl (ControlLink.takeNext_trip hh hp), fun ht => ?_⟩
    refine ⟨fun p hp => exec_frameTransmitted_takes hl (ControlLink.takeNext_backtrip hh ht hp), fun hb => ?_⟩
    refine ⟨fun r rest hr => ?_, fun hr => ?_⟩
    · rw [← hfree r (by rw [hr]; exact List.mem_cons_self)]
      exact exec_frameTransmitted_takes hl (ControlLink.takeNext_reply hh ht hb hr)
    refine ⟨fun p hp => exec_frameTransmitted_takes hl (ControlLink.takeNext_topology hh ht hb hr hp), fun htop => ?_⟩
    exact ⟨fun p hp => exec_frameTransmitted_takes hl (ControlLink.takeNext_alarm hh ht hb hr htop hp), fun ha =>
      exec_frameTransmitted_takes hl (ControlLink.takeNext_idle hh ht hb hr htop ha)⟩
  · exact exec_frameTransmitted_takes hl (ControlLink.takeNext_reply (ControlLink.haltReady_behind hrestart) ht hb hr)

end

section
/-! PROOF. The row of a request, its turn and its common checks; and SETTLE, from its service to the end of its set. -/

namespace Sys2Proof.Machine

open Sys2Proof

/-! ### Request rows (R168, R169) -/

/-- The row of a request is its service, under a rule of its own (log 4). -/
theorem exec_request {c : Instr} {req : Request} (h : askedBy c = some req) (hw : c.wf = true) :
    ∃ own, ∀ s, exec c s = .next (serve req own s) := by
  cases c <;> cases h
  case unknownKindRequest kind tag payload =>
    have hrow : requestRow kind = none := Option.isNone_iff_eq_none.mp (Bool.and_eq_true_iff.mp hw).1
    refine ⟨fun _ _ => .refuse .unknownKind [], fun s => ?_⟩
    show execUnknownKindRequest kind tag payload s = _
    rw [execUnknownKindRequest, hrow]
  all_goals exact ⟨_, fun _ => rfl⟩

section
variable {req : Request} {own : List Byte → State → Service} {s : State}

theorem commonChecks_unknown (h : requestRow req.kind = none) : commonChecks req own s = .refuse .unknownKind [] := by
  rw [commonChecks, h]

theorem commonChecks_badLength {row : RequestRow} (h : requestRow req.kind = some row) (hl : req.payload.length ≠ row.length) :
    commonChecks req own s = .refuse .badLength [] := by
  rw [commonChecks, h]
  exact if_pos hl

theorem commonChecks_halted {row : RequestRow} (h : requestRow req.kind = some row) (hl : req.payload.length = row.length)
    (hm : s.mode = .halted) (hr : row.inHalted = false) : commonChecks req own s = .refuse .halted [] := by
  rw [commonChecks, h]
  exact (if_neg (not_not_intro hl)).trans (if_pos ⟨hm, hr⟩)

end

/-! ### The head request while a set is evaluated (R168, R176) -/

/-- The request queue and the request in flight stand. -/
structure ControlLink.KeepsHead (l m : ControlLink) : Prop where
  flight : m.flight = l.flight
  requests : m.requests = l.requests

theorem ControlLink.KeepsHead.refl (l : ControlLink) : l.KeepsHead l := ⟨rfl, rfl⟩

theorem ControlLink.KeepsHead.trans {l m n : ControlLink} (h : l.KeepsHead m) (k : m.KeepsHead n) : l.KeepsHead n :=
  ⟨k.flight.trans h.flight, k.requests.trans h.requests⟩

@[simp] theorem ControlLink.kick_requests (l : ControlLink) : l.kick.requests = l.requests :=
  (congrArg ControlLink.requests l.kick_drained.others :)

/-- The transmitter, after a change that leaves the request queue and the request in flight alone. -/
theorem ControlLink.KeepsHead.ofKick {l m : ControlLink} (h : l.KeepsHead m) : l.KeepsHead m.kick :=
  h.trans ⟨m.kick_flight, m.kick_requests⟩

theorem causeTopology_keepsHead (s : State) : s.link.KeepsHead (causeTopology s).link := .ofKick ⟨rfl, rfl⟩

theorem causeAlarm_keepsHead (s : State) : s.link.KeepsHead (causeAlarm s).link := .ofKick ⟨rfl, rfl⟩

theorem assembleZones_keepsHead (st : Stamp) (s : State) : s.link.KeepsHead (assembleZones st s).link := by
  unfold assembleZones
  dsimp only
  split
  · exact causeTopology_keepsHead { s with topology := some (newTopology st s) }
  · exact .refl s.link

theorem superviseSet_keepsHead (t : Topology) (r : Results) (s : State) : s.link.KeepsHead (superviseSet t r s).link := by
  rw [superviseSet_link]
  split_ifs
  · exact causeAlarm_keepsHead (treatedSet t r s)
  · exact .refl s.link

theorem supervisedSet_keepsHead (p : Published) (s : State) : s.link.KeepsHead (supervisedSet p s).link :=
  (assembleZones_keepsHead p.stamp (deriveReplica p s)).trans
    (superviseSet_keepsHead (setTopology p s) (setResults p s) (heldSet p s))

theorem tripStage_keepsHead (p : Published) (t : Topology) (r : Results) (s : State) :
    s.link.KeepsHead (tripStage p t r s).link := by
  unfold tripStage
  split
  · exact .ofKick ⟨rfl, rfl⟩
  · exact .refl s.link

/-! ### SETTLE (R176) -/

theorem closeFlight_settle {s : State} {closed : Bool} (h : s.link.flight = some (.settle closed)) :
    closeFlight s = { s with link := { s.link with flight := some (.settle true) } } := by
  rw [closeFlight, h]

/-- A SETTLE whose set has not been closed waits on. -/
theorem answerSettle_waits {s : State} (h : s.link.flight = some (.settle false)) : answerSettle s = s := by
  rw [answerSettle, h]

theorem answerSettle_answers {s : State} (h : s.link.flight = some (.settle true)) :
    answerSettle s = { s with link := s.link.answerHead .done [] } := by
  rw [answerSettle, h]

/-- The link at the end of the evaluation of a set with sound windows, but for SETTLE: what the stages leave of the head request. -/
theorem evaluateSet_settles {p : Published} {s : State} (hp : s.published = some p) (hw : s.SoundWindow) :
    ∃ u : State, s.link.KeepsHead u.link ∧ evaluateSet s = answerSettle u :=
  ⟨{ handTripFrame p.stamp (tripStage p (setTopology p s) (setResults p s) (supervisedSet p s)) with published := none },
    (supervisedSet_keepsHead p s).trans (tripStage_keepsHead p (setTopology p s) (setResults p s) (supervisedSet p s)),
    evaluateSet_sound hp hw⟩

/-- A transmitter that takes the next frame leaves the replies, or takes the oldest. -/
theorem ControlLink.kick_replies (l : ControlLink) :
    l.kick.replies = l.replies ∨ ∃ r, l.replies = r :: l.kick.replies ∧ l.kick.line = some r.frame := by
  unfold ControlLink.kick
  split
  · exact .inl rfl
  unfold ControlLink.takeNext
  split
  · exact .inl rfl
  split
  · exact .inl rfl
  split
  · exact .inl rfl
  split
  next r rest hr => exact .inr ⟨r, hr, rfl⟩
  split
  · exact .inl rfl
  split
  · exact .inl rfl
  · exact .inl rfl

/-- A reply placed is the newest that waits, or the transmitter has taken it (R168, R182). -/
theorem ControlLink.placeReply_waits_or_taken (r : Reply) (l : ControlLink) :
    (l.placeReply r).replies.getLast? = some r ∨ (l.placeReply r).line = some r.frame := by
  have hkick := ControlLink.kick_replies { l with replies := l.replies ++ [r] }
  unfold ControlLink.placeReply
  rcases hkick with hkept | ⟨x, htaken, hline⟩
  · rw [hkept]
    exact .inl List.getLast?_concat
  · cases hl : l.replies with
    | nil =>
      rw [hl] at htaken hline
      cases (List.cons.inj htaken).1
      exact .inr hline
    | cons y ys =>
      rw [hl] at htaken
      rw [← (List.cons.inj htaken).2]
      exact .inl List.getLast?_concat

theorem ControlLink.answerHead_head {l : ControlLink} {req : Request} {rest : List Request} (hq : l.requests = req :: rest)
    (st : Status) (data : List Byte) :
    l.answerHead st data = { l with requests := rest, flight := none }.placeReply (req.reply st data) := by
  rw [ControlLink.answerHead, hq]

end Sys2Proof.Machine

open Sys2Proof Sys2Proof.Machine

/-- Settles O41: every request's row is its service, and the common checks refuse before the request's own rule. -/
theorem requestsMeetTheCommonChecks : Obligations.RequestsMeetTheCommonChecks := by
  intro c req rest s hc hw
  obtain ⟨own, hexec⟩ := exec_request hc hw
  rw [hexec]
  refine ⟨fun ht => ?_, fun ht hf => ?_, fun hs => ⟨fun hrow => ?_, fun row hrow => ⟨fun hlen => ?_, fun hlen hm hr => ?_⟩⟩⟩
  · rw [serve_out_of_turn ht]
  · exact congrArg _ (serve_waits ht hf own)
  · exact congrArg _ (serve_refuse hs (commonChecks_unknown hrow))
  · exact congrArg _ (serve_refuse hs (commonChecks_badLength hrow hlen))
  · exact congrArg _ (serve_refuse hs (commonChecks_halted (s := s.fronted req rest) hrow hlen hm hr))

/-- Settles O48: the close notes the SETTLE, the stages keep it at the head, and the end of the evaluation answers one that
is noted. -/
theorem settleWaitsForAWholeSet : Obligations.SettleWaitsForAWholeSet := by
  intro s tag rest
  refine ⟨fun hm hs => ?_, fun closed hd hs hf => ⟨_, execSetClose_due hd hs, ?_⟩, fun p req hp hw hq => ?_⟩
  · exact congrArg _ (serve_own_hold ⟨0x4F, 0, false⟩ hs rfl rfl (.inl hm) rfl)
  · rw [closeFlight_settle hf]
    rfl
  obtain ⟨u, hu, heval⟩ := evaluateSet_settles hp hw
  refine ⟨fun hf => ⟨evaluateSet s, exec_evaluateSet s, ?_⟩, fun hf => ⟨evaluateSet s, exec_evaluateSet s, ?_⟩⟩
  · rw [heval, answerSettle_waits (hu.flight.trans hf)]
    exact ⟨hu.flight.trans hf, hu.requests.trans hq⟩
  · rw [heval, answerSettle_answers (hu.flight.trans hf), ControlLink.answerHead_head (hu.requests.trans hq)]
    exact ⟨ControlLink.placeReply_flight _ _, ControlLink.kick_requests _,
      ControlLink.placeReply_waits_or_taken (req.reply .done []) { u.link with requests := rest, flight := none }⟩

end

section
/-! PROOF. One step of the machine, on a queue with a front command and on an empty one. -/

namespace Sys2Proof.Machine

open Sys2Proof

/-- The front command acts on the state with the rest of the queue. -/
theorem step_of_pending_cons {c : Instr} {rest : List Instr} {s : State} (hq : s.pending = c :: rest) :
    step s = exec c { s with pending := rest } := by
  rw [step, hq]

/-- An empty queue leaves the device as it is (log 1). -/
theorem step_of_pending_nil {s : State} (hq : s.pending = []) : step s = .next s := by
  rw [step, hq]

end Sys2Proof.Machine

open Sys2Proof Sys2Proof.Machine

/-- Settles O1: the two arms of a step, on a queue with a front command and on an empty one. -/
theorem stepTakesFrontCommand : Obligations.StepTakesFrontCommand := fun _ _ _ =>
  ⟨step_of_pending_cons rfl, step_of_pending_nil rfl⟩

end
